-- ==== Sys2Proof/Word.lean ====
section
/-!
DEFINITION. The words of SGW-CORE: packet and region bytes, the u32 and u64 integers of 00_scope.md R19, and the two IEEE 754
number formats of R11 and R12, each held as its bit pattern (a parameter register keeps a pattern unchanged, R181).
-/

namespace Sys2Proof

abbrev Byte := BitVec 8

/-- An unsigned 32-bit integer (packet operands, pending counts). -/
abbrev U32 := BitVec 32

/-- An unsigned 64-bit integer (`blockIndex`, SCOPE `total`). -/
abbrev U64 := BitVec 64

/-- An IEEE 754 binary64 number as its bit pattern (R11). -/
abbrev F64 := BitVec 64

/-- An IEEE 754 binary32 number as its bit pattern (R12): one sample of a port. -/
abbrev F32 := BitVec 32

/-- A packet as the transport delivers it: one byte string (30_encoding.md R140). -/
abbrev Packet := List Byte

/-- One interleaved bridge frame: BR_CH samples in channel order (40_messages.md R210). -/
abbrev Frame := List F32

/-- The host's array for one port in one block, one sample per frame (10_state.md section 4). -/
abbrev Samples := List F32

end Sys2Proof
end

