-- ==== Sys2Proof/Machine/Bytes.lean ====
section
/-!
DEFINITION. Byte order (30_encoding.md R143, 20_memory.md R104): little-endian bytes of the packet fields, samples as four bytes each, and
their inverses.
-/

namespace Sys2Proof.Machine

/-- The four bytes of a 32-bit pattern, bits [7:0] first. -/
def bytes32 (v : BitVec 32) : List Byte :=
  [v.extractLsb' 0 8, v.extractLsb' 8 8, v.extractLsb' 16 8, v.extractLsb' 24 8]

/-- The eight bytes of a 64-bit pattern, bits [7:0] first. -/
def bytes64 (v : BitVec 64) : List Byte := bytes32 (v.extractLsb' 0 32) ++ bytes32 (v.extractLsb' 32 32)

/-- The 32-bit pattern of four bytes, `b0` in bits [7:0]. -/
def word32 (b0 b1 b2 b3 : Byte) : BitVec 32 := b3 ++ b2 ++ b1 ++ b0

/-- The 64-bit pattern of its low and high words. -/
def word64 (lo hi : BitVec 32) : BitVec 64 := hi ++ lo

/-- Samples laid out four bytes each. -/
def sampleBytes : List F32 → List Byte
  | [] => []
  | x :: xs => bytes32 x ++ sampleBytes xs

/-- The whole samples at the front of a byte string; up to three bytes over are dropped. -/
def samplesOf : List Byte → List F32
  | b0 :: b1 :: b2 :: b3 :: rest => word32 b0 b1 b2 b3 :: samplesOf rest
  | _ => []

/-- The `k` lowest bytes of a number, least significant first. -/
def bytesOfNat : Nat → Nat → List Byte
  | 0, _ => []
  | k + 1, w => BitVec.ofNat 8 w :: bytesOfNat k (w / 256)

end Sys2Proof.Machine
end

