-- ==== Sys2Proof/Syntax.lean ====
section
/-!
DEFINITION. The packets of 30_encoding.md as syntax: one constructor per row of spec/opcode_table.json. `inst` is the header's
instance field, 15 for every instance (R145). The three outbound rows are also what `outQueue` holds.
-/

namespace Sys2Proof

inductive Instr where
  /-- `SETPARAM.OSC.frequency`: op 0x01, class 1, pidx 0. -/
  | setParamOscFrequency (inst : BitVec 4) (v : F64)
  /-- `SETPARAM.OSC.detune`: op 0x01, class 1, pidx 1. -/
  | setParamOscDetune (inst : BitVec 4) (v : F64)
  /-- `SETPARAM.OSC.pulseWidth`: op 0x01, class 1, pidx 2. -/
  | setParamOscPulseWidth (inst : BitVec 4) (v : F64)
  /-- `SETPARAM.OSC.symmetry`: op 0x01, class 1, pidx 3. -/
  | setParamOscSymmetry (inst : BitVec 4) (v : F64)
  /-- `SETPARAM.OSC.sineLevel`: op 0x01, class 1, pidx 4. -/
  | setParamOscSineLevel (inst : BitVec 4) (v : F64)
  /-- `SETPARAM.OSC.sawLevel`: op 0x01, class 1, pidx 5. -/
  | setParamOscSawLevel (inst : BitVec 4) (v : F64)
  /-- `SETPARAM.OSC.triLevel`: op 0x01, class 1, pidx 6. -/
  | setParamOscTriLevel (inst : BitVec 4) (v : F64)
  /-- `SETPARAM.OSC.pulseLevel`: op 0x01, class 1, pidx 7. -/
  | setParamOscPulseLevel (inst : BitVec 4) (v : F64)
  /-- `SETPARAM.OSC.slewCutoff`: op 0x01, class 1, pidx 8. -/
  | setParamOscSlewCutoff (inst : BitVec 4) (v : F64)
  /-- `SETPARAM.OSC.purity`: op 0x01, class 1, pidx 9. -/
  | setParamOscPurity (inst : BitVec 4) (v : F64)
  /-- `SETPARAM.VCA.dialVoltage`: op 0x01, class 2, pidx 0. -/
  | setParamVcaDialVoltage (inst : BitVec 4) (v : F64)
  /-- `SETPARAM.VCA.cutoffEnabled`: op 0x01, class 2, pidx 1. -/
  | setParamVcaCutoffEnabled (inst : BitVec 4) (v : F64)
  /-- `SETPARAM.TONE.position`: op 0x01, class 3, pidx 0. -/
  | setParamTonePosition (inst : BitVec 4) (v : F64)
  /-- `SETPARAM.THERM.enable`: op 0x01, class 4, pidx 0. -/
  | setParamThermEnable (inst : BitVec 4) (v : F64)
  /-- `SETPARAM.NOISE.colour`: op 0x01, class 5, pidx 0. -/
  | setParamNoiseColour (inst : BitVec 4) (v : F64)
  /-- `SETPARAM.NOISE.level`: op 0x01, class 5, pidx 1. -/
  | setParamNoiseLevel (inst : BitVec 4) (v : F64)
  /-- `SETPARAM.NOISE.bypass`: op 0x01, class 5, pidx 2. -/
  | setParamNoiseBypass (inst : BitVec 4) (v : F64)
  /-- `SETPARAM.SCOPE.triggerLevel`: op 0x01, class 6, pidx 0. -/
  | setParamScopeTriggerLevel (inst : BitVec 4) (v : F64)
  /-- `SETPARAM.SCOPE.hysteresis`: op 0x01, class 6, pidx 1. -/
  | setParamScopeHysteresis (inst : BitVec 4) (v : F64)
  /-- `SETWAVEFORM.OSC`: op 0x02, class 1 (R188). -/
  | setWaveformOsc (inst : BitVec 4) (mode : U32)
  /-- `RESETPHASE.OSC`: op 0x03, class 1 (R189). -/
  | resetPhaseOsc (inst : BitVec 4)
  /-- `STOP.BRCAP`: op 0x04, class 7 (R190). -/
  | stopBrcap (inst : BitVec 4)
  /-- `STOP.BRPLAY`: op 0x04, class 8 (R191). -/
  | stopBrplay (inst : BitVec 4)
  /-- `RESYNC.OSC`: op 0x05, class 1 (R192). -/
  | resyncOsc (inst : BitVec 4) (v : F64)
  /-- `RESYNC.VCA`: op 0x05, class 2 (R193). -/
  | resyncVca (inst : BitVec 4) (v : F64)
  /-- `RESYNC.TONE`: op 0x05, class 3 (R194). -/
  | resyncTone (inst : BitVec 4) (v : F64)
  /-- `RESYNC.THERM`: op 0x05, class 4 (R195). -/
  | resyncTherm (inst : BitVec 4) (v : F64)
  /-- `RESYNC.NOISE`: op 0x05, class 5 (R196). -/
  | resyncNoise (inst : BitVec 4) (v : F64)
  /-- `SETBUFFERSIZE.SCOPE`: op 0x06, class 6 (R197). -/
  | setBufferSizeScope (inst : BitVec 4) (size : U32)
  /-- `SETBUFFERSIZE.BRCAP`: op 0x06, class 7 (R198). -/
  | setBufferSizeBrcap (inst : BitVec 4) (size : U32)
  /-- `SETBUFFERSIZE.BRPLAY`: op 0x06, class 8 (R199). -/
  | setBufferSizeBrplay (inst : BitVec 4) (size : U32)
  /-- `SETTRIGGERLEVEL.SCOPE`: op 0x07, class 6 (R200). -/
  | setTriggerLevelScope (inst : BitVec 4) (level : F64)
  /-- `START.BRCAP`: op 0x08, class 7 (R201). -/
  | startBrcap (inst : BitVec 4)
  /-- `START.BRPLAY`: op 0x08, class 8 (R202). -/
  | startBrplay (inst : BitVec 4)
  /-- `SETDORMANT.OSC`: op 0x09, class 1; the flag is 1 when the operand's low word is not 0 (R149, R204). -/
  | setDormantOsc (inst : BitVec 4) (flag : U32)
  /-- `SETDORMANT.VCA`: op 0x09, class 2; the flag is 1 when the operand's low word is not 0 (R149, R205). -/
  | setDormantVca (inst : BitVec 4) (flag : U32)
  /-- `SETDORMANT.TONE`: op 0x09, class 3; the flag is 1 when the operand's low word is not 0 (R149, R206). -/
  | setDormantTone (inst : BitVec 4) (flag : U32)
  /-- `SETDORMANT.NOISE`: op 0x09, class 5; the flag is 1 when the operand's low word is not 0 (R149, R207). -/
  | setDormantNoise (inst : BitVec 4) (flag : U32)
  /-- `PUSHCHUNK.BRPLAY`: op 0x0A, class 8: `n` frames and the samples that follow the fixed part, as many as came (R153, R208). -/
  | pushChunkBrplay (inst : BitVec 4) (n : U32) (payload : List F32)
  /-- `CAPTURE__outbound`: op 0x81, class 6 (R150). -/
  | captureOutbound (inst : BitVec 4) (triggered : Bool) (valid n : U32) (rate : F64) (ys xs : List F32)
  /-- `EVENT__outbound`: op 0x82, the reporting unit's class, instance and event code (R151). -/
  | eventOutbound (cls inst : BitVec 4) (code : BitVec 8) (count : U32)
  /-- `CHUNK__outbound`: op 0x83, class 7: interleaved samples, frame-major (R152). -/
  | chunkOutbound (inst : BitVec 4) (n : U32) (samples : List F32)
  deriving DecidableEq, Repr

end Sys2Proof
end

