-- ==== Sys2Proof/WellFormed.lean ====
section
/-!
DEFINITION. Which terms of `Instr` are packets of 30_encoding.md. Header fields and operands are of their widths by type; what remains are
the payload lengths (R146, R150, R152, R153), and that an outbound packet names one instance, an acting class and an event
code (R144, R145, R151, R461). A command that a rule gives a meaning for every operand is well formed for every operand.
-/

namespace Sys2Proof

/-- A payload of `len` samples is `n` frames of some channel count in 1 to 32 (R54, R146). -/
def framesLengthOk (n len : Nat) : Bool :=
  if n = 0 then decide (len = 0) else decide (len % n = 0 ∧ 1 ≤ len / n ∧ len / n ≤ 32)

/-- An instance number, not the broadcast address (R145). -/
def oneInstance (inst : BitVec 4) : Bool := decide (inst ≠ 15#4)

/-- Whether the packet is one the format of 30_encoding.md admits. -/
def Instr.wf : Instr → Bool
  | .setParamOscFrequency _ _ => true
  | .setParamOscDetune _ _ => true
  | .setParamOscPulseWidth _ _ => true
  | .setParamOscSymmetry _ _ => true
  | .setParamOscSineLevel _ _ => true
  | .setParamOscSawLevel _ _ => true
  | .setParamOscTriLevel _ _ => true
  | .setParamOscPulseLevel _ _ => true
  | .setParamOscSlewCutoff _ _ => true
  | .setParamOscPurity _ _ => true
  | .setParamVcaDialVoltage _ _ => true
  | .setParamVcaCutoffEnabled _ _ => true
  | .setParamTonePosition _ _ => true
  | .setParamThermEnable _ _ => true
  | .setParamNoiseColour _ _ => true
  | .setParamNoiseLevel _ _ => true
  | .setParamNoiseBypass _ _ => true
  | .setParamScopeTriggerLevel _ _ => true
  | .setParamScopeHysteresis _ _ => true
  | .setWaveformOsc _ _ => true
  | .resetPhaseOsc _ => true
  | .stopBrcap _ => true
  | .stopBrplay _ => true
  | .resyncOsc _ _ => true
  | .resyncVca _ _ => true
  | .resyncTone _ _ => true
  | .resyncTherm _ _ => true
  | .resyncNoise _ _ => true
  | .setBufferSizeScope _ _ => true
  | .setBufferSizeBrcap _ _ => true
  | .setBufferSizeBrplay _ _ => true
  | .setTriggerLevelScope _ _ => true
  | .startBrcap _ => true
  | .startBrplay _ => true
  | .setDormantOsc _ _ => true
  | .setDormantVca _ _ => true
  | .setDormantTone _ _ => true
  | .setDormantNoise _ _ => true
  | .pushChunkBrplay _ n payload => framesLengthOk n.toNat payload.length
  | .captureOutbound inst _ valid n _ ys xs =>
    oneInstance inst && decide (valid.toNat ≤ n.toNat) && decide (ys.length = n.toNat) && decide (xs.length = n.toNat)
  | .eventOutbound cls inst code _ =>
    decide (1 ≤ cls.toNat ∧ cls.toNat ≤ 8) && oneInstance inst && decide (1 ≤ code.toNat ∧ code.toNat ≤ 4)
  | .chunkOutbound inst n samples => oneInstance inst && framesLengthOk n.toNat samples.length

end Sys2Proof
end

