-- ==== Sys2Proof/Decode.lean ====
section
/-!
DEFINITION. The decoder of 30_encoding.md, total on byte strings and rejecting by name, and after it the encoder, both written from the
header and operand layouts of R141 to R153. A rejected packet is ignored by the block (R154, R463); the name says which
clause of R148 or R154 it falls under.
-/

namespace Sys2Proof

open Sys2Proof.Machine

/-- Why a packet names no row of the opcode table. -/
inductive Reject where
  /-- Shorter than the fixed part, or than the length its opcode requires (R140, R146). -/
  | tooShort
  /-- Opcode 0x00 or 0x0B to 0x7F (R154). -/
  | reservedOpcode
  /-- Opcode 0x80, or above 0x83, or 0x81 or 0x83 with a class that emits no such packet (R154). -/
  | outboundOpcode
  /-- Class 0 or 9 to 15 (R144). -/
  | reservedClass
  /-- An (opcode, class) pair R147 does not list (R148). -/
  | pairNotActing
  /-- SETPARAM with a `pidx` that names no parameter of the class (R148). -/
  | unknownParameter
  deriving DecidableEq, Repr

/-- The name for a class an opcode does not act on. -/
def notActing (cls : BitVec 4) : Reject :=
  if 1 ≤ cls.toNat ∧ cls.toNat ≤ 8 then .pairNotActing else .reservedClass

/-- SETPARAM's rows: class and parameter index (R182 to R187). -/
def decodeSetParam (cls inst : BitVec 4) (pidx : Byte) (v : F64) : Except Reject Instr :=
  match cls.toNat, pidx.toNat with
  | 1, 0 => .ok (.setParamOscFrequency inst v)
  | 1, 1 => .ok (.setParamOscDetune inst v)
  | 1, 2 => .ok (.setParamOscPulseWidth inst v)
  | 1, 3 => .ok (.setParamOscSymmetry inst v)
  | 1, 4 => .ok (.setParamOscSineLevel inst v)
  | 1, 5 => .ok (.setParamOscSawLevel inst v)
  | 1, 6 => .ok (.setParamOscTriLevel inst v)
  | 1, 7 => .ok (.setParamOscPulseLevel inst v)
  | 1, 8 => .ok (.setParamOscSlewCutoff inst v)
  | 1, 9 => .ok (.setParamOscPurity inst v)
  | 2, 0 => .ok (.setParamVcaDialVoltage inst v)
  | 2, 1 => .ok (.setParamVcaCutoffEnabled inst v)
  | 3, 0 => .ok (.setParamTonePosition inst v)
  | 4, 0 => .ok (.setParamThermEnable inst v)
  | 5, 0 => .ok (.setParamNoiseColour inst v)
  | 5, 1 => .ok (.setParamNoiseLevel inst v)
  | 5, 2 => .ok (.setParamNoiseBypass inst v)
  | 6, 0 => .ok (.setParamScopeTriggerLevel inst v)
  | 6, 1 => .ok (.setParamScopeHysteresis inst v)
  | k, _ => .error (if 1 ≤ k ∧ k ≤ 6 then .unknownParameter else notActing cls)

/-- A CAPTURE's part after the operand: the sample rate, then `n` samples of Y and of X (R150). -/
def decodeCapture (inst : BitVec 4) (pidx : Byte) (valid n : U32) (rest : List Byte) : Except Reject Instr :=
  match rest with
  | r0 :: r1 :: r2 :: r3 :: r4 :: r5 :: r6 :: r7 :: tail =>
    let ss := samplesOf tail
    if ss.length < 2 * n.toNat then .error .tooShort
    else
      .ok (.captureOutbound inst (pidx.getLsbD 0) valid n (word64 (word32 r0 r1 r2 r3) (word32 r4 r5 r6 r7))
        (ss.take n.toNat) ((ss.drop n.toNat).take n.toNat))
  | _ => .error .tooShort

/-- The opcode map of R147 over the header's fields and the operand's low and high words. -/
def decodeFields (op : Byte) (cls inst : BitVec 4) (pidx : Byte) (lo hi : U32) (rest : List Byte) : Except Reject Instr :=
  match op.toNat with
  | 0x01 => decodeSetParam cls inst pidx (word64 lo hi)
  | 0x02 =>
    match cls.toNat with
    | 1 => .ok (.setWaveformOsc inst lo)
    | _ => .error (notActing cls)
  | 0x03 =>
    match cls.toNat with
    | 1 => .ok (.resetPhaseOsc inst)
    | _ => .error (notActing cls)
  | 0x04 =>
    match cls.toNat with
    | 7 => .ok (.stopBrcap inst)
    | 8 => .ok (.stopBrplay inst)
    | _ => .error (notActing cls)
  | 0x05 =>
    match cls.toNat with
    | 1 => .ok (.resyncOsc inst (word64 lo hi))
    | 2 => .ok (.resyncVca inst (word64 lo hi))
    | 3 => .ok (.resyncTone inst (word64 lo hi))
    | 4 => .ok (.resyncTherm inst (word64 lo hi))
    | 5 => .ok (.resyncNoise inst (word64 lo hi))
    | _ => .error (notActing cls)
  | 0x06 =>
    match cls.toNat with
    | 6 => .ok (.setBufferSizeScope inst lo)
    | 7 => .ok (.setBufferSizeBrcap inst lo)
    | 8 => .ok (.setBufferSizeBrplay inst lo)
    | _ => .error (notActing cls)
  | 0x07 =>
    match cls.toNat with
    | 6 => .ok (.setTriggerLevelScope inst (word64 lo hi))
    | _ => .error (notActing cls)
  | 0x08 =>
    match cls.toNat with
    | 7 => .ok (.startBrcap inst)
    | 8 => .ok (.startBrplay inst)
    | _ => .error (notActing cls)
  | 0x09 =>
    match cls.toNat with
    | 1 => .ok (.setDormantOsc inst lo)
    | 2 => .ok (.setDormantVca inst lo)
    | 3 => .ok (.setDormantTone inst lo)
    | 5 => .ok (.setDormantNoise inst lo)
    | _ => .error (notActing cls)
  | 0x0A =>
    match cls.toNat with
    | 8 => .ok (.pushChunkBrplay inst lo (samplesOf rest))
    | _ => .error (notActing cls)
  | 0x81 => if cls = 6 then decodeCapture inst pidx lo hi rest else .error .outboundOpcode
  | 0x82 => .ok (.eventOutbound cls inst pidx lo)
  | 0x83 => if cls = 7 then .ok (.chunkOutbound inst lo (samplesOf rest)) else .error .outboundOpcode
  | k => .error (if 0x80 ≤ k then .outboundOpcode else .reservedOpcode)

/-- The packet decoder: header word little-endian in bytes 0 to 3 (R141; the `rsv` byte is ignored), operand little-endian in
bytes 4 to 11 (R142). -/
def decode (p : Packet) : Except Reject Instr :=
  match p with
  | _ :: h1 :: h2 :: h3 :: o0 :: o1 :: o2 :: o3 :: o4 :: o5 :: o6 :: o7 :: rest =>
    decodeFields h3 (h2.extractLsb' 4 4) (h2.extractLsb' 0 4) h1 (word32 o0 o1 o2 o3) (word32 o4 o5 o6 o7) rest
  | _ => .error .tooShort

/-! ### The encoder -/

/-- The header word's bytes in stream order: `rsv` 0, `pidx`, class and instance, opcode (R141). -/
def header (op : Byte) (cls inst : BitVec 4) (pidx : Byte) : List Byte := [0, pidx, cls ++ inst, op]

/-- A u32 operand: bits [63:32] are sent as 0 (R142). -/
def operand32 (v : U32) : List Byte := bytes32 v ++ bytes32 0

def encode : Instr → Packet
  | .setParamOscFrequency inst v => header 0x01 1 inst 0 ++ bytes64 v
  | .setParamOscDetune inst v => header 0x01 1 inst 1 ++ bytes64 v
  | .setParamOscPulseWidth inst v => header 0x01 1 inst 2 ++ bytes64 v
  | .setParamOscSymmetry inst v => header 0x01 1 inst 3 ++ bytes64 v
  | .setParamOscSineLevel inst v => header 0x01 1 inst 4 ++ bytes64 v
  | .setParamOscSawLevel inst v => header 0x01 1 inst 5 ++ bytes64 v
  | .setParamOscTriLevel inst v => header 0x01 1 inst 6 ++ bytes64 v
  | .setParamOscPulseLevel inst v => header 0x01 1 inst 7 ++ bytes64 v
  | .setParamOscSlewCutoff inst v => header 0x01 1 inst 8 ++ bytes64 v
  | .setParamOscPurity inst v => header 0x01 1 inst 9 ++ bytes64 v
  | .setParamVcaDialVoltage inst v => header 0x01 2 inst 0 ++ bytes64 v
  | .setParamVcaCutoffEnabled inst v => header 0x01 2 inst 1 ++ bytes64 v
  | .setParamTonePosition inst v => header 0x01 3 inst 0 ++ bytes64 v
  | .setParamThermEnable inst v => header 0x01 4 inst 0 ++ bytes64 v
  | .setParamNoiseColour inst v => header 0x01 5 inst 0 ++ bytes64 v
  | .setParamNoiseLevel inst v => header 0x01 5 inst 1 ++ bytes64 v
  | .setParamNoiseBypass inst v => header 0x01 5 inst 2 ++ bytes64 v
  | .setParamScopeTriggerLevel inst v => header 0x01 6 inst 0 ++ bytes64 v
  | .setParamScopeHysteresis inst v => header 0x01 6 inst 1 ++ bytes64 v
  | .setWaveformOsc inst mode => header 0x02 1 inst 0 ++ operand32 mode
  | .resetPhaseOsc inst => header 0x03 1 inst 0 ++ bytes64 0
  | .stopBrcap inst => header 0x04 7 inst 0 ++ bytes64 0
  | .stopBrplay inst => header 0x04 8 inst 0 ++ bytes64 0
  | .resyncOsc inst v => header 0x05 1 inst 0 ++ bytes64 v
  | .resyncVca inst v => header 0x05 2 inst 0 ++ bytes64 v
  | .resyncTone inst v => header 0x05 3 inst 0 ++ bytes64 v
  | .resyncTherm inst v => header 0x05 4 inst 0 ++ bytes64 v
  | .resyncNoise inst v => header 0x05 5 inst 0 ++ bytes64 v
  | .setBufferSizeScope inst size => header 0x06 6 inst 0 ++ operand32 size
  | .setBufferSizeBrcap inst size => header 0x06 7 inst 0 ++ operand32 size
  | .setBufferSizeBrplay inst size => header 0x06 8 inst 0 ++ operand32 size
  | .setTriggerLevelScope inst level => header 0x07 6 inst 0 ++ bytes64 level
  | .startBrcap inst => header 0x08 7 inst 0 ++ bytes64 0
  | .startBrplay inst => header 0x08 8 inst 0 ++ bytes64 0
  | .setDormantOsc inst flag => header 0x09 1 inst 0 ++ operand32 flag
  | .setDormantVca inst flag => header 0x09 2 inst 0 ++ operand32 flag
  | .setDormantTone inst flag => header 0x09 3 inst 0 ++ operand32 flag
  | .setDormantNoise inst flag => header 0x09 5 inst 0 ++ operand32 flag
  | .pushChunkBrplay inst n payload => header 0x0A 8 inst 0 ++ operand32 n ++ sampleBytes payload
  | .captureOutbound inst triggered valid n rate ys xs =>
    header 0x81 6 inst (if triggered then 1 else 0) ++ bytes32 valid ++ bytes32 n ++ bytes64 rate ++ sampleBytes ys ++ sampleBytes xs
  | .eventOutbound cls inst code count => header 0x82 cls inst code ++ operand32 count
  | .chunkOutbound inst n samples => header 0x83 7 inst 0 ++ operand32 n ++ sampleBytes samples

/-! ### The opcode table's words -/

/-- A table word laid out as the stream holds it: the first word at the front, zeros above `nbits`, up to the 20 bytes of
the longest fixed part (R150). -/
def tablePacket (nbits w : Nat) : Packet := bytesOfNat (max 20 ((nbits + 7) / 8)) (w % 2 ^ nbits)

def decodeTableWord (nbits w : Nat) : Option Instr :=
  match decode (tablePacket nbits w) with
  | .ok i => some i
  | .error _ => none

end Sys2Proof
end

