-- ==== Sys2Proof/Config.lean ====
section
/-!
DEFINITION. What an implementation fixes: the configuration constants of 00_scope.md R7 and 10_state.md R47 to R54 as plain
data (held in State, so that a statement over all states is one over all configurations: log 1), their defaults, and the free
values: opaque constants nothing can evaluate (log 5 to log 8, log 26, log 27, log 29; the numerics record of log 4 stands in
Machine/Numerics.lean).
-/

namespace Sys2Proof

/-- The byte order of a bridge region (`REGION_ENDIAN`, 20_memory.md R104). -/
inductive Endian where
  | little
  | big
  deriving DecidableEq, Repr

/-- What a missing playback frame plays (`UNDERFLOW_MODE`, 47_bridge.md R432). -/
inductive UnderflowMode where
  | silence
  | hold
  deriving DecidableEq, Repr

/-- The global configuration of R7 (`NINST` is the number of instances State holds). -/
structure BlockCfg where
  /-- `FS`, the sample rate in Hz. -/
  fs : F64
  /-- `Q`, the frames of a block. -/
  q : Nat
  /-- `LOG_INTERVAL`, blocks between two EVENTs of one code from one unit. -/
  logInterval : Nat
  /-- `REGION_ENDIAN`. -/
  endian : Endian
  deriving DecidableEq, Repr

/-- R47 and R48. -/
structure OscCfg where
  rampFrames : Nat
  fMin : F64
  fMax : F64
  detuneMax : F64
  pwMin : F64
  pwMax : F64
  attRatio : F64
  hybridK : F64
  deriving DecidableEq, Repr

/-- R47 and R49. -/
structure VcaCfg where
  rampFrames : Nat
  dialMin : F64
  dialMax : F64
  cvScale : F64
  dbPerVolt : F64
  silenceDb : F64
  vLin : F64
  vHard : F64
  soft : F64
  smoothTau : F64
  deriving DecidableEq, Repr

/-- R47 and R50. -/
structure ToneCfg where
  rampFrames : Nat
  denorm : F64
  tau : F64
  ch : Nat
  deriving DecidableEq, Repr

/-- R51. -/
structure ThermCfg where
  threshold : F64
  tauHeat : F64
  tauCool : F64
  deriving DecidableEq, Repr

/-- R47 and R52. -/
structure NoiseCfg where
  rampFrames : Nat
  denorm : F64
  tau : F64
  switchEps : F64
  deriving DecidableEq, Repr

/-- R53. -/
structure ScopeCfg where
  nDefault : Nat
  nMin : Nat
  nMax : Nat
  deriving DecidableEq, Repr

/-- R54. `underflow` is read by BRPLAY only. -/
structure BridgeCfg where
  ch : Nat
  capDefault : Nat
  capMin : Nat
  capMax : Nat
  chunkFrames : Nat
  underflow : UnderflowMode
  deriving DecidableEq, Repr

/-- The arguments of a construction (70_reset_and_hazards.md R500): the global configuration, the environment's
`SHM_AVAILABLE`, and one configuration per instance of each class. -/
structure Construction where
  block : BlockCfg
  shmAvailable : Bool
  osc : List OscCfg
  vca : List VcaCfg
  tone : List ToneCfg
  therm : List ThermCfg
  noise : List NoiseCfg
  scope : List ScopeCfg
  brcap : List BridgeCfg
  brplay : List BridgeCfg
  deriving DecidableEq, Repr

namespace Config

/-- FS 48000 (the rate of spec/95's vectors), Q 128, LOG_INTERVAL 375, little-endian: R7's defaults. DESIGN CHOICE (log 1), unsafe. -/
def block : BlockCfg := { fs := 0x40E7700000000000, q := 128, logInterval := 375, endian := .little }

/-- R48's defaults at FS = 48000: 0.01, 24000, 1200, 0.01, 0.99, 8, 2.0; RAMP_FRAMES 128. -/
def osc : OscCfg :=
  { rampFrames := 128, fMin := 0x3F847AE147AE147B, fMax := 0x40D7700000000000, detuneMax := 0x4092C00000000000,
    pwMin := 0x3F847AE147AE147B, pwMax := 0x3FEFAE147AE147AE, attRatio := 0x4020000000000000, hybridK := 0x4000000000000000 }

/-- R49's defaults: -12, 0, 1.0, 10, -120, 0, 3, 1, 0.005. -/
def vca : VcaCfg :=
  { rampFrames := 128, dialMin := 0xC028000000000000, dialMax := 0, cvScale := 0x3FF0000000000000,
    dbPerVolt := 0x4024000000000000, silenceDb := 0xC05E000000000000, vLin := 0, vHard := 0x4008000000000000,
    soft := 0x3FF0000000000000, smoothTau := 0x3F747AE147AE147B }

/-- R47's and R50's defaults: 1e-30, 1.0e-4, one channel. -/
def tone : ToneCfg := { rampFrames := 128, denorm := 0x39B4484BFEEBC2A0, tau := 0x3F1A36E2EB1C432D, ch := 1 }

/-- R51's defaults: 0.1, 0.1, 0.5. -/
def therm : ThermCfg :=
  { threshold := 0x3FB999999999999A, tauHeat := 0x3FB999999999999A, tauCool := 0x3FE0000000000000 }

/-- R47's and R52's defaults: 1e-30, 2.0e-4, 1e-3. -/
def noise : NoiseCfg :=
  { rampFrames := 128, denorm := 0x39B4484BFEEBC2A0, tau := 0x3F2A36E2EB1C432D, switchEps := 0x3F50624DD2F1A9FC }

/-- R53's defaults. -/
def scope : ScopeCfg := { nDefault := 1024, nMin := 2, nMax := 32768 }

/-- R54's defaults. -/
def bridge : BridgeCfg :=
  { ch := 2, capDefault := 8192, capMin := 2, capMax := 1048576, chunkFrames := 1024, underflow := .silence }

/-- One instance of each class, every constant at its default, shared memory available. DESIGN CHOICE (log 1, log 2), unsafe:
R7 leaves NINST and SHM_AVAILABLE open. -/
def construction : Construction :=
  { block := block, shmAvailable := true, osc := [osc], vca := [vca], tone := [tone], therm := [therm], noise := [noise],
    scope := [scope], brcap := [bridge], brplay := [bridge] }

/-! ### Free values

Each is an uninterpreted constant. The model applies it where the spec fixes no value, and keeps the limits the spec sets
(Machine/Noise.lean), so every lawful behaviour is one of the model's. -/

/-- Sign and payload of the NaN an operation gives on these operands; the first argument names the operation. Free value
(log 5), safe: R11 fixes no payload. -/
opaque nanBits : Nat → F64 → F64 → F64

/-- Sign and payload of the binary32 NaN that rounding a binary64 NaN gives. Free value (log 5), safe. -/
opaque nanBits32 : F64 → F32

/-- Which of two zeros of opposite sign `min` (false) and `max` (true) return, each by itself. Free value (log 6), safe: R14 does not
order -0 and +0. -/
opaque firstZero : Bool → F64 → F64 → Bool

/-- The oracle's `k`-th draw of one noise stream past the supplied ones (45_noise.md R361). Free value (log 7), safe. -/
opaque noiseDraw : Nat → Nat → F64

/-- The value a bridge's racing access gives (20_memory.md R110), by direction (0 capture, 1 playback), instance and the
instance's race counter. Free value (log 8), safe. -/
opaque raceDraw : Nat → Nat → Nat → BitVec 32

/-- What a u32 field of an outbound packet holds for a count that does not fit it (30_encoding.md R150, R152). Free value (log
27), safe. -/
opaque wideCount : Nat → U32

/-- The phase after a frame, by phase and increment, where the formula of 41_oscillator.md R253 gives none in [0, 1). Free value
(log 29), safe. -/
opaque openPhase : F64 → F64 → F64

/-- The hybrid sine by `OSC_HYBRID_K` and the argument of its numerator, where the quotient of 41_oscillator.md R246 gives none in
[-1, 1]. Free value (log 26), safe. -/
opaque openHybrid : F64 → F64 → F64

end Config

end Sys2Proof
end

