-- ==== Sys2Proof/Machine/Float.lean ====
section
/-!
DEFINITION. IEEE 754 arithmetic on bit patterns (00_scope.md R11, R12): binary64 +, -, *, / and sqrt, each the exact result rounded once
with roundTiesToEven, the comparisons (false on NaN, -0 equal to +0), floor, and the conversions to and from binary32 and
the integers. A finite pattern is read as an integer significand times a power of two; every result goes through `roundMag`.
-/

namespace Sys2Proof.Machine

/-! ### Fields of a pattern -/

/-- The magnitude pattern of an infinity. -/
def infMag : Nat := 0x7FF0000000000000

def isNeg (x : F64) : Bool := decide (2 ^ 63 ≤ x.toNat)

/-- The pattern without its sign bit. -/
def magOf (x : F64) : Nat := x.toNat % 2 ^ 63

def isNaN (x : F64) : Bool := decide (infMag < magOf x)

def isInf (x : F64) : Bool := decide (magOf x = infMag)

/-- R13: neither an infinity nor a NaN. -/
def isFinite (x : F64) : Bool := decide (magOf x < infMag)

def isZero (x : F64) : Bool := decide (magOf x = 0)

/-- The integer significand of a finite pattern. -/
def sigOf (x : F64) : Nat :=
  if magOf x / 2 ^ 52 = 0 then magOf x else 2 ^ 52 + magOf x % 2 ^ 52

/-- The power of two a finite pattern's significand is scaled by. -/
def expOf (x : F64) : Int := ((magOf x / 2 ^ 52 - 1 : Nat) : Int) - 1074

/-- The pattern of a sign and a magnitude. -/
def pack (neg : Bool) (mag : Nat) : F64 := BitVec.ofNat 64 (mag + if neg then 2 ^ 63 else 0)

/-! ### Rounding -/

/-- `m / 2 ^ k` rounded to the nearest integer, ties to even. -/
def roundShift (m k : Nat) : Nat :=
  let h := m >>> k
  let r := m % 2 ^ k
  if 2 ^ k < 2 * r ∨ (2 * r = 2 ^ k ∧ h % 2 = 1) then h + 1 else h

/-- The magnitude pattern of `m * 2 ^ e` rounded to a format of `prec` bits whose least quantum is `2 ^ emin` and whose
infinity has the pattern `inf`: roundTiesToEven, gradual underflow, overflow to infinity (R11, R12). -/
def roundMag (prec : Nat) (emin : Int) (inf m : Nat) (e : Int) : Nat :=
  if m = 0 then 0
  else
    let q := max (e + ((m.log2 + 1 : Nat) : Int) - (prec : Int)) emin
    let n := if q ≤ e then m <<< (e - q).toNat else roundShift m (q - e).toNat
    min ((q - emin).toNat * 2 ^ (prec - 1) + n) inf

def round64 (m : Nat) (e : Int) : Nat := roundMag 53 (-1074) infMag m e

def round32 (m : Nat) (e : Int) : Nat := roundMag 24 (-149) 0x7F800000 m e

/-! ### Arithmetic -/

/-- A quiet NaN whose sign and payload are free (log 5). -/
def nanResult (op : Nat) (a b : F64) : F64 := 0x7FF8000000000000#64 ||| Config.nanBits op a b

def signed (neg : Bool) (m : Nat) : Int := if neg then -(m : Int) else (m : Int)

def fneg (x : F64) : F64 := x ^^^ 0x8000000000000000#64

def fabs (x : F64) : F64 := x &&& 0x7FFFFFFFFFFFFFFF#64

def fadd (a b : F64) : F64 :=
  if isNaN a || isNaN b then nanResult 0 a b
  else if isInf a then (if isInf b && isNeg a != isNeg b then nanResult 0 a b else a)
  else if isInf b then b
  else
    let e := min (expOf a) (expOf b)
    let t := signed (isNeg a) (sigOf a <<< (expOf a - e).toNat) + signed (isNeg b) (sigOf b <<< (expOf b - e).toNat)
    if t = 0 then pack (isNeg a && isNeg b) 0 else pack (decide (t < 0)) (round64 t.natAbs e)

def fsub (a b : F64) : F64 := if isNaN a || isNaN b then nanResult 1 a b else fadd a (fneg b)

def fmul (a b : F64) : F64 :=
  if isNaN a || isNaN b then nanResult 2 a b
  else if isInf a || isInf b then
    (if isZero a || isZero b then nanResult 2 a b else pack (isNeg a != isNeg b) infMag)
  else pack (isNeg a != isNeg b) (round64 (sigOf a * sigOf b) (expOf a + expOf b))

/-- The quotient is computed to at least 67 bits with its remainder folded into a last sticky bit, so the one rounding is
that of the exact quotient. -/
def fdiv (a b : F64) : F64 :=
  if isNaN a || isNaN b then nanResult 3 a b
  else if isInf a then (if isInf b then nanResult 3 a b else pack (isNeg a != isNeg b) infMag)
  else if isInf b then pack (isNeg a != isNeg b) 0
  else if isZero b then (if isZero a then nanResult 3 a b else pack (isNeg a != isNeg b) infMag)
  else
    let n := sigOf a <<< 120
    let m := 2 * (n / sigOf b) + if n % sigOf b = 0 then 0 else 1
    pack (isNeg a != isNeg b) (round64 m (expOf a - expOf b - 121))

/-- Newton's iteration for the integer square root, from a start at or above it. -/
def isqrtFrom : Nat → Nat → Nat → Nat
  | 0, _, g => g
  | fuel + 1, n, g =>
    let g' := (g + n / g) / 2
    if g' < g then isqrtFrom fuel n g' else g

/-- The integer square root, `⌊√n⌋`. -/
def isqrt (n : Nat) : Nat := if n = 0 then 0 else isqrtFrom (n.log2 + 2) n (2 ^ (n.log2 / 2 + 1))

def fsqrt (x : F64) : F64 :=
  if isZero x then x
  else if isNaN x || isNeg x then nanResult 4 x x
  else if isInf x then x
  else
    let k := if expOf x % 2 = 0 then 120 else 121
    let n := sigOf x <<< k
    let g := isqrt n
    let m := 2 * g + if g * g = n then 0 else 1
    pack false (round64 m ((expOf x - (k : Int)) / 2 - 1))

/-! ### Comparison -/

/-- The order of the non-NaN patterns as integers: both zeros at 0. -/
def ordKey (x : F64) : Int := signed (isNeg x) (magOf x)

def flt (a b : F64) : Bool := !isNaN a && !isNaN b && decide (ordKey a < ordKey b)

def fle (a b : F64) : Bool := !isNaN a && !isNaN b && decide (ordKey a ≤ ordKey b)

def feq (a b : F64) : Bool := !isNaN a && !isNaN b && decide (ordKey a = ordKey b)

/-- Of two patterns that compare equal: either one if they are the same, else (-0 and +0) a choice that is free for `max` and for `min`
apart. DESIGN CHOICE (log 6): it is a function of the operation and the operands. -/
def tied (max : Bool) (a b : F64) : F64 := if a = b then a else if Config.firstZero max a b then a else b

def fmax (a b : F64) : F64 := if flt a b then b else if flt b a then a else tied true a b

def fmin (a b : F64) : F64 := if flt b a then b else if flt a b then a else tied false a b

/-! ### Negation and comparison, said by sign, magnitude and order -/

theorem isNeg_fneg (x : F64) : isNeg (fneg x) = !isNeg x := by
  have h := BitVec.msb_eq_decide x
  have h' := BitVec.msb_eq_decide (fneg x)
  have : (fneg x).msb = !x.msb := by
    have hc : (0x8000000000000000#64).msb = true := by decide
    rw [fneg, BitVec.msb_xor, hc, Bool.xor_true]
  simp only [isNeg]
  rw [h, h'] at this
  simpa using this

theorem magOf_fneg (x : F64) : magOf (fneg x) = magOf x := by
  unfold magOf fneg
  apply Nat.eq_of_testBit_eq
  intro i
  rw [Nat.testBit_mod_two_pow, Nat.testBit_mod_two_pow, BitVec.toNat_xor, Nat.testBit_xor]
  by_cases h : i < 63
  · have : Nat.testBit (0x8000000000000000#64).toNat i = false := by
      have : (0x8000000000000000#64).toNat = 2 ^ 63 := rfl
      rw [this, Nat.testBit_two_pow]; simp; omega
    rw [this, Bool.xor_false]
  · simp [h]

theorem fle_iff (a b : F64) : fle a b = true ↔ isNaN a = false ∧ isNaN b = false ∧ ordKey a ≤ ordKey b := by
  simp [fle, and_assoc]

theorem flt_iff (a b : F64) : flt a b = true ↔ isNaN a = false ∧ isNaN b = false ∧ ordKey a < ordKey b := by
  simp [flt, and_assoc]

theorem feq_iff (a b : F64) : feq a b = true ↔ isNaN a = false ∧ isNaN b = false ∧ ordKey a = ordKey b := by
  simp [feq, and_assoc]

/-! ### Integers -/

/-- The value of a finite pattern rounded down. -/
def floorInt (x : F64) : Int :=
  if 0 ≤ expOf x then signed (isNeg x) (sigOf x <<< (expOf x).toNat)
  else signed (isNeg x) (sigOf x) / (2 ^ (-expOf x).toNat : Nat)

def ofInt (n : Int) : F64 := pack (decide (n < 0)) (round64 n.natAbs 0)

def ofNat (n : Nat) : F64 := pack false (round64 n 0)

/-- `floor`. A value that is not finite is returned; nothing rests on it (log 29). -/
def ffloor (x : F64) : F64 := if isFinite x && !isZero x then ofInt (floorInt x) else x

/-! ### binary32 -/

def infMag32 : Nat := 0x7F800000

def isNeg32 (x : F32) : Bool := decide (2 ^ 31 ≤ x.toNat)

def magOf32 (x : F32) : Nat := x.toNat % 2 ^ 31

def isFinite32 (x : F32) : Bool := decide (magOf32 x < infMag32)

def pack32 (neg : Bool) (mag : Nat) : F32 := BitVec.ofNat 32 (mag + if neg then 2 ^ 31 else 0)

/-- The exact conversion of a binary32 sample to binary64 (R12). -/
def widen (x : F32) : F64 :=
  if infMag32 < magOf32 x then nanResult 5 (x.setWidth 64) (x.setWidth 64)
  else if magOf32 x = infMag32 then pack (isNeg32 x) infMag
  else
    let m := if magOf32 x / 2 ^ 23 = 0 then magOf32 x else 2 ^ 23 + magOf32 x % 2 ^ 23
    pack (isNeg32 x) (round64 m (((magOf32 x / 2 ^ 23 - 1 : Nat) : Int) - 149))

/-- `fround` (R12): rounding to binary32, roundTiesToEven, overflow to an infinity of the same sign. -/
def fround (x : F64) : F32 :=
  if isNaN x then 0x7FC00000#32 ||| Config.nanBits32 x
  else if isInf x then pack32 (isNeg x) infMag32
  else pack32 (isNeg x) (round32 (sigOf x) (expOf x))

end Sys2Proof.Machine
end

