-- ==== Sys2Proof/Machine/Numerics.lean ====
section
/-!
DEFINITION. The numeric helpers of 00_scope.md R13 to R16: `san`, `clamp`, `clampP`, `frac`, `flush`, the constants the rules write, and
the numerics record `F`: one free value of which the laws of R16 are all that is known (log 4).
-/

namespace Sys2Proof.Machine

/-! ### Constants of the rules -/

def f0 : F64 := 0
def fHalf : F64 := 0x3FE0000000000000
def f1 : F64 := 0x3FF0000000000000
def f2 : F64 := 0x4000000000000000
def f3 : F64 := 0x4008000000000000
def f4 : F64 := 0x4010000000000000
def f10 : F64 := 0x4024000000000000
def f20 : F64 := 0x4034000000000000
def f1200 : F64 := 0x4092C00000000000
def fNeg1 : F64 := 0xBFF0000000000000

/-- The binary64 nearest 1/10 (R16). -/
def fTenth : F64 := 0x3FB999999999999A

/-- `PI` of R11. -/
def fPi : F64 := 0x400921FB54442D18

/-- `TWO_PI` of R11. -/
def fTwoPi : F64 := fmul f2 fPi

/-! ### R13 to R15 -/

/-- `san` on a binary64 value (R13). -/
def san (x : F64) : F64 := if isFinite x then x else f0

/-- `san` on a sample, as a binary32 value (R13). -/
def san32 (x : F32) : F32 := if isFinite32 x then x else 0

/-- A sanitised input sample, converted to binary64 (R12, R13). -/
def sample (x : F32) : F64 := widen (san32 x)

/-- `clamp(v, lo, hi)` for finite v (R14). -/
def clamp (v lo hi : F64) : F64 := fmin (fmax v lo) hi

/-- What a parameter table gives a parameter (10_state.md R40 to R45). -/
structure Param where
  dflt : F64
  lo : F64
  hi : F64
  deriving DecidableEq, Repr

/-- `clampP` (R14). -/
def clampP (p : Param) (v : F64) : F64 := clamp (if isFinite v then v else p.dflt) p.lo p.hi

/-- `frac(v)` for finite v at or above 0 (R15). R15 states none of an infinite v, which `advance` alone can give it and then
replaces (log 29). -/
def frac (v : F64) : F64 := fsub v (ffloor v)

/-- `flush(v, th)` (R15). -/
def flush (v th : F64) : F64 := if flt (fabs v) th then f0 else v

/-! ### The numerics record F (R16) -/

/-- The numerics record (00_scope.md R7). -/
structure Numerics where
  exp : F64 → F64
  cos : F64 → F64
  tanh : F64 → F64
  pow : F64 → F64 → F64

/-- The value of a finite pattern. -/
def ratOf (x : F64) : ℚ := (signed (isNeg x) (sigOf x) : ℚ) * 2 ^ expOf x

/-- R16's "within 1 ulp of 10^(k/2)": with `a` the largest binary64 value at or below `10^(k/2)`, the value is `a` or the next
one above, or the next one below where `10^(k/2)` is `a` itself. -/
def nearPow10Half (k : Int) (r : F64) : Prop :=
  ∃ a : F64, isNeg a = false ∧ isFinite a = true ∧ ratOf a ^ 2 ≤ (10 : ℚ) ^ k ∧ (10 : ℚ) ^ k < ratOf (a + 1) ^ 2 ∧
    (feq r a = true ∨ feq r (a + 1) = true ∨ (ratOf a ^ 2 = (10 : ℚ) ^ k ∧ feq r (a - 1) = true))

/-- The laws of R16, one field for each. DEDUCED (log 18): the sign of `tanh` at the zeros, and `cos` 1 at both of them, where R16
writes `F.cos(0) = 1`. -/
structure Numerics.Lawful (F : Numerics) : Prop where
  exp_zero : F.exp f0 = f1 ∧ F.exp (fneg f0) = f1
  exp_mono : ∀ x y, fle x y = true → fle (F.exp x) (F.exp y) = true
  exp_unit : ∀ x, fle x f0 = true → fle f0 (F.exp x) = true ∧ fle (F.exp x) f1 = true
  cos_zero : F.cos f0 = f1 ∧ F.cos (fneg f0) = f1
  cos_unit : ∀ x, fle fNeg1 (F.cos x) = true ∧ fle (F.cos x) f1 = true
  tanh_zero : F.tanh f0 = f0
  tanh_odd : ∀ x, F.tanh (fneg x) = fneg (F.tanh x)
  tanh_mono : ∀ x y, fle x y = true → fle (F.tanh x) (F.tanh y) = true
  tanh_unit : ∀ x, fle fNeg1 (F.tanh x) = true ∧ fle (F.tanh x) f1 = true
  pow_zero : ∀ b, F.pow b f0 = f1 ∧ F.pow b (fneg f0) = f1
  pow10_neg1 : F.pow f10 fNeg1 = fTenth
  pow10_half : ∀ (x : F64) (k : Int), isFinite x = true → 2 * ratOf x = k → k ≤ 616 → nearPow10Half k (F.pow f10 x)
  pow10_nonneg : ∀ x, fle f0 (F.pow f10 x) = true
  pow2_mono : ∀ x y, fle x y = true → fle (F.pow f2 x) (F.pow f2 y) = true
  pow2_neg1 : F.pow f2 fNeg1 = fHalf
  pow2_one : F.pow f2 f1 = f2

/-- The largest binary64 value at or below `10^(k/2)`. -/
def pow10HalfBelow (k : Int) : F64 :=
  BitVec.ofNat 64 (Nat.findGreatest (fun n => ratOf (BitVec.ofNat 64 n) ^ 2 ≤ (10 : ℚ) ^ k) (infMag - 1))

/-- A record that only shows that the laws have one: the model never takes a value from it. -/
def Numerics.standIn : Numerics where
  exp _ := f1
  cos _ := f1
  tanh x := if isZero x then x else if isNeg x then fNeg1 else f1
  pow b x :=
    if b = f2 then (if flt x fNeg1 then f0 else if flt x f0 then fHalf else if flt x f1 then f1 else f2)
    else if b = f10 then
      if feq x fNeg1 then fTenth
      else if isZero x = false ∧ (2 * ratOf x).den = 1 ∧ (2 * ratOf x).num ≤ 616 then pow10HalfBelow (2 * ratOf x).num
      else f1
    else f1

theorem ordKey_consts : ordKey fNeg1 = -0x3FF0000000000000 ∧ ordKey f0 = 0 ∧ ordKey f1 = 0x3FF0000000000000 := by decide

theorem Numerics.standIn_tanh_key (x : F64) :
    isNaN (Numerics.standIn.tanh x) = false ∧
      ordKey (Numerics.standIn.tanh x) = (if magOf x = 0 then 0 else if isNeg x then -0x3FF0000000000000 else 0x3FF0000000000000) := by
  simp only [Numerics.standIn]
  by_cases hz : magOf x = 0
  · simp [isZero, isNaN, hz, ordKey, signed]
  · cases hn : isNeg x <;> simp only [isZero, hz, decide_false, Bool.false_eq_true, if_false, if_true] <;> decide

theorem pow10HalfBelow_spec {k : Int} (hk : k ≤ 616) :
    isNeg (pow10HalfBelow k) = false ∧ isFinite (pow10HalfBelow k) = true ∧ ratOf (pow10HalfBelow k) ^ 2 ≤ (10 : ℚ) ^ k ∧
      (10 : ℚ) ^ k < ratOf (pow10HalfBelow k + 1) ^ 2 := by
  have h10 : (0 : ℚ) < 10 ^ k := by positivity
  unfold pow10HalfBelow
  set P : Nat → Prop := fun n => ratOf (BitVec.ofNat 64 n) ^ 2 ≤ (10 : ℚ) ^ k with hP
  set n := Nat.findGreatest P (infMag - 1) with hn
  have hle : n ≤ infMag - 1 := Nat.findGreatest_le _
  have h0 : P 0 := by
    have : ratOf (BitVec.ofNat 64 0) = 0 := by
      have : sigOf (BitVec.ofNat 64 0) = 0 := by decide
      simp [ratOf, this, signed]
    simp only [hP, this]
    linarith
  have hi : infMag = 0x7FF0000000000000 := rfl
  have hm : n < 2 ^ 63 := by omega
  have hnat : (BitVec.ofNat 64 n).toNat = n := by rw [BitVec.toNat_ofNat, Nat.mod_eq_of_lt (by omega)]
  refine ⟨by simp [isNeg, hnat]; omega, by simp [isFinite, magOf, hnat]; omega, Nat.findGreatest_spec (P := P) (Nat.zero_le _) h0, ?_⟩
  have hs : BitVec.ofNat 64 n + 1 = BitVec.ofNat 64 (n + 1) := by
    apply BitVec.eq_of_toNat_eq; simp
  rw [hs]
  by_cases hlt : n < infMag - 1
  · have := Nat.findGreatest_is_greatest (P := P) (n := infMag - 1) (k := n + 1) (by omega) (by omega)
    simpa [hP] using this
  · have he : n + 1 = infMag := by omega
    rw [he]
    calc (10 : ℚ) ^ k ≤ 10 ^ (616 : Int) := zpow_le_zpow_right₀ (by norm_num) hk
      _ < (2 ^ 1024) ^ 2 := by
        have : (10 : Nat) ^ 616 < (2 ^ 1024) ^ 2 := by decide +kernel
        exact_mod_cast this
      _ = _ := by
        have : ratOf (BitVec.ofNat 64 infMag) = 2 ^ 1024 := by
          have h1 : sigOf (BitVec.ofNat 64 infMag) = 2 ^ 52 := by decide
          have h2 : expOf (BitVec.ofNat 64 infMag) = 972 := by decide
          have h3 : isNeg (BitVec.ofNat 64 infMag) = false := by decide
          rw [ratOf, h1, h2, h3, show (2 : ℚ) ^ 1024 = 2 ^ 52 * 2 ^ 972 by rw [← pow_add]]
          rfl
        rw [this]

theorem ratOf_zero {x : F64} (h : isZero x = true) : ratOf x = 0 := by
  have : sigOf x = 0 := by simp only [isZero, decide_eq_true_eq] at h; simp [sigOf, h]
  simp [ratOf, this, signed]

theorem near_pow10_zero : nearPow10Half 0 f1 := by
  have h1 : sigOf f1 = 2 ^ 52 ∧ expOf f1 = -52 ∧ isNeg f1 = false := by decide
  have h2 : sigOf (f1 + 1) = 2 ^ 52 + 1 ∧ expOf (f1 + 1) = -52 ∧ isNeg (f1 + 1) = false := by decide
  refine ⟨f1, by decide, by decide, ?_, ?_, .inl (by decide)⟩
  · rw [ratOf, h1.1, h1.2.1, h1.2.2]; norm_num [signed]
  · rw [ratOf, h2.1, h2.2.1, h2.2.2]; norm_num [signed]

theorem near_pow10_neg : nearPow10Half (-2) fTenth := by
  have h1 : sigOf (fTenth - 1) = 0x19999999999999 ∧ expOf (fTenth - 1) = -56 ∧ isNeg (fTenth - 1) = false := by decide
  have h2 : sigOf (fTenth - 1 + 1) = 0x1999999999999A ∧ expOf (fTenth - 1 + 1) = -56 ∧ isNeg (fTenth - 1 + 1) = false := by decide
  refine ⟨fTenth - 1, by decide, by decide, ?_, ?_, .inr (.inl (by decide))⟩
  · rw [ratOf, h1.1, h1.2.1, h1.2.2]; norm_num [signed]
  · rw [ratOf, h2.1, h2.2.1, h2.2.2]; norm_num [signed]

theorem eq_neg1 {x : F64} (h : feq x fNeg1 = true) : x = fNeg1 := by
  obtain ⟨-, -, h⟩ := (feq_iff _ _).1 h
  rw [ordKey_consts.1] at h
  simp only [ordKey, signed, isNeg, magOf] at h
  have := x.isLt
  apply BitVec.eq_of_toNat_eq
  have hc : fNeg1.toNat = 0xBFF0000000000000 := by decide
  by_cases hx : 2 ^ 63 ≤ x.toNat <;> simp only [hx, decide_true, decide_false, if_true, if_false, Bool.false_eq_true] at h <;> omega

/-- Some record has the laws of R16. -/
theorem Numerics.standIn_lawful : Numerics.standIn.Lawful where
  exp_zero := ⟨rfl, rfl⟩
  exp_mono _ _ _ := show fle f1 f1 = true by decide
  exp_unit _ _ := show fle f0 f1 = true ∧ fle f1 f1 = true by decide
  cos_zero := ⟨rfl, rfl⟩
  cos_unit _ := show fle fNeg1 f1 = true ∧ fle f1 f1 = true by decide
  tanh_zero := by decide
  tanh_odd x := by
    have h1 : isZero (fneg x) = isZero x := by simp [isZero, magOf_fneg]
    simp only [Numerics.standIn, h1, isNeg_fneg]
    cases isZero x <;> cases isNeg x <;> simp <;> decide
  tanh_mono x y h := by
    obtain ⟨-, -, h⟩ := (fle_iff _ _).1 h
    have kx := Numerics.standIn_tanh_key x
    have ky := Numerics.standIn_tanh_key y
    rw [fle_iff, kx.2, ky.2]
    refine ⟨kx.1, ky.1, ?_⟩
    simp only [ordKey, signed] at h
    split <;> split <;> (try split) <;> (try split) <;> simp_all
    omega
  tanh_unit x := by
    have kx := Numerics.standIn_tanh_key x
    rw [fle_iff, fle_iff, kx.2, ordKey_consts.1, ordKey_consts.2.2]
    refine ⟨⟨by decide, kx.1, ?_⟩, kx.1, by decide, ?_⟩ <;> split <;> (try split) <;> omega
  pow_zero b := by
    constructor
    · simp only [Numerics.standIn]
      rw [if_neg (show ¬ flt f0 fNeg1 = true by decide), if_neg (show ¬ flt f0 f0 = true by decide), if_pos (show flt f0 f1 = true by decide),
        if_neg (show ¬ feq f0 fNeg1 = true by decide), if_neg (show ¬ (isZero f0 = false ∧ _) from fun h => absurd h.1 (by decide))]
      simp
    · simp only [Numerics.standIn]
      rw [if_neg (show ¬ flt (fneg f0) fNeg1 = true by decide), if_neg (show ¬ flt (fneg f0) f0 = true by decide), if_pos (show flt (fneg f0) f1 = true by decide),
        if_neg (show ¬ feq (fneg f0) fNeg1 = true by decide), if_neg (show ¬ (isZero (fneg f0) = false ∧ _) from fun h => absurd h.1 (by decide))]
      simp
  pow10_neg1 := by
    simp only [Numerics.standIn]
    rw [if_neg (by decide), if_pos trivial, if_pos (by decide)]
  pow10_half x k hf hr hk := by
    simp only [Numerics.standIn]
    rw [if_neg (by decide), if_pos trivial]
    split
    · rename_i h
      rw [eq_neg1 h] at hr
      have h1 : sigOf fNeg1 = 2 ^ 52 ∧ expOf fNeg1 = -52 ∧ isNeg fNeg1 = true := by decide
      rw [ratOf, h1.1, h1.2.1, h1.2.2] at hr
      have : k = -2 := by
        have : (k : ℚ) = -2 := by rw [← hr]; norm_num [signed]
        exact_mod_cast this
      rw [this]
      exact near_pow10_neg
    · cases hz : isZero x
      · rw [hr]
        simp only [true_and, Rat.den_intCast, Rat.num_intCast, hk, if_true]
        obtain ⟨a, b, c, d⟩ := pow10HalfBelow_spec hk
        exact ⟨_, a, b, c, d, .inl ((feq_iff _ _).2 ⟨by simp [isFinite] at b; simp [isNaN]; omega, by simp [isFinite] at b; simp [isNaN]; omega, rfl⟩)⟩
      · have : k = 0 := by
          have : (k : ℚ) = 0 := by rw [← hr, ratOf_zero hz]; norm_num
          exact_mod_cast this
        rw [this, if_neg (fun h => by cases h.1)]
        exact near_pow10_zero
  pow10_nonneg x := by
    simp only [Numerics.standIn]
    rw [if_neg (by decide), if_pos trivial]
    split
    · decide
    · split
      · rename_i h
        obtain ⟨a, b, -⟩ := pow10HalfBelow_spec h.2.2
        rw [fle_iff]
        refine ⟨by decide, by simp [isFinite] at b; simp [isNaN]; omega, ?_⟩
        rw [ordKey_consts.2.1]
        simp [ordKey, signed, a]
      · decide
  pow2_mono x y h := by
    obtain ⟨hx, hy, h⟩ := (fle_iff _ _).1 h
    simp only [Numerics.standIn, if_true, flt, hx, hy, show isNaN fNeg1 = false by decide, show isNaN f0 = false by decide, show isNaN f1 = false by decide,
      ordKey_consts.1, ordKey_consts.2.1, ordKey_consts.2.2, Bool.not_false, Bool.true_and, decide_eq_true_eq]
    repeat' split
    all_goals first | decide | omega
  pow2_neg1 := by decide
  pow2_one := by decide

end Sys2Proof.Machine

namespace Sys2Proof.Config

open Sys2Proof.Machine

/-- The numerics record `F`: a free value with the laws of R16 (log 4), safe. The default value its type asks for is in no
way the record's. -/
opaque numerics [Inhabited { F : Numerics // F.Lawful }] : { F : Numerics // F.Lawful }

end Sys2Proof.Config

namespace Sys2Proof.Machine

/-- The numerics record and its laws. -/
def lawfulNumerics : { F : Numerics // F.Lawful } := @Config.numerics ⟨⟨Numerics.standIn, Numerics.standIn_lawful⟩⟩

/-- The numerics record `F` (R7, R16). -/
def numerics : Numerics := lawfulNumerics.1

/-! `F` as the rules use it. The values R16 fixes are written out so that they can be evaluated; each function is the record's
(Laws/Numerics.lean). -/

/-- `F.exp`. -/
def fExp (x : F64) : F64 := if isZero x then f1 else numerics.exp x

/-- `F.cos`. -/
def fCos (x : F64) : F64 := if isZero x then f1 else numerics.cos x

/-- `F.tanh`. -/
def fTanh (x : F64) : F64 := if isZero x then x else numerics.tanh x

/-- `F.pow`. -/
def fPow (b x : F64) : F64 :=
  if isZero x then f1
  else if b = f10 ∧ x = fNeg1 then fTenth
  else if b = f2 ∧ x = fNeg1 then fHalf
  else if b = f2 ∧ x = f1 then f2
  else numerics.pow b x

end Sys2Proof.Machine
end

