-- ==== Sys2Proof/Machine/State.lean ====
section
/-!
DEFINITION. The state of SGW-CORE as plain data: everything 10_state.md R31 to R63 gives the block and its units, the configuration
(fixed for life, R500), the environment's inputs (the host's arrays, the oracle's answers, 00_scope.md R6), and the reset
values of R66.
-/

namespace Sys2Proof.Machine

/-! ### Names -/

/-- The unit classes, with the codes of 30_encoding.md R144 in Machine/Ops.lean. -/
inductive UnitClass where
  | osc
  | vca
  | tone
  | therm
  | noise
  | scope
  | brcap
  | brplay
  deriving DecidableEq, Repr

/-- The event codes 1 to 4 of 60_exceptions.md R461. -/
inductive EventCode where
  | unitFault
  | overflow
  | underflow
  | fallback
  deriving DecidableEq, Repr

/-- The waveform modes 0 to 4 of R55. -/
inductive Waveform where
  | sine
  | saw
  | tri
  | pulse
  | multi
  deriving DecidableEq, Repr

/-- A bridge's lifecycle (R62). -/
inductive RunState where
  | stopped
  | running
  deriving DecidableEq, Repr

/-- A bridge's transport (R62). -/
inductive Transport where
  | shared
  | fallback
  deriving DecidableEq, Repr

/-- Where the render engine stands in the block of 70_reset_and_hazards.md R510: at the boundary (applying commands), at
frame `i` of the block being processed (R30's frame index), at the bridges' block steps, or at the end of the block. -/
inductive Phase where
  | boundary
  | frame (i : Nat)
  | bridges
  | endOfBlock
  deriving DecidableEq, Repr

/-! ### What every unit has -/

/-- `pending[code]` for codes 1 to 4, each a u32 (R32). -/
structure Counts where
  unitFault : U32
  overflow : U32
  underflow : U32
  fallback : U32
  deriving DecidableEq, Repr

/-- `lastReport[code]` for codes 1 to 4, each a u64 or none (R32). -/
structure Reports where
  unitFault : Option U64
  overflow : Option U64
  underflow : Option U64
  fallback : Option U64
  deriving DecidableEq, Repr

/-- R32, and the environment's answer to the next `FaultDraw` of this unit (R466, log 2). -/
structure Common where
  faulted : Bool
  pending : Counts
  lastReport : Reports
  faultDraw : Bool
  deriving DecidableEq, Repr

/-- The dormant flag and its ramp gain, in OSC, VCA, TONE and NOISE (R32). -/
structure Mute where
  dormant : Bool
  gain : F64
  deriving DecidableEq, Repr

/-! ### OSC -/

/-- The parameter registers of R40. -/
structure OscRegs where
  frequency : F64
  detune : F64
  pulseWidth : F64
  symmetry : F64
  sineLevel : F64
  sawLevel : F64
  triLevel : F64
  pulseLevel : F64
  slewCutoff : F64
  purity : F64
  deriving DecidableEq, Repr

/-- The k-rate values latched for the block (R39). -/
structure OscLatch where
  sineLevel : F64
  sawLevel : F64
  triLevel : F64
  pulseLevel : F64
  slewCutoff : F64
  purity : F64
  deriving DecidableEq, Repr

/-- The host's arrays of the block (R33). -/
structure OscPorts where
  sync : Samples
  modFrequency : Samples
  modDetune : Samples
  modPulseWidth : Samples
  modSymmetry : Samples
  deriving DecidableEq, Repr

/-- R55 with R32 and R33. -/
structure Osc where
  cfg : OscCfg
  common : Common
  mute : Mute
  reg : OscRegs
  latch : OscLatch
  phase : F64
  prevSync : F64
  slewSaw : F64
  slewPulse : F64
  mode : Waveform
  ports : OscPorts
  out0 : Samples
  out1 : Samples
  deriving DecidableEq, Repr

/-! ### VCA -/

/-- The parameter registers of R41. -/
structure VcaRegs where
  dialVoltage : F64
  cutoffEnabled : F64
  deriving DecidableEq, Repr

structure VcaLatch where
  dialVoltage : F64
  cutoffEnabled : Bool
  deriving DecidableEq, Repr

/-- R56 with R32 and R34. -/
structure Vca where
  cfg : VcaCfg
  common : Common
  mute : Mute
  reg : VcaRegs
  latch : VcaLatch
  s : F64
  sInit : Bool
  input : Samples
  cv : Samples
  out : Samples
  deriving DecidableEq, Repr

/-! ### TONE -/

/-- The previous input and output of one channel of a shelving filter (R57, R60). -/
structure ShelfState where
  x1 : F64
  y1 : F64
  deriving DecidableEq, Repr

/-- R42 and R57 with R32 and R35. `chans`, `input` and `out` are indexed by channel. -/
structure Tone where
  cfg : ToneCfg
  common : Common
  mute : Mute
  position : F64
  latchPosition : F64
  chans : List ShelfState
  input : List Samples
  out : List Samples
  deriving DecidableEq, Repr

/-! ### THERM -/

/-- R43 and R59 with R32 and R36. -/
structure Therm where
  cfg : ThermCfg
  common : Common
  enable : F64
  latchEnable : Bool
  cur : F64
  input : Samples
  out : Samples
  deriving DecidableEq, Repr

/-! ### NOISE -/

/-- The parameter registers of R44. -/
structure NoiseRegs where
  colour : F64
  level : F64
  bypass : F64
  deriving DecidableEq, Repr

structure NoiseLatch where
  colour : F64
  level : F64
  bypass : Bool
  deriving DecidableEq, Repr

/-- R60 with R32 and R37. `draws` is the oracle's stream as far as the environment supplies it; past it the `drawn`-th value
of free stream `stream` is taken (R361, log 7). -/
structure Noise where
  cfg : NoiseCfg
  common : Common
  mute : Mute
  reg : NoiseRegs
  latch : NoiseLatch
  filter : ShelfState
  bypassed : Bool
  draws : List F64
  stream : Nat
  drawn : Nat
  out : Samples
  deriving DecidableEq, Repr

/-! ### SCOPE -/

/-- The parameter registers of R45. -/
structure ScopeRegs where
  triggerLevel : F64
  hysteresis : F64
  deriving DecidableEq, Repr

structure ScopeLatch where
  triggerLevel : F64
  hysteresis : Nat
  deriving DecidableEq, Repr

/-- The contents of one CAPTURE packet (46_scope.md R391): `N` and the two windows of `N` samples. -/
structure Capture where
  triggered : Bool
  valid : Nat
  n : Nat
  ys : Samples
  xs : Samples
  deriving DecidableEq, Repr

/-- R61 with R32 and R38. `made` lists the captures of the block being processed: the instance's own packet list (R510). -/
structure Scope where
  cfg : ScopeCfg
  common : Common
  reg : ScopeRegs
  latch : ScopeLatch
  n : Nat
  bufY : Samples
  bufX : Samples
  w : Nat
  filled : Nat
  newCount : Nat
  total : U64
  anchor : Option U64
  period : Option Nat
  holdoff : Nat
  inY : Samples
  inX : Samples
  made : List Capture
  deriving DecidableEq, Repr

/-! ### Bridges -/

/-- The bytes of a region that are not 0, by rising offset: an unlisted offset reads as `Memory.unlisted`. -/
abbrev Memory := List Host.Cell

/-- What an unlisted byte reads as: START creates a region "with every byte 0" (20_memory.md R102). -/
def Memory.unlisted : Byte := 0

/-- A shared region: its size in bytes and its contents (20_memory.md R102, R103). -/
structure Region where
  size : Nat
  mem : Memory
  deriving DecidableEq, Repr

/-- What is known of the happens-before order between a bridge and its peer (20_memory.md R105, R110, log 8). A field is named
by its offset, a multiple of 4. -/
structure Order where
  /-- Byte offsets the peer writes at some time without order with the coming block step: the environment's announcement. -/
  racy : List Nat
  /-- Fields the peer has written, not by an atomic store, since its last release: the atomic store of its own index. -/
  pending : List Nat
  /-- Fields the peer wrote so before its last release, which the block has not yet acquired by loading that index. -/
  released : List Nat
  /-- Fields the block has accessed since the peer last acquired the block's index: a write of the peer there is unordered
  with that access. -/
  exposed : List Nat
  /-- Whether the block's own index holds something else than the block's last store. -/
  foreign : Bool
  deriving DecidableEq, Repr

/-- What BRCAP and BRPLAY share (R62, R63), and the order of the two agents' accesses. A race takes the `races`-th race draw of
this bridge, the free stream `stream` (20_memory.md R110, log 8). -/
structure Link where
  run : RunState
  mode : Transport
  fallbackLatched : Bool
  capNext : Nat
  cap : Nat
  region : Option Region
  order : Order
  stream : Nat
  races : Nat
  deriving DecidableEq, Repr

/-- R62 with R32 and R38. `input` is indexed by channel; `made` lists the chunks of the block being processed. -/
structure Brcap where
  cfg : BridgeCfg
  common : Common
  link : Link
  wLocal : Nat
  staging : List Frame
  input : List Samples
  made : List (List Frame)
  deriving DecidableEq, Repr

/-- R63 with R32 and R38. `out` is indexed by channel. -/
structure Brplay where
  cfg : BridgeCfg
  common : Common
  link : Link
  rLocal : Nat
  fifo : List Frame
  lastFrame : Frame
  out : List Samples
  deriving DecidableEq, Repr

/-! ### The block -/

/-- R31, the configuration, and every unit instance; `NINST[c]` is the length of class c's list (R7). `inQueue` holds byte
strings, since the host may post any (R140); `outQueue` holds outbound packets. -/
structure State where
  cfg : BlockCfg
  shmAvailable : Bool
  phase : Phase
  blockIndex : U64
  inQueue : List Packet
  outQueue : List Instr
  osc : List Osc
  vca : List Vca
  tone : List Tone
  therm : List Therm
  noise : List Noise
  scope : List Scope
  brcap : List Brcap
  brplay : List Brplay
  deriving DecidableEq, Repr

/-- Why the machine stops. The spec's block never does (60_exceptions.md R460, R483). -/
inductive Fault where
  /-- A bridge access to a byte that does not exist: a region that is absent, or an offset past its end (20_memory.md R100,
  R102). Raised by the bridges' block steps; no state that meets the invariant of Safety.lean raises it. Safe (log 15). -/
  | noSuchRegionByte
  deriving DecidableEq, Repr

/-- Why a step has no meaning. -/
inductive Refusal where
  /-- An instruction whose arm has no meaning yet: raised by `exec` alone. Safe. -/
  | notModelled (mnemonic : String)
  /-- A configuration outside the constraints of 10_state.md R47 to R54 and 00_scope.md R7: "a model refuses only a
  configuration outside the constraints" (60_exceptions.md R483, I17). Raised by `step`. Safe (log 14). -/
  | badConfiguration
  deriving DecidableEq, Repr

/-! ### Construction (R66, R500) -/

def Common.reset : Common :=
  { faulted := false, pending := ⟨0, 0, 0, 0⟩, lastReport := ⟨none, none, none, none⟩, faultDraw := false }

/-- `muteGain` is 1.0 at reset. -/
def Mute.reset : Mute := { dormant := false, gain := 0x3FF0000000000000 }

/-- R40's defaults: 440, 0, 0.5, 0.5, 1, 1, 1, 1, 20000, 1. Latched values: DESIGN CHOICE (log 9). -/
def Osc.reset (c : OscCfg) : Osc :=
  { cfg := c, common := .reset, mute := .reset
    reg :=
      { frequency := 0x407B800000000000, detune := 0, pulseWidth := 0x3FE0000000000000, symmetry := 0x3FE0000000000000
        sineLevel := 0x3FF0000000000000, sawLevel := 0x3FF0000000000000, triLevel := 0x3FF0000000000000
        pulseLevel := 0x3FF0000000000000, slewCutoff := 0x40D3880000000000, purity := 0x3FF0000000000000 }
    latch :=
      { sineLevel := 0x3FF0000000000000, sawLevel := 0x3FF0000000000000, triLevel := 0x3FF0000000000000
        pulseLevel := 0x3FF0000000000000, slewCutoff := 0x40D3880000000000, purity := 0x3FF0000000000000 }
    phase := 0, prevSync := 0, slewSaw := 0, slewPulse := 0, mode := .multi, ports := ⟨[], [], [], [], []⟩
    out0 := [], out1 := [] }

/-- R41's defaults: -12 and 1. -/
def Vca.reset (c : VcaCfg) : Vca :=
  { cfg := c, common := .reset, mute := .reset, reg := ⟨0xC028000000000000, 0x3FF0000000000000⟩
    latch := ⟨0xC028000000000000, true⟩, s := 0, sInit := false, input := [], cv := [], out := [] }

/-- R42's default: 0. -/
def Tone.reset (c : ToneCfg) : Tone :=
  { cfg := c, common := .reset, mute := .reset, position := 0, latchPosition := 0
    chans := List.replicate c.ch ⟨0, 0⟩, input := [], out := List.replicate c.ch [] }

/-- R43's default: 1. -/
def Therm.reset (c : ThermCfg) : Therm :=
  { cfg := c, common := .reset, enable := 0x3FF0000000000000, latchEnable := true, cur := 0, input := [], out := [] }

/-- R44's defaults: 0, 1, 0. -/
def Noise.reset (k : Nat) (c : NoiseCfg) : Noise :=
  { cfg := c, common := .reset, mute := .reset, reg := ⟨0, 0x3FF0000000000000, 0⟩, latch := ⟨0, 0x3FF0000000000000, false⟩
    filter := ⟨0, 0⟩, bypassed := false, draws := [], stream := k, drawn := 0, out := [] }

/-- R45's defaults: 0 and 0; a ring of 2N zeros (R66). -/
def Scope.reset (c : ScopeCfg) : Scope :=
  { cfg := c, common := .reset, reg := ⟨0, 0⟩, latch := ⟨0, 0⟩, n := c.nDefault
    bufY := List.replicate (2 * c.nDefault) 0, bufX := List.replicate (2 * c.nDefault) 0
    w := 0, filled := 0, newCount := 0, total := 0, anchor := none, period := none, holdoff := 0
    inY := [], inX := [], made := [] }

/-- No access has been made. -/
def Order.reset : Order := { racy := [], pending := [], released := [], exposed := [], foreign := false }

def Link.reset (k : Nat) (c : BridgeCfg) : Link :=
  { run := .stopped, mode := .shared, fallbackLatched := false, capNext := c.capDefault, cap := c.capDefault, region := none
    order := .reset, stream := k, races := 0 }

def Brcap.reset (k : Nat) (c : BridgeCfg) : Brcap :=
  { cfg := c, common := .reset, link := .reset k c, wLocal := 0, staging := [], input := [], made := [] }

def Brplay.reset (k : Nat) (c : BridgeCfg) : Brplay :=
  { cfg := c, common := .reset, link := .reset k c, rLocal := 0, fifo := [], lastFrame := List.replicate c.ch 0
    out := List.replicate c.ch [] }

/-- Construction, which is reset and power-on (R66, R500): every instance at the reset values of R66. -/
def State.construct (c : Construction) : State :=
  { cfg := c.block, shmAvailable := c.shmAvailable, phase := .boundary, blockIndex := 0, inQueue := [], outQueue := []
    osc := c.osc.map Osc.reset, vca := c.vca.map Vca.reset, tone := c.tone.map Tone.reset, therm := c.therm.map Therm.reset
    noise := c.noise.mapIdx Noise.reset, scope := c.scope.map Scope.reset
    brcap := c.brcap.mapIdx Brcap.reset, brplay := c.brplay.mapIdx Brplay.reset }

/-- The machine right after reset, with the spec's default configuration (log 1). -/
def State.reset : State := State.construct Config.construction

end Sys2Proof.Machine
end

