-- ==== Sys2Proof/Machine/Ops.lean ====
section
/-!
DEFINITION. The shared operations over memory, units and events: a region's bytes and its 4-byte accesses (20_memory.md R103 to R110), the
instances a command addresses (30_encoding.md R145), counting and reporting events (60_exceptions.md R461, R470), and
TAKING A FAULT (R466), the block's only exception; there is no return from it (R475).
-/

namespace Sys2Proof.Machine

/-! ### Memory -/

/-- The canonical form: offsets strictly rising, no byte listed that an unlisted offset reads as. -/
abbrev Memory.wf (m : Memory) : Prop :=
  m.Pairwise (fun c d => c.1 < d.1) ∧ ∀ c ∈ m, c.2 ≠ Memory.unlisted

def Memory.read : Memory → Nat → Byte
  | [], _ => Memory.unlisted
  | (a, b) :: m, k => if a = k then b else Memory.read m k

def Memory.write : Memory → Nat → Byte → Memory
  | [], k, v => if v = Memory.unlisted then [] else [(k, v)]
  | (a, b) :: m, k, v =>
    if k < a then (if v = Memory.unlisted then (a, b) :: m else (k, v) :: (a, b) :: m)
    else if k = a then (if v = Memory.unlisted then m else (k, v) :: m)
    else (a, b) :: Memory.write m k v

/-- Consecutive bytes written from an offset up. -/
def Memory.writeAll : Memory → Nat → List Byte → Memory
  | m, _, [] => m
  | m, k, v :: vs => Memory.writeAll (Memory.write m k v) (k + 1) vs

/-! ### Regions -/

/-- The size of a region of `cap` frames of `ch` channels (R103). -/
def regionBytes (cap ch : Nat) : Nat := 8 + 4 * cap * ch

/-- The offset of channel `c` of frame slot `f` (R103). -/
def sampleOffset (ch f c : Nat) : Nat := 8 + 4 * (f * ch + c)

/-- `writeIndex` (R103). -/
def writeIndexOffset : Nat := 0

/-- `readIndex` (R103). -/
def readIndexOffset : Nat := 4

/-- A fresh region, every byte 0 (R102). -/
def freshRegion (cap ch : Nat) : Region := { size := regionBytes cap ch, mem := [] }

/-- The four bytes of a field in a region's byte order (R104). -/
def fieldBytes (e : Endian) (v : BitVec 32) : List Byte :=
  match e with
  | .little => bytes32 v
  | .big => (bytes32 v).reverse

/-- The field that four bytes hold in a region's byte order (R104). -/
def fieldWord (e : Endian) (b0 b1 b2 b3 : Byte) : BitVec 32 :=
  match e with
  | .little => word32 b0 b1 b2 b3
  | .big => word32 b3 b2 b1 b0

/-- A 4-byte read; `none` where the region has no such byte. -/
def Region.load32 (e : Endian) (o : Nat) (r : Region) : Option (BitVec 32) :=
  if o + 4 ≤ r.size then
    some (fieldWord e (r.mem.read o) (r.mem.read (o + 1)) (r.mem.read (o + 2)) (r.mem.read (o + 3)))
  else none

/-- A 4-byte write; `none` where the region has no such byte. -/
def Region.store32 (e : Endian) (o : Nat) (v : BitVec 32) (r : Region) : Option Region :=
  if o + 4 ≤ r.size then some { r with mem := r.mem.writeAll o (fieldBytes e v) } else none

/-! ### A bridge's accesses (R105 to R110)

The peer's moves are in Machine/Outside.lean. A race is an access of the block and a write of the peer that happens-before
orders neither way; it takes a draw (log 8). -/

/-- The free stream a bridge direction's race draws come from (log 8). -/
def captureDir : Nat := 0

def playDir : Nat := 1

/-- Whether the peer writes the field at `o` without an order a load of its index could give: unordered with the coming block
step, or since its last release. -/
def Order.unordered (o : Nat) (d : Order) : Bool :=
  (d.racy.any fun k => decide (o ≤ k) && decide (k < o + 4)) || d.pending.contains o

/-- Whether an access to the field at `o` races: a write of the peer there is unordered, or released and not yet acquired. -/
def Order.raced (o : Nat) (d : Order) : Bool := d.unordered o || d.released.contains o

/-- The acquire of an atomic load of the peer's index: it happens-after everything before the store whose value it returns
(R110); a racing load returns a draw, the value of no store. -/
def Order.acquire (o : Nat) (d : Order) : Order := if d.unordered o then d else { d with released := [] }

/-- A read of the field at `o`. One that races has taken its draw, so no later write of the peer need be ordered after it. -/
def Order.read (o : Nat) (d : Order) : Order := if d.raced o then d else { d with exposed := d.exposed.insert o }

/-- A write of the field at `o`. -/
def Order.write (o : Nat) (d : Order) : Order := { d with exposed := d.exposed.insert o }

/-- The block's store of its own index: unless it races, the peer's load of it returns this store. -/
def Order.release (o : Nat) (d : Order) : Order := { d with foreign := d.raced o }

/-- The block's plain 4-byte read of its region, `MemRead` (R106): a racing one returns a draw (R110). -/
def Link.load32 (dir : Nat) (e : Endian) (o : Nat) (l : Link) : Option (BitVec 32 × Link) :=
  match l.region with
  | none => none
  | some r =>
    match r.load32 e o with
    | none => none
    | some v =>
      if l.order.raced o then
        some (Config.raceDraw dir l.stream l.races, { l with order := l.order.read o, races := l.races + 1 })
      else some (v, { l with order := l.order.read o })

/-- The block's plain 4-byte write of its region, `MemWrite` (R106): a racing one leaves a draw (R110). -/
def Link.store32 (dir : Nat) (e : Endian) (o : Nat) (v : BitVec 32) (l : Link) : Option Link :=
  match l.region with
  | none => none
  | some r =>
    if l.order.raced o then
      (r.store32 e o (Config.raceDraw dir l.stream l.races)).map fun r' =>
        { l with region := some r', order := l.order.write o, races := l.races + 1 }
    else (r.store32 e o v).map fun r' => { l with region := some r', order := l.order.write o }

/-- `AtomicLoad32` of the peer's index (R106, R109): a load that acquires. -/
def Link.atomicLoad (dir : Nat) (e : Endian) (o : Nat) (l : Link) : Option (BitVec 32 × Link) :=
  { l with order := l.order.acquire o }.load32 dir e o

/-- `AtomicStore32` of the block's index (R106, R109): a store that releases. -/
def Link.atomicStore (dir : Nat) (e : Endian) (o : Nat) (v : BitVec 32) (l : Link) : Option Link :=
  { l with order := l.order.release o }.store32 dir e o v

/-- An index field's value: the i32 reduced into [0, cap) (47_bridge.md R420). -/
def slotOf (cap : Nat) (v : BitVec 32) : Nat := (v.toInt % (cap : Int)).toNat

/-- Frames written and not yet read (R420). -/
def usedFrames (cap w r : Nat) : Nat := (((w : Int) - (r : Int)) % (cap : Int)).toNat

/-- Frames that can be written without reaching the guard slot (R420). -/
def freeFrames (cap w r : Nat) : Nat := cap - usedFrames cap w r - 1

/-! ### Addressing (R145) -/

/-- A command applied to the instances its `inst` field addresses: every one for 15, else the one of that number, or none if
there is no such instance (R145, 40_messages.md R180). -/
def onTargets {α : Type} (inst : BitVec 4) (f : α → α) (l : List α) : List α :=
  if inst = 15#4 then l.map f else l.modify inst.toNat f

/-- The class code of R144. -/
def UnitClass.code : UnitClass → BitVec 4
  | .osc => 1
  | .vca => 2
  | .tone => 3
  | .therm => 4
  | .noise => 5
  | .scope => 6
  | .brcap => 7
  | .brplay => 8

/-! ### Events (60_exceptions.md R461, R470) -/

def EventCode.code : EventCode → BitVec 8
  | .unitFault => 1
  | .overflow => 2
  | .underflow => 3
  | .fallback => 4

def Counts.get (k : EventCode) (c : Counts) : U32 :=
  match k with
  | .unitFault => c.unitFault
  | .overflow => c.overflow
  | .underflow => c.underflow
  | .fallback => c.fallback

def Counts.set (k : EventCode) (v : U32) (c : Counts) : Counts :=
  match k with
  | .unitFault => { c with unitFault := v }
  | .overflow => { c with overflow := v }
  | .underflow => { c with underflow := v }
  | .fallback => { c with fallback := v }

def Reports.get (k : EventCode) (r : Reports) : Option U64 :=
  match k with
  | .unitFault => r.unitFault
  | .overflow => r.overflow
  | .underflow => r.underflow
  | .fallback => r.fallback

def Reports.set (k : EventCode) (b : U64) (r : Reports) : Reports :=
  match k with
  | .unitFault => { r with unitFault := some b }
  | .overflow => { r with overflow := some b }
  | .underflow => { r with underflow := some b }
  | .fallback => { r with fallback := some b }

/-- `raise E` for `n = 1`, "count n frames of E" else: the pending count plus `n` modulo 2^32 (R461). -/
def Common.count (k : EventCode) (n : Nat) (c : Common) : Common :=
  { c with pending := c.pending.set k (c.pending.get k + BitVec.ofNat 32 n) }

/-- TAKING A FAULT (R466): what the boundary does for one instance. An instance not yet faulted whose fault draw is true
latches `faulted` and raises UNIT_FAULT; a faulted one takes no further draw (R475). -/
def Common.takeFault (c : Common) : Common :=
  if c.faulted then c else if c.faultDraw then ({ c with faulted := true } : Common).count .unitFault 1 else c

/-- Whether a code is due for report at the end of block `b` (R470); the difference is of mathematical integers. -/
def Common.due (b : U64) (interval : Nat) (k : EventCode) (c : Common) : Bool :=
  c.pending.get k != 0 &&
    match c.lastReport.get k with
    | none => true
    | some l => decide ((interval : Int) ≤ (b.toNat : Int) - (l.toNat : Int))

/-- One code's report: the packets, and the count cleared and stamped if it was due (R470). -/
def reportCode (b : U64) (interval : Nat) (cls : UnitClass) (inst : Nat) (k : EventCode)
    (r : Common × List Instr) : Common × List Instr :=
  if r.1.due b interval k then
    ({ r.1 with pending := r.1.pending.set k 0, lastReport := r.1.lastReport.set k b },
      r.2 ++ [.eventOutbound cls.code (BitVec.ofNat 4 inst) k.code (r.1.pending.get k)])
  else r

/-- One instance's reports at the end of block `b`, in increasing code (R470, R472). -/
def Common.report (b : U64) (interval : Nat) (cls : UnitClass) (inst : Nat) (c : Common) : Common × List Instr :=
  [EventCode.unitFault, .overflow, .underflow, .fallback].foldl (fun r k => reportCode b interval cls inst k r) (c, [])

/-! ### State updates -/

def State.setOsc (l : List Osc) (s : State) : State := { s with osc := l }
def State.setVca (l : List Vca) (s : State) : State := { s with vca := l }
def State.setTone (l : List Tone) (s : State) : State := { s with tone := l }
def State.setTherm (l : List Therm) (s : State) : State := { s with therm := l }
def State.setNoise (l : List Noise) (s : State) : State := { s with noise := l }
def State.setScope (l : List Scope) (s : State) : State := { s with scope := l }
def State.setBrcap (l : List Brcap) (s : State) : State := { s with brcap := l }
def State.setBrplay (l : List Brplay) (s : State) : State := { s with brplay := l }
def State.setPhase (p : Phase) (s : State) : State := { s with phase := p }
def State.setInQueue (q : List Packet) (s : State) : State := { s with inQueue := q }

/-! ### Commands on one class: the shared form of every meaning -/

def State.onOsc (inst : BitVec 4) (f : Osc → Osc) (s : State) : State := s.setOsc (onTargets inst f s.osc)
def State.onVca (inst : BitVec 4) (f : Vca → Vca) (s : State) : State := s.setVca (onTargets inst f s.vca)
def State.onTone (inst : BitVec 4) (f : Tone → Tone) (s : State) : State := s.setTone (onTargets inst f s.tone)
def State.onTherm (inst : BitVec 4) (f : Therm → Therm) (s : State) : State := s.setTherm (onTargets inst f s.therm)
def State.onNoise (inst : BitVec 4) (f : Noise → Noise) (s : State) : State := s.setNoise (onTargets inst f s.noise)
def State.onScope (inst : BitVec 4) (f : Scope → Scope) (s : State) : State := s.setScope (onTargets inst f s.scope)
def State.onBrcap (inst : BitVec 4) (f : Brcap → Brcap) (s : State) : State := s.setBrcap (onTargets inst f s.brcap)
def State.onBrplay (inst : BitVec 4) (f : Brplay → Brplay) (s : State) : State := s.setBrplay (onTargets inst f s.brplay)

/-- What a meaning answers. -/
abbrev Result := Host.Outcome State Fault Refusal

end Sys2Proof.Machine
end

