-- ==== Sys2Proof/Machine/Operands.lean ====
section
/-!
DEFINITION. The operand forms: the flag of a u32 (30_encoding.md R149), the frames of a PUSHCHUNK payload (R153), a port's sample at a
frame (00_scope.md R9, R13), the parameter tables of 10_state.md R40 to R45, and the parameter reads `kval` and `aval` (R39).
-/

namespace Sys2Proof.Machine

/-! ### Command operands -/

/-- SETDORMANT's flag (R149). -/
def flagOf (v : U32) : Bool := decide (v ≠ 0)

/-- The first `n` frames of `ch` samples of a payload (R153). -/
def framesOf (ch : Nat) : Nat → List F32 → List Frame
  | 0, _ => []
  | n + 1, xs => xs.take ch :: framesOf ch n (xs.drop ch)

/-- A u32 count clamped to a class range: `min(max(v, lo), hi)` (40_messages.md R197 to R199). -/
def clampCount (v : U32) (lo hi : Nat) : Nat := min (max v.toNat lo) hi

/-- A count in a u32 field of an outbound packet (30_encoding.md R150, R152); a count of 2^32 or more, which only a configuration
with such a window or chunk gives, does not fit: a free value (log 27). -/
def countField (n : Nat) : U32 := if n < 2 ^ 32 then BitVec.ofNat 32 n else Config.wideCount n

/-- SETWAVEFORM's operand: the modes 0 to 4, else none (R188). -/
def waveformOf (v : U32) : Option Waveform :=
  if v = 0 then some .sine
  else if v = 1 then some .saw
  else if v = 2 then some .tri
  else if v = 3 then some .pulse
  else if v = 4 then some .multi
  else none

/-! ### Ports -/

/-- The sample at frame `i` of an input array; an unconnected port, and a frame the host did not supply, is +0 (R33, log 2). -/
def port (a : Samples) (i : Nat) : F32 := a.getD i 0

/-- `san(in(u, port, i))` in binary64 (R12, R13). -/
def portSample (a : Samples) (i : Nat) : F64 := sample (port a i)

/-- One channel's array. -/
def channel (a : List Samples) (c : Nat) : Samples := a.getD c []

/-! ### Parameter tables -/

def frequencyParam (c : OscCfg) : Param := ⟨0x407B800000000000, c.fMin, c.fMax⟩
def detuneParam (c : OscCfg) : Param := ⟨f0, fneg c.detuneMax, c.detuneMax⟩
def pulseWidthParam (c : OscCfg) : Param := ⟨fHalf, c.pwMin, c.pwMax⟩
def symmetryParam (c : OscCfg) : Param := ⟨fHalf, c.pwMin, c.pwMax⟩

/-- The level gains and the purity of R40, and NOISE's level of R44: default 1 in [0, 1]. -/
def unitParam : Param := ⟨f1, f0, f1⟩

/-- A boolean parameter that defaults to 1 (`cutoffEnabled`, `enable`). -/
def onParam : Param := ⟨f1, f0, f1⟩

/-- A boolean parameter that defaults to 0 (`bypass`). -/
def offParam : Param := ⟨f0, f0, f1⟩

/-- `slewCutoff`: default 20000 in [0, 1.0e6]. -/
def slewParam : Param := ⟨0x40D3880000000000, f0, 0x412E848000000000⟩

def dialParam (c : VcaCfg) : Param := ⟨0xC028000000000000, c.dialMin, c.dialMax⟩

/-- `position` and `colour`: default 0 in [-1, 1]. -/
def tiltParam : Param := ⟨f0, fNeg1, f1⟩

/-- `triggerLevel`: default 0 in [-1000, 1000]. -/
def levelParam : Param := ⟨f0, 0xC08F400000000000, 0x408F400000000000⟩

/-- `hysteresis`: default 0 in [0, SCOPE_N_MAX]. DESIGN CHOICE (log 30): a bound that no binary64 value is, is rounded to nearest
even. -/
def hysteresisParam (c : ScopeCfg) : Param := ⟨f0, f0, ofNat c.nMax⟩

/-! ### Parameter reads (R39) -/

/-- A real k-rate parameter's value. -/
def kreal (p : Param) (reg : F64) : F64 := clampP p reg

/-- A boolean parameter's value: 1 when the clamped value is at or above 0.5. -/
def kbool (p : Param) (reg : F64) : Bool := fle fHalf (clampP p reg)

/-- An integer parameter's value: the floor of the clamped value. -/
def kint (p : Param) (reg : F64) : Nat := (floorInt (clampP p reg)).toNat

/-- An a-rate parameter at frame `i`: `clampP(P, reg + san(mod))`. A non-finite register plus a finite modulation is not finite, so
it is clamped as it stands: the parameter's default. -/
def aval (p : Param) (reg : F64) (mod : Samples) (i : Nat) : F64 :=
  if isFinite reg then clampP p (fadd reg (portSample mod i)) else clampP p reg

/-! ### The latch at the boundary (R39, 40_messages.md R180) -/

def Osc.latchParams (u : Osc) : Osc :=
  { u with
    latch :=
      { sineLevel := kreal unitParam u.reg.sineLevel
        sawLevel := kreal unitParam u.reg.sawLevel
        triLevel := kreal unitParam u.reg.triLevel
        pulseLevel := kreal unitParam u.reg.pulseLevel
        slewCutoff := kreal slewParam u.reg.slewCutoff
        purity := kreal unitParam u.reg.purity } }

def Vca.latchParams (u : Vca) : Vca :=
  { u with
    latch :=
      { dialVoltage := kreal (dialParam u.cfg) u.reg.dialVoltage
        cutoffEnabled := kbool onParam u.reg.cutoffEnabled } }

def Tone.latchParams (u : Tone) : Tone := { u with latchPosition := kreal tiltParam u.position }

def Therm.latchParams (u : Therm) : Therm := { u with latchEnable := kbool onParam u.enable }

def Noise.latchParams (u : Noise) : Noise :=
  { u with
    latch :=
      { colour := kreal tiltParam u.reg.colour
        level := kreal unitParam u.reg.level
        bypass := kbool offParam u.reg.bypass } }

def Scope.latchParams (u : Scope) : Scope :=
  { u with
    latch :=
      { triggerLevel := kreal levelParam u.reg.triggerLevel
        hysteresis := min (kint (hysteresisParam u.cfg) u.reg.hysteresis) u.cfg.nMax } }

end Sys2Proof.Machine
end

