-- ==== Sys2Proof/Machine/Bridge.lean ====
section
/-!
DEFINITION. The multichannel bridge (47_bridge.md): the block steps of BRCAP (R422, R425, R426) and BRPLAY (R430, R431, R433), and the
bridge commands of 40_messages.md: SETBUFFERSIZE, START, STOP and PUSHCHUNK. A block step is `none` where it would touch a
byte no region has.
-/

namespace Sys2Proof.Machine

/-! ### Capture -/

/-- The sanitised input frame `f`, in channel order (R422, R425). -/
def inputFrame (ch : Nat) (input : List Samples) (f : Nat) : Frame :=
  (List.range ch).map fun c => san32 (port (channel input c) f)

/-- The samples of one frame stored from channel `c` up in slot `slot`. -/
def Link.storeFrame (dir : Nat) (e : Endian) (ch slot : Nat) : Nat → Frame → Link → Option Link
  | _, [], l => some l
  | c, v :: vs, l => (l.store32 dir e (sampleOffset ch slot c) v).bind fun l' => l'.storeFrame dir e ch slot (c + 1) vs

/-- Frames stored in increasing order from slot `w` on, modulo the capacity (20_memory.md R114). -/
def Link.storeFrames (dir : Nat) (e : Endian) (ch : Nat) : Nat → List Frame → Link → Option Link
  | _, [], l => some l
  | w, v :: vs, l =>
    (l.storeFrame dir e ch (w % l.cap) 0 v).bind fun l' => l'.storeFrames dir e ch (w + 1) vs

/-- The shared-mode block (R422): the peer's index first, then the frames that fit, then the own index (R423). -/
def brcapShared (g : BlockCfg) (u : Brcap) : Option Brcap :=
  (u.link.atomicLoad captureDir g.endian readIndexOffset).bind fun (ri, l) =>
    let n := min g.q (freeFrames l.cap u.wLocal (slotOf l.cap ri))
    let w := (u.wLocal + n) % l.cap
    (l.storeFrames captureDir g.endian u.cfg.ch u.wLocal ((List.range n).map (inputFrame u.cfg.ch u.input))).bind fun l =>
      (l.atomicStore captureDir g.endian writeIndexOffset (BitVec.ofNat 32 w)).map fun l =>
        { u with
          link := l
          wLocal := w
          common := if n < g.q then u.common.count .overflow (g.q - n) else u.common }

/-- R425's loop: whole chunks of `n` frames leave the staging list; the fuel bounds the number of turns. -/
def emitChunks (n : Nat) : Nat → List Frame → List (List Frame) × List Frame
  | 0, staging => ([], staging)
  | fuel + 1, staging =>
    if n ≤ staging.length then
      let r := emitChunks n fuel (staging.drop n)
      (staging.take n :: r.1, r.2)
    else ([], staging)

/-- The CHUNK packet of instance `k`, frame-major and channel-minor (30_encoding.md R152). -/
def chunkPacket (k : Nat) (frames : List Frame) : Instr :=
  .chunkOutbound (BitVec.ofNat 4 k) (countField frames.length) frames.flatten

/-- The fallback-mode block (R425). -/
def brcapFallback (g : BlockCfg) (u : Brcap) : Brcap :=
  let staging := u.staging ++ (List.range g.q).map (inputFrame u.cfg.ch u.input)
  let r := emitChunks u.cfg.chunkFrames staging.length staging
  { u with staging := r.2, made := u.made ++ r.1 }

/-- BRCAP's block step; stopped or faulted it does nothing (R426). -/
def brcapBlock (g : BlockCfg) (u : Brcap) : Option Brcap :=
  if u.common.faulted || u.link.run == .stopped then some u
  else
    match u.link.mode with
    | .shared => brcapShared g u
    | .fallback => some (brcapFallback g u)

/-! ### Playback -/

/-- The samples of one frame read from channel `c` up of slot `slot`, sanitised (R431, R436). -/
def Link.loadFrame (dir : Nat) (e : Endian) (ch slot : Nat) : Nat → Nat → Link → Option (Frame × Link)
  | 0, _, l => some ([], l)
  | k + 1, c, l =>
    (l.load32 dir e (sampleOffset ch slot c)).bind fun (v, l) =>
      (l.loadFrame dir e ch slot k (c + 1)).map fun (vs, l) => (san32 v :: vs, l)

/-- `n` frames read in increasing order from slot `r` on, modulo the capacity. -/
def Link.loadFrames (dir : Nat) (e : Endian) (ch : Nat) : Nat → Nat → Link → Option (List Frame × Link)
  | 0, _, l => some ([], l)
  | n + 1, r, l =>
    (l.loadFrame dir e ch (r % l.cap) ch 0).bind fun (v, l) =>
      (l.loadFrames dir e ch n (r + 1)).map fun (vs, l) => (v :: vs, l)

/-- An underflow frame (R432). -/
def underflowFrame (c : BridgeCfg) (last : Frame) : Frame :=
  match c.underflow with
  | .silence => List.replicate c.ch 0
  | .hold => last

/-- Frames as one output array per channel. -/
def channelsOf (ch : Nat) (frames : List Frame) : List Samples :=
  (List.range ch).map fun c => frames.map fun f => f.getD c 0

/-- The frames that came, then the missing ones; the last frame played and the underflow count (R431, R433). -/
def Brplay.play (g : BlockCfg) (played : List Frame) (u : Brplay) : Brplay :=
  let last := played.getLastD u.lastFrame
  { u with
    lastFrame := last
    out := channelsOf u.cfg.ch (played ++ List.replicate (g.q - played.length) (underflowFrame u.cfg last))
    common := if played.length < g.q then u.common.count .underflow (g.q - played.length) else u.common }

/-- The shared-mode block (R431): the peer's index first, the frames, then the own index. -/
def brplayShared (g : BlockCfg) (u : Brplay) : Option Brplay :=
  (u.link.atomicLoad playDir g.endian writeIndexOffset).bind fun (wi, l) =>
    let n := min g.q (usedFrames l.cap (slotOf l.cap wi) u.rLocal)
    let r := (u.rLocal + n) % l.cap
    (l.loadFrames playDir g.endian u.cfg.ch n u.rLocal).bind fun (played, l) =>
      (l.atomicStore playDir g.endian readIndexOffset (BitVec.ofNat 32 r)).map fun l =>
        { (u.play g played) with link := l, rLocal := r }

/-- The fallback-mode block (R433): the oldest frames of the FIFO, sanitised (R436). -/
def brplayFallback (g : BlockCfg) (u : Brplay) : Brplay :=
  let n := min g.q u.fifo.length
  { (u.play g ((u.fifo.take n).map fun f => f.map san32)) with fifo := u.fifo.drop n }

/-- The silent output of a stopped or faulted instance (R430). -/
def Brplay.silent (g : BlockCfg) (u : Brplay) : Brplay :=
  { u with out := List.replicate u.cfg.ch (List.replicate g.q 0) }

/-- BRPLAY's block step. -/
def brplayBlock (g : BlockCfg) (u : Brplay) : Option Brplay :=
  if u.common.faulted || u.link.run == .stopped then some (u.silent g)
  else
    match u.link.mode with
    | .shared => brplayShared g u
    | .fallback => some (brplayFallback g u)

/-! ### Commands -/

/-- SETBUFFERSIZE's effect (R198, R199): only the next START's capacity. -/
def Link.setCapacity (c : BridgeCfg) (v : U32) (l : Link) : Link := { l with capNext := clampCount v c.capMin c.capMax }

/-- Whether a START finds shared memory usable (R201). -/
def Link.canShare (shm : Bool) (l : Link) : Bool := shm && !l.fallbackLatched

/-- The order on a fresh region, which neither agent has accessed. The environment's announcement is its own. -/
def Order.fresh (d : Order) : Order := { Order.reset with racy := d.racy }

/-- START's common part (R201, R202): capacity, transport, region, the one-time latch, and RUNNING. -/
def Link.start (shm : Bool) (ch : Nat) (l : Link) : Link :=
  if l.canShare shm then
    { l with
      run := .running, cap := l.capNext, mode := .shared, region := some (freshRegion l.capNext ch), order := l.order.fresh }
  else
    { l with
      run := .running, cap := l.capNext, mode := .fallback, region := none, fallbackLatched := true, order := l.order.fresh }

/-- The FALLBACK event of the first START that cannot share (R201, R461). -/
def startEvents (shm : Bool) (l : Link) (c : Common) : Common :=
  if l.canShare shm || l.fallbackLatched then c else c.count .fallback 1

def Brcap.start (shm : Bool) (u : Brcap) : Brcap :=
  { u with common := startEvents shm u.link u.common, link := u.link.start shm u.cfg.ch, wLocal := 0, staging := [] }

def Brplay.start (shm : Bool) (u : Brplay) : Brplay :=
  { u with
    common := startEvents shm u.link u.common
    link := u.link.start shm u.cfg.ch
    rLocal := 0
    fifo := []
    lastFrame := List.replicate u.cfg.ch 0 }

/-- R208 for one instance, on a packet long enough for its channel count (R146, log 12). -/
def Brplay.push (n : U32) (payload : List F32) (u : Brplay) : Brplay :=
  if u.link.run = .running ∧ u.link.mode = .fallback ∧ n.toNat * u.cfg.ch ≤ payload.length then
    let k := min n.toNat (u.link.cap - 1 - u.fifo.length)
    { u with
      fifo := u.fifo ++ framesOf u.cfg.ch k payload
      common := if k < n.toNat then u.common.count .overflow (n.toNat - k) else u.common }
  else u

/-- STOP (R190): the staged frames are discarded. -/
def execStopBrcap (inst : BitVec 4) (s : State) : Result :=
  .next (s.onBrcap inst fun u => { u with link := { u.link with run := .stopped }, staging := [] })

/-- STOP (R191). -/
def execStopBrplay (inst : BitVec 4) (s : State) : Result :=
  .next (s.onBrplay inst fun u => { u with link := { u.link with run := .stopped } })

/-- SETBUFFERSIZE (R198). -/
def execSetBufferSizeBrcap (inst : BitVec 4) (size : U32) (s : State) : Result :=
  .next (s.onBrcap inst fun u => { u with link := u.link.setCapacity u.cfg size })

/-- SETBUFFERSIZE (R199). -/
def execSetBufferSizeBrplay (inst : BitVec 4) (size : U32) (s : State) : Result :=
  .next (s.onBrplay inst fun u => { u with link := u.link.setCapacity u.cfg size })

/-- START (R201): `SHM_AVAILABLE` is sampled here. -/
def execStartBrcap (inst : BitVec 4) (s : State) : Result := .next (s.onBrcap inst (Brcap.start s.shmAvailable))

/-- START (R202). -/
def execStartBrplay (inst : BitVec 4) (s : State) : Result := .next (s.onBrplay inst (Brplay.start s.shmAvailable))

/-- PUSHCHUNK (R208). -/
def execPushChunkBrplay (inst : BitVec 4) (n : U32) (payload : List F32) (s : State) : Result :=
  .next (s.onBrplay inst (Brplay.push n payload))

end Sys2Proof.Machine
end

