-- ==== Sys2Proof/Machine/Flags.lean ====
section
/-!
DEFINITION. The status bits of 10_state.md R65 that commands and frames share: the dormant flag, its ramp gain and what makes a frame
frozen (40_messages.md R203, 70_reset_and_hazards.md R511, R512). `sInit`, `bypassed`, `run`, `mode` and `fallbackLatched`
are written where their units are.
-/

namespace Sys2Proof.Machine

/-- R511: dormant with the ramp at 0. -/
def Mute.frozen (m : Mute) : Bool := m.dormant && feq m.gain f0

/-- R512: one step of `1 / RAMP_FRAMES` toward 0 (dormant) or 1 (awake). DESIGN CHOICE: a RAMP_FRAMES that no binary64 value is,
as some above 2^53 are, is rounded to nearest even before the one division (log 30); and where the step is too small to change the
gain, the formula is followed and the gain stays, although R512 says when it reaches 0 (log 35). -/
def ramp (rampFrames : Nat) (gain : F64) (dormant : Bool) : F64 :=
  if dormant then fmax (fsub gain (fdiv f1 (ofNat rampFrames))) f0
  else fmin (fadd gain (fdiv f1 (ofNat rampFrames))) f1

/-- The ramp step of a processed frame. -/
def Mute.step (rampFrames : Nat) (m : Mute) : Mute := { m with gain := ramp rampFrames m.gain m.dormant }

/-- A frame that runs: not faulted, not frozen (00_scope.md R10). -/
def processed (c : Common) (m : Mute) : Bool := !(c.faulted || m.frozen)

/-- R203's common procedure on the flag. -/
def Mute.setDormant (f : Bool) (m : Mute) : Mute := { m with dormant := f }

/-- R203: whether a flag operand is the wake, the 1 to 0 transition. -/
def Mute.wakes (f : Bool) (m : Mute) : Bool := !f && m.dormant

end Sys2Proof.Machine
end

