-- ==== Sys2Proof/Machine/Shelving.lean ====
section
/-!
DEFINITION. The shelving filter that TONE and NOISE share and the output tone filter (43_shelving.md): coefficients, filter step, denormal
flush, the TONE frame step of R315, and the TONE commands of 40_messages.md other than SETPARAM.
-/

namespace Sys2Proof.Machine

/-- The coefficients of a position (R311). -/
structure Coeffs where
  b0 : F64
  b1 : F64
  a1 : F64
  deriving DecidableEq, Repr

/-- R311, with `p = 0` exactly the identity. -/
def coeffs (k p : F64) : Coeffs :=
  if feq p f0 then ⟨f1, f0, f0⟩
  else
    let g := fadd f1 p
    let d := fadd f1 k
    ⟨fdiv (fadd f1 (fmul g k)) d, fdiv (fsub f1 (fmul g k)) d, fdiv (fsub f1 k) d⟩

/-- One filter output (R312): the input bit for bit at `p = 0`, and +0 for a result that is not finite (R313). -/
def shelfOutput (c : Coeffs) (p x : F64) (f : ShelfState) : F64 :=
  if feq p f0 then x else san (fsub (fadd (fmul c.b0 x) (fmul c.b1 f.x1)) (fmul c.a1 f.y1))

/-- `K = 2 * FS * tau` (R50, R52). DESIGN CHOICE (log 33): R310 says K > 0, but for extreme constants that R7, R50 and R52 allow
the products underflow to +0 or overflow to an infinity; K is then that value. -/
def shelfK (fs tau : F64) : F64 := fmul (fmul f2 fs) tau

/-- The end-of-block flush of one channel's state (R314). -/
def ShelfState.flushed (th : F64) (f : ShelfState) : ShelfState := ⟨flush f.x1 th, flush f.y1 th⟩

/-- Channel `c`'s filter output at frame `i`. -/
def toneOutput (g : BlockCfg) (i : Nat) (u : Tone) (c : Nat) (f : ShelfState) : F64 :=
  shelfOutput (coeffs (shelfK g.fs u.cfg.tau) u.latchPosition) u.latchPosition (portSample (channel u.input c) i) f

/-- One more sample on every channel's output array. -/
def appendSamples (out : List Samples) (f : Nat → F32) : List Samples := out.mapIdx fun c a => a ++ [f c]

/-- A processed frame (R315): each channel by itself (40_messages.md R210). -/
def toneProcess (g : BlockCfg) (i : Nat) (u : Tone) : Tone :=
  let mute := u.mute.step u.cfg.rampFrames
  { u with
    mute := mute
    chans := u.chans.mapIdx fun c f => ⟨portSample (channel u.input c) i, toneOutput g i u c f⟩
    out := appendSamples u.out fun c => fround (fmul (toneOutput g i u c (u.chans.getD c ⟨f0, f0⟩)) mute.gain) }

/-- The frame step (R315). -/
def toneFrame (g : BlockCfg) (i : Nat) (u : Tone) : Tone :=
  if processed u.common u.mute then toneProcess g i u else { u with out := appendSamples u.out fun _ => 0 }

/-- RESYNC (R194): every channel's state, for a finite value. -/
def execResyncTone (inst : BitVec 4) (v : F64) (s : State) : Result :=
  .next (s.onTone inst fun u => if isFinite v then { u with chans := u.chans.map fun _ => ⟨v, v⟩ } else u)

/-- SETDORMANT (R203, R206). -/
def execSetDormantTone (inst : BitVec 4) (flag : U32) (s : State) : Result :=
  .next (s.onTone inst fun u =>
    let v := { u with mute := u.mute.setDormant (flagOf flag) }
    if u.mute.wakes (flagOf flag) then { v with chans := u.chans.map fun _ => ⟨f0, f0⟩ } else v)

/-- The end-of-block flush of a TONE instance (R314): frozen ones too, faulted ones not. -/
def Tone.flushBlock (u : Tone) : Tone :=
  if u.common.faulted then u else { u with chans := u.chans.map (ShelfState.flushed u.cfg.denorm) }

end Sys2Proof.Machine
end

