-- ==== Sys2Proof/Machine/Noise.lean ====
section
/-!
DEFINITION. The noise generator and colour filter (45_noise.md): the oracle's draw, the frame step of R360, and the NOISE commands of
40_messages.md other than SETPARAM.
-/

namespace Sys2Proof.Machine

/-- R361's limit on a draw, imposed on whatever the oracle gives: a finite value in [-1, 1). -/
def drawValue (w : F64) : F64 := if isFinite w && fle fNeg1 w && flt w f1 then w else f0

/-- The value of the next draw: the supplied stream's, else the free stream's (R361, log 7). -/
def Noise.draw (u : Noise) : F64 :=
  match u.draws with
  | w :: _ => drawValue w
  | [] => drawValue (Config.noiseDraw u.stream u.drawn)

/-- The stream after one draw. -/
def Noise.afterDraw (u : Noise) : Noise :=
  match u.draws with
  | _ :: ws => { u with draws := ws }
  | [] => { u with drawn := u.drawn + 1 }

/-- R362: the colour filter's output for the draw `w`. -/
def colourOutput (g : BlockCfg) (w : F64) (u : Noise) : F64 :=
  shelfOutput (coeffs (shelfK g.fs u.cfg.tau) u.latch.colour) u.latch.colour w u.filter

/-- R363: the effective bypass after the frame's switch test. -/
def nextBypass (c : NoiseCfg) (request current : Bool) (y w : F64) : Bool :=
  if request != current && fle (fabs (fsub y w)) c.switchEps then request else current

/-- A processed frame on the draw `w` (R360). -/
def noiseProcess (g : BlockCfg) (w : F64) (u : Noise) : Noise :=
  let y := colourOutput g w u
  let bypassed := nextBypass u.cfg u.latch.bypass u.bypassed y w
  let mute := u.mute.step u.cfg.rampFrames
  { u with
    filter := ⟨w, y⟩
    bypassed := bypassed
    mute := mute
    out := u.out ++ [fround (fmul (fmul (if bypassed then w else y) u.latch.level) mute.gain)] }

/-- The frame step (R360): a frozen or faulted frame takes no draw. -/
def noiseFrame (g : BlockCfg) (u : Noise) : Noise :=
  if processed u.common u.mute then noiseProcess g u.draw u.afterDraw else { u with out := u.out ++ [0] }

/-- RESYNC (R196). -/
def execResyncNoise (inst : BitVec 4) (v : F64) (s : State) : Result :=
  .next (s.onNoise inst fun u => if isFinite v then { u with filter := ⟨v, v⟩ } else u)

/-- SETDORMANT (R203, R207). -/
def execSetDormantNoise (inst : BitVec 4) (flag : U32) (s : State) : Result :=
  .next (s.onNoise inst fun u =>
    let v := { u with mute := u.mute.setDormant (flagOf flag) }
    if u.mute.wakes (flagOf flag) then { v with filter := ⟨f0, f0⟩ } else v)

/-- The end-of-block flush of a NOISE instance (R314). -/
def Noise.flushBlock (u : Noise) : Noise :=
  if u.common.faulted then u else { u with filter := u.filter.flushed u.cfg.denorm }

end Sys2Proof.Machine
end

