-- ==== Sys2Proof/Machine/Oscillator.lean ====
section
/-!
DEFINITION. The oscillator core (41_oscillator.md): the waveforms, the frame step of R240, and the OSC commands of 40_messages.md other
than SETPARAM. Expressions are evaluated in the order the rules write them (R11).
-/

namespace Sys2Proof.Machine

/-! ### Waveforms -/

/-- The PolyBLEP residual (R244). DESIGN CHOICE: where R244 gives none, the branches are taken as they are written, for an increment
that is not above 0 (log 29) and for the phase 1, which `pulseWave` can give it (log 35). -/
def blep (t dt : F64) : F64 :=
  if flt t dt then
    let x := fdiv t dt
    fsub (fsub (fadd x x) (fmul x x)) f1
  else if flt (fsub f1 dt) t then
    let x := fdiv (fsub t f1) dt
    fadd (fadd (fmul x x) (fadd x x)) f1
  else f0

/-- The asymmetric phase remap (R245). DESIGN CHOICE (log 35): R245 says that it is the identity at `s = 0.5`, but half of an odd
subnormal phase rounds; the formula is followed. -/
def remap (t s : F64) : F64 :=
  if flt t s then fdiv (fmul fHalf t) s else fadd fHalf (fdiv (fmul fHalf (fsub t s)) (fsub f1 s))

/-- R246. DESIGN CHOICE (log 35): R246 says +1 at the phase 0.5, but no law of R16 gives `F.cos` of PI; the value is the record's. -/
def pureSine (t : F64) : F64 := fneg (fCos (fmul fTwoPi t))

/-- The triangle of R246 and R249. -/
def triWave (t : F64) : F64 := if flt t fHalf then fsub (fmul f4 t) f1 else fsub f3 (fmul f4 t)

/-- The range [-1, 1] of the hybrid sine (R246). -/
def hybridInRange (y : F64) : Bool := fle fNeg1 y && fle y f1

/-- R246's range, imposed on whatever the free value is, and the two values section O5 of 95_test_vectors.md gives as exact. DEDUCED
(log 26). -/
def openHybrid (k x : F64) : F64 :=
  if feq x k then f1
  else if isZero x then f0
  else if hybridInRange (Config.openHybrid k x) then Config.openHybrid k x
  else f0

/-- R246: the quotient, in [-1, 1]. No law of R16 keeps `F.tanh(OSC_HYBRID_K)` from 0; the quotient is then no number, and the
value is a free one in the range (log 26). -/
def hybridSine (k t : F64) : F64 :=
  let x := fmul k (triWave t)
  let y := fdiv (fTanh x) (fTanh k)
  if hybridInRange y then y else openHybrid k x

/-- The purity blend (R247). -/
def sineMix (k purity t : F64) : F64 :=
  fadd (fmul purity (pureSine t)) (fmul (fsub f1 purity) (hybridSine k t))

/-- The asymmetry attenuation (R248). DESIGN CHOICE (log 35): R256 says that it is above 0, but it rounds to 0 for extreme constants;
the formula is followed. -/
def attenuation (ratio s : F64) : F64 :=
  fsub f1 (fmul (fsub f1 (fdiv f1 ratio)) (fabs (fsub (fmul f2 s) f1)))

/-- R248. -/
def sineWave (c : OscCfg) (t s purity : F64) : F64 :=
  fmul (attenuation c.attRatio s) (sineMix c.hybridK purity (remap t s))

/-- R249. -/
def sawWave (t dt : F64) : F64 := fsub (fsub (fmul f2 t) f1) (blep t dt)

/-- R249. DESIGN CHOICE (log 35): `u` can round to exactly 1, for which R244 gives no residual; its branches are
then taken as they are written, the second of which gives +1. -/
def pulseWave (t dt pw : F64) : F64 :=
  let naive := if flt t pw then f1 else fNeg1
  let d := fsub t pw
  let u := if flt d f0 then fadd d f1 else d
  fsub (fadd naive (blep t dt)) (blep u dt)

/-! ### Slew, increment, advance -/

/-- R250. -/
def slewAlpha (fs fc : F64) : F64 :=
  if feq fc f0 then f0 else clamp (fsub f1 (fExp (fdiv (fneg (fmul fTwoPi fc)) fs))) f0 f1

/-- R251. -/
def slew (y x alpha : F64) : F64 :=
  if feq alpha f1 then x else if feq alpha f0 then y else fadd y (fmul alpha (fsub x y))

/-- R252. -/
def phaseIncrement (fs f d : F64) : F64 := fdiv (fmul f (fPow f2 (fdiv d f1200))) fs

/-- The range [0, 1) of a phase (10_state.md R55). -/
def phaseInRange (p : F64) : Bool := fle f0 p && flt p f1

/-- The formula of R253: the sum, less its floor from 1 on. -/
def wrapPhase (phase dt : F64) : F64 :=
  let p := fadd phase dt
  if fle f1 p then frac p else p

/-- R253's range, imposed on whatever the free value is. -/
def openPhase (phase dt : F64) : F64 := if phaseInRange (Config.openPhase phase dt) then Config.openPhase phase dt else f0

/-- R253: the formula, and its result is in [0, 1), the invariant that wins (C5 of 90_conflicts.md). DESIGN CHOICE (log 29): where
the formula gives no value in that range, for a sum that is negative or not finite, the new phase is a free value in it. -/
def advance (phase dt : F64) : F64 := if phaseInRange (wrapPhase phase dt) then wrapPhase phase dt else openPhase phase dt

/-- R243: the rising edge of the sync input. -/
def syncEdge (prev cur : F64) : Bool := fle prev f0 && flt f0 cur

/-- The two outputs before muting (R242). -/
def oscMix (mode : Waveform) (l : OscLatch) (sine saw tri pulse : F64) : F64 × F64 :=
  match mode with
  | .sine => (fmul l.sineLevel sine, f0)
  | .saw => (fmul l.sawLevel saw, f0)
  | .tri => (fmul l.triLevel tri, f0)
  | .pulse => (fmul l.pulseLevel pulse, f0)
  | .multi =>
    (fadd (fmul l.sineLevel sine) (fmul l.sawLevel saw), fadd (fmul l.triLevel tri) (fmul l.pulseLevel pulse))

/-! ### The frame step -/

/-- A processed frame (R240). -/
def oscProcess (g : BlockCfg) (i : Nat) (u : Osc) : Osc :=
  let f := aval (frequencyParam u.cfg) u.reg.frequency u.ports.modFrequency i
  let d := aval (detuneParam u.cfg) u.reg.detune u.ports.modDetune i
  let pw := aval (pulseWidthParam u.cfg) u.reg.pulseWidth u.ports.modPulseWidth i
  let sym := aval (symmetryParam u.cfg) u.reg.symmetry u.ports.modSymmetry i
  let cur := portSample u.ports.sync i
  let t := if syncEdge u.prevSync cur then f0 else u.phase
  let dt := phaseIncrement g.fs f d
  let alpha := slewAlpha g.fs u.latch.slewCutoff
  let slewSaw := slew u.slewSaw (sawWave t dt) alpha
  let slewPulse := slew u.slewPulse (pulseWave t dt pw) alpha
  let mute := u.mute.step u.cfg.rampFrames
  let o := oscMix u.mode u.latch (sineWave u.cfg t sym u.latch.purity) slewSaw (triWave t) slewPulse
  { u with
    prevSync := cur
    slewSaw := slewSaw
    slewPulse := slewPulse
    mute := mute
    out0 := u.out0 ++ [fround (fmul o.1 mute.gain)]
    out1 := u.out1 ++ [fround (fmul o.2 mute.gain)]
    phase := advance t dt }

/-- The frame step: a frozen or faulted frame outputs +0 and changes no state (R241). -/
def oscFrame (g : BlockCfg) (i : Nat) (u : Osc) : Osc :=
  if processed u.common u.mute then oscProcess g i u else { u with out0 := u.out0 ++ [0], out1 := u.out1 ++ [0] }

/-! ### Commands -/

/-- SETWAVEFORM (R188): a mode above 4 is ignored. -/
def execSetWaveformOsc (inst : BitVec 4) (mode : U32) (s : State) : Result :=
  .next (s.onOsc inst fun u =>
    match waveformOf mode with
    | some m => { u with mode := m }
    | none => u)

/-- RESETPHASE (R189). -/
def execResetPhaseOsc (inst : BitVec 4) (s : State) : Result :=
  .next (s.onOsc inst fun u => { u with phase := f0 })

/-- RESYNC (R192): both slew states, for a finite value. -/
def execResyncOsc (inst : BitVec 4) (v : F64) (s : State) : Result :=
  .next (s.onOsc inst fun u => if isFinite v then { u with slewSaw := v, slewPulse := v } else u)

/-- SETDORMANT (R203, R204). -/
def execSetDormantOsc (inst : BitVec 4) (flag : U32) (s : State) : Result :=
  .next (s.onOsc inst fun u =>
    let v := { u with mute := u.mute.setDormant (flagOf flag) }
    if u.mute.wakes (flagOf flag) then { v with prevSync := f0, slewSaw := f0, slewPulse := f0 } else v)

end Sys2Proof.Machine
end

