-- ==== Sys2Proof/Machine/Oscilloscope.lean ====
section
/-!
DEFINITION. The oscilloscope capture engine (46_scope.md): the ring, the trigger search, the capture of R384, the frame step of R380, and
the SCOPE commands of 40_messages.md other than SETPARAM.
-/

namespace Sys2Proof.Machine

/-! ### The buffered view (R381) -/

/-- The ring position of view index `k` in a ring of `2N` samples of which the `l` before `w` are buffered. -/
def ringPosition (n w l k : Nat) : Nat := (w + 2 * n - l + k) % (2 * n)

/-- The buffered samples of one channel, oldest first. -/
def bufferedView (n w l : Nat) (buf : Samples) : Samples :=
  (List.range l).map fun k => buf.getD (ringPosition n w l k) 0

/-! ### The trigger search (R385, R386) -/

/-- A rising edge of the Y view at `j`: `Yv[j-1] < lev ≤ Yv[j]` (R385). -/
def risingEdge (yv : Samples) (lev : F64) (j : Nat) : Bool :=
  flt (widen (yv.getD (j - 1) 0)) lev && fle lev (widen (yv.getD j 0))

/-- The search's countdown and the candidates accepted so far. -/
structure Search where
  holdoff : Nat
  found : List Nat
  deriving DecidableEq, Repr

/-- One scanned transition (R386): the countdown first, then the edge test. -/
def scanAt (yv : Samples) (lev : F64) (h : Nat) (r : Search) (j : Nat) : Search :=
  if r.holdoff - 1 = 0 ∧ risingEdge yv lev j = true then ⟨max 1 h, r.found ++ [j]⟩ else ⟨r.holdoff - 1, r.found⟩

/-- The whole search: `j` from 1 to `L - N` in increasing order, the countdown starting at 0 (R385, R386). DESIGN CHOICE (log 35): R396
says that two candidates are found from `N = 960` on, but R385's range, which is followed, can hold one at 960. -/
def searchTriggers (yv : Samples) (lev : F64) (h n l : Nat) : Search :=
  (List.range' 1 (l - n)).foldl (scanAt yv lev h) ⟨0, []⟩

/-! ### Choosing a trigger (R387 to R389) -/

/-- The smallest integer at or above `d / p` for `p ≥ 1`. -/
def ceilDiv (d : Int) (p : Nat) : Int := -((-d) / (p : Int))

/-- The predicted absolute position (R388). -/
def predicted (a0 : Int) (firstCandidate : Nat) (anchor : U64) (period : Nat) : Int :=
  (anchor.toNat : Int) + max 1 (ceilDiv (a0 + (firstCandidate : Int) - (anchor.toNat : Int)) period) * (period : Int)

/-- The candidate whose absolute position is nearest `pred`, the earlier on a tie (R388). -/
def nearest (a0 pred : Int) : Nat → List Nat → Nat
  | best, [] => best
  | best, j :: js =>
    if (a0 + (j : Int) - pred).natAbs < (a0 + (best : Int) - pred).natAbs then nearest a0 pred j js
    else nearest a0 pred best js

/-- The chosen trigger of a non-empty candidate list `j :: js` (R387, R388). -/
def chooseTrigger (a0 : Int) (anchor : Option U64) (period : Option Nat) (j : Nat) (js : List Nat) : Nat :=
  match anchor, period with
  | some a, some p => nearest a0 (predicted a0 j a p) j js
  | _, _ => j

/-! ### The capture (R384) -/

/-- What a capture decides before it extracts the window. -/
structure Decision where
  triggered : Bool
  start : Nat
  valid : Nat
  anchor : Option U64
  period : Option Nat
  deriving DecidableEq, Repr

/-- R384: the window's start and valid count and the new trigger state. -/
def decideCapture (n l : Nat) (a0 : Int) (anchor : Option U64) (period : Option Nat) (found : List Nat) : Decision :=
  match found with
  | [] => { triggered := false, start := l - n, valid := n, anchor := none, period := none }
  | [j] =>
    { triggered := true, start := j, valid := n, anchor := some (BitVec.ofInt 64 (a0 + (j : Int))), period := period }
  | j :: j' :: js =>
    let t := chooseTrigger a0 anchor period j (j' :: js)
    { triggered := true, start := t, valid := n / (j' - j) * (j' - j), anchor := some (BitVec.ofInt 64 (a0 + (t : Int)))
      period := some (j' - j) }

/-- The window of `n` samples from `start`, padded past `valid` with the last valid sample (R390). -/
def extractWindow (n start valid : Nat) (view : Samples) : Samples :=
  (List.range n).map fun k => view.getD (start + if k < valid then k else valid - 1) 0

/-- The capture's decision for an instance, with the search's final countdown. -/
def Scope.decision (u : Scope) : Decision × Nat :=
  let r := searchTriggers (bufferedView u.n u.w u.filled u.bufY) u.latch.triggerLevel u.latch.hysteresis u.n u.filled
  (decideCapture u.n u.filled ((u.total.toNat : Int) - (u.filled : Int)) u.anchor u.period r.found, r.holdoff)

/-- The contents of the CAPTURE packet of a decision (R390, R391). -/
def Scope.window (d : Decision) (u : Scope) : Capture :=
  { triggered := d.triggered, valid := d.valid, n := u.n
    ys := extractWindow u.n d.start d.valid (bufferedView u.n u.w u.filled u.bufY)
    xs := extractWindow u.n d.start d.valid (bufferedView u.n u.w u.filled u.bufX) }

/-- R384: the packet emitted, the trigger state updated. -/
def Scope.capture (u : Scope) : Scope :=
  { u with
    anchor := u.decision.1.anchor
    period := u.decision.1.period
    holdoff := u.decision.2
    made := u.made ++ [u.window u.decision.1] }

/-- The CAPTURE packet of instance `k` (30_encoding.md R150). -/
def Capture.packet (rate : F64) (k : Nat) (c : Capture) : Instr :=
  .captureOutbound (BitVec.ofNat 4 k) c.triggered (countField c.valid) (countField c.n) rate c.ys c.xs

/-! ### The frame step (R380) -/

/-- The ring write of one frame. -/
def Scope.write (y x : F32) (u : Scope) : Scope :=
  { u with
    bufY := u.bufY.set u.w y
    bufX := u.bufX.set u.w x
    w := (u.w + 1) % (2 * u.n)
    filled := min (u.filled + 1) (2 * u.n)
    total := u.total + 1
    newCount := u.newCount + 1 }

/-- The frame step (R380, R393): a capture fires when N new samples have been written. -/
def scopeFrame (i : Nat) (u : Scope) : Scope :=
  if u.common.faulted then u
  else
    let v := u.write (fround (portSample u.inY i)) (fround (portSample u.inX i))
    if v.newCount = v.n then { v.capture with newCount := 0 } else v

/-! ### Commands -/

/-- R197: the window size clamped, ring and trigger state cleared. -/
def Scope.resize (v : U32) (u : Scope) : Scope :=
  let n := clampCount v u.cfg.nMin u.cfg.nMax
  { u with
    n := n, bufY := List.replicate (2 * n) 0, bufX := List.replicate (2 * n) 0
    w := 0, filled := 0, newCount := 0, total := 0, anchor := none, period := none, holdoff := 0 }

/-- SETBUFFERSIZE (R197). -/
def execSetBufferSizeScope (inst : BitVec 4) (size : U32) (s : State) : Result := .next (s.onScope inst (Scope.resize size))

/-- SETTRIGGERLEVEL (R200): the register of SETPARAM SCOPE pidx 0. -/
def execSetTriggerLevelScope (inst : BitVec 4) (level : F64) (s : State) : Result :=
  .next (s.onScope inst fun u => { u with reg := { u.reg with triggerLevel := level } })

end Sys2Proof.Machine
end

