-- ==== Sys2Proof/Machine/Vca.lean ====
section
/-!
DEFINITION. The voltage-controlled amplifier (42_vca.md): the frame step of R280 and the VCA commands of 40_messages.md other than
SETPARAM. The gain is computed per frame (R289).
-/

namespace Sys2Proof.Machine

/-- The coefficient `1 - exp(-1 / (tau * fs))` of a one-pole filter, 1 for a time constant that is not positive (R284, R51). DESIGN
CHOICE (log 33): a product `tau * fs` that underflows or overflows is used as it stands. -/
def onePoleRate (fs tau : F64) : F64 := if flt f0 tau then fsub f1 (fExp (fdiv fNeg1 (fmul tau fs))) else f1

/-- R284; a filter output that is not finite becomes +0 before it is stored, so that "NaN never reaches `s`" (R283, decision D4
of 92_eei_decisions.md). -/
def smooth (beta s vRaw : F64) : F64 := if feq beta f1 then vRaw else san (fadd s (fmul beta (fsub vRaw s)))

/-- R285. DESIGN CHOICE: a product or difference of constants that underflows or overflows is used as it stands (log 33); R285 says
that the curve does not reach `VCA_VHARD`, but R16 allows `F.tanh` to be 1, and the formula, which is followed, then gives it or, by
rounding, passes it (log 35). -/
def saturate (c : VcaCfg) (v : F64) : F64 :=
  let r := fsub c.vHard c.vLin
  if fle v c.vLin then v
  else if fle r f0 then c.vLin
  else fadd c.vLin (fmul r (fTanh (fdiv (fsub v c.vLin) (fmul r c.soft))))

/-- R286: the gain of a saturated voltage. DESIGN CHOICE (log 35): the formula is followed, and the range R286 gives the gain is not
imposed on it, since constants of R49 and the laws of R16 allow a gain outside. -/
def gainOf (c : VcaCfg) (v : F64) : F64 :=
  let gDb := fmul v c.dbPerVolt
  if flt gDb c.silenceDb then f0 else fPow f10 (fdiv gDb f20)

/-- R287: the mechanical cutoff. -/
def cutoff (c : VcaCfg) (l : VcaLatch) : Bool := l.cutoffEnabled && fle l.dialVoltage c.dialMin

/-- R282. -/
def rawVoltage (c : VcaCfg) (l : VcaLatch) (cv : F64) : F64 := fadd l.dialVoltage (fmul cv c.cvScale)

/-- R288's output; R283 keeps a NaN from it, as the product of a zero and an infinite gain gives: +0 (log 28). -/
def vcaOutput (x gain muteGain : F64) : F32 :=
  let y := fmul (fmul x gain) muteGain
  if isNaN y then 0 else fround y

/-- A processed frame (R280). -/
def vcaProcess (g : BlockCfg) (i : Nat) (u : Vca) : Vca :=
  let x := portSample u.input i
  let vRaw := rawVoltage u.cfg u.latch (portSample u.cv i)
  let mute := u.mute.step u.cfg.rampFrames
  if isFinite vRaw then
    let s := if u.sInit then smooth (onePoleRate g.fs u.cfg.smoothTau) u.s vRaw else vRaw
    let gain := gainOf u.cfg (saturate u.cfg s)
    let o := if cutoff u.cfg u.latch || feq gain f0 then 0 else vcaOutput x gain mute.gain
    { u with mute := mute, s := s, sInit := true, out := u.out ++ [o] }
  else { u with mute := mute, out := u.out ++ [0] }

/-- The frame step: a frozen or faulted frame outputs +0 and changes no state (R281). -/
def vcaFrame (g : BlockCfg) (i : Nat) (u : Vca) : Vca :=
  if processed u.common u.mute then vcaProcess g i u else { u with out := u.out ++ [0] }

/-- RESYNC (R193): the smoothing state, for a finite value. -/
def execResyncVca (inst : BitVec 4) (v : F64) (s : State) : Result :=
  .next (s.onVca inst fun u => if isFinite v then { u with s := v, sInit := true } else u)

/-- SETDORMANT (R203, R205). -/
def execSetDormantVca (inst : BitVec 4) (flag : U32) (s : State) : Result :=
  .next (s.onVca inst fun u =>
    let v := { u with mute := u.mute.setDormant (flagOf flag) }
    if u.mute.wakes (flagOf flag) then { v with sInit := false } else v)

end Sys2Proof.Machine
end

