-- ==== Sys2Proof/Machine/Thermal.lean ====
section
/-!
DEFINITION. The thermal slew emulator (44_thermal.md): the frame step of R340 and the THERM command of 40_messages.md other than SETPARAM.
-/

namespace Sys2Proof.Machine

/-- R51 and R341: the rate of a time constant. -/
def thermRate (fs tau : F64) : F64 := onePoleRate fs tau

/-- The updated `cur` of an enabled frame (R340): a slewing step past the threshold, else a snap. DESIGN CHOICE (log 34): R343 derives
that a constant input is reached in finitely many frames, but a step past the threshold may be too small to change `cur` under
R11's rounding; the model follows R340's formula, and `cur` then stays. -/
def thermNext (g : BlockCfg) (c : ThermCfg) (cur x : F64) : F64 :=
  let delta := fsub x cur
  if flt c.threshold (fabs delta) then
    fadd cur (fmul (if flt f0 delta then thermRate g.fs c.tauHeat else thermRate g.fs c.tauCool) delta)
  else x

/-- The frame step (R340): a faulted frame outputs +0; a bypassed one its input, `cur` unchanged (R342). -/
def thermFrame (g : BlockCfg) (i : Nat) (u : Therm) : Therm :=
  if u.common.faulted then { u with out := u.out ++ [0] }
  else
    let x := portSample u.input i
    if u.latchEnable then
      let cur := thermNext g u.cfg u.cur x
      { u with cur := cur, out := u.out ++ [fround cur] }
    else { u with out := u.out ++ [fround x] }

/-- RESYNC (R195): for a finite value, enabled or not. -/
def execResyncTherm (inst : BitVec 4) (v : F64) (s : State) : Result :=
  .next (s.onTherm inst fun u => if isFinite v then { u with cur := v } else u)

end Sys2Proof.Machine
end

