-- ==== Sys2Proof/Machine/Block.lean ====
section
/-!
DEFINITION. The block schedule of 70_reset_and_hazards.md R510 after the boundary's commands: the k-rate latch and the fault draws, the
frames 0 to Q-1 of the six sample classes, the bridges' block steps, and the end of the block (flush, packets in the order of
R513, reports of 60_exceptions.md R470, the block counter).
-/

namespace Sys2Proof.Machine

/-! ### The boundary after its commands -/

def Osc.begin (u : Osc) : Osc := { u.latchParams with common := u.common.takeFault, out0 := [], out1 := [] }
def Vca.begin (u : Vca) : Vca := { u.latchParams with common := u.common.takeFault, out := [] }
def Tone.begin (u : Tone) : Tone :=
  { u.latchParams with common := u.common.takeFault, out := List.replicate u.cfg.ch [] }
def Therm.begin (u : Therm) : Therm := { u.latchParams with common := u.common.takeFault, out := [] }
def Noise.begin (u : Noise) : Noise := { u.latchParams with common := u.common.takeFault, out := [] }
def Scope.begin (u : Scope) : Scope := { u.latchParams with common := u.common.takeFault }
def Brcap.begin (u : Brcap) : Brcap := { u with common := u.common.takeFault }
def Brplay.begin (u : Brplay) : Brplay :=
  { u with common := u.common.takeFault, out := List.replicate u.cfg.ch [] }

/-- Latch, then fault draws, for every instance (40_messages.md R180, 60_exceptions.md R466); output arrays start empty. -/
def beginBlock (s : State) : State :=
  { s with
    phase := .frame 0
    osc := s.osc.map Osc.begin
    vca := s.vca.map Vca.begin
    tone := s.tone.map Tone.begin
    therm := s.therm.map Therm.begin
    noise := s.noise.map Noise.begin
    scope := s.scope.map Scope.begin
    brcap := s.brcap.map Brcap.begin
    brplay := s.brplay.map Brplay.begin }

/-! ### Frames -/

/-- After frame `i` comes frame `i + 1`, or the bridges after the last. -/
def phaseAfter (q i : Nat) : Phase := if i + 1 < q then .frame (i + 1) else .bridges

/-- Frame `i` of every OSC, VCA, TONE, THERM, NOISE and SCOPE instance; the order among units does not matter (log 17). -/
def frameStep (i : Nat) (s : State) : State :=
  { s with
    phase := phaseAfter s.cfg.q i
    osc := s.osc.map (oscFrame s.cfg i)
    vca := s.vca.map (vcaFrame s.cfg i)
    tone := s.tone.map (toneFrame s.cfg i)
    therm := s.therm.map (thermFrame s.cfg i)
    noise := s.noise.map (noiseFrame s.cfg)
    scope := s.scope.map (scopeFrame i) }

/-! ### Bridges -/

/-- Every element's result, if each has one. -/
def mapAll {α β : Type} (f : α → Option β) : List α → Option (List β)
  | [] => some []
  | a :: as => (f a).bind fun b => (mapAll f as).map fun bs => b :: bs

/-- The block step of every BRCAP and BRPLAY instance. -/
def bridgeStep (s : State) : Option State :=
  (mapAll (brcapBlock s.cfg) s.brcap).bind fun c =>
    (mapAll (brplayBlock s.cfg) s.brplay).map fun p => { s with phase := .endOfBlock, brcap := c, brplay := p }

/-! ### The end of the block -/

/-- The EVENT packets of one class, by increasing instance and code (R472). -/
def classReports (s : State) (cls : UnitClass) (cs : List Common) : List Instr :=
  (cs.mapIdx fun k c => (c.report s.blockIndex s.cfg.logInterval cls k).2).flatten

/-- The CAPTURE packets, then the CHUNK packets (R513). -/
def dataPackets (s : State) : List Instr :=
  (s.scope.mapIdx fun k u => u.made.map (Capture.packet s.cfg.fs k)).flatten ++
    (s.brcap.mapIdx fun k u => u.made.map (chunkPacket k)).flatten

/-- Every EVENT packet of the block, by increasing class (R472). -/
def eventPackets (s : State) : List Instr :=
  classReports s .osc (s.osc.map Osc.common) ++ classReports s .vca (s.vca.map Vca.common) ++
    classReports s .tone (s.tone.map Tone.common) ++ classReports s .therm (s.therm.map Therm.common) ++
    classReports s .noise (s.noise.map Noise.common) ++ classReports s .scope (s.scope.map Scope.common) ++
    classReports s .brcap (s.brcap.map Brcap.common) ++ classReports s .brplay (s.brplay.map Brplay.common)

/-- One instance's counts after the block's reports. -/
def settled (s : State) (c : Common) : Common := (c.report s.blockIndex s.cfg.logInterval .osc 0).1

/-- Flush, packets, reports, `blockIndex + 1` (R510). -/
def endBlock (s : State) : State :=
  { s with
    phase := .boundary
    blockIndex := s.blockIndex + 1
    outQueue := s.outQueue ++ dataPackets s ++ eventPackets s
    osc := s.osc.map fun u => { u with common := settled s u.common }
    vca := s.vca.map fun u => { u with common := settled s u.common }
    tone := s.tone.map fun u => { u.flushBlock with common := settled s u.common }
    therm := s.therm.map fun u => { u with common := settled s u.common }
    noise := s.noise.map fun u => { u.flushBlock with common := settled s u.common }
    scope := s.scope.map fun u => { u with common := settled s u.common, made := [] }
    brcap := s.brcap.map fun u => { u with common := settled s u.common, made := [] }
    brplay := s.brplay.map fun u => { u with common := settled s u.common } }

end Sys2Proof.Machine
end

