-- ==== Sys2Proof/Machine/ConfigCheck.lean ====
section
/-!
DEFINITION. The constraints on a configuration (00_scope.md R7, R19; 10_state.md R47 to R54). A configuration outside them is refused
(60_exceptions.md R483, I17). Every real constant is finite, as 42_vca.md R283 says of the configuration (log 14).
-/

namespace Sys2Proof.Machine

/-- FS finite and above 0, Q at least 1 (R7). -/
def blockCfgOk (c : BlockCfg) : Bool := isFinite c.fs && flt f0 c.fs && decide (1 ≤ c.q)

/-- R47, R48. -/
def oscCfgOk (c : OscCfg) : Bool :=
  decide (1 ≤ c.rampFrames) && isFinite c.fMin && isFinite c.fMax && isFinite c.detuneMax && isFinite c.attRatio &&
    isFinite c.hybridK && flt f0 c.fMin && fle c.fMin c.fMax && fle f0 c.detuneMax && flt f0 c.pwMin &&
    flt c.pwMin fHalf && flt fHalf c.pwMax && flt c.pwMax f1 && fle f1 c.attRatio && flt f0 c.hybridK

/-- R47, R49. -/
def vcaCfgOk (c : VcaCfg) : Bool :=
  decide (1 ≤ c.rampFrames) && isFinite c.dialMin && isFinite c.dialMax && isFinite c.cvScale && isFinite c.dbPerVolt &&
    isFinite c.silenceDb && isFinite c.vLin && isFinite c.vHard && isFinite c.soft && isFinite c.smoothTau &&
    flt c.dialMin c.dialMax && flt f0 c.soft && fle f0 c.smoothTau

/-- R47, R50. -/
def toneCfgOk (c : ToneCfg) : Bool :=
  decide (1 ≤ c.rampFrames) && isFinite c.denorm && isFinite c.tau && flt f0 c.denorm && flt f0 c.tau &&
    decide (1 ≤ c.ch) && decide (c.ch ≤ 8)

/-- R51. -/
def thermCfgOk (c : ThermCfg) : Bool :=
  isFinite c.threshold && isFinite c.tauHeat && isFinite c.tauCool && fle f0 c.threshold && fle f0 c.tauHeat &&
    fle f0 c.tauCool

/-- R47, R52. -/
def noiseCfgOk (c : NoiseCfg) : Bool :=
  decide (1 ≤ c.rampFrames) && isFinite c.denorm && isFinite c.tau && isFinite c.switchEps && flt f0 c.denorm &&
    flt f0 c.tau && fle f0 c.switchEps

/-- R53, with no upper limit on `N` (log 27). DEDUCED (log 14): a window holds at least one sample, since `w` of R61 ranges over
`0 .. 2N-1`. -/
def scopeCfgOk (c : ScopeCfg) : Bool :=
  decide (1 ≤ c.nMin) && decide (c.nMin ≤ c.nDefault) && decide (c.nDefault ≤ c.nMax)

/-- R54. DEDUCED (log 14): the least and the default capacity are at least 2 (I17), the default is at most `BR_CAP_MAX` (R19's
`cap ≤ BR_CAP_MAX`), and every index fits an i32 (R54). No order between `BR_CAP_MIN` and the other two is asked for. -/
def bridgeCfgOk (c : BridgeCfg) : Bool :=
  decide (1 ≤ c.ch) && decide (c.ch ≤ 32) && decide (2 ≤ c.capMin) && decide (2 ≤ c.capDefault) &&
    decide (c.capDefault ≤ c.capMax) && decide (c.capMax ≤ 2 ^ 31) && decide (1 ≤ c.chunkFrames)

/-- At most 15 instances of each class (R7). -/
def instancesOk (s : State) : Bool :=
  decide (s.osc.length ≤ 15) && decide (s.vca.length ≤ 15) && decide (s.tone.length ≤ 15) && decide (s.therm.length ≤ 15) &&
    decide (s.noise.length ≤ 15) && decide (s.scope.length ≤ 15) && decide (s.brcap.length ≤ 15) &&
    decide (s.brplay.length ≤ 15)

/-- The whole configuration is one a block can be constructed with. -/
def State.configOk (s : State) : Bool :=
  blockCfgOk s.cfg && instancesOk s && s.osc.all (fun u => oscCfgOk u.cfg) && s.vca.all (fun u => vcaCfgOk u.cfg) &&
    s.tone.all (fun u => toneCfgOk u.cfg) && s.therm.all (fun u => thermCfgOk u.cfg) &&
    s.noise.all (fun u => noiseCfgOk u.cfg) && s.scope.all (fun u => scopeCfgOk u.cfg) &&
    s.brcap.all (fun u => bridgeCfgOk u.cfg) && s.brplay.all (fun u => bridgeCfgOk u.cfg)

end Sys2Proof.Machine
end

