-- ==== Sys2Proof/Machine/Outbound.lean ====
section
/-!
DEFINITION. The outbound rows of the opcode table (30_encoding.md R150 to R152). The block emits them (Machine/Block.lean); received
inbound, each is ignored: it changes no state and produces no packet (R154).
-/

namespace Sys2Proof.Machine

/-- Received inbound: ignored (R154). -/
def execCaptureOutbound (_inst : BitVec 4) (_triggered : Bool) (_valid _n : U32) (_rate : F64) (_ys _xs : List F32)
    (s : State) : Result := .next s

/-- Received inbound: ignored (R154). -/
def execEventOutbound (_cls _inst : BitVec 4) (_code : BitVec 8) (_count : U32) (s : State) : Result := .next s

/-- Received inbound: ignored (R154). -/
def execChunkOutbound (_inst : BitVec 4) (_n : U32) (_samples : List F32) (s : State) : Result := .next s

end Sys2Proof.Machine
end

