-- ==== Sys2Proof/Machine/SetParam.lean ====
section
/-!
DEFINITION. SETPARAM (40_messages.md R181 to R187): the operand's bit pattern is stored unchanged in the addressed register of every
targeted instance; nothing else changes. Clamping is at each read (R39).
-/

namespace Sys2Proof.Machine

/-! ### OSC (R182) -/

/-- `u.frequency.reg <- v` (R182). -/
def execSetParamOscFrequency (inst : BitVec 4) (v : F64) (s : State) : Result :=
  .next (s.onOsc inst fun u => { u with reg := { u.reg with frequency := v } })

/-- `u.detune.reg <- v` (R182). -/
def execSetParamOscDetune (inst : BitVec 4) (v : F64) (s : State) : Result :=
  .next (s.onOsc inst fun u => { u with reg := { u.reg with detune := v } })

/-- `u.pulseWidth.reg <- v` (R182). -/
def execSetParamOscPulseWidth (inst : BitVec 4) (v : F64) (s : State) : Result :=
  .next (s.onOsc inst fun u => { u with reg := { u.reg with pulseWidth := v } })

/-- `u.symmetry.reg <- v` (R182). -/
def execSetParamOscSymmetry (inst : BitVec 4) (v : F64) (s : State) : Result :=
  .next (s.onOsc inst fun u => { u with reg := { u.reg with symmetry := v } })

/-- `u.sineLevel.reg <- v` (R182). -/
def execSetParamOscSineLevel (inst : BitVec 4) (v : F64) (s : State) : Result :=
  .next (s.onOsc inst fun u => { u with reg := { u.reg with sineLevel := v } })

/-- `u.sawLevel.reg <- v` (R182). -/
def execSetParamOscSawLevel (inst : BitVec 4) (v : F64) (s : State) : Result :=
  .next (s.onOsc inst fun u => { u with reg := { u.reg with sawLevel := v } })

/-- `u.triLevel.reg <- v` (R182). -/
def execSetParamOscTriLevel (inst : BitVec 4) (v : F64) (s : State) : Result :=
  .next (s.onOsc inst fun u => { u with reg := { u.reg with triLevel := v } })

/-- `u.pulseLevel.reg <- v` (R182). -/
def execSetParamOscPulseLevel (inst : BitVec 4) (v : F64) (s : State) : Result :=
  .next (s.onOsc inst fun u => { u with reg := { u.reg with pulseLevel := v } })

/-- `u.slewCutoff.reg <- v` (R182). -/
def execSetParamOscSlewCutoff (inst : BitVec 4) (v : F64) (s : State) : Result :=
  .next (s.onOsc inst fun u => { u with reg := { u.reg with slewCutoff := v } })

/-- `u.purity.reg <- v` (R182). -/
def execSetParamOscPurity (inst : BitVec 4) (v : F64) (s : State) : Result :=
  .next (s.onOsc inst fun u => { u with reg := { u.reg with purity := v } })

/-! ### VCA (R183) -/

/-- `u.dialVoltage.reg <- v` (R183). -/
def execSetParamVcaDialVoltage (inst : BitVec 4) (v : F64) (s : State) : Result :=
  .next (s.onVca inst fun u => { u with reg := { u.reg with dialVoltage := v } })

/-- `u.cutoffEnabled.reg <- v` (R183). -/
def execSetParamVcaCutoffEnabled (inst : BitVec 4) (v : F64) (s : State) : Result :=
  .next (s.onVca inst fun u => { u with reg := { u.reg with cutoffEnabled := v } })

/-! ### TONE (R184) -/

/-- `u.position.reg <- v` (R184). -/
def execSetParamTonePosition (inst : BitVec 4) (v : F64) (s : State) : Result :=
  .next (s.onTone inst fun u => { u with position := v })

/-! ### THERM (R185) -/

/-- `u.enable.reg <- v` (R185). -/
def execSetParamThermEnable (inst : BitVec 4) (v : F64) (s : State) : Result :=
  .next (s.onTherm inst fun u => { u with enable := v })

/-! ### NOISE (R186) -/

/-- `u.colour.reg <- v` (R186). -/
def execSetParamNoiseColour (inst : BitVec 4) (v : F64) (s : State) : Result :=
  .next (s.onNoise inst fun u => { u with reg := { u.reg with colour := v } })

/-- `u.level.reg <- v` (R186). -/
def execSetParamNoiseLevel (inst : BitVec 4) (v : F64) (s : State) : Result :=
  .next (s.onNoise inst fun u => { u with reg := { u.reg with level := v } })

/-- `u.bypass.reg <- v` (R186). -/
def execSetParamNoiseBypass (inst : BitVec 4) (v : F64) (s : State) : Result :=
  .next (s.onNoise inst fun u => { u with reg := { u.reg with bypass := v } })

/-! ### SCOPE (R187) -/

/-- `u.triggerLevel.reg <- v` (R187). -/
def execSetParamScopeTriggerLevel (inst : BitVec 4) (v : F64) (s : State) : Result :=
  .next (s.onScope inst fun u => { u with reg := { u.reg with triggerLevel := v } })

/-- `u.hysteresis.reg <- v` (R187). -/
def execSetParamScopeHysteresis (inst : BitVec 4) (v : F64) (s : State) : Result :=
  .next (s.onScope inst fun u => { u with reg := { u.reg with hysteresis := v } })

end Sys2Proof.Machine
end

