-- ==== Sys2Proof/Machine/Dispatch.lean ====
section
/-!
DEFINITION. One arm per row of the opcode table: what a received packet does to the state at the boundary (40_messages.md R180).
-/

namespace Sys2Proof.Machine

def exec (i : Instr) (s : State) : Host.Outcome State Fault Refusal :=
  match i with
  | .setParamOscFrequency inst v => Sys2Proof.Machine.execSetParamOscFrequency inst v s
  | .setParamOscDetune inst v => Sys2Proof.Machine.execSetParamOscDetune inst v s
  | .setParamOscPulseWidth inst v => Sys2Proof.Machine.execSetParamOscPulseWidth inst v s
  | .setParamOscSymmetry inst v => Sys2Proof.Machine.execSetParamOscSymmetry inst v s
  | .setParamOscSineLevel inst v => Sys2Proof.Machine.execSetParamOscSineLevel inst v s
  | .setParamOscSawLevel inst v => Sys2Proof.Machine.execSetParamOscSawLevel inst v s
  | .setParamOscTriLevel inst v => Sys2Proof.Machine.execSetParamOscTriLevel inst v s
  | .setParamOscPulseLevel inst v => Sys2Proof.Machine.execSetParamOscPulseLevel inst v s
  | .setParamOscSlewCutoff inst v => Sys2Proof.Machine.execSetParamOscSlewCutoff inst v s
  | .setParamOscPurity inst v => Sys2Proof.Machine.execSetParamOscPurity inst v s
  | .setParamVcaDialVoltage inst v => Sys2Proof.Machine.execSetParamVcaDialVoltage inst v s
  | .setParamVcaCutoffEnabled inst v => Sys2Proof.Machine.execSetParamVcaCutoffEnabled inst v s
  | .setParamTonePosition inst v => Sys2Proof.Machine.execSetParamTonePosition inst v s
  | .setParamThermEnable inst v => Sys2Proof.Machine.execSetParamThermEnable inst v s
  | .setParamNoiseColour inst v => Sys2Proof.Machine.execSetParamNoiseColour inst v s
  | .setParamNoiseLevel inst v => Sys2Proof.Machine.execSetParamNoiseLevel inst v s
  | .setParamNoiseBypass inst v => Sys2Proof.Machine.execSetParamNoiseBypass inst v s
  | .setParamScopeTriggerLevel inst v => Sys2Proof.Machine.execSetParamScopeTriggerLevel inst v s
  | .setParamScopeHysteresis inst v => Sys2Proof.Machine.execSetParamScopeHysteresis inst v s
  | .setWaveformOsc inst mode => Sys2Proof.Machine.execSetWaveformOsc inst mode s
  | .resetPhaseOsc inst => Sys2Proof.Machine.execResetPhaseOsc inst s
  | .stopBrcap inst => Sys2Proof.Machine.execStopBrcap inst s
  | .stopBrplay inst => Sys2Proof.Machine.execStopBrplay inst s
  | .resyncOsc inst v => Sys2Proof.Machine.execResyncOsc inst v s
  | .resyncVca inst v => Sys2Proof.Machine.execResyncVca inst v s
  | .resyncTone inst v => Sys2Proof.Machine.execResyncTone inst v s
  | .resyncTherm inst v => Sys2Proof.Machine.execResyncTherm inst v s
  | .resyncNoise inst v => Sys2Proof.Machine.execResyncNoise inst v s
  | .setBufferSizeScope inst size => Sys2Proof.Machine.execSetBufferSizeScope inst size s
  | .setBufferSizeBrcap inst size => Sys2Proof.Machine.execSetBufferSizeBrcap inst size s
  | .setBufferSizeBrplay inst size => Sys2Proof.Machine.execSetBufferSizeBrplay inst size s
  | .setTriggerLevelScope inst level => Sys2Proof.Machine.execSetTriggerLevelScope inst level s
  | .startBrcap inst => Sys2Proof.Machine.execStartBrcap inst s
  | .startBrplay inst => Sys2Proof.Machine.execStartBrplay inst s
  | .setDormantOsc inst flag => Sys2Proof.Machine.execSetDormantOsc inst flag s
  | .setDormantVca inst flag => Sys2Proof.Machine.execSetDormantVca inst flag s
  | .setDormantTone inst flag => Sys2Proof.Machine.execSetDormantTone inst flag s
  | .setDormantNoise inst flag => Sys2Proof.Machine.execSetDormantNoise inst flag s
  | .pushChunkBrplay inst n payload => Sys2Proof.Machine.execPushChunkBrplay inst n payload s
  | .captureOutbound inst triggered valid n rate ys xs => Sys2Proof.Machine.execCaptureOutbound inst triggered valid n rate ys xs s
  | .eventOutbound cls inst code count => Sys2Proof.Machine.execEventOutbound cls inst code count s
  | .chunkOutbound inst n samples => Sys2Proof.Machine.execChunkOutbound inst n samples s

end Sys2Proof.Machine
end

