-- ==== Sys2Proof/Machine/Fetch.lean ====
section
/-!
DEFINITION. Where the render engine's next move comes from: the front packet of `inQueue` at the boundary (40_messages.md R180), else the
next part of the block of 70_reset_and_hazards.md R510. The host's strobe is the move from an empty `inQueue` (log 3).
-/

namespace Sys2Proof.Machine

/-- One packet at the boundary: a packet that names no row is ignored without error (30_encoding.md R154). -/
def applyPacket (p : Packet) (s : State) : Result :=
  match decode p with
  | .ok i => exec i s
  | .error _ => .next s

/-- The next move of the render engine. -/
def renderMove (s : State) : Result :=
  match s.phase with
  | .boundary =>
    match s.inQueue with
    | p :: q => applyPacket p (s.setInQueue q)
    | [] => .next (beginBlock s)
  | .frame i => .next (frameStep i s)
  | .bridges =>
    match bridgeStep s with
    | some t => .next t
    | none => .fault .noSuchRegionByte
  | .endOfBlock => .next (endBlock s)

/-- The move, for a configuration a block can be constructed with (60_exceptions.md R483). -/
def checkedMove (s : State) : Result := if s.configOk then renderMove s else .refused .badConfiguration

/-- The packet put where the next move takes its packet from: the boundary, the front of `inQueue`. -/
def State.placePacket (p : Packet) (s : State) : State := (s.setInQueue (p :: s.inQueue)).setPhase .boundary

end Sys2Proof.Machine
end

