-- ==== Sys2Proof/Machine/Step.lean ====
section
/-!
DEFINITION. One step of the machine, and how the host's opcode-table words are placed where it fetches.
-/

namespace Sys2Proof.Machine

/-- One move of the render engine: one packet of the boundary, the latch, one frame, the bridges, or the end of the block. -/
def step : State → Host.Outcome State Fault Refusal := checkedMove

/-- `s` with the packet of a table word next in line at the boundary (log 10). -/
def State.withFetchWord (s : State) (nbits w : Nat) : State := s.placePacket (tablePacket nbits w)

end Sys2Proof.Machine
end

