-- ==== Sys2Proof/Machine/Assembler.lean ====
section
/-!
DEFINITION. The textual syntax of 30_encoding.md section 7: one command per line, its operand literals, and the pseudo-commands (R160 to
R162). A line is a list of characters; it assembles to the packets it stands for, or to nothing if it is not in the syntax.
-/

namespace Sys2Proof.Machine

/-! ### Pieces of text -/

def isBlank (c : Char) : Bool := c == ' ' || c == '\t'

def openBrace : Char := Char.ofNat 123

def closeBrace : Char := Char.ofNat 125

/-- Without the blanks at both ends. -/
def trimText (t : List Char) : List Char := ((t.dropWhile isBlank).reverse.dropWhile isBlank).reverse

/-- The pieces between the places where `p` holds; `cur` is the piece being read, in reverse. -/
def piecesFrom (p : Char → Bool) : List Char → List Char → List (List Char)
  | cur, [] => [cur.reverse]
  | cur, c :: t => if p c then cur.reverse :: piecesFrom p [] t else piecesFrom p (c :: cur) t

def pieces (p : Char → Bool) (t : List Char) : List (List Char) := piecesFrom p [] t

/-- The words of a piece of text. -/
def wordsOf (t : List Char) : List (List Char) := (pieces isBlank t).filter fun w => !w.isEmpty

/-! ### Literals (R161) -/

/-- The value of a digit in bases up to 16. -/
def digitValue (c : Char) : Option Nat :=
  if '0' ≤ c ∧ c ≤ '9' then some (c.toNat - 48)
  else if 'a' ≤ c ∧ c ≤ 'f' then some (c.toNat - 87)
  else if 'A' ≤ c ∧ c ≤ 'F' then some (c.toNat - 55)
  else none

/-- A digit of a base. -/
def digitIn (base : Nat) (c : Char) : Option Nat := (digitValue c).filter fun d => decide (d < base)

/-- Digits read onto `acc`. -/
def digitsFrom (base : Nat) : Nat → List Char → Option Nat
  | acc, [] => some acc
  | acc, c :: t => (digitIn base c).bind fun d => digitsFrom base (acc * base + d) t

/-- An unsigned number of at least one digit. -/
def numberOf (base : Nat) (t : List Char) : Option Nat := if t.isEmpty then none else digitsFrom base 0 t

/-- A decimal or `0x` number. -/
def unsignedOf (t : List Char) : Option Nat :=
  match t with
  | '0' :: 'x' :: h => numberOf 16 h
  | _ => numberOf 10 t

/-- A u32 operand literal (R161). -/
def u32Of (t : List Char) : Option U32 := (unsignedOf t).bind fun n => if n < 2 ^ 32 then some (BitVec.ofNat 32 n) else none

/-- A signed decimal exponent. -/
def exponentOf (t : List Char) : Option Int :=
  match t with
  | '+' :: d => (numberOf 10 d).map Int.ofNat
  | '-' :: d => (numberOf 10 d).map fun n => -(n : Int)
  | d => (numberOf 10 d).map Int.ofNat

/-- A real literal's exact value: sign, significand, and the power of `radix` it is scaled by. -/
structure RealLiteral where
  neg : Bool
  digits : Nat
  radix : Nat
  scale : Int
  deriving DecidableEq, Repr

/-- Digits with an optional point, then an optional exponent after one of the marks. In a hexadecimal literal each digit after
the point counts for four binary places. -/
def unsignedReal (base : Nat) (marks : List Char) (neg : Bool) (t : List Char) : Option RealLiteral :=
  let mantissa := t.takeWhile fun c => !marks.contains c
  let afterMark := t.drop mantissa.length
  let whole := mantissa.takeWhile fun c => c != '.'
  let fraction := (mantissa.drop whole.length).drop 1
  (numberOf base (whole ++ fraction)).bind fun m =>
    (if afterMark.isEmpty then some 0 else exponentOf (afterMark.drop 1)).map fun e =>
      if base = 16 then ⟨neg, m, 2, e - 4 * (fraction.length : Int)⟩ else ⟨neg, m, 10, e - (fraction.length : Int)⟩

/-- A decimal or hexadecimal-float literal (R161). -/
def realOf (t : List Char) : Option RealLiteral :=
  let neg := t.head? == some '-'
  match if neg then t.drop 1 else t with
  | '0' :: 'x' :: h => unsignedReal 16 ['p', 'P'] neg h
  | d => unsignedReal 10 ['e', 'E'] neg d

/-- A literal's value as an integer scaled by a power of two, with a last sticky bit where the quotient is not exact, so that
one rounding of it is the rounding of the exact value. -/
def RealLiteral.scaled (l : RealLiteral) : Nat × Int :=
  if 0 ≤ l.scale then (l.digits * l.radix ^ l.scale.toNat, 0)
  else
    let d := l.radix ^ (-l.scale).toNat
    let k := d.log2 + 72
    (2 * (l.digits <<< k / d) + if l.digits <<< k % d = 0 then 0 else 1, -(k : Int) - 1)

/-- The nearest binary64 (R161). -/
def RealLiteral.toF64 (l : RealLiteral) : F64 := pack l.neg (round64 l.scaled.1 l.scaled.2)

/-- The nearest binary32 (R161). -/
def RealLiteral.toF32 (l : RealLiteral) : F32 := pack32 l.neg (round32 l.scaled.1 l.scaled.2)

def f64Of (t : List Char) : Option F64 := (realOf t).map RealLiteral.toF64

def f32Of (t : List Char) : Option F32 := (realOf t).map RealLiteral.toF32

/-! ### Names -/

/-- The entry of a name in a table. -/
def named {α : Type} (table : List (List Char × α)) (t : List Char) : Option α := (table.find? fun e => e.1 == t).map Prod.snd

/-- The class codes of R144 by name. -/
def classNames : List (List Char × BitVec 4) :=
  [(['O', 'S', 'C'], 1), (['V', 'C', 'A'], 2), (['T', 'O', 'N', 'E'], 3), (['T', 'H', 'E', 'R', 'M'], 4),
    (['N', 'O', 'I', 'S', 'E'], 5), (['S', 'C', 'O', 'P', 'E'], 6), (['B', 'R', 'C', 'A', 'P'], 7),
    (['B', 'R', 'P', 'L', 'A', 'Y'], 8)]

/-- The parameter names of 10_state.md R40 to R45, each class's in index order. -/
def parameterNames (cls : BitVec 4) : List String :=
  if cls = 1 then
    ["frequency", "detune", "pulseWidth", "symmetry", "sineLevel", "sawLevel", "triLevel", "pulseLevel", "slewCutoff", "purity"]
  else if cls = 2 then ["dialVoltage", "cutoffEnabled"]
  else if cls = 3 then ["position"]
  else if cls = 4 then ["enable"]
  else if cls = 5 then ["colour", "level", "bypass"]
  else if cls = 6 then ["triggerLevel", "hysteresis"]
  else []

/-- SETWAVEFORM's names (R161). -/
def waveformNames : List (List Char × U32) :=
  [(['S', 'I', 'N', 'E'], 0), (['S', 'A', 'W'], 1), (['T', 'R', 'I'], 2), (['P', 'U', 'L', 'S', 'E'], 3),
    (['M', 'U', 'L', 'T', 'I'], 4)]

/-- SETDORMANT's names (R161). -/
def switchNames : List (List Char × U32) := [(['O', 'N'], 1), (['O', 'F', 'F'], 0)]

/-! ### Targets (R160) -/

/-- A unit target, and what follows it. -/
structure Target where
  cls : BitVec 4
  inst : BitVec 4
  rest : List Char
  deriving DecidableEq, Repr

/-- An instance number 0 to 14, or `*`. -/
def instanceOf (t : List Char) : Option (BitVec 4) :=
  if t == ['*'] then some 15 else (numberOf 10 t).bind fun n => if n ≤ 14 then some (BitVec.ofNat 4 n) else none

/-- `CLASS[i]` or `CLASS[*]`. -/
def targetOf (t : List Char) : Option Target :=
  let name := t.takeWhile fun c => c != '['
  let inner := (t.drop name.length).drop 1
  let index := inner.takeWhile fun c => c != ']'
  match inner.drop index.length with
  | ']' :: rest =>
    (named classNames name).bind fun cls => (instanceOf index).map fun inst => ⟨cls, inst, rest⟩
  | _ => none

/-- A target with nothing after it. -/
def unitOf (t : List Char) : Option Target := (targetOf t).filter fun u => u.rest.isEmpty

/-- The parameter a SETPARAM target names, by `.name` or `.#k`. DESIGN CHOICE (log 32): `.#k` takes every decimal k that the pidx
byte holds, for every class, also one that names no parameter of the class; the machine ignores such a packet (R154). -/
def parameterOf (u : Target) : Option Byte :=
  match u.rest with
  | '.' :: '#' :: k => (numberOf 10 k).bind fun n => if n < 256 then some (BitVec.ofNat 8 n) else none
  | '.' :: name =>
    let i := (parameterNames u.cls).findIdx fun n => n.toList == name
    if i < (parameterNames u.cls).length then some (BitVec.ofNat 8 i) else none
  | _ => none

/-! ### Commands -/

/-- A packet of the fixed part alone. -/
def commandPacket (op : Byte) (u : Target) (pidx : Byte) (operand : List Byte) : Packet :=
  header op u.cls u.inst pidx ++ operand

/-- The commands without an operand and their opcodes (R147). -/
def bareCommands : List (List Char × Byte) :=
  [("RESETPHASE".toList, 0x03), ("STOP".toList, 0x04), ("START".toList, 0x08)]

/-- The commands with an f64 operand. -/
def realCommands : List (List Char × Byte) := [("RESYNC".toList, 0x05), ("SETTRIGGERLEVEL".toList, 0x07)]

/-- An operand of names or a u32 literal. -/
def namedOrU32 (table : List (List Char × U32)) (t : List Char) : Option U32 := (named table t).or (u32Of t)

/-- One command of the opcode map on a unit target: its packet (R160, R161). DESIGN CHOICE (log 32): every class is taken as its
target, also one the opcode map gives the command no row for. -/
def assembleCommand (mnemonic : List Char) (u : Target) (operands : List (List Char)) : Option Packet :=
  match operands with
  | [] => (named bareCommands mnemonic).map fun op => commandPacket op u 0 (bytes64 0)
  | [v] =>
    if mnemonic == "SETWAVEFORM".toList then
      (namedOrU32 waveformNames v).map fun m => commandPacket 0x02 u 0 (operand32 m)
    else if mnemonic == "SETBUFFERSIZE".toList then (u32Of v).map fun n => commandPacket 0x06 u 0 (operand32 n)
    else if mnemonic == "SETDORMANT".toList then
      (namedOrU32 switchNames v).map fun f => commandPacket 0x09 u 0 (operand32 f)
    else (named realCommands mnemonic).bind fun op => (f64Of v).map fun x => commandPacket op u 0 (bytes64 x)
  | _ => none

/-- SETPARAM (R160). -/
def assembleSetParam (t v : List Char) : Option Packet :=
  (targetOf t).bind fun u =>
    (parameterOf u).bind fun k => (f64Of v).map fun x => commandPacket 0x01 u k (bytes64 x)

/-- Every element's value, if each has one. -/
def allOf {α β : Type} (f : α → Option β) : List α → Option (List β)
  | [] => some []
  | a :: as => (f a).bind fun b => (allOf f as).map fun bs => b :: bs

/-- The sample literals between braces (R161). -/
def samplesText (t : List Char) : Option (List F32) :=
  if t.head? == some openBrace ∧ t.getLast? == some closeBrace then
    let inner := trimText ((t.drop 1).dropLast)
    if inner.isEmpty then some [] else allOf (fun p => f32Of (trimText p)) (pieces (fun c => c == ',') inner)
  else none

/-- PUSHCHUNK with `n` frames of `ch` sample literals (R161). DESIGN CHOICE (log 32): R161 writes it with a BRPLAY target; every
class, and `*`, is taken, and the machine ignores the packet of any class but BRPLAY. -/
def assemblePush (ch : Nat) (u : Target) (count samples : List Char) : Option Packet :=
  (u32Of count).bind fun n =>
    (samplesText samples).bind fun xs =>
      if xs.length = n.toNat * ch then some (commandPacket 0x0A u 0 (operand32 n) ++ sampleBytes xs) else none

/-! ### Pseudo-commands (R162) -/

/-- `SETDORMANT u, f`. -/
def dormantPacket (u : Target) (f : U32) : Packet := commandPacket 0x09 u 0 (operand32 f)

/-- A pseudo-command on a unit target: its expansion. -/
def expandPseudo (mnemonic : List Char) (u : Target) (operands : List (List Char)) : Option (List Packet) :=
  match operands with
  | [] =>
    if mnemonic == "MUTE".toList then some [dormantPacket u 1]
    else if mnemonic == "WAKE".toList then some [dormantPacket u 0]
    else none
  | [v] =>
    if mnemonic == "WAKE".toList then
      (f64Of v).map fun x => [dormantPacket u 0, commandPacket 0x05 u 0 (bytes64 x)]
    else if mnemonic == "SETFREQ".toList ∧ u.cls = 1 then
      (f64Of v).map fun x => [commandPacket 0x01 u 0 (bytes64 x)]
    else if mnemonic == "RESTART".toList ∧ (u.cls = 7 ∨ u.cls = 8) then
      (u32Of v).map fun n =>
        [commandPacket 0x04 u 0 (bytes64 0), commandPacket 0x06 u 0 (operand32 n), commandPacket 0x08 u 0 (bytes64 0)]
    else none
  | _ => none

/-- `THERMAL ON` and `THERMAL OFF`: every THERM's enable, 1.0 or 0.0. -/
def thermalPacket (on : Bool) : Packet :=
  header 0x01 4 15 0 ++ bytes64 (if on then 0x3FF0000000000000 else 0)

/-- `NOP`: a packet of opcode 0x00, which is ignored. DESIGN CHOICE (log 31): its other bits, class and instance among them, are 0;
R162 gives the opcode alone. -/
def nopPacket : Packet := header 0x00 0 0 0 ++ bytes64 0

/-- A line without operands after a comma: `NOP`, `THERMAL`, or a command on a target. -/
def assembleWords (words : List (List Char)) (operands : List (List Char)) : Option (List Packet) :=
  match words with
  | [] => if operands.isEmpty then some [] else none
  | [m] => if m == "NOP".toList ∧ operands.isEmpty then some [nopPacket] else none
  | [m, t] =>
    if m == "THERMAL".toList then
      (if operands.isEmpty then (named switchNames t).map fun f => [thermalPacket (decide (f = 1))] else none)
    else if m == "SETPARAM".toList then
      match operands with
      | [v] => (assembleSetParam t v).map fun p => [p]
      | _ => none
    else
      (unitOf t).bind fun u =>
        match expandPseudo m u operands with
        | some ps => some ps
        | none => (assembleCommand m u operands).map fun p => [p]
  | _ => none

/-- The packets of one line (R160); an empty line, or one that is all comment, stands for none. `ch` is the channel count of
the bridge a PUSHCHUNK is for. -/
def assembleLine (ch : Nat) (line : List Char) : Option (List Packet) :=
  let text := line.takeWhile fun c => c != ';'
  let command := text.takeWhile fun c => c != openBrace
  let block := trimText (text.drop command.length)
  let fields := (pieces (fun c => c == ',') command).map trimText
  if block.isEmpty then assembleWords (wordsOf (fields.headD [])) fields.tail
  else
    match wordsOf (fields.headD []), fields.tail with
    | [m, t], [count, []] =>
      if m == "PUSHCHUNK".toList then
        (unitOf t).bind fun u => (assemblePush ch u count block).map fun p => [p]
      else none
    | _, _ => none

/-- A program text: the packets of its lines, in order. -/
def assemble (ch : Nat) (text : List Char) : Option (List Packet) :=
  (allOf (assembleLine ch) (pieces (fun c => c == '\n') text)).map List.flatten

end Sys2Proof.Machine
end

