-- ==== Sys2Proof/Machine/Outside.lean ====
section
/-!
DEFINITION. What the agents outside the render engine do between its moves (00_scope.md R6, 70_reset_and_hazards.md R530): the host posts
packets, supplies arrays and collects packets; the peer of a bridge accesses its region (47_bridge.md R437); the
environment answers the coming draws. None of these is a step of the machine (log 2, log 11).
-/

namespace Sys2Proof.Machine

/-! ### The host -/

/-- A posted packet joins the queue; it acts at the next boundary (40_messages.md R180). DESIGN CHOICE (log 11): the host may post at
any time, as R180 and R530 say, although I18 of 93_implementation_defined.md knows no post during a block. -/
def State.post (p : Packet) (s : State) : State := { s with inQueue := s.inQueue ++ [p] }

/-- The packets the host collects from the front of `outQueue`, and the queue without them. -/
def State.collect (n : Nat) (s : State) : List Instr × State := (s.outQueue.take n, { s with outQueue := s.outQueue.drop n })

/-- The input and modulation arrays of the coming block, one record per instance and port (10_state.md section 4); a port
with no array is unconnected. -/
structure BlockInputs where
  osc : List OscPorts
  vca : List (Samples × Samples)
  tone : List (List Samples)
  therm : List Samples
  scope : List (Samples × Samples)
  brcap : List (List Samples)
  deriving DecidableEq, Repr

/-- The strobe's inputs put on the ports: VCA (IN, CV), SCOPE (Y, X), TONE and BRCAP one array per channel. -/
def State.withInputs (b : BlockInputs) (s : State) : State :=
  { s with
    osc := s.osc.mapIdx fun k u => { u with ports := b.osc.getD k ⟨[], [], [], [], []⟩ }
    vca := s.vca.mapIdx fun k u => { u with input := (b.vca.getD k ([], [])).1, cv := (b.vca.getD k ([], [])).2 }
    tone := s.tone.mapIdx fun k u => { u with input := b.tone.getD k [] }
    therm := s.therm.mapIdx fun k u => { u with input := b.therm.getD k [] }
    scope := s.scope.mapIdx fun k u => { u with inY := (b.scope.getD k ([], [])).1, inX := (b.scope.getD k ([], [])).2 }
    brcap := s.brcap.mapIdx fun k u => { u with input := b.brcap.getD k [] } }

/-- An array the host may supply: `Q` samples, or none for an unconnected port (R505, 10_state.md R33). -/
def suppliedOk (q : Nat) (a : Samples) : Bool := decide (a = []) || decide (a.length = q)

/-- Every array of the inputs is one. -/
def BlockInputs.ok (q : Nat) (b : BlockInputs) : Bool :=
  (b.osc.all fun p =>
      suppliedOk q p.sync && suppliedOk q p.modFrequency && suppliedOk q p.modDetune && suppliedOk q p.modPulseWidth &&
        suppliedOk q p.modSymmetry) &&
    (b.vca.all fun p => suppliedOk q p.1 && suppliedOk q p.2) && (b.tone.all fun l => l.all (suppliedOk q)) &&
    b.therm.all (suppliedOk q) && (b.scope.all fun p => suppliedOk q p.1 && suppliedOk q p.2) &&
    b.brcap.all fun l => l.all (suppliedOk q)

/-- The host's supply: between blocks, `Q` samples a connected port. "A model has no move" for another (R530, I18 of
93_implementation_defined.md). -/
def State.supply (b : BlockInputs) (s : State) : State :=
  if s.phase = .boundary ∧ b.ok s.cfg.q = true then s.withInputs b else s

/-! ### The peer (20_memory.md R103 to R113) -/

/-- One access of a peer to its region. A plain read has no effect on the block (R107), so it is none of the moves. -/
inductive PeerAccess where
  /-- `AtomicLoad32` of an index field. -/
  | load (o : Nat)
  /-- `AtomicStore32` of an index field. -/
  | store (o : Nat) (v : BitVec 32)
  /-- A write of consecutive bytes that is not atomic: a plain write of sample fields, and a plain, a partial or a misaligned
  write of an index field (R105). -/
  | write (o : Nat) (bytes : List Byte)
  deriving DecidableEq, Repr

/-- The index the block stores (R103). -/
def blockIndexOffset (dir : Nat) : Nat := if dir = captureDir then writeIndexOffset else readIndexOffset

/-- The index the peer stores (R103). -/
def peerIndexOffset (dir : Nat) : Nat := if dir = captureDir then readIndexOffset else writeIndexOffset

/-- Whether the block writes the field at `o`; a field it does not write it only reads (R103's table, R106). -/
def blockWrites (dir o : Nat) : Bool := if dir = captureDir then o != readIndexOffset else o == readIndexOffset

/-- The field of a byte. -/
def fieldOf (k : Nat) : Nat := k / 4 * 4

/-- The peer's load of the block's index, which acquires when it returns the block's store (R110): from then on its accesses
come after every access the block has made. -/
def Order.peerAcquire (dir o : Nat) (d : Order) : Order :=
  if o = blockIndexOffset dir ∧ d.foreign = false then { d with exposed := [] } else d

/-- The peer's store of its own index releases its earlier writes (R110); a store of the block's index only replaces it. -/
def Order.peerStore (dir o : Nat) (d : Order) : Order :=
  if o = peerIndexOffset dir then { d with released := d.released ++ d.pending, pending := [] } else { d with foreign := true }

/-- The peer's write of a byte of the field at `o` that is not atomic. -/
def Order.peerWrite (dir o : Nat) (d : Order) : Order :=
  { d with pending := d.pending.insert o, foreign := d.foreign || o == blockIndexOffset dir }

/-- The peer's atomic store (R109): of an index field that exists. -/
def Link.peerStore (dir : Nat) (e : Endian) (o : Nat) (v : BitVec 32) (l : Link) : Option Link :=
  match l.region with
  | none => none
  | some r =>
    if o = writeIndexOffset ∨ o = readIndexOffset then
      (r.store32 e o v).map fun r' => { l with region := some r', order := l.order.peerStore dir o }
    else none

/-- One byte of the peer's write: where the block has accessed the field unordered with it, it leaves a draw (R110). -/
def Link.peerWriteByte (dir k : Nat) (b : Byte) (l : Link) : Link :=
  match l.region with
  | none => l
  | some r =>
    if l.order.exposed.contains (fieldOf k) then
      { l with
        region := some { r with mem := r.mem.write k ((Config.raceDraw dir l.stream l.races).setWidth 8) }
        order := l.order.peerWrite dir (fieldOf k), races := l.races + 1 }
    else { l with region := some { r with mem := r.mem.write k b }, order := l.order.peerWrite dir (fieldOf k) }

def Link.peerWriteBytes (dir : Nat) : Nat → List Byte → Link → Link
  | _, [], l => l
  | k, b :: bs, l => (l.peerWriteByte dir k b).peerWriteBytes dir (k + 1) bs

/-- Whether the peer can make this write now. Its bytes exist (47_bridge.md R437). And the block has not read one of them, without
racing, since the peer last acquired: that read would race with this write, so it would have returned a draw (R110); a write of
that kind is announced before the block step (`Order.racy`). -/
def Link.mayWrite (dir o n : Nat) (l : Link) : Bool :=
  match l.region with
  | none => false
  | some r =>
    decide (o + n ≤ r.size) &&
      (List.range n).all fun k => blockWrites dir (fieldOf (o + k)) || !l.order.exposed.contains (fieldOf (o + k))

/-- A peer's access; without effect where there is none such. -/
def Link.peerMove (dir : Nat) (e : Endian) (a : PeerAccess) (l : Link) : Link :=
  match a with
  | .load o => { l with order := l.order.peerAcquire dir o }
  | .store o v => (l.peerStore dir e o v).getD l
  | .write o bytes => if l.mayWrite dir o bytes.length then l.peerWriteBytes dir o bytes else l

/-- The bytes the peer writes unordered with the coming block step: the block's accesses to them are draws (R110). -/
def Link.peerRaces (offsets : List Nat) (l : Link) : Link := { l with order := { l.order with racy := offsets } }

/-- A capture peer's duty (47_bridge.md R437): the `readIndex` it stores is reduced, and is not past `writeIndex`. -/
def capturePeerOk (cap w r r' : Nat) : Bool := decide (r' < cap) && decide (usedFrames cap w r' ≤ usedFrames cap w r)

/-- A playback peer's duty (R437): the `writeIndex` it stores is reduced, and publishes at most `free(w, r)` frames. -/
def playPeerOk (cap w r w' : Nat) : Bool := decide (w' < cap) && decide (usedFrames cap w' w ≤ freeFrames cap w r)

/-! ### The environment -/

/-- The answer to an instance's next fault draw (60_exceptions.md R466). -/
def Common.drawFault (b : Bool) (c : Common) : Common := { c with faultDraw := b }

/-- `SHM_AVAILABLE` as the next START will find it (00_scope.md R7). -/
def State.provideShm (b : Bool) (s : State) : State := { s with shmAvailable := b }

/-- More draws on a noise instance's stream (45_noise.md R361). -/
def Noise.supplyDraws (ws : List F64) (u : Noise) : Noise := { u with draws := u.draws ++ ws }

/-! ### All of them as moves -/

/-- One move of an agent other than the render engine. -/
inductive OutsideMove where
  /-- The host posts a packet (70_reset_and_hazards.md R530, command). -/
  | post (p : Packet)
  /-- The host supplies the arrays of the coming block (R530, strobe); only between blocks, and `Q` samples a connected port. -/
  | supply (b : BlockInputs)
  /-- The host removes `n` packets from the front of `outQueue` (R530, collect). -/
  | collect (n : Nat)
  /-- The peer of capture instance `k` accesses its region (47_bridge.md R437). -/
  | capturePeer (k : Nat) (a : PeerAccess)
  /-- The peer of playback instance `k` accesses its region (R437). -/
  | playPeer (k : Nat) (a : PeerAccess)
  /-- The peer of capture instance `k` writes these bytes without order with the coming block (20_memory.md R110). -/
  | captureRaces (k : Nat) (offsets : List Nat)
  /-- The peer of playback instance `k` writes these bytes without order with the coming block (R110). -/
  | playRaces (k : Nat) (offsets : List Nat)
  /-- The environment's answer to the next fault draw of instance `k` of a class (60_exceptions.md R466). -/
  | drawFault (cls : UnitClass) (k : Nat) (b : Bool)
  /-- The environment's `SHM_AVAILABLE` (00_scope.md R7). -/
  | provideShm (b : Bool)
  /-- More draws for NOISE instance `k` (45_noise.md R361). -/
  | supplyDraws (k : Nat) (ws : List F64)
  deriving DecidableEq, Repr

/-- The fault draw's answer put on one instance. -/
def State.drawFault (cls : UnitClass) (k : Nat) (b : Bool) (s : State) : State :=
  match cls with
  | .osc => s.setOsc (s.osc.modify k fun u => { u with common := u.common.drawFault b })
  | .vca => s.setVca (s.vca.modify k fun u => { u with common := u.common.drawFault b })
  | .tone => s.setTone (s.tone.modify k fun u => { u with common := u.common.drawFault b })
  | .therm => s.setTherm (s.therm.modify k fun u => { u with common := u.common.drawFault b })
  | .noise => s.setNoise (s.noise.modify k fun u => { u with common := u.common.drawFault b })
  | .scope => s.setScope (s.scope.modify k fun u => { u with common := u.common.drawFault b })
  | .brcap => s.setBrcap (s.brcap.modify k fun u => { u with common := u.common.drawFault b })
  | .brplay => s.setBrplay (s.brplay.modify k fun u => { u with common := u.common.drawFault b })

/-- The packets a move takes from `outQueue`. -/
def State.collected (m : OutsideMove) (s : State) : List Instr :=
  match m with
  | .collect n => (s.collect n).1
  | _ => []

/-- What a move does. -/
def State.act (m : OutsideMove) (s : State) : State :=
  match m with
  | .post p => s.post p
  | .supply b => s.supply b
  | .collect n => (s.collect n).2
  | .capturePeer k a =>
    s.setBrcap (s.brcap.modify k fun u => { u with link := u.link.peerMove captureDir s.cfg.endian a })
  | .playPeer k a => s.setBrplay (s.brplay.modify k fun u => { u with link := u.link.peerMove playDir s.cfg.endian a })
  | .captureRaces k os => s.setBrcap (s.brcap.modify k fun u => { u with link := u.link.peerRaces os })
  | .playRaces k os => s.setBrplay (s.brplay.modify k fun u => { u with link := u.link.peerRaces os })
  | .drawFault cls k b => s.drawFault cls k b
  | .provideShm b => s.provideShm b
  | .supplyDraws k ws => s.setNoise (s.noise.modify k fun u => u.supplyDraws ws)

end Sys2Proof.Machine
end

