-- ==== Sys2Proof/Machine/Run.lean ====
section
/-!
DEFINITION. Runs (70_reset_and_hazards.md R531): a block as the moves from one boundary to the next, a run as a finite sequence of
blocks with the other agents' moves among theirs, and what is observed of it.
-/

namespace Sys2Proof.Machine

/-- `k` moves of the render engine, stopping at the first fault or refusal. -/
def moves : Nat → State → Result
  | 0, s => .next s
  | k + 1, s =>
    match step s with
    | .next t => moves k t
    | .fault r => .fault r
    | .refused r => .refused r

/-- The moves from a boundary to the next: one for each waiting packet, the latch, `Q` frames, the bridges, the end (R510). -/
def State.blockMoves (s : State) : Nat := s.inQueue.length + s.cfg.q + 3

/-- One block, from a boundary to the next. -/
def runBlock (s : State) : Result := moves s.blockMoves s

/-- Every output array of one block (10_state.md section 4), by instance. -/
structure BlockOutputs where
  osc : List (Samples × Samples)
  vca : List Samples
  tone : List (List Samples)
  therm : List Samples
  noise : List Samples
  brplay : List (List Samples)
  deriving DecidableEq, Repr

/-- The output arrays as the end of a block leaves them. -/
def State.outputs (s : State) : BlockOutputs :=
  { osc := s.osc.map fun u => (u.out0, u.out1), vca := s.vca.map Vca.out, tone := s.tone.map Tone.out
    therm := s.therm.map Therm.out, noise := s.noise.map Noise.out, brplay := s.brplay.map Brplay.out }

/-- One event of a run: a move of another agent, or one of the render engine. -/
inductive Event where
  | outside (m : OutsideMove)
  | render
  deriving DecidableEq, Repr

/-- A finished run: the output arrays of every block, the packets collected on the way, and the final state. -/
structure Run where
  outputs : List BlockOutputs
  collected : List Instr
  final : State
  deriving DecidableEq, Repr

/-- The run with packets the host collected before it. -/
def Run.afterCollect (ps : List Instr) (r : Run) : Run := { r with collected := ps ++ r.collected }

/-- The run with the block that ended before it. -/
def Run.afterBlock (o : BlockOutputs) (r : Run) : Run := { r with outputs := o :: r.outputs }

/-- A run: any sequence of events, so that another agent may move before every move of a block, ending with the end of its last
block (R531). `started` says whether something has happened since a block ended; a run is over only when nothing has. `none`
for a sequence that is no finished run, or where a move stops, which no state that meets the invariant reaches. -/
def runFrom : Bool → List Event → State → Option Run
  | started, [], s => if started then none else some ⟨[], [], s⟩
  | _, .outside m :: es, s => (runFrom true es (s.act m)).map (Run.afterCollect (s.collected m))
  | _, .render :: es, s =>
    match step s with
    | .next t =>
      if s.phase = .endOfBlock then (runFrom false es t).map (Run.afterBlock t.outputs) else runFrom true es t
    | .fault _ => none
    | .refused _ => none

/-- A run from a boundary. With no event it has no block. -/
def runEvents (es : List Event) (s : State) : Option Run := runFrom (decide (s.phase ≠ .boundary)) es s

/-- A property of the state at the strobe of every block of a run: the move at a boundary with no command left. -/
def EveryStrobe (P : State → Prop) : List Event → State → Prop
  | [], _ => True
  | .outside m :: es, s => EveryStrobe P es (s.act m)
  | .render :: es, s => (s.phase = .boundary → s.inQueue = [] → P s) ∧ ∀ t, step s = .next t → EveryStrobe P es t

/-- A bridge as it is observed at the end of a run: the region and the local index. -/
structure BridgeView where
  region : Option Region
  index : Nat
  deriving DecidableEq, Repr

/-- What is observed of a run (R531): the outputs, the packets collected and then those still queued, the bridges. -/
structure Observation where
  outputs : List BlockOutputs
  packets : List Packet
  brcap : List BridgeView
  brplay : List BridgeView
  deriving DecidableEq, Repr

/-- The observation of a run. -/
def Run.observe (r : Run) : Observation :=
  { outputs := r.outputs, packets := (r.collected ++ r.final.outQueue).map encode
    brcap := r.final.brcap.map fun u => ⟨u.link.region, u.wLocal⟩
    brplay := r.final.brplay.map fun u => ⟨u.link.region, u.rLocal⟩ }

end Sys2Proof.Machine
end

