-- ==== Sys2Proof/Safety.lean ====
section
/-!
DEFINITION. What counts as a well-formed state: the relations 10_state.md section 7 puts between the pieces of state, as one invariant;
the launch premises of 70_reset_and_hazards.md R505; and the terms claims are made in: the unit a command addresses, what a
command on one class answers, the gains of the mute ramps, and the bytes of the regions.
-/

namespace Sys2Proof.Machine

/-! ### Output arrays -/

/-- How many samples an output port of a sample class may hold (60_exceptions.md R465: Q in every block): `i` at frame `i`,
all Q from the bridges on; at the boundary the last block's Q, or none before the first block. -/
def sampleCounts (q : Nat) : Phase → List Nat
  | .boundary => [0, q]
  | .frame i => [i]
  | .bridges => [q]
  | .endOfBlock => [q]

/-- The same for a playback port, filled by the bridges' block step. -/
def playCounts (q : Nat) : Phase → List Nat
  | .boundary => [0, q]
  | .frame _ => [0]
  | .bridges => [0]
  | .endOfBlock => [q]

abbrev sampleCountOk (p : Phase) (q n : Nat) : Prop := n ∈ sampleCounts q p

abbrev playCountOk (p : Phase) (q n : Nat) : Prop := n ∈ playCounts q p

/-! ### Units -/

abbrev Osc.Ok (p : Phase) (q : Nat) (u : Osc) : Prop := sampleCountOk p q u.out0.length ∧ sampleCountOk p q u.out1.length

abbrev Vca.Ok (p : Phase) (q : Nat) (u : Vca) : Prop := sampleCountOk p q u.out.length

/-- One filter state and one output array per channel (R57). -/
abbrev Tone.Ok (p : Phase) (q : Nat) (u : Tone) : Prop :=
  u.chans.length = u.cfg.ch ∧ u.out.length = u.cfg.ch ∧ ∀ a ∈ u.out, sampleCountOk p q a.length

abbrev Therm.Ok (p : Phase) (q : Nat) (u : Therm) : Prop := sampleCountOk p q u.out.length

abbrev Noise.Ok (p : Phase) (q : Nat) (u : Noise) : Prop := sampleCountOk p q u.out.length

/-- A capture's two windows have its `n` samples, of which `valid` are valid (46_scope.md R389, R390). -/
abbrev Capture.Ok (c : Capture) : Prop := c.ys.length = c.n ∧ c.xs.length = c.n ∧ c.valid ≤ c.n

/-- The ranges of R61. -/
abbrev Scope.Ok (p : Phase) (u : Scope) : Prop :=
  u.cfg.nMin ≤ u.n ∧ u.n ≤ u.cfg.nMax ∧ u.bufY.length = 2 * u.n ∧ u.bufX.length = 2 * u.n ∧ u.w < 2 * u.n ∧
    u.filled ≤ 2 * u.n ∧ u.newCount < u.n ∧ u.newCount ≤ u.filled ∧ (∀ k ∈ u.period, 1 ≤ k ∧ k < u.n) ∧
    (∀ c ∈ u.made, c.Ok) ∧ (p = .boundary → u.made = [])

/-- A region's size and contents (20_memory.md R103): canonical, every listed byte inside. -/
abbrev Region.Ok (cap ch : Nat) (r : Region) : Prop :=
  r.size = regionBytes cap ch ∧ r.mem.wf ∧ ∀ c ∈ r.mem, c.1 < r.size

/-- The ranges and the transport rules of R62 and 47_bridge.md R438. -/
abbrev Link.Ok (c : BridgeCfg) (l : Link) : Prop :=
  2 ≤ l.cap ∧ l.cap ≤ 2 ^ 31 ∧ 2 ≤ l.capNext ∧ l.capNext ≤ c.capMax ∧
    (l.mode = .fallback ↔ l.fallbackLatched = true) ∧ (l.mode = .fallback → l.region = none) ∧
    (l.run = .running → l.mode = .shared → l.region.isSome = true) ∧ ∀ r ∈ l.region, r.Ok l.cap c.ch

/-- R62. -/
abbrev Brcap.Ok (p : Phase) (u : Brcap) : Prop :=
  u.link.Ok u.cfg ∧ u.wLocal < u.link.cap ∧ u.staging.length < u.cfg.chunkFrames ∧
    (∀ f ∈ u.staging, f.length = u.cfg.ch) ∧
    (∀ fs ∈ u.made, fs.length = u.cfg.chunkFrames ∧ ∀ f ∈ fs, f.length = u.cfg.ch) ∧ (p = .boundary → u.made = [])

/-- R63. -/
abbrev Brplay.Ok (p : Phase) (q : Nat) (u : Brplay) : Prop :=
  u.link.Ok u.cfg ∧ u.rLocal < u.link.cap ∧ u.fifo.length ≤ u.link.cap - 1 ∧ (∀ f ∈ u.fifo, f.length = u.cfg.ch) ∧
    u.lastFrame.length = u.cfg.ch ∧ u.out.length = u.cfg.ch ∧ ∀ a ∈ u.out, playCountOk p q a.length

/-! ### The block -/

/-- An outbound packet (30_encoding.md R147). -/
def isOutbound (i : Instr) : Bool :=
  match encode i with
  | _ :: _ :: _ :: op :: _ => decide (0x80 ≤ op.toNat)
  | _ => false

/-- A CAPTURE or CHUNK with more samples than its u32 count can say (log 27). -/
def isOversized : Instr → Bool
  | .captureOutbound _ _ _ _ _ ys _ => decide (2 ^ 32 ≤ ys.length)
  | .chunkOutbound _ _ samples => decide (2 ^ 32 ≤ samples.length)
  | _ => false

/-- The frame index is a frame of the block (00_scope.md R10). -/
def phaseOk (q : Nat) : Phase → Bool
  | .boundary => true
  | .frame i => decide (i < q)
  | .bridges => true
  | .endOfBlock => true

/-- The invariant: a legal configuration, every unit in its ranges, and only outbound packets queued, each well formed unless its
count does not fit its field. -/
abbrev State.Inv (s : State) : Prop :=
  s.configOk = true ∧ phaseOk s.cfg.q s.phase = true ∧ (∀ i ∈ s.outQueue, (i.wf = true ∨ isOversized i = true) ∧ isOutbound i = true) ∧
    (∀ u ∈ s.osc, u.Ok s.phase s.cfg.q) ∧ (∀ u ∈ s.vca, u.Ok s.phase s.cfg.q) ∧ (∀ u ∈ s.tone, u.Ok s.phase s.cfg.q) ∧
    (∀ u ∈ s.therm, u.Ok s.phase s.cfg.q) ∧ (∀ u ∈ s.noise, u.Ok s.phase s.cfg.q) ∧ (∀ u ∈ s.scope, u.Ok s.phase) ∧
    (∀ u ∈ s.brcap, u.Ok s.phase) ∧ ∀ u ∈ s.brplay, u.Ok s.phase s.cfg.q

/-! ### Launch premises (R505) -/

/-- The `(class, instance)` order of every unit's common state. -/
def State.commons (s : State) : List Common :=
  s.osc.map Osc.common ++ s.vca.map Vca.common ++ s.tone.map Tone.common ++ s.therm.map Therm.common ++
    s.noise.map Noise.common ++ s.scope.map Scope.common ++ s.brcap.map Brcap.common ++ s.brplay.map Brplay.common

/-- The state with what R66 lists and nothing else: the rest as construction leaves it. -/
def State.resetValues (s : State) : State :=
  { s with
    osc := s.osc.map fun u =>
      { u with
        latch := (Osc.reset u.cfg).latch, ports := (Osc.reset u.cfg).ports, out0 := [], out1 := []
        common := { u.common with faultDraw := false } }
    vca := s.vca.map fun u =>
      { u with
        latch := (Vca.reset u.cfg).latch, input := [], cv := [], out := [], common := { u.common with faultDraw := false } }
    tone := s.tone.map fun u =>
      { u with
        latchPosition := (Tone.reset u.cfg).latchPosition, input := [], out := (Tone.reset u.cfg).out
        common := { u.common with faultDraw := false } }
    therm := s.therm.map fun u =>
      { u with
        latchEnable := (Therm.reset u.cfg).latchEnable, input := [], out := [], common := { u.common with faultDraw := false } }
    noise := s.noise.map fun u =>
      { u with
        latch := (Noise.reset 0 u.cfg).latch, draws := [], stream := 0, drawn := 0, out := []
        common := { u.common with faultDraw := false } }
    scope := s.scope.map fun u =>
      { u with
        latch := (Scope.reset u.cfg).latch, inY := [], inX := [], made := [], common := { u.common with faultDraw := false } }
    brcap := s.brcap.map fun u =>
      { u with
        link := { u.link with order := .reset, stream := 0, races := 0 }, input := [], made := []
        common := { u.common with faultDraw := false } }
    brplay := s.brplay.map fun u =>
      { u with
        link := { u.link with order := .reset, stream := 0, races := 0 }, out := (Brplay.reset 0 u.cfg).out
        common := { u.common with faultDraw := false } } }

/-- `CleanReset`: every value R66 lists is a reset value, for some configuration. What it does not list is free: the host's and
the environment's inputs, the latched values, the output arrays, the order and race counters (log 2, log 8, log 9, log 19). -/
def CleanReset (s : State) : Prop := ∃ c, s.resetValues = (State.construct c).resetValues

/-- `NoFault` before a run: nothing is faulted, and every fault draw of the run is false. -/
def NoFault (es : List Event) (s : State) : Prop :=
  (∀ c ∈ s.commons, c.faulted = false) ∧ EveryStrobe (fun s => ∀ c ∈ s.commons, c.faultDraw = false) es s

/-- `QueuesEmpty`. -/
abbrev QueuesEmpty (s : State) : Prop := s.inQueue = [] ∧ s.outQueue = []

/-- `NothingInFlight`: every bridge is stopped, or no access of its peer is in progress. -/
abbrev NothingInFlight (s : State) : Prop :=
  ∀ l ∈ s.brcap.map Brcap.link ++ s.brplay.map Brplay.link, l.run = .stopped ∨ l.order.racy = []

/-- `HostSupplies` for the coming block: every port has `Q` samples, or is unconnected and reads as +0. -/
abbrev HostSuppliesBlock (s : State) : Prop :=
  (∀ u ∈ s.osc,
      suppliedOk s.cfg.q u.ports.sync = true ∧ suppliedOk s.cfg.q u.ports.modFrequency = true ∧
        suppliedOk s.cfg.q u.ports.modDetune = true ∧ suppliedOk s.cfg.q u.ports.modPulseWidth = true ∧
        suppliedOk s.cfg.q u.ports.modSymmetry = true) ∧
    (∀ u ∈ s.vca, suppliedOk s.cfg.q u.input = true ∧ suppliedOk s.cfg.q u.cv = true) ∧
    (∀ u ∈ s.tone, ∀ a ∈ u.input, suppliedOk s.cfg.q a = true) ∧ (∀ u ∈ s.therm, suppliedOk s.cfg.q u.input = true) ∧
    (∀ u ∈ s.scope, suppliedOk s.cfg.q u.inY = true ∧ suppliedOk s.cfg.q u.inX = true) ∧
    ∀ u ∈ s.brcap, ∀ a ∈ u.input, suppliedOk s.cfg.q a = true

/-- `HostSupplies`: for every block of a run. -/
def HostSupplies (es : List Event) (s : State) : Prop := EveryStrobe HostSuppliesBlock es s

/-! ### Addressing (30_encoding.md R144, R145) -/

/-- Whether the `inst` field addresses instance `k`. -/
def addressed (inst : BitVec 4) (k : Nat) : Bool := decide (inst = 15#4) || decide (inst.toNat = k)

/-- `l'` is `l` with `f` applied to every addressed instance and every other instance as it was. -/
def AppliedTo {α : Type} (inst : BitVec 4) (f : α → α) (l l' : List α) : Prop :=
  l'.length = l.length ∧ ∀ k u, l[k]? = some u → l'[k]? = some (if addressed inst k then f u else u)

/-- The class a command acts on and its `inst` field; none for the outbound rows. -/
def commandTarget : Instr → Option (UnitClass × BitVec 4)
  | .setParamOscFrequency inst _ => some (.osc, inst)
  | .setParamOscDetune inst _ => some (.osc, inst)
  | .setParamOscPulseWidth inst _ => some (.osc, inst)
  | .setParamOscSymmetry inst _ => some (.osc, inst)
  | .setParamOscSineLevel inst _ => some (.osc, inst)
  | .setParamOscSawLevel inst _ => some (.osc, inst)
  | .setParamOscTriLevel inst _ => some (.osc, inst)
  | .setParamOscPulseLevel inst _ => some (.osc, inst)
  | .setParamOscSlewCutoff inst _ => some (.osc, inst)
  | .setParamOscPurity inst _ => some (.osc, inst)
  | .setParamVcaDialVoltage inst _ => some (.vca, inst)
  | .setParamVcaCutoffEnabled inst _ => some (.vca, inst)
  | .setParamTonePosition inst _ => some (.tone, inst)
  | .setParamThermEnable inst _ => some (.therm, inst)
  | .setParamNoiseColour inst _ => some (.noise, inst)
  | .setParamNoiseLevel inst _ => some (.noise, inst)
  | .setParamNoiseBypass inst _ => some (.noise, inst)
  | .setParamScopeTriggerLevel inst _ => some (.scope, inst)
  | .setParamScopeHysteresis inst _ => some (.scope, inst)
  | .setWaveformOsc inst _ => some (.osc, inst)
  | .resetPhaseOsc inst => some (.osc, inst)
  | .stopBrcap inst => some (.brcap, inst)
  | .stopBrplay inst => some (.brplay, inst)
  | .resyncOsc inst _ => some (.osc, inst)
  | .resyncVca inst _ => some (.vca, inst)
  | .resyncTone inst _ => some (.tone, inst)
  | .resyncTherm inst _ => some (.therm, inst)
  | .resyncNoise inst _ => some (.noise, inst)
  | .setBufferSizeScope inst _ => some (.scope, inst)
  | .setBufferSizeBrcap inst _ => some (.brcap, inst)
  | .setBufferSizeBrplay inst _ => some (.brplay, inst)
  | .setTriggerLevelScope inst _ => some (.scope, inst)
  | .startBrcap inst => some (.brcap, inst)
  | .startBrplay inst => some (.brplay, inst)
  | .setDormantOsc inst _ => some (.osc, inst)
  | .setDormantVca inst _ => some (.vca, inst)
  | .setDormantTone inst _ => some (.tone, inst)
  | .setDormantNoise inst _ => some (.noise, inst)
  | .pushChunkBrplay inst _ _ => some (.brplay, inst)
  | .captureOutbound _ _ _ _ _ _ _ => none
  | .eventOutbound _ _ _ _ => none
  | .chunkOutbound _ _ _ => none

/-- A command with its `inst` field replaced; the outbound rows as they are. -/
def retarget (k : BitVec 4) : Instr → Instr
  | .setParamOscFrequency _ v => .setParamOscFrequency k v
  | .setParamOscDetune _ v => .setParamOscDetune k v
  | .setParamOscPulseWidth _ v => .setParamOscPulseWidth k v
  | .setParamOscSymmetry _ v => .setParamOscSymmetry k v
  | .setParamOscSineLevel _ v => .setParamOscSineLevel k v
  | .setParamOscSawLevel _ v => .setParamOscSawLevel k v
  | .setParamOscTriLevel _ v => .setParamOscTriLevel k v
  | .setParamOscPulseLevel _ v => .setParamOscPulseLevel k v
  | .setParamOscSlewCutoff _ v => .setParamOscSlewCutoff k v
  | .setParamOscPurity _ v => .setParamOscPurity k v
  | .setParamVcaDialVoltage _ v => .setParamVcaDialVoltage k v
  | .setParamVcaCutoffEnabled _ v => .setParamVcaCutoffEnabled k v
  | .setParamTonePosition _ v => .setParamTonePosition k v
  | .setParamThermEnable _ v => .setParamThermEnable k v
  | .setParamNoiseColour _ v => .setParamNoiseColour k v
  | .setParamNoiseLevel _ v => .setParamNoiseLevel k v
  | .setParamNoiseBypass _ v => .setParamNoiseBypass k v
  | .setParamScopeTriggerLevel _ v => .setParamScopeTriggerLevel k v
  | .setParamScopeHysteresis _ v => .setParamScopeHysteresis k v
  | .setWaveformOsc _ mode => .setWaveformOsc k mode
  | .resetPhaseOsc _ => .resetPhaseOsc k
  | .stopBrcap _ => .stopBrcap k
  | .stopBrplay _ => .stopBrplay k
  | .resyncOsc _ v => .resyncOsc k v
  | .resyncVca _ v => .resyncVca k v
  | .resyncTone _ v => .resyncTone k v
  | .resyncTherm _ v => .resyncTherm k v
  | .resyncNoise _ v => .resyncNoise k v
  | .setBufferSizeScope _ size => .setBufferSizeScope k size
  | .setBufferSizeBrcap _ size => .setBufferSizeBrcap k size
  | .setBufferSizeBrplay _ size => .setBufferSizeBrplay k size
  | .setTriggerLevelScope _ level => .setTriggerLevelScope k level
  | .startBrcap _ => .startBrcap k
  | .startBrplay _ => .startBrplay k
  | .setDormantOsc _ flag => .setDormantOsc k flag
  | .setDormantVca _ flag => .setDormantVca k flag
  | .setDormantTone _ flag => .setDormantTone k flag
  | .setDormantNoise _ flag => .setDormantNoise k flag
  | .pushChunkBrplay _ n payload => .pushChunkBrplay k n payload
  | .captureOutbound inst triggered valid n rate ys xs => .captureOutbound inst triggered valid n rate ys xs
  | .eventOutbound cls inst code count => .eventOutbound cls inst code count
  | .chunkOutbound inst n samples => .chunkOutbound inst n samples

/-- A command executed on several instances, one after another. -/
def execEach (i : Instr) : List (BitVec 4) → State → Result
  | [], s => .next s
  | k :: ks, s =>
    match exec (retarget k i) s with
    | .next t => execEach i ks t
    | .fault r => .fault r
    | .refused r => .refused r

/-- The acting rows of 30_encoding.md R147 and R148: opcode, class, and for SETPARAM the parameter index. -/
def actingRow (op cls pidx : Nat) : Bool :=
  (op == 1 &&
      ((cls == 1 && pidx ≤ 9) || (cls == 2 && pidx ≤ 1) || (cls == 3 && pidx == 0) || (cls == 4 && pidx == 0) ||
        (cls == 5 && pidx ≤ 2) || (cls == 6 && pidx ≤ 1))) ||
    (op == 2 && cls == 1) || (op == 3 && cls == 1) || (op == 4 && (cls == 7 || cls == 8)) ||
    (op == 5 && (1 ≤ cls && cls ≤ 5)) || (op == 6 && (6 ≤ cls && cls ≤ 8)) || (op == 7 && cls == 6) ||
    (op == 8 && (cls == 7 || cls == 8)) || (op == 9 && (cls == 1 || cls == 2 || cls == 3 || cls == 5)) ||
    (op == 10 && cls == 8)

/-! ### Outbound order (70_reset_and_hazards.md R513, 60_exceptions.md R472) -/

/-- The place of an outbound packet in its block: data before events, then class, instance and event code. -/
def outboundRank : Instr → Nat
  | .captureOutbound inst _ _ _ _ _ _ => 65536 * 0 + 4096 * 6 + 256 * inst.toNat
  | .chunkOutbound inst _ _ => 65536 * 0 + 4096 * 7 + 256 * inst.toNat
  | .eventOutbound cls inst code _ => 65536 * 1 + 4096 * cls.toNat + 256 * inst.toNat + code.toNat
  | _ => 0

/-- A CAPTURE packet of SCOPE instance `k`. -/
def isCaptureOf (k : Nat) : Instr → Bool
  | .captureOutbound inst _ _ _ _ _ _ => inst == BitVec.ofNat 4 k
  | _ => false

/-- A CHUNK packet of BRCAP instance `k`. -/
def isChunkOf (k : Nat) : Instr → Bool
  | .chunkOutbound inst _ _ => inst == BitVec.ofNat 4 k
  | _ => false

/-- An EVENT packet. -/
def isEvent : Instr → Bool
  | .eventOutbound _ _ _ _ => true
  | _ => false

/-- R470: a count that is not 0, and no report of this code within the last `interval` blocks. -/
def dueForReport (b : U64) (interval : Nat) (k : EventCode) (c : Common) : Prop :=
  c.pending.get k ≠ 0 ∧ ∀ l ∈ c.lastReport.get k, (interval : Int) ≤ (b.toNat : Int) - (l.toNat : Int)

/-- The common state of a class's instances, by instance number. -/
def State.commonOf (s : State) : UnitClass → List Common
  | .osc => s.osc.map Osc.common
  | .vca => s.vca.map Vca.common
  | .tone => s.tone.map Tone.common
  | .therm => s.therm.map Therm.common
  | .noise => s.noise.map Noise.common
  | .scope => s.scope.map Scope.common
  | .brcap => s.brcap.map Brcap.common
  | .brplay => s.brplay.map Brplay.common

/-- `NINST` of a class (00_scope.md R7). -/
def State.ninst (s : State) (cls : UnitClass) : Nat := (s.commonOf cls).length

/-! ### What a command on one class answers: a next state in which no other class and nothing else of the block differs -/

def CompletesOnOsc (i : Instr) (inst : BitVec 4) (f : Osc → Osc) (s : State) : Prop :=
  ∃ t, exec i s = .next t ∧ t = { s with osc := t.osc } ∧ AppliedTo inst f s.osc t.osc

def CompletesOnVca (i : Instr) (inst : BitVec 4) (f : Vca → Vca) (s : State) : Prop :=
  ∃ t, exec i s = .next t ∧ t = { s with vca := t.vca } ∧ AppliedTo inst f s.vca t.vca

def CompletesOnTone (i : Instr) (inst : BitVec 4) (f : Tone → Tone) (s : State) : Prop :=
  ∃ t, exec i s = .next t ∧ t = { s with tone := t.tone } ∧ AppliedTo inst f s.tone t.tone

def CompletesOnTherm (i : Instr) (inst : BitVec 4) (f : Therm → Therm) (s : State) : Prop :=
  ∃ t, exec i s = .next t ∧ t = { s with therm := t.therm } ∧ AppliedTo inst f s.therm t.therm

def CompletesOnNoise (i : Instr) (inst : BitVec 4) (f : Noise → Noise) (s : State) : Prop :=
  ∃ t, exec i s = .next t ∧ t = { s with noise := t.noise } ∧ AppliedTo inst f s.noise t.noise

def CompletesOnScope (i : Instr) (inst : BitVec 4) (f : Scope → Scope) (s : State) : Prop :=
  ∃ t, exec i s = .next t ∧ t = { s with scope := t.scope } ∧ AppliedTo inst f s.scope t.scope

def CompletesOnBrcap (i : Instr) (inst : BitVec 4) (f : Brcap → Brcap) (s : State) : Prop :=
  ∃ t, exec i s = .next t ∧ t = { s with brcap := t.brcap } ∧ AppliedTo inst f s.brcap t.brcap

def CompletesOnBrplay (i : Instr) (inst : BitVec 4) (f : Brplay → Brplay) (s : State) : Prop :=
  ∃ t, exec i s = .next t ∧ t = { s with brplay := t.brplay } ∧ AppliedTo inst f s.brplay t.brplay

/-! ### The shelving filter, as R310 to R313 write it -/

/-- The output of a filter of constant `K = 2 * FS * tau` at position `p` on input `x`: the identity at `p = 0`, else
`((b0 * x) + (b1 * x1)) - (a1 * y1)` with the coefficients of R311, +0 if it is not finite. -/
def shelfRule (fs tau p x : F64) (f : ShelfState) : F64 :=
  let k := fmul (fmul f2 fs) tau
  let g := fadd f1 p
  let y :=
    fsub
      (fadd (fmul (fdiv (fadd f1 (fmul g k)) (fadd f1 k)) x) (fmul (fdiv (fsub f1 (fmul g k)) (fadd f1 k)) f.x1))
      (fmul (fdiv (fsub f1 k) (fadd f1 k)) f.y1)
  if feq p f0 then x else if isFinite y then y else f0

/-! ### Region bytes and mute gains -/

/-- The four bytes at `o` hold the field `v`: bits [7:0] first in the little order, last in the big one (20_memory.md R104). -/
abbrev Region.FieldAt (e : Endian) (o : Nat) (v : BitVec 32) (r : Region) : Prop :=
  o + 4 ≤ r.size ∧ [r.mem.read o, r.mem.read (o + 1), r.mem.read (o + 2), r.mem.read (o + 3)] =
    match e with
    | .little => [v.extractLsb' 0 8, v.extractLsb' 8 8, v.extractLsb' 16 8, v.extractLsb' 24 8]
    | .big => [v.extractLsb' 24 8, v.extractLsb' 16 8, v.extractLsb' 8 8, v.extractLsb' 0 8]

/-- The byte at offset `o` of capture instance `k`'s region; none without one. -/
def State.captureByte (s : State) (k o : Nat) : Option Byte :=
  s.brcap[k]?.bind fun u => u.link.region.map fun r => r.mem.read o

/-- The byte at offset `o` of playback instance `k`'s region; none without one. -/
def State.playByte (s : State) (k o : Nat) : Option Byte :=
  s.brplay[k]?.bind fun u => u.link.region.map fun r => r.mem.read o

/-- A frame in which a unit is faulted or frozen (00_scope.md R10, 70_reset_and_hazards.md R511). -/
abbrev silent (c : Common) (m : Mute) : Prop := c.faulted = true ∨ (m.dormant = true ∧ feq m.gain f0 = true)

/-- A value in [0, 1] (10_state.md R32's range of `muteGain`). -/
abbrev unitRange (x : F64) : Prop := fle f0 x = true ∧ fle x f1 = true

/-- Every phase of the block is in [0, 1) (R55). -/
abbrev State.PhasesOk (s : State) : Prop := ∀ u ∈ s.osc, fle f0 u.phase = true ∧ flt u.phase f1 = true

/-- Every mute gain of the block is in its range. -/
abbrev State.GainsOk (s : State) : Prop :=
  (∀ u ∈ s.osc, unitRange u.mute.gain) ∧ (∀ u ∈ s.vca, unitRange u.mute.gain) ∧ (∀ u ∈ s.tone, unitRange u.mute.gain) ∧
    ∀ u ∈ s.noise, unitRange u.mute.gain

end Sys2Proof.Machine
end

