-- ==== Sys2Proof/Certificates/Slice0/Obligations.lean ====
section
/-!
DEFINITION. The statements for the provers, each from the rules of spec/ its docstring cites. OBLIGATIONS.json lists them.
-/

open Sys2Proof Sys2Proof.Machine

/-! ### Encoding (30_encoding.md) -/

/-- R163: the five worked encodings, from the text of the command to its bytes, and the bytes decoded. -/
def Obligations.WorkedEncodingsMatch : Prop :=
  ∀ r ∈
    [("SETPARAM OSC[0].frequency, 440.0", Instr.setParamOscFrequency 0 0x407B800000000000,
        [0x00, 0x00, 0x10, 0x01, 0x00, 0x00, 0x00, 0x00, 0x00, 0x80, 0x7B, 0x40]),
      ("SETWAVEFORM OSC[0], SAW", .setWaveformOsc 0 1, [0x00, 0x00, 0x10, 0x02, 0x01, 0x00, 0x00, 0x00, 0x00, 0x00, 0x00, 0x00]),
      ("RESYNC VCA[0], -2.0", .resyncVca 0 0xC000000000000000,
        [0x00, 0x00, 0x20, 0x05, 0x00, 0x00, 0x00, 0x00, 0x00, 0x00, 0x00, 0xC0]),
      ("SETPARAM THERM[*].enable, 0.0", .setParamThermEnable 15 0,
        [0x00, 0x00, 0x4F, 0x01, 0x00, 0x00, 0x00, 0x00, 0x00, 0x00, 0x00, 0x00]),
      ("START BRCAP[0]", .startBrcap 0, ([0x00, 0x00, 0x70, 0x08, 0x00, 0x00, 0x00, 0x00, 0x00, 0x00, 0x00, 0x00] : Packet))],
    assembleLine 2 r.1.toList = some [r.2.2] ∧ encode r.2.1 = r.2.2 ∧ decode r.2.2 = .ok r.2.1

/-- Sections 1 to 5: no bit of an encoding is dropped. -/
def Obligations.EncodedPacketsDecodeBack : Prop := ∀ i : Instr, i.wf = true → decode (encode i) = .ok i

/-- R146, R150 to R152: the length of every packet. -/
def Obligations.PacketsHaveTheirLengths : Prop :=
  (∀ i : Instr, (encode i).length = 12 ∨ (∃ inst n payload, i = .pushChunkBrplay inst n payload) ∨
      (∃ inst triggered valid n rate ys xs, i = .captureOutbound inst triggered valid n rate ys xs) ∨
      ∃ inst n samples, i = .chunkOutbound inst n samples) ∧
    (∀ inst n payload ch, payload.length = n.toNat * ch → (encode (.pushChunkBrplay inst n payload)).length = 12 + 4 * n.toNat * ch) ∧
    (∀ inst triggered valid n rate ys xs, (Instr.captureOutbound inst triggered valid n rate ys xs).wf = true →
      (encode (.captureOutbound inst triggered valid n rate ys xs)).length = 20 + 8 * n.toNat) ∧
    ∀ inst n samples ch, samples.length = n.toNat * ch → (encode (.chunkOutbound inst n samples)).length = 12 + 4 * n.toNat * ch

/-- R140, R142, R149, R154: reserved bits, an ignored `pidx`, ignored operand bits and bytes past the required length do not
change a command's meaning. -/
def Obligations.IgnoredBitsDoNotMatter : Prop :=
  ∀ (r r' h1 h1' h2 h3 : Byte) (o0 o1 o2 o3 o4 o5 o6 o7 p0 p1 p2 p3 p4 p5 p6 p7 : Byte) (rest rest' : List Byte),
    decode (r :: h1 :: h2 :: h3 :: o0 :: o1 :: o2 :: o3 :: o4 :: o5 :: o6 :: o7 :: rest) =
        decode (r' :: h1 :: h2 :: h3 :: o0 :: o1 :: o2 :: o3 :: o4 :: o5 :: o6 :: o7 :: rest) ∧
      (2 ≤ h3.toNat ∧ h3.toNat < 0x80 →
        decode (r :: h1 :: h2 :: h3 :: o0 :: o1 :: o2 :: o3 :: o4 :: o5 :: o6 :: o7 :: rest) =
          decode (r :: h1' :: h2 :: h3 :: o0 :: o1 :: o2 :: o3 :: o4 :: o5 :: o6 :: o7 :: rest)) ∧
      (h3.toNat = 2 ∨ h3.toNat = 6 ∨ h3.toNat = 9 ∨ h3.toNat = 10 →
        decode (r :: h1 :: h2 :: h3 :: o0 :: o1 :: o2 :: o3 :: o4 :: o5 :: o6 :: o7 :: rest) =
          decode (r :: h1 :: h2 :: h3 :: o0 :: o1 :: o2 :: o3 :: p4 :: p5 :: p6 :: p7 :: rest)) ∧
      (h3.toNat = 3 ∨ h3.toNat = 4 ∨ h3.toNat = 8 →
        decode (r :: h1 :: h2 :: h3 :: o0 :: o1 :: o2 :: o3 :: o4 :: o5 :: o6 :: o7 :: rest) =
          decode (r :: h1 :: h2 :: h3 :: p0 :: p1 :: p2 :: p3 :: p4 :: p5 :: p6 :: p7 :: rest)) ∧
      (h3.toNat < 10 →
        decode (r :: h1 :: h2 :: h3 :: o0 :: o1 :: o2 :: o3 :: o4 :: o5 :: o6 :: o7 :: rest) =
          decode (r :: h1 :: h2 :: h3 :: o0 :: o1 :: o2 :: o3 :: o4 :: o5 :: o6 :: o7 :: rest'))

/-- R140, R147, R148: of the opcodes a host may send, exactly the acting rows decode, and nothing shorter than 12 bytes does.
A PUSHCHUNK that is too short decodes and is ignored by each instance (log 12); so the model reads R146.
-/
def Obligations.OnlyActingRowsDecode : Prop :=
  (∀ p : Packet, p.length < 12 → ∃ r, decode p = .error r) ∧
    ∀ (h0 h1 h2 h3 o0 o1 o2 o3 o4 o5 o6 o7 : Byte) (rest : List Byte), h3.toNat < 0x80 →
      ((∃ i, decode (h0 :: h1 :: h2 :: h3 :: o0 :: o1 :: o2 :: o3 :: o4 :: o5 :: o6 :: o7 :: rest) = .ok i) ↔
        actingRow h3.toNat (h2.toNat / 16) h1.toNat = true)

/-- R154, R463: at the boundary a packet that names no row, or an outbound row, only leaves the queue. One packet leaves the
queue per step (log 3). -/
def Obligations.RejectedPacketsChangeNothing : Prop :=
  ∀ (s : State) (p : Packet) (q : List Packet), s.configOk = true → s.phase = .boundary → s.inQueue = p :: q →
    ((∃ r, decode p = .error r) ∨ ∃ i, decode p = .ok i ∧ commandTarget i = none) → step s = .next { s with inQueue := q }

/-- R145: a command to an instance number the class does not have is ignored. -/
def Obligations.AbsentInstancesAreIgnored : Prop :=
  ∀ (s : State) (i : Instr) (cls : UnitClass) (inst : BitVec 4), commandTarget i = some (cls, inst) → inst ≠ 15#4 →
    s.ninst cls ≤ inst.toNat → exec i s = .next s

/-- R145: `inst` 15 is the command on instance 0, then 1, up to the last. -/
def Obligations.BroadcastRunsEveryInstance : Prop :=
  ∀ (s : State) (i : Instr) (cls : UnitClass), commandTarget i = some (cls, 15#4) → s.ninst cls ≤ 15 →
    exec i s = execEach i ((List.range (s.ninst cls)).map (BitVec.ofNat 4)) s

/-! ### Commands (40_messages.md) -/

/-- R182: SETPARAM to an OSC. -/
def Obligations.SetParamWritesOscRegister : Prop :=
  ∀ (s : State) (inst : BitVec 4) (v : F64),
    CompletesOnOsc (.setParamOscFrequency inst v) inst (fun u => { u with reg := { u.reg with frequency := v } }) s ∧
      CompletesOnOsc (.setParamOscDetune inst v) inst (fun u => { u with reg := { u.reg with detune := v } }) s ∧
      CompletesOnOsc (.setParamOscPulseWidth inst v) inst (fun u => { u with reg := { u.reg with pulseWidth := v } }) s ∧
      CompletesOnOsc (.setParamOscSymmetry inst v) inst (fun u => { u with reg := { u.reg with symmetry := v } }) s ∧
      CompletesOnOsc (.setParamOscSineLevel inst v) inst (fun u => { u with reg := { u.reg with sineLevel := v } }) s ∧
      CompletesOnOsc (.setParamOscSawLevel inst v) inst (fun u => { u with reg := { u.reg with sawLevel := v } }) s ∧
      CompletesOnOsc (.setParamOscTriLevel inst v) inst (fun u => { u with reg := { u.reg with triLevel := v } }) s ∧
      CompletesOnOsc (.setParamOscPulseLevel inst v) inst (fun u => { u with reg := { u.reg with pulseLevel := v } }) s ∧
      CompletesOnOsc (.setParamOscSlewCutoff inst v) inst (fun u => { u with reg := { u.reg with slewCutoff := v } }) s ∧
      CompletesOnOsc (.setParamOscPurity inst v) inst (fun u => { u with reg := { u.reg with purity := v } }) s

/-- R183 to R186: SETPARAM to a VCA, a TONE, a THERM and a NOISE. -/
def Obligations.SetParamWritesFilterRegister : Prop :=
  ∀ (s : State) (inst : BitVec 4) (v : F64),
    CompletesOnVca (.setParamVcaDialVoltage inst v) inst (fun u => { u with reg := { u.reg with dialVoltage := v } }) s ∧
      CompletesOnVca (.setParamVcaCutoffEnabled inst v) inst (fun u => { u with reg := { u.reg with cutoffEnabled := v } }) s ∧
      CompletesOnTone (.setParamTonePosition inst v) inst (fun u => { u with position := v }) s ∧
      CompletesOnTherm (.setParamThermEnable inst v) inst (fun u => { u with enable := v }) s ∧
      CompletesOnNoise (.setParamNoiseColour inst v) inst (fun u => { u with reg := { u.reg with colour := v } }) s ∧
      CompletesOnNoise (.setParamNoiseLevel inst v) inst (fun u => { u with reg := { u.reg with level := v } }) s ∧
      CompletesOnNoise (.setParamNoiseBypass inst v) inst (fun u => { u with reg := { u.reg with bypass := v } }) s

/-- R187, R200: SETPARAM to a SCOPE, and SETTRIGGERLEVEL, which writes the same register as `pidx` 0. -/
def Obligations.TriggerCommandsWriteScopeRegister : Prop :=
  ∀ (s : State) (inst : BitVec 4) (v : F64),
    CompletesOnScope (.setParamScopeTriggerLevel inst v) inst (fun u => { u with reg := { u.reg with triggerLevel := v } }) s ∧
      CompletesOnScope (.setParamScopeHysteresis inst v) inst (fun u => { u with reg := { u.reg with hysteresis := v } }) s ∧
      CompletesOnScope (.setTriggerLevelScope inst v) inst (fun u => { u with reg := { u.reg with triggerLevel := v } }) s ∧
      exec (.setTriggerLevelScope inst v) s = exec (.setParamScopeTriggerLevel inst v) s

/-- R188, R189: SETWAVEFORM's five modes, any other operand leaving the mode; RESETPHASE, the accumulator and nothing else.
-/
def Obligations.OscCommandsSetModeAndPhase : Prop :=
  ∀ (s : State) (inst : BitVec 4) (v : U32),
    CompletesOnOsc (.setWaveformOsc inst v) inst
        (fun u =>
          { u with
            mode :=
              if v = 0 then .sine else if v = 1 then .saw else if v = 2 then .tri else if v = 3 then .pulse
              else if v = 4 then .multi else u.mode })
        s ∧
      CompletesOnOsc (.resetPhaseOsc inst) inst (fun u => { u with phase := 0 }) s

/-- R190, R191: STOP. -/
def Obligations.StopStopsBridge : Prop :=
  ∀ (s : State) (inst : BitVec 4),
    CompletesOnBrcap (.stopBrcap inst) inst (fun u => { u with link := { u.link with run := .stopped }, staging := [] }) s ∧
      CompletesOnBrplay (.stopBrplay inst) inst (fun u => { u with link := { u.link with run := .stopped } }) s

/-- R192 to R196: RESYNC sets the filter state to a finite value and ignores any other. -/
def Obligations.ResyncSetsFilterState : Prop :=
  ∀ (s : State) (inst : BitVec 4) (v : F64),
    CompletesOnOsc (.resyncOsc inst v) inst (fun u => if isFinite v then { u with slewSaw := v, slewPulse := v } else u) s ∧
      CompletesOnVca (.resyncVca inst v) inst (fun u => if isFinite v then { u with s := v, sInit := true } else u) s ∧
      CompletesOnTone (.resyncTone inst v) inst
        (fun u => if isFinite v then { u with chans := List.replicate u.chans.length ⟨v, v⟩ } else u) s ∧
      CompletesOnTherm (.resyncTherm inst v) inst (fun u => if isFinite v then { u with cur := v } else u) s ∧
      CompletesOnNoise (.resyncNoise inst v) inst (fun u => if isFinite v then { u with filter := ⟨v, v⟩ } else u) s

/-- R197 to R199: SETBUFFERSIZE, its clamps, the SCOPE's cleared capture state and the bridges' next capacity. -/
def Obligations.SetBufferSizeClampsAndClears : Prop :=
  ∀ (s : State) (inst : BitVec 4) (v : U32),
    CompletesOnScope (.setBufferSizeScope inst v) inst
        (fun u =>
          { u with
            n := min (max v.toNat u.cfg.nMin) u.cfg.nMax
            bufY := List.replicate (2 * min (max v.toNat u.cfg.nMin) u.cfg.nMax) 0
            bufX := List.replicate (2 * min (max v.toNat u.cfg.nMin) u.cfg.nMax) 0
            w := 0, filled := 0, newCount := 0, total := 0, anchor := none, period := none, holdoff := 0 })
        s ∧
      CompletesOnBrcap (.setBufferSizeBrcap inst v) inst
        (fun u => { u with link := { u.link with capNext := min (max v.toNat u.cfg.capMin) u.cfg.capMax } }) s ∧
      CompletesOnBrplay (.setBufferSizeBrplay inst v) inst
        (fun u => { u with link := { u.link with capNext := min (max v.toNat u.cfg.capMin) u.cfg.capMax } }) s

/-- R201, R202, 20_memory.md R102, R103: START opens a fresh region of zero bytes, which no agent has accessed (log 8), or falls
back for good and counts it once. -/
def Obligations.StartOpensFreshStorage : Prop :=
  ∀ (s : State) (inst : BitVec 4),
    CompletesOnBrcap (.startBrcap inst) inst
        (fun u =>
          if s.shmAvailable = true ∧ u.link.fallbackLatched = false then
            { u with
              link :=
                { u.link with
                  run := .running, mode := .shared, cap := u.link.capNext
                  region := some ⟨8 + 4 * u.link.capNext * u.cfg.ch, []⟩
                  order := ⟨u.link.order.racy, [], [], [], false⟩ }
              wLocal := 0, staging := [] }
          else
            { u with
              common :=
                if u.link.fallbackLatched then u.common
                else { u.common with pending := { u.common.pending with fallback := u.common.pending.fallback + 1 } }
              link :=
                { u.link with
                  run := .running, mode := .fallback, cap := u.link.capNext, region := none, fallbackLatched := true
                  order := ⟨u.link.order.racy, [], [], [], false⟩ }
              wLocal := 0, staging := [] })
        s ∧
      CompletesOnBrplay (.startBrplay inst) inst
        (fun u =>
          if s.shmAvailable = true ∧ u.link.fallbackLatched = false then
            { u with
              link :=
                { u.link with
                  run := .running, mode := .shared, cap := u.link.capNext
                  region := some ⟨8 + 4 * u.link.capNext * u.cfg.ch, []⟩
                  order := ⟨u.link.order.racy, [], [], [], false⟩ }
              rLocal := 0, fifo := [], lastFrame := List.replicate u.cfg.ch 0 }
          else
            { u with
              common :=
                if u.link.fallbackLatched then u.common
                else { u.common with pending := { u.common.pending with fallback := u.common.pending.fallback + 1 } }
              link :=
                { u.link with
                  run := .running, mode := .fallback, cap := u.link.capNext, region := none, fallbackLatched := true
                  order := ⟨u.link.order.racy, [], [], [], false⟩ }
              rLocal := 0, fifo := [], lastFrame := List.replicate u.cfg.ch 0 })
        s ∧
      ∀ o, Memory.read [] o = 0

/-- R203 to R207: the dormant flag, and the wake reset on its 1 to 0 transition alone. -/
def Obligations.SetDormantSleepsAndWakes : Prop :=
  ∀ (s : State) (inst : BitVec 4) (v : U32),
    CompletesOnOsc (.setDormantOsc inst v) inst
        (fun u =>
          if v ≠ 0 then { u with mute := { u.mute with dormant := true } }
          else if u.mute.dormant then { u with mute := { u.mute with dormant := false }, prevSync := 0, slewSaw := 0, slewPulse := 0 }
          else u)
        s ∧
      CompletesOnVca (.setDormantVca inst v) inst
        (fun u =>
          if v ≠ 0 then { u with mute := { u.mute with dormant := true } }
          else if u.mute.dormant then { u with mute := { u.mute with dormant := false }, sInit := false }
          else u)
        s ∧
      CompletesOnTone (.setDormantTone inst v) inst
        (fun u =>
          if v ≠ 0 then { u with mute := { u.mute with dormant := true } }
          else if u.mute.dormant then
            { u with mute := { u.mute with dormant := false }, chans := List.replicate u.chans.length ⟨0, 0⟩ }
          else u)
        s ∧
      CompletesOnNoise (.setDormantNoise inst v) inst
        (fun u =>
          if v ≠ 0 then { u with mute := { u.mute with dormant := true } }
          else if u.mute.dormant then { u with mute := { u.mute with dormant := false }, filter := ⟨0, 0⟩ }
          else u)
        s

/-- R208, R153: a running FALLBACK BRPLAY takes the frames that fit and counts the rest; any other ignores the packet. The
packet is measured against each instance's own channel count (log 12). -/
def Obligations.PushChunkFillsFifo : Prop :=
  ∀ (s : State) (inst : BitVec 4) (n : U32) (payload : List F32),
    CompletesOnBrplay (.pushChunkBrplay inst n payload) inst
      (fun u =>
        if u.link.run = .running ∧ u.link.mode = .fallback ∧ n.toNat * u.cfg.ch ≤ payload.length then
          { u with
            fifo :=
              u.fifo ++
                (List.range (min n.toNat (u.link.cap - 1 - u.fifo.length))).map fun f =>
                  (List.range u.cfg.ch).map fun c => payload.getD (f * u.cfg.ch + c) 0
            common :=
              { u.common with
                pending :=
                  { u.common.pending with
                    overflow :=
                      u.common.pending.overflow + BitVec.ofNat 32 (n.toNat - (u.link.cap - 1 - u.fifo.length)) } } }
        else u)
      s

/-- R154: an outbound row received inbound completes and changes nothing. Decoding them to constructors is the model's (log
16). -/
def Obligations.OutboundRowsAreIgnored : Prop :=
  ∀ s : State,
    (∀ inst triggered valid n rate ys xs, ∃ t, exec (.captureOutbound inst triggered valid n rate ys xs) s = .next t ∧ t = s) ∧
      (∀ cls inst code count, ∃ t, exec (.eventOutbound cls inst code count) s = .next t ∧ t = s) ∧
      ∀ inst n samples, ∃ t, exec (.chunkOutbound inst n samples) s = .next t ∧ t = s

/-- R460, R463, R466, 70_reset_and_hazards.md R502: every command completes, and none touches the block's counters, queues
and configuration, a fault latch, a report time or a unit's outputs. Outputs and fault latches are where the model keeps them
(log 19). -/
def Obligations.CommandsKeepTheBlock : Prop :=
  ∀ (i : Instr) (s : State), ∃ t, exec i s = .next t ∧
    t.cfg = s.cfg ∧ t.shmAvailable = s.shmAvailable ∧ t.phase = s.phase ∧ t.blockIndex = s.blockIndex ∧
    t.inQueue = s.inQueue ∧ t.outQueue = s.outQueue ∧ t.outputs = s.outputs ∧
    t.osc.map Osc.cfg = s.osc.map Osc.cfg ∧ t.vca.map Vca.cfg = s.vca.map Vca.cfg ∧ t.tone.map Tone.cfg = s.tone.map Tone.cfg ∧
    t.therm.map Therm.cfg = s.therm.map Therm.cfg ∧ t.noise.map Noise.cfg = s.noise.map Noise.cfg ∧
    t.scope.map Scope.cfg = s.scope.map Scope.cfg ∧ t.brcap.map Brcap.cfg = s.brcap.map Brcap.cfg ∧
    t.brplay.map Brplay.cfg = s.brplay.map Brplay.cfg ∧ t.commons.map Common.faulted = s.commons.map Common.faulted ∧
    t.commons.map Common.lastReport = s.commons.map Common.lastReport

/-- 20_memory.md R101, R102: no command but START changes a byte of a region, and START only those of the instances it
addresses. -/
def Obligations.CommandsKeepRegionBytes : Prop :=
  ∀ (i : Instr) (s t : State), exec i s = .next t →
    (∀ k o, (∀ inst, i = .startBrcap inst → addressed inst k = false) → t.captureByte k o = s.captureByte k o) ∧
      ∀ k o, (∀ inst, i = .startBrplay inst → addressed inst k = false) → t.playByte k o = s.playByte k o

/-! ### The block (10_state.md, 60_exceptions.md, 70_reset_and_hazards.md) -/

/-- R180: a step at the boundary runs the decoded front packet, which leaves the queue. One packet a step is the model's cut
of the boundary (log 3, log 10). -/
def Obligations.StepRunsDecodedCommand : Prop :=
  ∀ (s : State) (p : Packet) (q : List Packet) (i : Instr), s.configOk = true → s.phase = .boundary → s.inQueue = p :: q →
    decode p = .ok i → step s = exec i { s with inQueue := q }

/-- R510, R31, R513: the boundary with no command left, frames 0 to Q-1, the bridges, the end of the block, which counts the
block; packets leave for `outQueue` at the end of the block only. The cut of a block into moves is the model's (log 3). -/
def Obligations.BlockFollowsSchedule : Prop :=
  ∀ s t : State, step s = .next t → (s.phase ≠ .boundary ∨ s.inQueue = []) →
    t.phase =
        (match s.phase with
        | .boundary => .frame 0
        | .frame i => if i + 1 < s.cfg.q then .frame (i + 1) else .bridges
        | .bridges => .endOfBlock
        | .endOfBlock => .boundary) ∧
      t.blockIndex = (if s.phase = .endOfBlock then s.blockIndex + 1 else s.blockIndex) ∧
      (∃ ps, t.outQueue = s.outQueue ++ ps ∧ (s.phase ≠ .endOfBlock → ps = [])) ∧ t.inQueue = s.inQueue

/-- R180, R39, R100, R101, R510: no register, mode, dormant flag, window size or bridge lifecycle changes inside a block; a bridge's
region bytes and indices, staging, FIFO and last frame change in the bridges' step alone, and that step touches no sample class.
-/
def Obligations.CommandStateHoldsInsideBlock : Prop :=
  ∀ s t : State, step s = .next t → (s.phase ≠ .boundary ∨ s.inQueue = []) →
    t.osc.map (fun u => (u.reg, u.mode, u.mute.dormant)) = s.osc.map (fun u => (u.reg, u.mode, u.mute.dormant)) ∧
      t.vca.map (fun u => (u.reg, u.mute.dormant)) = s.vca.map (fun u => (u.reg, u.mute.dormant)) ∧
      t.tone.map (fun u => (u.position, u.mute.dormant)) = s.tone.map (fun u => (u.position, u.mute.dormant)) ∧
      t.therm.map Therm.enable = s.therm.map Therm.enable ∧
      t.noise.map (fun u => (u.reg, u.mute.dormant)) = s.noise.map (fun u => (u.reg, u.mute.dormant)) ∧
      t.scope.map (fun u => (u.reg, u.n)) = s.scope.map (fun u => (u.reg, u.n)) ∧
      t.brcap.map (fun u => (u.link.run, u.link.mode, u.link.fallbackLatched, u.link.capNext, u.link.cap)) =
        s.brcap.map (fun u => (u.link.run, u.link.mode, u.link.fallbackLatched, u.link.capNext, u.link.cap)) ∧
      t.brplay.map (fun u => (u.link.run, u.link.mode, u.link.fallbackLatched, u.link.capNext, u.link.cap)) =
        s.brplay.map (fun u => (u.link.run, u.link.mode, u.link.fallbackLatched, u.link.capNext, u.link.cap)) ∧
      t.shmAvailable = s.shmAvailable ∧
      (s.phase ≠ .bridges →
        t.brcap.map (fun u => (u.link, u.wLocal, u.staging, u.input)) = s.brcap.map (fun u => (u.link, u.wLocal, u.staging, u.input)) ∧
          t.brplay.map (fun u => (u.link, u.rLocal, u.fifo, u.lastFrame)) = s.brplay.map (fun u => (u.link, u.rLocal, u.fifo, u.lastFrame))) ∧
      (s.phase = .bridges →
        t.osc = s.osc ∧ t.vca = s.vca ∧ t.tone = s.tone ∧ t.therm = s.therm ∧ t.noise = s.noise ∧ t.scope = s.scope) ∧
      ∀ i, s.phase = .frame i → t.brcap = s.brcap ∧ t.brplay = s.brplay

/-- R39, R40 to R45: what the boundary latches of every k-rate parameter, and that it changes no other state than outputs and
the fault latch's, of a bridge no other at all. Emptying the output arrays at the boundary, and how a hysteresis bound above 2^53 becomes binary64, are the
model's choice (log 19, log 30). -/
def Obligations.BoundaryLatchesParameters : Prop :=
  ∀ s : State, s.configOk = true → s.phase = .boundary → s.inQueue = [] → ∃ t, step s = .next t ∧
    (∀ (k : Nat) (u : Osc), s.osc[k]? = some u → ∃ u' : Osc, t.osc[k]? = some u' ∧
      u' = { u with latch := u'.latch, common := u'.common, out0 := [], out1 := [] } ∧
      u'.latch.sineLevel = clampP ⟨f1, f0, f1⟩ u.reg.sineLevel ∧ u'.latch.sawLevel = clampP ⟨f1, f0, f1⟩ u.reg.sawLevel ∧
      u'.latch.triLevel = clampP ⟨f1, f0, f1⟩ u.reg.triLevel ∧ u'.latch.pulseLevel = clampP ⟨f1, f0, f1⟩ u.reg.pulseLevel ∧
      u'.latch.slewCutoff = clampP ⟨0x40D3880000000000, f0, 0x412E848000000000⟩ u.reg.slewCutoff ∧
      u'.latch.purity = clampP ⟨f1, f0, f1⟩ u.reg.purity) ∧
    (∀ (k : Nat) (u : Vca), s.vca[k]? = some u → ∃ u' : Vca, t.vca[k]? = some u' ∧ u' = { u with latch := u'.latch, common := u'.common, out := [] } ∧
      u'.latch.dialVoltage = clampP ⟨0xC028000000000000, u.cfg.dialMin, u.cfg.dialMax⟩ u.reg.dialVoltage ∧
      u'.latch.cutoffEnabled = fle fHalf (clampP ⟨f1, f0, f1⟩ u.reg.cutoffEnabled)) ∧
    (∀ (k : Nat) (u : Tone), s.tone[k]? = some u → ∃ u' : Tone, t.tone[k]? = some u' ∧
      u' = { u with latchPosition := clampP ⟨f0, fNeg1, f1⟩ u.position, common := u'.common, out := List.replicate u.cfg.ch [] }) ∧
    (∀ (k : Nat) (u : Therm), s.therm[k]? = some u → ∃ u' : Therm, t.therm[k]? = some u' ∧
      u' = { u with latchEnable := fle fHalf (clampP ⟨f1, f0, f1⟩ u.enable), common := u'.common, out := [] }) ∧
    (∀ (k : Nat) (u : Noise), s.noise[k]? = some u → ∃ u' : Noise, t.noise[k]? = some u' ∧ u' = { u with latch := u'.latch, common := u'.common, out := [] } ∧
      u'.latch.colour = clampP ⟨f0, fNeg1, f1⟩ u.reg.colour ∧ u'.latch.level = clampP ⟨f1, f0, f1⟩ u.reg.level ∧
      u'.latch.bypass = fle fHalf (clampP ⟨f0, f0, f1⟩ u.reg.bypass)) ∧
    (∀ (k : Nat) (u : Scope), s.scope[k]? = some u → ∃ u' : Scope, t.scope[k]? = some u' ∧ u' = { u with latch := u'.latch, common := u'.common } ∧
      u'.latch.triggerLevel = clampP ⟨f0, 0xC08F400000000000, 0x408F400000000000⟩ u.reg.triggerLevel ∧
      u'.latch.hysteresis = min (floorInt (clampP ⟨f0, f0, ofNat u.cfg.nMax⟩ u.reg.hysteresis)).toNat u.cfg.nMax) ∧
    (∀ (k : Nat) (u : Brcap), s.brcap[k]? = some u → ∃ c, t.brcap[k]? = some { u with common := c }) ∧
    ∀ (k : Nat) (u : Brplay), s.brplay[k]? = some u → ∃ c, t.brplay[k]? = some { u with common := c, out := List.replicate u.cfg.ch [] }

/-- R466, R475: the fault draw of every instance at the boundary: an unfaulted one whose draw is true latches and counts one
UNIT_FAULT; a faulted one takes no draw. The draws are inputs held in the state (log 2). -/
def Obligations.FaultDrawsLatch : Prop :=
  ∀ s : State, s.configOk = true → s.phase = .boundary → s.inQueue = [] → ∃ t, step s = .next t ∧
    ∀ (cls : UnitClass) (k : Nat) (c : Common), (s.commonOf cls)[k]? = some c →
      (t.commonOf cls)[k]? =
        some
          (if c.faulted = false ∧ c.faultDraw = true then
            { c with faulted := true, pending := { c.pending with unitFault := c.pending.unitFault + 1 } }
          else c)

/-- R467, R475, R500, R502: no step clears a fault, adds or drops an instance, or changes the configuration. -/
def Obligations.FaultsAndConfigurationPersist : Prop :=
  ∀ s t : State, step s = .next t →
    (∀ (cls : UnitClass) (k : Nat) (c : Common), (s.commonOf cls)[k]? = some c → c.faulted = true → ∃ c' : Common, (t.commonOf cls)[k]? = some c' ∧ c'.faulted = true) ∧
      t.cfg = s.cfg ∧ t.osc.map Osc.cfg = s.osc.map Osc.cfg ∧ t.vca.map Vca.cfg = s.vca.map Vca.cfg ∧
      t.tone.map Tone.cfg = s.tone.map Tone.cfg ∧ t.therm.map Therm.cfg = s.therm.map Therm.cfg ∧
      t.noise.map Noise.cfg = s.noise.map Noise.cfg ∧ t.scope.map Scope.cfg = s.scope.map Scope.cfg ∧
      t.brcap.map Brcap.cfg = s.brcap.map Brcap.cfg ∧ t.brplay.map Brplay.cfg = s.brplay.map Brplay.cfg

/-- R513, R472, R470: the packets of a block: CAPTURE and CHUNK before EVENT, by class, instance and code, each instance's data in
production order, no EVENT twice and nothing else, after every packet of earlier blocks. -/
def Obligations.OutboundPacketsAreOrdered : Prop :=
  ∀ s : State, s.configOk = true → s.phase = .endOfBlock → ∃ t ps, step s = .next t ∧ t.outQueue = s.outQueue ++ ps ∧
    ps.Pairwise (fun a b => outboundRank a ≤ outboundRank b ∧ (isEvent b = true → outboundRank a < outboundRank b)) ∧
    (∀ p ∈ ps, isEvent p = true ∨ (∃ k, k < s.scope.length ∧ isCaptureOf k p = true) ∨ ∃ k, k < s.brcap.length ∧ isChunkOf k p = true) ∧
    (∀ (k : Nat) (u : Scope), s.scope[k]? = some u → ps.filter (isCaptureOf k) = u.made.map (Capture.packet s.cfg.fs k)) ∧
    ∀ (k : Nat) (u : Brcap), s.brcap[k]? = some u → ps.filter (isChunkOf k) = u.made.map (chunkPacket k)

/-- R470: at the end of a block a due count is reported, cleared and stamped; one that is not due is kept; and no other EVENT
is emitted. -/
def Obligations.DueEventsAreReported : Prop :=
  ∀ s : State, s.configOk = true → s.phase = .endOfBlock → ∃ t ps, step s = .next t ∧ t.outQueue = s.outQueue ++ ps ∧
    (∀ (cls : UnitClass) (k : Nat) (c : Common), (s.commonOf cls)[k]? = some c → ∃ c' : Common, (t.commonOf cls)[k]? = some c' ∧
      c'.faulted = c.faulted ∧ c'.faultDraw = c.faultDraw ∧
      ∀ code, (dueForReport s.blockIndex s.cfg.logInterval code c →
          c'.pending.get code = 0 ∧ c'.lastReport.get code = some s.blockIndex ∧
            .eventOutbound cls.code (BitVec.ofNat 4 k) code.code (c.pending.get code) ∈ ps) ∧
        (¬ dueForReport s.blockIndex s.cfg.logInterval code c →
          c'.pending.get code = c.pending.get code ∧ c'.lastReport.get code = c.lastReport.get code)) ∧
    ∀ p ∈ ps, isEvent p = true → ∃ (cls : UnitClass) (k : Nat) (c : Common) (code : EventCode), (s.commonOf cls)[k]? = some c ∧
      dueForReport s.blockIndex s.cfg.logInterval code c ∧
      p = .eventOutbound cls.code (BitVec.ofNat 4 k) code.code (c.pending.get code)

/-- R66, R500, R501: the instances and the values of a new block, for every configuration. The latched values and the empty output arrays are the
model's (log 9, log 19) and are not said here. -/
def Obligations.ResetGivesSpecValues : Prop :=
  ∀ c : Construction,
    (State.construct c).blockIndex = 0 ∧ (State.construct c).inQueue = [] ∧ (State.construct c).outQueue = [] ∧
      (State.construct c).phase = .boundary ∧ (State.construct c).cfg = c.block ∧ (State.construct c).shmAvailable = c.shmAvailable ∧
      (State.construct c).osc.map Osc.cfg = c.osc ∧ (State.construct c).vca.map Vca.cfg = c.vca ∧
      (State.construct c).tone.map Tone.cfg = c.tone ∧ (State.construct c).therm.map Therm.cfg = c.therm ∧
      (State.construct c).noise.map Noise.cfg = c.noise ∧ (State.construct c).scope.map Scope.cfg = c.scope ∧
      (State.construct c).brcap.map Brcap.cfg = c.brcap ∧ (State.construct c).brplay.map Brplay.cfg = c.brplay ∧
      (∀ u ∈ (State.construct c).commons, u.faulted = false ∧ u.pending = ⟨0, 0, 0, 0⟩ ∧ u.lastReport = ⟨none, none, none, none⟩) ∧
      (∀ u ∈ (State.construct c).osc, u.mute = ⟨false, f1⟩ ∧ u.phase = 0 ∧ u.prevSync = 0 ∧ u.slewSaw = 0 ∧ u.slewPulse = 0 ∧
        u.mode = .multi ∧
        u.reg = ⟨0x407B800000000000, f0, fHalf, fHalf, f1, f1, f1, f1, 0x40D3880000000000, f1⟩) ∧
      (∀ u ∈ (State.construct c).vca, u.mute = ⟨false, f1⟩ ∧ u.s = 0 ∧ u.sInit = false ∧ u.reg = ⟨0xC028000000000000, f1⟩) ∧
      (∀ u ∈ (State.construct c).tone, u.mute = ⟨false, f1⟩ ∧ u.position = 0 ∧ u.chans = List.replicate u.cfg.ch ⟨0, 0⟩) ∧
      (∀ u ∈ (State.construct c).therm, u.enable = f1 ∧ u.cur = 0) ∧
      (∀ u ∈ (State.construct c).noise, u.mute = ⟨false, f1⟩ ∧ u.reg = ⟨f0, f1, f0⟩ ∧ u.filter = ⟨0, 0⟩ ∧ u.bypassed = false) ∧
      (∀ u ∈ (State.construct c).scope, u.reg = ⟨f0, f0⟩ ∧ u.n = u.cfg.nDefault ∧ u.bufY = List.replicate (2 * u.cfg.nDefault) 0 ∧
        u.bufX = List.replicate (2 * u.cfg.nDefault) 0 ∧ u.w = 0 ∧ u.filled = 0 ∧ u.newCount = 0 ∧ u.total = 0 ∧
        u.anchor = none ∧ u.period = none ∧ u.holdoff = 0) ∧
      (∀ u ∈ (State.construct c).brcap, u.link.run = .stopped ∧ u.link.mode = .shared ∧ u.link.fallbackLatched = false ∧
        u.link.capNext = u.cfg.capDefault ∧ u.link.cap = u.cfg.capDefault ∧ u.link.region = none ∧ u.wLocal = 0 ∧ u.staging = []) ∧
      ∀ u ∈ (State.construct c).brplay, u.link.run = .stopped ∧ u.link.mode = .shared ∧ u.link.fallbackLatched = false ∧
        u.link.capNext = u.cfg.capDefault ∧ u.link.cap = u.cfg.capDefault ∧ u.link.region = none ∧ u.rLocal = 0 ∧ u.fifo = [] ∧
        u.lastFrame = List.replicate u.cfg.ch 0

/-- The invariant holds at reset, and so do the ranges of the mute gains and the phases. The default configuration is the model's
choice (log 1). -/
def Obligations.ResetMeetsTheInvariant : Prop := State.reset.Inv ∧ State.reset.GainsOk ∧ State.reset.PhasesOk

/-- 10_state.md R61 to R63, 20_memory.md R103: every step keeps the invariant: ranges, buffer lengths, canonical region
bytes, transport, and well-formed outbound packets. The configuration checks are the model's reading (log 14). -/
def Obligations.StepKeepsTheInvariant : Prop := ∀ s t : State, s.Inv → step s = .next t → t.Inv

/-- R460, R483: from a state of the invariant the block never stops. What makes a configuration legal: log 14; a missing
region byte: log 15. -/
def Obligations.BlockNeverStops : Prop := ∀ s : State, s.Inv → ∃ t, step s = .next t

/-- R465, R483, R531: a block ends: from any boundary, the moves of one block reach the next boundary with every command
applied, the block counted, and Q samples on every output port. A block is the moves of log 3. -/
def Obligations.EveryBlockEnds : Prop :=
  ∀ s : State, s.Inv → s.phase = .boundary → ∃ t, runBlock s = .next t ∧ t.phase = .boundary ∧ t.inQueue = [] ∧
    t.blockIndex = s.blockIndex + 1 ∧
    (∀ u ∈ t.osc, u.out0.length = s.cfg.q ∧ u.out1.length = s.cfg.q) ∧ (∀ u ∈ t.vca, u.out.length = s.cfg.q) ∧
    (∀ u ∈ t.tone, u.out.length = u.cfg.ch ∧ ∀ a ∈ u.out, a.length = s.cfg.q) ∧ (∀ u ∈ t.therm, u.out.length = s.cfg.q) ∧
    (∀ u ∈ t.noise, u.out.length = s.cfg.q) ∧ ∀ u ∈ t.brplay, u.out.length = u.cfg.ch ∧ ∀ a ∈ u.out, a.length = s.cfg.q

/-- R437, R505, R530: whatever the host, the peers and the environment do between steps, the invariant holds, and an array the
host supplies has `Q` samples. They act between steps (log 11). -/
def Obligations.OutsideMovesKeepTheInvariant : Prop :=
  ∀ (m : OutsideMove) (s : State), (s.Inv → (s.act m).Inv) ∧ (HostSuppliesBlock s → HostSuppliesBlock (s.act m))

/-! ### The frame steps -/

/-- R241, R281, R315, R360, R393, R468, R511: a frozen or faulted instance outputs +0 and changes no state. -/
def Obligations.SilentFramesChangeNothing : Prop :=
  ∀ (s : State) (i : Nat), s.configOk = true → s.phase = .frame i → ∃ t, step s = .next t ∧
    (∀ (k : Nat) (u : Osc), s.osc[k]? = some u → silent u.common u.mute →
      t.osc[k]? = some { u with out0 := u.out0 ++ [0], out1 := u.out1 ++ [0] }) ∧
    (∀ (k : Nat) (u : Vca), s.vca[k]? = some u → silent u.common u.mute → t.vca[k]? = some { u with out := u.out ++ [0] }) ∧
    (∀ (k : Nat) (u : Tone), s.tone[k]? = some u → silent u.common u.mute → t.tone[k]? = some { u with out := u.out.map (· ++ [0]) }) ∧
    (∀ (k : Nat) (u : Noise), s.noise[k]? = some u → silent u.common u.mute → t.noise[k]? = some { u with out := u.out ++ [0] }) ∧
    (∀ (k : Nat) (u : Therm), s.therm[k]? = some u → u.common.faulted = true → t.therm[k]? = some { u with out := u.out ++ [0] }) ∧
    ∀ (k : Nat) (u : Scope), s.scope[k]? = some u → u.common.faulted = true → t.scope[k]? = some u

/-- R240, R242 to R253, R255: a processed OSC frame: a rising SYNC edge zeroes the phase before the frame's waveforms;
both slews follow their waveforms in every mode; the mode selects what the two outputs carry; the phase advances; and the
waveforms and the slew as R244 to R251 write them, with each expression's order (R11). What an increment outside (0, 1] gives is the model's choice (log 29), and so are how a RAMP_FRAMES above 2^53 is rounded (log 30) and the
hybrid sine over an `F.tanh(OSC_HYBRID_K)` of 0 (log 26); where a formula does not keep a stated property, it is followed (log 35). -/
def Obligations.OscFrameFollowsPhase : Prop :=
  (∀ (s : State) (i k : Nat) (u : Osc), s.configOk = true → s.phase = .frame i → s.osc[k]? = some u → ¬ silent u.common u.mute →
    ∃ (t : State) (u' : Osc) (y0 y1 : F32), step s = .next t ∧ t.osc[k]? = some u' ∧
      u' =
        { u with
          prevSync := portSample u.ports.sync i, phase := u'.phase, slewSaw := u'.slewSaw, slewPulse := u'.slewPulse
          mute := { u.mute with gain := ramp u.cfg.rampFrames u.mute.gain u.mute.dormant }
          out0 := u.out0 ++ [y0], out1 := u.out1 ++ [y1] } ∧
      (∀ t0 dt, t0 = (if fle u.prevSync f0 = true ∧ flt f0 (portSample u.ports.sync i) = true then f0 else u.phase) →
        dt =
          fdiv
            (fmul (aval (frequencyParam u.cfg) u.reg.frequency u.ports.modFrequency i)
              (fPow f2 (fdiv (aval (detuneParam u.cfg) u.reg.detune u.ports.modDetune i) f1200)))
            s.cfg.fs →
        u'.phase = advance t0 dt ∧ u'.slewSaw = slew u.slewSaw (sawWave t0 dt) (slewAlpha s.cfg.fs u.latch.slewCutoff) ∧
        u'.slewPulse =
          slew u.slewPulse (pulseWave t0 dt (aval (pulseWidthParam u.cfg) u.reg.pulseWidth u.ports.modPulseWidth i))
            (slewAlpha s.cfg.fs u.latch.slewCutoff) ∧
        ∀ sine saw tri pulse,
          sine =
            fmul u.latch.sineLevel
              (sineWave u.cfg t0 (aval (symmetryParam u.cfg) u.reg.symmetry u.ports.modSymmetry i) u.latch.purity) →
          saw = fmul u.latch.sawLevel u'.slewSaw → tri = fmul u.latch.triLevel (triWave t0) →
          pulse = fmul u.latch.pulseLevel u'.slewPulse →
          y0 =
              fround
                (fmul
                  (match u.mode with
                  | .sine => sine
                  | .saw => saw
                  | .tri => tri
                  | .pulse => pulse
                  | .multi => fadd sine saw)
                  u'.mute.gain) ∧
            y1 = fround (fmul (if u.mode = .multi then fadd tri pulse else f0) u'.mute.gain)) ∧
      (u.ports.sync = [] ∨ isFinite32 (port u.ports.sync i) = false → flt f0 (portSample u.ports.sync i) = false)) ∧
    (∀ t dt x : F64,
      (flt t dt = true → x = fdiv t dt → blep t dt = fsub (fsub (fadd x x) (fmul x x)) f1) ∧
        (flt t dt = false → flt (fsub f1 dt) t = true → x = fdiv (fsub t f1) dt → blep t dt = fadd (fadd (fmul x x) (fadd x x)) f1) ∧
        (flt t dt = false → flt (fsub f1 dt) t = false → blep t dt = f0)) ∧
    (∀ t dt : F64, sawWave t dt = fsub (fsub (fmul f2 t) f1) (blep t dt)) ∧
    (∀ t dt pw naive u : F64, naive = (if flt t pw = true then f1 else fNeg1) →
      u = (if flt (fsub t pw) f0 = true then fadd (fsub t pw) f1 else fsub t pw) →
      pulseWave t dt pw = fsub (fadd naive (blep t dt)) (blep u dt)) ∧
    (∀ t : F64, triWave t = (if flt t fHalf = true then fsub (fmul f4 t) f1 else fsub f3 (fmul f4 t))) ∧
    (∀ (c : OscCfg) (t s p t' tri pure quotient att : F64),
      t' = (if flt t s = true then fdiv (fmul fHalf t) s else fadd fHalf (fdiv (fmul fHalf (fsub t s)) (fsub f1 s))) →
      tri = (if flt t' fHalf = true then fsub (fmul f4 t') f1 else fsub f3 (fmul f4 t')) → pure = fneg (fCos (fmul fTwoPi t')) →
      quotient = fdiv (fTanh (fmul c.hybridK tri)) (fTanh c.hybridK) →
      att = fsub f1 (fmul (fsub f1 (fdiv f1 c.attRatio)) (fabs (fsub (fmul f2 s) f1))) →
      ∃ hybrid, sineWave c t s p = fmul att (fadd (fmul p pure) (fmul (fsub f1 p) hybrid)) ∧
        fle fNeg1 hybrid = true ∧ fle hybrid f1 = true ∧
        (hybrid = quotient ∨ fle fNeg1 quotient = false ∨ fle quotient f1 = false)) ∧
    (∀ fs fc : F64,
      slewAlpha fs fc = (if feq fc f0 = true then f0 else fmin (fmax (fsub f1 (fExp (fdiv (fneg (fmul fTwoPi fc)) fs))) f0) f1)) ∧
    (∀ y x alpha : F64,
      slew y x alpha = (if feq alpha f1 = true then x else if feq alpha f0 = true then y else fadd y (fmul alpha (fsub x y)))) ∧
    fTwoPi = 0x401921FB54442D18

/-- R55, R253: every step keeps every phase in [0, 1), whatever the constants; and from a phase in [0, 1) an increment above 0 and
at most 1 gives the formula's phase, which is in [0, 1). That a sum for which the formula gives none is replaced by a value in
the range is the model's choice (log 29). -/
def Obligations.PhaseStaysInUnitInterval : Prop :=
  (∀ s t : State, s.PhasesOk → step s = .next t → t.PhasesOk) ∧
    ∀ phase dt p : F64, fle f0 phase = true → flt phase f1 = true → flt f0 dt = true → fle dt f1 = true →
      p = fadd phase dt → advance phase dt = (if fle f1 p = true then fsub p (ffloor p) else p) ∧
        fle f0 (advance phase dt) = true ∧ flt (advance phase dt) f1 = true

/-- R242, R255: in the modes 0 to 3 the second output of a processed frame is +0, whatever the mute ramp. -/
def Obligations.SingleModesLeaveSecondOutputZero : Prop :=
  ∀ (s : State) (i k : Nat) (u : Osc), s.configOk = true → s.GainsOk → s.phase = .frame i → s.osc[k]? = some u →
    u.mode ≠ .multi → ∃ (t : State) (u' : Osc), step s = .next t ∧ t.osc[k]? = some u' ∧ u'.out1 = u.out1 ++ [0]

/-- 10_state.md R32, R512: every mute gain stays in [0, 1]. -/
def Obligations.StepKeepsGainsInRange : Prop := ∀ s t : State, s.GainsOk → step s = .next t → t.GainsOk

/-- R512: one ramp step adds or takes away `1 / RAMP_FRAMES` and stops at 1 or 0; an awake unit at `muteGain` 1 stays at exactly 1;
and the ramp of `RAMP_FRAMES` 4 uses 0.75, 0.5, 0.25, 0. How a RAMP_FRAMES above 2^53 is rounded is the model's choice (log 30), and
so is that a step too small to change the gain leaves it (log 35). -/
def Obligations.AwakeGainStaysOne : Prop :=
  (∀ (n : Nat) (g d : F64), d = fdiv f1 (ofNat n) → ramp n g true = fmax (fsub g d) f0 ∧ ramp n g false = fmin (fadd g d) f1) ∧
    (∀ n : Nat, 1 ≤ n → ramp n f1 false = f1) ∧ ramp 4 f1 true = 0x3FE8000000000000 ∧ ramp 4 0x3FE8000000000000 true = fHalf ∧
    ramp 4 fHalf true = 0x3FD0000000000000 ∧ ramp 4 0x3FD0000000000000 true = f0

/-- R280 to R288: a processed VCA frame: a non-finite control voltage outputs +0 and leaves the smoothing filter; a finite one
snaps or smooths it, and a filter output that is not finite becomes +0 (decision D4); the mechanical cutoff, the silence
threshold and a gain of 0 output +0; else the sample is `(x * gain) * muteGain`. That a NaN product, which R283 keeps from the
output, is +0 is the model's reading (log 28); the formulas are followed for extreme constants (log 33) and where they do not keep
a stated property (log 35). -/
def Obligations.VcaFrameFollowsVoltage : Prop :=
  ∀ (s : State) (i k : Nat) (u : Vca), s.configOk = true → s.phase = .frame i → s.vca[k]? = some u → ¬ silent u.common u.mute →
    ∃ (t : State) (u' : Vca) (y : F32), step s = .next t ∧ t.vca[k]? = some u' ∧ u' = { u with mute := u'.mute, s := u'.s, sInit := u'.sInit, out := u.out ++ [y] } ∧
      u'.mute = { u.mute with gain := ramp u.cfg.rampFrames u.mute.gain u.mute.dormant } ∧
      ∀ vRaw beta, vRaw = fadd u.latch.dialVoltage (fmul (portSample u.cv i) u.cfg.cvScale) →
        beta = (if flt f0 u.cfg.smoothTau = true then fsub f1 (fExp (fdiv fNeg1 (fmul u.cfg.smoothTau s.cfg.fs))) else f1) →
        (isFinite vRaw = false → y = 0 ∧ u'.s = u.s ∧ u'.sInit = u.sInit) ∧
        (isFinite vRaw = true → u'.sInit = true ∧
          u'.s = (if u.sInit = false ∨ feq beta f1 = true then vRaw else san (fadd u.s (fmul beta (fsub vRaw u.s))))) ∧
        (u.latch.cutoffEnabled = true ∧ fle u.latch.dialVoltage u.cfg.dialMin = true → y = 0) ∧
        (flt (fmul (saturate u.cfg u'.s) u.cfg.dbPerVolt) u.cfg.silenceDb = true → y = 0) ∧
        (isFinite vRaw = true → (u.latch.cutoffEnabled = false ∨ fle u.latch.dialVoltage u.cfg.dialMin = false) →
          ∀ r v gain out, r = fsub u.cfg.vHard u.cfg.vLin →
            v =
              (if fle u'.s u.cfg.vLin = true then u'.s
              else if fle r f0 = true then u.cfg.vLin
              else fadd u.cfg.vLin (fmul r (fTanh (fdiv (fsub u'.s u.cfg.vLin) (fmul r u.cfg.soft))))) →
            gain =
              (if flt (fmul v u.cfg.dbPerVolt) u.cfg.silenceDb = true then f0
              else fPow f10 (fdiv (fmul v u.cfg.dbPerVolt) f20)) →
            out = fmul (fmul (portSample u.input i) gain) u'.mute.gain →
            (feq gain f0 = true → y = 0) ∧ (feq gain f0 = false → y = (if isNaN out = true then 0 else fround out)))

/-- R290, R288: scenario 2: dial 0, CV 0, default constants, nothing to smooth: the output is the sanitised input, bit for
bit. -/
def Obligations.VcaUnityGainIsExact : Prop :=
  ∀ (s : State) (i k : Nat) (u : Vca), s.configOk = true → s.phase = .frame i → s.vca[k]? = some u → u.cfg = Config.vca →
    u.common.faulted = false → u.mute = ⟨false, f1⟩ → u.latch.dialVoltage = 0 → portSample u.cv i = 0 →
    (u.sInit = false ∨ u.s = 0) →
    ∃ (t : State) (u' : Vca), step s = .next t ∧ t.vca[k]? = some u' ∧ u'.out = u.out ++ [san32 (port u.input i)]

/-- R310 to R313, R315, R317: a processed TONE frame: each channel stores its input and its filter output, and outputs
`y * muteGain`; at position 0 and `muteGain` 1 that is its sanitised input, bit for bit. That a constant K which underflows or
overflows is used as it stands is the model's choice (log 33). -/
def Obligations.ToneFrameFiltersChannels : Prop :=
  ∀ (s : State) (i k : Nat) (u : Tone), s.configOk = true → s.phase = .frame i → s.tone[k]? = some u → ¬ silent u.common u.mute →
    ∃ (t : State) (u' : Tone), step s = .next t ∧ t.tone[k]? = some u' ∧
      u' =
        { u with
          mute := { u.mute with gain := ramp u.cfg.rampFrames u.mute.gain u.mute.dormant }
          chans := u'.chans, out := u'.out } ∧
      u'.chans.length = u.chans.length ∧ u'.out.length = u.out.length ∧
      (∀ (c : Nat) (f : ShelfState), u.chans[c]? = some f →
        ∃ y, y = shelfRule s.cfg.fs u.cfg.tau u.latchPosition (portSample (u.input.getD c []) i) f ∧
          u'.chans[c]? = some (⟨portSample (u.input.getD c []) i, y⟩ : ShelfState) ∧
          ∀ a : Samples, u.out[c]? = some a → u'.out[c]? = some (a ++ [fround (fmul y u'.mute.gain)])) ∧
      (u.mute = ⟨false, f1⟩ → feq u.latchPosition f0 = true →
        u'.mute = u.mute ∧
          (∀ (c : Nat) (a : Samples), u.out[c]? = some a → u'.out[c]? = some (a ++ [san32 (port (u.input.getD c []) i)])) ∧
          ∀ (c : Nat) (f : ShelfState), u.chans[c]? = some f →
            u'.chans[c]? = some (⟨portSample (u.input.getD c []) i, portSample (u.input.getD c []) i⟩ : ShelfState))

/-- R340 to R342: a THERM frame: bypass outputs the input and keeps `cur`; a small difference snaps; a greater one slews at
the heating or the cooling rate; the output is the updated `cur`. That this formula is followed where its step is too small to
move `cur`, and where a product of constants underflows or overflows, is the model's choice (log 33, log 34). -/
def Obligations.ThermalFrameSlewsOrSnaps : Prop :=
  ∀ (s : State) (i k : Nat) (u : Therm), s.configOk = true → s.phase = .frame i → s.therm[k]? = some u → u.common.faulted = false →
    ∃ (t : State) (u' : Therm), step s = .next t ∧ t.therm[k]? = some u' ∧ u' = { u with cur := u'.cur, out := u'.out } ∧
      (u.latchEnable = false → u'.cur = u.cur ∧ u'.out = u.out ++ [san32 (port u.input i)]) ∧
      (u.latchEnable = true → u'.out = u.out ++ [fround u'.cur] ∧
        ∀ x delta, x = portSample u.input i → delta = fsub x u.cur →
          (flt u.cfg.threshold (fabs delta) = false → u'.cur = x ∧ u'.out = u.out ++ [san32 (port u.input i)]) ∧
          (flt u.cfg.threshold (fabs delta) = true → ∀ tau, tau = (if flt f0 delta = true then u.cfg.tauHeat else u.cfg.tauCool) →
            u'.cur = fadd u.cur (fmul (if flt f0 tau = true then fsub f1 (fExp (fdiv fNeg1 (fmul tau s.cfg.fs))) else f1) delta)))

/-- R360 to R364: a processed NOISE frame takes exactly one draw, a finite value in [-1, 1), filters it, switches the effective
bypass only where the filtered and the raw sample are close, and outputs the selected one at its level. A supplied value
outside the range is not taken (log 7), and a constant K which underflows or overflows is used as it stands (log 33): the model's
choices. -/
def Obligations.NoiseFrameTakesOneDraw : Prop :=
  ∀ (s : State) (i k : Nat) (u : Noise), s.configOk = true → s.phase = .frame i → s.noise[k]? = some u → ¬ silent u.common u.mute →
    ∃ (t : State) (u' : Noise), step s = .next t ∧ t.noise[k]? = some u' ∧
      isFinite u'.filter.x1 = true ∧ fle fNeg1 u'.filter.x1 = true ∧ flt u'.filter.x1 f1 = true ∧
      (∀ w ws, u.draws = w :: ws → u'.draws = ws ∧ u'.drawn = u.drawn ∧
        (isFinite w = true → fle fNeg1 w = true → flt w f1 = true → u'.filter.x1 = w)) ∧
      (u.draws = [] → u'.draws = [] ∧ u'.drawn = u.drawn + 1) ∧
      u'.filter.y1 = shelfRule s.cfg.fs u.cfg.tau u.latch.colour u'.filter.x1 u.filter ∧
      u'.bypassed =
        (if u.latch.bypass ≠ u.bypassed ∧ fle (fabs (fsub u'.filter.y1 u'.filter.x1)) u.cfg.switchEps = true then u.latch.bypass
        else u.bypassed) ∧
      u' =
        { u with
          draws := u'.draws, drawn := u'.drawn, filter := u'.filter, bypassed := u'.bypassed
          mute := { u.mute with gain := ramp u.cfg.rampFrames u.mute.gain u.mute.dormant }
          out :=
            u.out ++
              [fround
                  (fmul (fmul (if u'.bypassed then u'.filter.x1 else u'.filter.y1) u.latch.level) u'.mute.gain)] }

/-- R314, R510, R55 to R63: the end of a block flushes the filter states of every unfaulted TONE and NOISE, and keeps every other piece of
every unit's state, of the other classes all; the counts of the reports are another statement's. The lists of the block's captures and
chunks, which it empties, are the model's (log 19). -/
def Obligations.EndOfBlockFlushesFilters : Prop :=
  ∀ s : State, s.configOk = true → s.phase = .endOfBlock → ∃ t, step s = .next t ∧
    (∀ (k : Nat) (u : Tone), s.tone[k]? = some u → ∃ c, t.tone[k]? = some
      { u with
        common := c
        chans :=
          if u.common.faulted then u.chans
          else
            u.chans.map fun f =>
              ⟨if flt (fabs f.x1) u.cfg.denorm then 0 else f.x1, if flt (fabs f.y1) u.cfg.denorm then 0 else f.y1⟩ }) ∧
    (∀ (k : Nat) (u : Noise), s.noise[k]? = some u → ∃ c, t.noise[k]? = some
      { u with
        common := c
        filter :=
          if u.common.faulted then u.filter
          else
            ⟨if flt (fabs u.filter.x1) u.cfg.denorm then 0 else u.filter.x1, if flt (fabs u.filter.y1) u.cfg.denorm then 0 else u.filter.y1⟩ }) ∧
    (∀ (k : Nat) (u : Osc), s.osc[k]? = some u → ∃ c, t.osc[k]? = some { u with common := c }) ∧
    (∀ (k : Nat) (u : Vca), s.vca[k]? = some u → ∃ c, t.vca[k]? = some { u with common := c }) ∧
    (∀ (k : Nat) (u : Therm), s.therm[k]? = some u → ∃ c, t.therm[k]? = some { u with common := c }) ∧
    (∀ (k : Nat) (u : Scope), s.scope[k]? = some u → ∃ c, t.scope[k]? = some { u with common := c, made := [] }) ∧
    (∀ (k : Nat) (u : Brcap), s.brcap[k]? = some u → ∃ c, t.brcap[k]? = some { u with common := c, made := [] }) ∧
    ∀ (k : Nat) (u : Brplay), s.brplay[k]? = some u → ∃ c, t.brplay[k]? = some { u with common := c }

/-- R13, R14, R39, R252: a clamped parameter lies in its range, at the nearer end for a finite value outside it and at the
clamp of the default for a value that is not finite; an a-rate read is the clamp of the register plus the modulation sample,
sanitised, and from a register that is not finite the clamp of the default (log 25); and the a-rate parameters of an OSC lie in
their ranges. A modulation sample the host did not supply is +0 (log 2). -/
def Obligations.ParameterReadsStayInRange : Prop :=
  (∀ (p : Param) (v : F64), isFinite p.dflt = true → isFinite p.lo = true → isFinite p.hi = true → fle p.lo p.hi = true →
      fle p.lo (clampP p v) = true ∧ fle (clampP p v) p.hi = true ∧
        (isFinite v = false → clampP p v = clampP p p.dflt) ∧
        (isFinite v = true → fle p.lo v = true → fle v p.hi = true → feq (clampP p v) v = true) ∧
        (isFinite v = true → flt v p.lo = true → feq (clampP p v) p.lo = true) ∧
        (isFinite v = true → flt p.hi v = true → feq (clampP p v) p.hi = true)) ∧
    (∀ (p : Param) (reg : F64) (mod : Samples) (i : Nat) (x : F32), x = mod.getD i 0 →
      (isFinite reg = true → isFinite32 x = true → aval p reg mod i = clampP p (fadd reg (widen x))) ∧
        (isFinite reg = true → isFinite32 x = false → aval p reg mod i = clampP p (fadd reg f0)) ∧
        (isFinite reg = false → aval p reg mod i = clampP p p.dflt)) ∧
    ∀ (c : OscCfg) (reg : F64) (mod : Samples) (i : Nat), oscCfgOk c = true →
      fle c.fMin (aval (frequencyParam c) reg mod i) = true ∧ fle (aval (frequencyParam c) reg mod i) c.fMax = true ∧
        fle (fneg c.detuneMax) (aval (detuneParam c) reg mod i) = true ∧ fle (aval (detuneParam c) reg mod i) c.detuneMax = true ∧
        fle c.pwMin (aval (pulseWidthParam c) reg mod i) = true ∧ fle (aval (pulseWidthParam c) reg mod i) c.pwMax = true ∧
        fle c.pwMin (aval (symmetryParam c) reg mod i) = true ∧ fle (aval (symmetryParam c) reg mod i) c.pwMax = true

/-- R16: the laws the spec assumes of `F.exp`, `F.cos`, `F.tanh` and `F.pow`; and under these laws alone R246's hybrid sine lies in
[-1, 1] and is its quotient unless `F.tanh(OSC_HYBRID_K)` is 0. The values of the four are free (log 4), the pattern of `F.tanh` at
the zeros is log 18, and the free value of the hybrid sine over a 0 is log 26. -/
def Obligations.NumericsLawsHold : Prop :=
  fExp 0 = f1 ∧ fExp 0x8000000000000000 = f1 ∧ (∀ x y, fle x y = true → fle (fExp x) (fExp y) = true) ∧
    (∀ x, fle x f0 = true → fle f0 (fExp x) = true ∧ fle (fExp x) f1 = true) ∧
    fCos 0 = f1 ∧ (∀ x, fle fNeg1 (fCos x) = true ∧ fle (fCos x) f1 = true) ∧
    fTanh 0 = 0 ∧ (∀ x, fTanh (fneg x) = fneg (fTanh x)) ∧ (∀ x y, fle x y = true → fle (fTanh x) (fTanh y) = true) ∧
    (∀ x, fle fNeg1 (fTanh x) = true ∧ fle (fTanh x) f1 = true) ∧
    (∀ b, fPow b 0 = f1 ∧ fPow b 0x8000000000000000 = f1) ∧ fPow f10 fNeg1 = fTenth ∧
    (∀ (x : F64) (k : Int), isFinite x = true → 2 * ratOf x = k → k ≤ 616 → nearPow10Half k (fPow f10 x)) ∧
    (∀ x, fle f0 (fPow f10 x) = true) ∧ (∀ x y, fle x y = true → fle (fPow f2 x) (fPow f2 y) = true) ∧
    fPow f2 fNeg1 = fHalf ∧ fPow f2 f1 = f2 ∧
    (∀ x, fle fNeg1 x = true → fle x f1 = true → fle fHalf (fPow f2 x) = true ∧ fle (fPow f2 x) f2 = true) ∧
    (∀ k t, fle fNeg1 (hybridSine k t) = true ∧ fle (hybridSine k t) f1 = true) ∧
    ∀ k t, isFinite k = true → flt f0 k = true → fle fNeg1 (triWave t) = true → fle (triWave t) f1 = true →
      isZero (fTanh k) = true ∨ hybridSine k t = fdiv (fTanh (fmul k (triWave t))) (fTanh k)

/-! ### SCOPE (46_scope.md) -/

/-- R385, R386: every accepted candidate is a rising edge in range, accepted candidates are at least `max 1 H` apart, and an
edge in range is rejected only inside that distance after an accepted one. -/
def Obligations.TriggerSearchIsGreedy : Prop :=
  ∀ (yv : Samples) (lev : F64) (h n l : Nat),
    (∀ j ∈ (searchTriggers yv lev h n l).found, 1 ≤ j ∧ j + n ≤ l ∧ flt (widen (yv.getD (j - 1) 0)) lev = true ∧
        fle lev (widen (yv.getD j 0)) = true) ∧
      (searchTriggers yv lev h n l).found.Pairwise (fun a b => a + max 1 h ≤ b) ∧
      ∀ j, 1 ≤ j → j + n ≤ l → flt (widen (yv.getD (j - 1) 0)) lev = true → fle lev (widen (yv.getD j 0)) = true →
        j ∈ (searchTriggers yv lev h n l).found ∨ ∃ a ∈ (searchTriggers yv lev h n l).found, a < j ∧ j < a + max 1 h

/-- R387, R388: without an anchor or a period the earliest candidate; else the one nearest the predicted position, the first
in whole periods after the anchor at or past the first candidate, the earlier on a tie. -/
def Obligations.TriggerChoiceFollowsAnchor : Prop :=
  ∀ (a0 : Int) (anchor : Option U64) (period : Option Nat) (j : Nat) (js : List Nat), (j :: js).Pairwise (· < ·) →
    chooseTrigger a0 anchor period j js ∈ j :: js ∧
      (anchor = none ∨ period = none → chooseTrigger a0 anchor period j js = j) ∧
      ∀ a p, anchor = some a → period = some p → 1 ≤ p →
        ∃ m : Int, 1 ≤ m ∧ a0 + j ≤ a.toNat + m * p ∧ (m = 1 ∨ a.toNat + (m - 1) * p < a0 + j) ∧
          ∀ x ∈ j :: js,
            (a0 + chooseTrigger a0 anchor period j js - (a.toNat + m * p)).natAbs ≤ (a0 + x - (a.toNat + m * p)).natAbs ∧
              ((a0 + x - (a.toNat + m * p)).natAbs = (a0 + chooseTrigger a0 anchor period j js - (a.toNat + m * p)).natAbs →
                chooseTrigger a0 anchor period j js ≤ x)

/-- R381, R384, R387 to R392: the CAPTURE of a SCOPE by the number of accepted candidates: the buffered views `yv` and `xv`, whose
sample `k` stands at ring position `(w - L + k) mod 2N`, the window, its valid count and padding, and the trigger state it
leaves. The anchor of a wrapped `total` is taken modulo 2^64 (log 13). -/
def Obligations.CaptureWindowFollowsTriggers : Prop :=
  ∀ u : Scope, 1 ≤ u.n → u.n ≤ u.filled → u.filled ≤ 2 * u.n →
    ∃ c, u.capture = { u with anchor := u.capture.anchor, period := u.capture.period, holdoff := u.capture.holdoff, made := u.made ++ [c] } ∧
      c.n = u.n ∧ c.ys.length = u.n ∧ c.xs.length = u.n ∧ 1 ≤ c.valid ∧ c.valid ≤ u.n ∧
      ∀ (yv xv : Samples) (found : List Nat), yv.length = u.filled → xv.length = u.filled →
        (∀ k pos : Nat, k < u.filled → (pos : Int) = ((u.w : Int) - u.filled + k) % (2 * u.n) →
          yv[k]? = some (u.bufY.getD pos 0) ∧ xv[k]? = some (u.bufX.getD pos 0)) →
        found = (searchTriggers yv u.latch.triggerLevel u.latch.hysteresis u.n u.filled).found →
        (found = [] → c.triggered = false ∧ c.valid = u.n ∧ u.capture.anchor = none ∧ u.capture.period = none ∧
          c.ys = yv.drop (u.filled - u.n) ∧ c.xs = xv.drop (u.filled - u.n)) ∧
        (found ≠ [] → c.triggered = true ∧ ∃ js ∈ found,
          u.capture.anchor = some (BitVec.ofInt 64 ((u.total.toNat : Int) - u.filled + js)) ∧
          (u.anchor = none ∨ u.period = none → found.head? = some js) ∧
          (∀ j rest, found = j :: rest → js = chooseTrigger ((u.total.toNat : Int) - u.filled) u.anchor u.period j rest) ∧
          ∀ k, k < u.n → c.ys[k]? = yv[js + min k (c.valid - 1)]? ∧ c.xs[k]? = xv[js + min k (c.valid - 1)]?) ∧
        (∀ j, found = [j] → c.valid = u.n ∧ u.capture.period = u.period) ∧
        ∀ j j' rest, found = j :: j' :: rest →
          u.capture.period = some (j' - j) ∧ 1 ≤ j' - j ∧ j' - j < u.n ∧ c.valid % (j' - j) = 0 ∧ u.n < c.valid + (j' - j)

/-- R380, R393, R395: a SCOPE frame writes the ring and captures exactly when the `N`-th new sample is written; the first capture
after reset or SETBUFFERSIZE (`L = N`) is untriggered and holds the `N` samples written since. -/
def Obligations.ScopeFrameWritesRingAndCaptures : Prop :=
  (∀ (s : State) (i k : Nat) (u : Scope), s.configOk = true → s.phase = .frame i → s.scope[k]? = some u → u.common.faulted = false →
      ∃ (t : State) (u' : Scope), step s = .next t ∧ t.scope[k]? = some u' ∧
        ∀ v : Scope,
          v =
              { u with
                bufY := u.bufY.set u.w (san32 (port u.inY i)), bufX := u.bufX.set u.w (san32 (port u.inX i))
                w := (u.w + 1) % (2 * u.n), filled := min (u.filled + 1) (2 * u.n), total := u.total + 1
                newCount := u.newCount + 1 } →
            (u.newCount + 1 = u.n → u' = { v.capture with newCount := 0 } ∧ u'.made.length = u.made.length + 1) ∧
              (u.newCount + 1 ≠ u.n → u' = v ∧ u'.made = u.made)) ∧
    ∀ u : Scope, 1 ≤ u.n → u.filled = u.n →
      ∃ c, u.capture = { u with anchor := none, period := none, holdoff := 0, made := u.made ++ [c] } ∧ c.triggered = false ∧
        c.valid = u.n ∧ c.n = u.n ∧ c.ys = bufferedView u.n u.w u.n u.bufY ∧ c.xs = bufferedView u.n u.w u.n u.bufX

/-- R394: a SCOPE frame, its captures included, depends on nothing but the ring, the latched values, the window size, the
anchor, the period and the frame's samples: not on registers, counts, report times or the last search's countdown. -/
def Obligations.CapturesAreDeterministic : Prop :=
  ∀ (u v : Scope) (i h : Nat) (r : ScopeRegs) (c : Common), u.common.faulted = v.common.faulted →
    ({ u with holdoff := h, reg := r, common := c } : Scope) = { v with holdoff := h, reg := r, common := c } →
    ({ scopeFrame i u with holdoff := h, reg := r, common := c } : Scope) =
      { scopeFrame i v with holdoff := h, reg := r, common := c }

/-! ### Bridges (47_bridge.md) -/

/-- R420, R421: the guard slot: `used` is congruent to `w - r`; `used` and `free` add up to `cap - 1`; writing at most `free`
frames never makes `w` equal `r`, and reading at most `used` frames never moves `r` past `w`. -/
def Obligations.GuardSlotSeparatesFullAndEmpty : Prop :=
  ∀ cap w r : Nat, 2 ≤ cap → w < cap → r < cap →
    (cap : Int) ∣ (w : Int) - r - usedFrames cap w r ∧
      usedFrames cap w r + freeFrames cap w r = cap - 1 ∧ usedFrames cap w r ≤ cap - 1 ∧ freeFrames cap w r ≤ cap - 1 ∧
      (∀ n, n ≤ freeFrames cap w r → usedFrames cap ((w + n) % cap) r = usedFrames cap w r + n ∧ (1 ≤ n → (w + n) % cap ≠ r)) ∧
      ∀ n, n ≤ usedFrames cap w r → usedFrames cap w ((r + n) % cap) = usedFrames cap w r - n

/-- R104, R420, R422 to R424: the block of a running SHARED capture bridge in which no write of the peer to a field the block
accesses (the two indices and the slots of the frames that fit) is unordered with it (R110, log 8): the frames that fit stand in
their slots, the rest are counted, `writeIndex` is stored, and every other byte of the region is as it was. The `readIndex`
loaded is any i32: its slot `rd` is the one number below the capacity congruent to it. A frame the host did not supply is +0
(log 2). -/
def Obligations.CaptureBridgePublishesFrames : Prop :=
  ∀ (s : State) (k : Nat) (u : Brcap) (r : Region) (ri : BitVec 32) (rd used n : Nat), s.Inv → s.phase = .bridges →
    s.brcap[k]? = some u → u.common.faulted = false → u.link.run = .running → u.link.mode = .shared →
    u.link.region = some r → r.FieldAt s.cfg.endian 4 ri →
    rd < u.link.cap → (u.link.cap : Int) ∣ ri.toInt - rd →
    used < u.link.cap → (u.link.cap : Int) ∣ (u.wLocal : Int) - rd - used → n = min s.cfg.q (u.link.cap - used - 1) →
    u.link.order.unordered 0 = false → u.link.order.unordered 4 = false →
    (∀ f c, f < n → c < u.cfg.ch →
      u.link.order.unordered (8 + 4 * ((u.wLocal + f) % u.link.cap * u.cfg.ch + c)) = false) →
    ∃ (t : State) (u' : Brcap) (r' : Region), step s = .next t ∧ t.brcap[k]? = some u' ∧
      u' =
          { u with
            link :=
              { u.link with
                region := some r'
                order := { u.link.order with released := [], exposed := u'.link.order.exposed, foreign := false } }
            wLocal := (u.wLocal + n) % u.link.cap
            common :=
              { u.common with
                pending := { u.common.pending with overflow := u.common.pending.overflow + BitVec.ofNat 32 (s.cfg.q - n) } } } ∧
        r'.size = r.size ∧ r'.FieldAt s.cfg.endian 0 (BitVec.ofNat 32 ((u.wLocal + n) % u.link.cap)) ∧
        r'.FieldAt s.cfg.endian 4 ri ∧
        (∀ f c, f < n → c < u.cfg.ch →
          r'.FieldAt s.cfg.endian (8 + 4 * ((u.wLocal + f) % u.link.cap * u.cfg.ch + c)) (san32 (port (u.input.getD c []) f))) ∧
        ∀ o, (o < 4 ∨ ∃ f c, f < n ∧ c < u.cfg.ch ∧ 8 + 4 * ((u.wLocal + f) % u.link.cap * u.cfg.ch + c) ≤ o ∧
            o < 8 + 4 * ((u.wLocal + f) % u.link.cap * u.cfg.ch + c) + 4) ∨ r'.mem.read o = r.mem.read o

/-- R104, R113, R420, R431, R432, R436: the block of a running SHARED playback bridge in which no write of the peer to a field
the block accesses (the two indices and the slots of the frames played) is unordered with it (R110, log 8), so also while the
peer writes free slots past `writeIndex` (R437): the available frames are output sanitised, then the underflow frames, which are
counted; `readIndex` alone is stored. The `writeIndex` loaded is any i32: its slot `wr` is the one number below the capacity
congruent to it. -/
def Obligations.PlaybackBridgeOutputsFrames : Prop :=
  ∀ (s : State) (k : Nat) (u : Brplay) (r : Region) (wi : BitVec 32) (wr used n : Nat), s.Inv → s.phase = .bridges →
    s.brplay[k]? = some u → u.common.faulted = false → u.link.run = .running → u.link.mode = .shared →
    u.link.region = some r → r.FieldAt s.cfg.endian 0 wi →
    wr < u.link.cap → (u.link.cap : Int) ∣ wi.toInt - wr →
    used < u.link.cap → (u.link.cap : Int) ∣ (wr : Int) - u.rLocal - used → n = min s.cfg.q used →
    u.link.order.unordered 0 = false → u.link.order.unordered 4 = false →
    (∀ f c, f < n → c < u.cfg.ch →
      u.link.order.unordered (8 + 4 * ((u.rLocal + f) % u.link.cap * u.cfg.ch + c)) = false) →
    ∃ (t : State) (u' : Brplay) (r' : Region), step s = .next t ∧ t.brplay[k]? = some u' ∧
      u' =
          { u with
            link :=
              { u.link with
                region := some r'
                order := { u.link.order with released := [], exposed := u'.link.order.exposed, foreign := false } }
            rLocal := (u.rLocal + n) % u.link.cap
            lastFrame := u'.lastFrame
            out := u'.out
            common :=
              { u.common with
                pending := { u.common.pending with underflow := u.common.pending.underflow + BitVec.ofNat 32 (s.cfg.q - n) } } } ∧
        r'.FieldAt s.cfg.endian 4 (BitVec.ofNat 32 ((u.rLocal + n) % u.link.cap)) ∧ r'.size = r.size ∧
        (∀ o, o < 4 ∨ 8 ≤ o → r'.mem.read o = r.mem.read o) ∧
        (∀ f c v, f < n → c < u.cfg.ch →
          r.FieldAt s.cfg.endian (8 + 4 * ((u.rLocal + f) % u.link.cap * u.cfg.ch + c)) v →
            (u'.out.getD c [])[f]? = some (san32 v) ∧ (f + 1 = n → u'.lastFrame[c]? = some (san32 v))) ∧
        (∀ f c, f < n → c < u.cfg.ch → ∃ v,
          r.FieldAt s.cfg.endian (8 + 4 * ((u.rLocal + f) % u.link.cap * u.cfg.ch + c)) v) ∧
        (n = 0 → u'.lastFrame = u.lastFrame) ∧
        ∀ f c, n ≤ f → f < s.cfg.q → c < u.cfg.ch →
          (u'.out.getD c [])[f]? = some (match u.cfg.underflow with | .silence => 0 | .hold => u'.lastFrame.getD c 0)

/-- R425: the block of a running FALLBACK capture bridge: no frame is lost or reordered, whole chunks leave, less than a
chunk stays. A frame the host did not supply is +0 (log 2). -/
def Obligations.FallbackCaptureKeepsEveryFrame : Prop :=
  ∀ (s : State) (k : Nat) (u : Brcap), s.Inv → s.phase = .bridges → s.brcap[k]? = some u → u.common.faulted = false →
    u.link.run = .running → u.link.mode = .fallback →
    ∃ (t : State) (u' : Brcap) (cs : List (List Frame)), step s = .next t ∧ t.brcap[k]? = some u' ∧ u' = { u with staging := u'.staging, made := u.made ++ cs } ∧
      (∀ c ∈ cs, c.length = u.cfg.chunkFrames) ∧ u'.staging.length < u.cfg.chunkFrames ∧
      cs.flatten ++ u'.staging =
        u.staging ++ (List.range s.cfg.q).map fun f => (List.range u.cfg.ch).map fun c => san32 (port (u.input.getD c []) f)

/-- R433, R432, R436: the block of a running FALLBACK playback bridge: the oldest frames of the FIFO are output sanitised and
leave it, then the underflow frames, which are counted. -/
def Obligations.FallbackPlaybackDrainsFifo : Prop :=
  ∀ (s : State) (k : Nat) (u : Brplay), s.Inv → s.phase = .bridges → s.brplay[k]? = some u → u.common.faulted = false →
    u.link.run = .running → u.link.mode = .fallback →
    ∃ (t : State) (u' : Brplay), step s = .next t ∧ t.brplay[k]? = some u' ∧
      u' =
        { u with
          fifo := u.fifo.drop (min s.cfg.q u.fifo.length)
          lastFrame := u'.lastFrame
          out := u'.out
          common :=
            { u.common with
              pending :=
                { u.common.pending with
                  underflow := u.common.pending.underflow + BitVec.ofNat 32 (s.cfg.q - min s.cfg.q u.fifo.length) } } } ∧
      (u.fifo = [] → u'.lastFrame = u.lastFrame) ∧
      (∀ f c fr, u.fifo[f]? = some fr → f < s.cfg.q → c < u.cfg.ch → (u'.out.getD c [])[f]? = some (san32 (fr.getD c 0)) ∧
        (f + 1 = min s.cfg.q u.fifo.length → u'.lastFrame[c]? = some (san32 (fr.getD c 0)))) ∧
      ∀ f c, u.fifo.length ≤ f → f < s.cfg.q → c < u.cfg.ch →
        (u'.out.getD c [])[f]? = some (match u.cfg.underflow with | .silence => 0 | .hold => u'.lastFrame.getD c 0)

/-- R426, R430, R468: a stopped or faulted bridge does nothing in a block; a playback one outputs +0 on every channel of
every frame. -/
def Obligations.IdleBridgesAreSilent : Prop :=
  ∀ s : State, s.Inv → s.phase = .bridges → ∃ t, step s = .next t ∧
    (∀ (k : Nat) (u : Brcap), s.brcap[k]? = some u → (u.common.faulted = true ∨ u.link.run = .stopped) → t.brcap[k]? = some u) ∧
    ∀ (k : Nat) (u : Brplay), s.brplay[k]? = some u → (u.common.faulted = true ∨ u.link.run = .stopped) →
      t.brplay[k]? = some { u with out := List.replicate u.cfg.ch (List.replicate s.cfg.q 0) }
end

