-- ==== Sys2Proof/Laws/State.lean ====
section
/-!
SUPPORT. What each update of State does to each field, so that no proof unfolds a record update. All hold by `rfl`.
-/

namespace Sys2Proof.Machine

variable (s : State)


/-! ### `State.setOsc` -/

@[simp] theorem State.setOsc_cfg (l : List Osc) : (s.setOsc l).cfg = s.cfg := rfl
@[simp] theorem State.setOsc_shmAvailable (l : List Osc) : (s.setOsc l).shmAvailable = s.shmAvailable := rfl
@[simp] theorem State.setOsc_phase (l : List Osc) : (s.setOsc l).phase = s.phase := rfl
@[simp] theorem State.setOsc_blockIndex (l : List Osc) : (s.setOsc l).blockIndex = s.blockIndex := rfl
@[simp] theorem State.setOsc_inQueue (l : List Osc) : (s.setOsc l).inQueue = s.inQueue := rfl
@[simp] theorem State.setOsc_outQueue (l : List Osc) : (s.setOsc l).outQueue = s.outQueue := rfl
@[simp] theorem State.setOsc_osc (l : List Osc) : (s.setOsc l).osc = l := rfl
@[simp] theorem State.setOsc_vca (l : List Osc) : (s.setOsc l).vca = s.vca := rfl
@[simp] theorem State.setOsc_tone (l : List Osc) : (s.setOsc l).tone = s.tone := rfl
@[simp] theorem State.setOsc_therm (l : List Osc) : (s.setOsc l).therm = s.therm := rfl
@[simp] theorem State.setOsc_noise (l : List Osc) : (s.setOsc l).noise = s.noise := rfl
@[simp] theorem State.setOsc_scope (l : List Osc) : (s.setOsc l).scope = s.scope := rfl
@[simp] theorem State.setOsc_brcap (l : List Osc) : (s.setOsc l).brcap = s.brcap := rfl
@[simp] theorem State.setOsc_brplay (l : List Osc) : (s.setOsc l).brplay = s.brplay := rfl

/-! ### `State.setVca` -/

@[simp] theorem State.setVca_cfg (l : List Vca) : (s.setVca l).cfg = s.cfg := rfl
@[simp] theorem State.setVca_shmAvailable (l : List Vca) : (s.setVca l).shmAvailable = s.shmAvailable := rfl
@[simp] theorem State.setVca_phase (l : List Vca) : (s.setVca l).phase = s.phase := rfl
@[simp] theorem State.setVca_blockIndex (l : List Vca) : (s.setVca l).blockIndex = s.blockIndex := rfl
@[simp] theorem State.setVca_inQueue (l : List Vca) : (s.setVca l).inQueue = s.inQueue := rfl
@[simp] theorem State.setVca_outQueue (l : List Vca) : (s.setVca l).outQueue = s.outQueue := rfl
@[simp] theorem State.setVca_osc (l : List Vca) : (s.setVca l).osc = s.osc := rfl
@[simp] theorem State.setVca_vca (l : List Vca) : (s.setVca l).vca = l := rfl
@[simp] theorem State.setVca_tone (l : List Vca) : (s.setVca l).tone = s.tone := rfl
@[simp] theorem State.setVca_therm (l : List Vca) : (s.setVca l).therm = s.therm := rfl
@[simp] theorem State.setVca_noise (l : List Vca) : (s.setVca l).noise = s.noise := rfl
@[simp] theorem State.setVca_scope (l : List Vca) : (s.setVca l).scope = s.scope := rfl
@[simp] theorem State.setVca_brcap (l : List Vca) : (s.setVca l).brcap = s.brcap := rfl
@[simp] theorem State.setVca_brplay (l : List Vca) : (s.setVca l).brplay = s.brplay := rfl

/-! ### `State.setTone` -/

@[simp] theorem State.setTone_cfg (l : List Tone) : (s.setTone l).cfg = s.cfg := rfl
@[simp] theorem State.setTone_shmAvailable (l : List Tone) : (s.setTone l).shmAvailable = s.shmAvailable := rfl
@[simp] theorem State.setTone_phase (l : List Tone) : (s.setTone l).phase = s.phase := rfl
@[simp] theorem State.setTone_blockIndex (l : List Tone) : (s.setTone l).blockIndex = s.blockIndex := rfl
@[simp] theorem State.setTone_inQueue (l : List Tone) : (s.setTone l).inQueue = s.inQueue := rfl
@[simp] theorem State.setTone_outQueue (l : List Tone) : (s.setTone l).outQueue = s.outQueue := rfl
@[simp] theorem State.setTone_osc (l : List Tone) : (s.setTone l).osc = s.osc := rfl
@[simp] theorem State.setTone_vca (l : List Tone) : (s.setTone l).vca = s.vca := rfl
@[simp] theorem State.setTone_tone (l : List Tone) : (s.setTone l).tone = l := rfl
@[simp] theorem State.setTone_therm (l : List Tone) : (s.setTone l).therm = s.therm := rfl
@[simp] theorem State.setTone_noise (l : List Tone) : (s.setTone l).noise = s.noise := rfl
@[simp] theorem State.setTone_scope (l : List Tone) : (s.setTone l).scope = s.scope := rfl
@[simp] theorem State.setTone_brcap (l : List Tone) : (s.setTone l).brcap = s.brcap := rfl
@[simp] theorem State.setTone_brplay (l : List Tone) : (s.setTone l).brplay = s.brplay := rfl

/-! ### `State.setTherm` -/

@[simp] theorem State.setTherm_cfg (l : List Therm) : (s.setTherm l).cfg = s.cfg := rfl
@[simp] theorem State.setTherm_shmAvailable (l : List Therm) : (s.setTherm l).shmAvailable = s.shmAvailable := rfl
@[simp] theorem State.setTherm_phase (l : List Therm) : (s.setTherm l).phase = s.phase := rfl
@[simp] theorem State.setTherm_blockIndex (l : List Therm) : (s.setTherm l).blockIndex = s.blockIndex := rfl
@[simp] theorem State.setTherm_inQueue (l : List Therm) : (s.setTherm l).inQueue = s.inQueue := rfl
@[simp] theorem State.setTherm_outQueue (l : List Therm) : (s.setTherm l).outQueue = s.outQueue := rfl
@[simp] theorem State.setTherm_osc (l : List Therm) : (s.setTherm l).osc = s.osc := rfl
@[simp] theorem State.setTherm_vca (l : List Therm) : (s.setTherm l).vca = s.vca := rfl
@[simp] theorem State.setTherm_tone (l : List Therm) : (s.setTherm l).tone = s.tone := rfl
@[simp] theorem State.setTherm_therm (l : List Therm) : (s.setTherm l).therm = l := rfl
@[simp] theorem State.setTherm_noise (l : List Therm) : (s.setTherm l).noise = s.noise := rfl
@[simp] theorem State.setTherm_scope (l : List Therm) : (s.setTherm l).scope = s.scope := rfl
@[simp] theorem State.setTherm_brcap (l : List Therm) : (s.setTherm l).brcap = s.brcap := rfl
@[simp] theorem State.setTherm_brplay (l : List Therm) : (s.setTherm l).brplay = s.brplay := rfl

/-! ### `State.setNoise` -/

@[simp] theorem State.setNoise_cfg (l : List Noise) : (s.setNoise l).cfg = s.cfg := rfl
@[simp] theorem State.setNoise_shmAvailable (l : List Noise) : (s.setNoise l).shmAvailable = s.shmAvailable := rfl
@[simp] theorem State.setNoise_phase (l : List Noise) : (s.setNoise l).phase = s.phase := rfl
@[simp] theorem State.setNoise_blockIndex (l : List Noise) : (s.setNoise l).blockIndex = s.blockIndex := rfl
@[simp] theorem State.setNoise_inQueue (l : List Noise) : (s.setNoise l).inQueue = s.inQueue := rfl
@[simp] theorem State.setNoise_outQueue (l : List Noise) : (s.setNoise l).outQueue = s.outQueue := rfl
@[simp] theorem State.setNoise_osc (l : List Noise) : (s.setNoise l).osc = s.osc := rfl
@[simp] theorem State.setNoise_vca (l : List Noise) : (s.setNoise l).vca = s.vca := rfl
@[simp] theorem State.setNoise_tone (l : List Noise) : (s.setNoise l).tone = s.tone := rfl
@[simp] theorem State.setNoise_therm (l : List Noise) : (s.setNoise l).therm = s.therm := rfl
@[simp] theorem State.setNoise_noise (l : List Noise) : (s.setNoise l).noise = l := rfl
@[simp] theorem State.setNoise_scope (l : List Noise) : (s.setNoise l).scope = s.scope := rfl
@[simp] theorem State.setNoise_brcap (l : List Noise) : (s.setNoise l).brcap = s.brcap := rfl
@[simp] theorem State.setNoise_brplay (l : List Noise) : (s.setNoise l).brplay = s.brplay := rfl

/-! ### `State.setScope` -/

@[simp] theorem State.setScope_cfg (l : List Scope) : (s.setScope l).cfg = s.cfg := rfl
@[simp] theorem State.setScope_shmAvailable (l : List Scope) : (s.setScope l).shmAvailable = s.shmAvailable := rfl
@[simp] theorem State.setScope_phase (l : List Scope) : (s.setScope l).phase = s.phase := rfl
@[simp] theorem State.setScope_blockIndex (l : List Scope) : (s.setScope l).blockIndex = s.blockIndex := rfl
@[simp] theorem State.setScope_inQueue (l : List Scope) : (s.setScope l).inQueue = s.inQueue := rfl
@[simp] theorem State.setScope_outQueue (l : List Scope) : (s.setScope l).outQueue = s.outQueue := rfl
@[simp] theorem State.setScope_osc (l : List Scope) : (s.setScope l).osc = s.osc := rfl
@[simp] theorem State.setScope_vca (l : List Scope) : (s.setScope l).vca = s.vca := rfl
@[simp] theorem State.setScope_tone (l : List Scope) : (s.setScope l).tone = s.tone := rfl
@[simp] theorem State.setScope_therm (l : List Scope) : (s.setScope l).therm = s.therm := rfl
@[simp] theorem State.setScope_noise (l : List Scope) : (s.setScope l).noise = s.noise := rfl
@[simp] theorem State.setScope_scope (l : List Scope) : (s.setScope l).scope = l := rfl
@[simp] theorem State.setScope_brcap (l : List Scope) : (s.setScope l).brcap = s.brcap := rfl
@[simp] theorem State.setScope_brplay (l : List Scope) : (s.setScope l).brplay = s.brplay := rfl

/-! ### `State.setBrcap` -/

@[simp] theorem State.setBrcap_cfg (l : List Brcap) : (s.setBrcap l).cfg = s.cfg := rfl
@[simp] theorem State.setBrcap_shmAvailable (l : List Brcap) : (s.setBrcap l).shmAvailable = s.shmAvailable := rfl
@[simp] theorem State.setBrcap_phase (l : List Brcap) : (s.setBrcap l).phase = s.phase := rfl
@[simp] theorem State.setBrcap_blockIndex (l : List Brcap) : (s.setBrcap l).blockIndex = s.blockIndex := rfl
@[simp] theorem State.setBrcap_inQueue (l : List Brcap) : (s.setBrcap l).inQueue = s.inQueue := rfl
@[simp] theorem State.setBrcap_outQueue (l : List Brcap) : (s.setBrcap l).outQueue = s.outQueue := rfl
@[simp] theorem State.setBrcap_osc (l : List Brcap) : (s.setBrcap l).osc = s.osc := rfl
@[simp] theorem State.setBrcap_vca (l : List Brcap) : (s.setBrcap l).vca = s.vca := rfl
@[simp] theorem State.setBrcap_tone (l : List Brcap) : (s.setBrcap l).tone = s.tone := rfl
@[simp] theorem State.setBrcap_therm (l : List Brcap) : (s.setBrcap l).therm = s.therm := rfl
@[simp] theorem State.setBrcap_noise (l : List Brcap) : (s.setBrcap l).noise = s.noise := rfl
@[simp] theorem State.setBrcap_scope (l : List Brcap) : (s.setBrcap l).scope = s.scope := rfl
@[simp] theorem State.setBrcap_brcap (l : List Brcap) : (s.setBrcap l).brcap = l := rfl
@[simp] theorem State.setBrcap_brplay (l : List Brcap) : (s.setBrcap l).brplay = s.brplay := rfl

/-! ### `State.setBrplay` -/

@[simp] theorem State.setBrplay_cfg (l : List Brplay) : (s.setBrplay l).cfg = s.cfg := rfl
@[simp] theorem State.setBrplay_shmAvailable (l : List Brplay) : (s.setBrplay l).shmAvailable = s.shmAvailable := rfl
@[simp] theorem State.setBrplay_phase (l : List Brplay) : (s.setBrplay l).phase = s.phase := rfl
@[simp] theorem State.setBrplay_blockIndex (l : List Brplay) : (s.setBrplay l).blockIndex = s.blockIndex := rfl
@[simp] theorem State.setBrplay_inQueue (l : List Brplay) : (s.setBrplay l).inQueue = s.inQueue := rfl
@[simp] theorem State.setBrplay_outQueue (l : List Brplay) : (s.setBrplay l).outQueue = s.outQueue := rfl
@[simp] theorem State.setBrplay_osc (l : List Brplay) : (s.setBrplay l).osc = s.osc := rfl
@[simp] theorem State.setBrplay_vca (l : List Brplay) : (s.setBrplay l).vca = s.vca := rfl
@[simp] theorem State.setBrplay_tone (l : List Brplay) : (s.setBrplay l).tone = s.tone := rfl
@[simp] theorem State.setBrplay_therm (l : List Brplay) : (s.setBrplay l).therm = s.therm := rfl
@[simp] theorem State.setBrplay_noise (l : List Brplay) : (s.setBrplay l).noise = s.noise := rfl
@[simp] theorem State.setBrplay_scope (l : List Brplay) : (s.setBrplay l).scope = s.scope := rfl
@[simp] theorem State.setBrplay_brcap (l : List Brplay) : (s.setBrplay l).brcap = s.brcap := rfl
@[simp] theorem State.setBrplay_brplay (l : List Brplay) : (s.setBrplay l).brplay = l := rfl

/-! ### `State.setPhase` -/

@[simp] theorem State.setPhase_cfg (p : Phase) : (s.setPhase p).cfg = s.cfg := rfl
@[simp] theorem State.setPhase_shmAvailable (p : Phase) : (s.setPhase p).shmAvailable = s.shmAvailable := rfl
@[simp] theorem State.setPhase_phase (p : Phase) : (s.setPhase p).phase = p := rfl
@[simp] theorem State.setPhase_blockIndex (p : Phase) : (s.setPhase p).blockIndex = s.blockIndex := rfl
@[simp] theorem State.setPhase_inQueue (p : Phase) : (s.setPhase p).inQueue = s.inQueue := rfl
@[simp] theorem State.setPhase_outQueue (p : Phase) : (s.setPhase p).outQueue = s.outQueue := rfl
@[simp] theorem State.setPhase_osc (p : Phase) : (s.setPhase p).osc = s.osc := rfl
@[simp] theorem State.setPhase_vca (p : Phase) : (s.setPhase p).vca = s.vca := rfl
@[simp] theorem State.setPhase_tone (p : Phase) : (s.setPhase p).tone = s.tone := rfl
@[simp] theorem State.setPhase_therm (p : Phase) : (s.setPhase p).therm = s.therm := rfl
@[simp] theorem State.setPhase_noise (p : Phase) : (s.setPhase p).noise = s.noise := rfl
@[simp] theorem State.setPhase_scope (p : Phase) : (s.setPhase p).scope = s.scope := rfl
@[simp] theorem State.setPhase_brcap (p : Phase) : (s.setPhase p).brcap = s.brcap := rfl
@[simp] theorem State.setPhase_brplay (p : Phase) : (s.setPhase p).brplay = s.brplay := rfl

/-! ### `State.setInQueue` -/

@[simp] theorem State.setInQueue_cfg (q : List Packet) : (s.setInQueue q).cfg = s.cfg := rfl
@[simp] theorem State.setInQueue_shmAvailable (q : List Packet) : (s.setInQueue q).shmAvailable = s.shmAvailable := rfl
@[simp] theorem State.setInQueue_phase (q : List Packet) : (s.setInQueue q).phase = s.phase := rfl
@[simp] theorem State.setInQueue_blockIndex (q : List Packet) : (s.setInQueue q).blockIndex = s.blockIndex := rfl
@[simp] theorem State.setInQueue_inQueue (q : List Packet) : (s.setInQueue q).inQueue = q := rfl
@[simp] theorem State.setInQueue_outQueue (q : List Packet) : (s.setInQueue q).outQueue = s.outQueue := rfl
@[simp] theorem State.setInQueue_osc (q : List Packet) : (s.setInQueue q).osc = s.osc := rfl
@[simp] theorem State.setInQueue_vca (q : List Packet) : (s.setInQueue q).vca = s.vca := rfl
@[simp] theorem State.setInQueue_tone (q : List Packet) : (s.setInQueue q).tone = s.tone := rfl
@[simp] theorem State.setInQueue_therm (q : List Packet) : (s.setInQueue q).therm = s.therm := rfl
@[simp] theorem State.setInQueue_noise (q : List Packet) : (s.setInQueue q).noise = s.noise := rfl
@[simp] theorem State.setInQueue_scope (q : List Packet) : (s.setInQueue q).scope = s.scope := rfl
@[simp] theorem State.setInQueue_brcap (q : List Packet) : (s.setInQueue q).brcap = s.brcap := rfl
@[simp] theorem State.setInQueue_brplay (q : List Packet) : (s.setInQueue q).brplay = s.brplay := rfl

/-! ### `State.onOsc` -/

@[simp] theorem State.onOsc_cfg (inst : BitVec 4) (f : Osc → Osc) : (s.onOsc inst f).cfg = s.cfg := rfl
@[simp] theorem State.onOsc_shmAvailable (inst : BitVec 4) (f : Osc → Osc) : (s.onOsc inst f).shmAvailable = s.shmAvailable := rfl
@[simp] theorem State.onOsc_phase (inst : BitVec 4) (f : Osc → Osc) : (s.onOsc inst f).phase = s.phase := rfl
@[simp] theorem State.onOsc_blockIndex (inst : BitVec 4) (f : Osc → Osc) : (s.onOsc inst f).blockIndex = s.blockIndex := rfl
@[simp] theorem State.onOsc_inQueue (inst : BitVec 4) (f : Osc → Osc) : (s.onOsc inst f).inQueue = s.inQueue := rfl
@[simp] theorem State.onOsc_outQueue (inst : BitVec 4) (f : Osc → Osc) : (s.onOsc inst f).outQueue = s.outQueue := rfl
@[simp] theorem State.onOsc_osc (inst : BitVec 4) (f : Osc → Osc) : (s.onOsc inst f).osc = onTargets inst f s.osc := rfl
@[simp] theorem State.onOsc_vca (inst : BitVec 4) (f : Osc → Osc) : (s.onOsc inst f).vca = s.vca := rfl
@[simp] theorem State.onOsc_tone (inst : BitVec 4) (f : Osc → Osc) : (s.onOsc inst f).tone = s.tone := rfl
@[simp] theorem State.onOsc_therm (inst : BitVec 4) (f : Osc → Osc) : (s.onOsc inst f).therm = s.therm := rfl
@[simp] theorem State.onOsc_noise (inst : BitVec 4) (f : Osc → Osc) : (s.onOsc inst f).noise = s.noise := rfl
@[simp] theorem State.onOsc_scope (inst : BitVec 4) (f : Osc → Osc) : (s.onOsc inst f).scope = s.scope := rfl
@[simp] theorem State.onOsc_brcap (inst : BitVec 4) (f : Osc → Osc) : (s.onOsc inst f).brcap = s.brcap := rfl
@[simp] theorem State.onOsc_brplay (inst : BitVec 4) (f : Osc → Osc) : (s.onOsc inst f).brplay = s.brplay := rfl

/-! ### `State.onVca` -/

@[simp] theorem State.onVca_cfg (inst : BitVec 4) (f : Vca → Vca) : (s.onVca inst f).cfg = s.cfg := rfl
@[simp] theorem State.onVca_shmAvailable (inst : BitVec 4) (f : Vca → Vca) : (s.onVca inst f).shmAvailable = s.shmAvailable := rfl
@[simp] theorem State.onVca_phase (inst : BitVec 4) (f : Vca → Vca) : (s.onVca inst f).phase = s.phase := rfl
@[simp] theorem State.onVca_blockIndex (inst : BitVec 4) (f : Vca → Vca) : (s.onVca inst f).blockIndex = s.blockIndex := rfl
@[simp] theorem State.onVca_inQueue (inst : BitVec 4) (f : Vca → Vca) : (s.onVca inst f).inQueue = s.inQueue := rfl
@[simp] theorem State.onVca_outQueue (inst : BitVec 4) (f : Vca → Vca) : (s.onVca inst f).outQueue = s.outQueue := rfl
@[simp] theorem State.onVca_osc (inst : BitVec 4) (f : Vca → Vca) : (s.onVca inst f).osc = s.osc := rfl
@[simp] theorem State.onVca_vca (inst : BitVec 4) (f : Vca → Vca) : (s.onVca inst f).vca = onTargets inst f s.vca := rfl
@[simp] theorem State.onVca_tone (inst : BitVec 4) (f : Vca → Vca) : (s.onVca inst f).tone = s.tone := rfl
@[simp] theorem State.onVca_therm (inst : BitVec 4) (f : Vca → Vca) : (s.onVca inst f).therm = s.therm := rfl
@[simp] theorem State.onVca_noise (inst : BitVec 4) (f : Vca → Vca) : (s.onVca inst f).noise = s.noise := rfl
@[simp] theorem State.onVca_scope (inst : BitVec 4) (f : Vca → Vca) : (s.onVca inst f).scope = s.scope := rfl
@[simp] theorem State.onVca_brcap (inst : BitVec 4) (f : Vca → Vca) : (s.onVca inst f).brcap = s.brcap := rfl
@[simp] theorem State.onVca_brplay (inst : BitVec 4) (f : Vca → Vca) : (s.onVca inst f).brplay = s.brplay := rfl

/-! ### `State.onTone` -/

@[simp] theorem State.onTone_cfg (inst : BitVec 4) (f : Tone → Tone) : (s.onTone inst f).cfg = s.cfg := rfl
@[simp] theorem State.onTone_shmAvailable (inst : BitVec 4) (f : Tone → Tone) : (s.onTone inst f).shmAvailable = s.shmAvailable := rfl
@[simp] theorem State.onTone_phase (inst : BitVec 4) (f : Tone → Tone) : (s.onTone inst f).phase = s.phase := rfl
@[simp] theorem State.onTone_blockIndex (inst : BitVec 4) (f : Tone → Tone) : (s.onTone inst f).blockIndex = s.blockIndex := rfl
@[simp] theorem State.onTone_inQueue (inst : BitVec 4) (f : Tone → Tone) : (s.onTone inst f).inQueue = s.inQueue := rfl
@[simp] theorem State.onTone_outQueue (inst : BitVec 4) (f : Tone → Tone) : (s.onTone inst f).outQueue = s.outQueue := rfl
@[simp] theorem State.onTone_osc (inst : BitVec 4) (f : Tone → Tone) : (s.onTone inst f).osc = s.osc := rfl
@[simp] theorem State.onTone_vca (inst : BitVec 4) (f : Tone → Tone) : (s.onTone inst f).vca = s.vca := rfl
@[simp] theorem State.onTone_tone (inst : BitVec 4) (f : Tone → Tone) : (s.onTone inst f).tone = onTargets inst f s.tone := rfl
@[simp] theorem State.onTone_therm (inst : BitVec 4) (f : Tone → Tone) : (s.onTone inst f).therm = s.therm := rfl
@[simp] theorem State.onTone_noise (inst : BitVec 4) (f : Tone → Tone) : (s.onTone inst f).noise = s.noise := rfl
@[simp] theorem State.onTone_scope (inst : BitVec 4) (f : Tone → Tone) : (s.onTone inst f).scope = s.scope := rfl
@[simp] theorem State.onTone_brcap (inst : BitVec 4) (f : Tone → Tone) : (s.onTone inst f).brcap = s.brcap := rfl
@[simp] theorem State.onTone_brplay (inst : BitVec 4) (f : Tone → Tone) : (s.onTone inst f).brplay = s.brplay := rfl

/-! ### `State.onTherm` -/

@[simp] theorem State.onTherm_cfg (inst : BitVec 4) (f : Therm → Therm) : (s.onTherm inst f).cfg = s.cfg := rfl
@[simp] theorem State.onTherm_shmAvailable (inst : BitVec 4) (f : Therm → Therm) : (s.onTherm inst f).shmAvailable = s.shmAvailable := rfl
@[simp] theorem State.onTherm_phase (inst : BitVec 4) (f : Therm → Therm) : (s.onTherm inst f).phase = s.phase := rfl
@[simp] theorem State.onTherm_blockIndex (inst : BitVec 4) (f : Therm → Therm) : (s.onTherm inst f).blockIndex = s.blockIndex := rfl
@[simp] theorem State.onTherm_inQueue (inst : BitVec 4) (f : Therm → Therm) : (s.onTherm inst f).inQueue = s.inQueue := rfl
@[simp] theorem State.onTherm_outQueue (inst : BitVec 4) (f : Therm → Therm) : (s.onTherm inst f).outQueue = s.outQueue := rfl
@[simp] theorem State.onTherm_osc (inst : BitVec 4) (f : Therm → Therm) : (s.onTherm inst f).osc = s.osc := rfl
@[simp] theorem State.onTherm_vca (inst : BitVec 4) (f : Therm → Therm) : (s.onTherm inst f).vca = s.vca := rfl
@[simp] theorem State.onTherm_tone (inst : BitVec 4) (f : Therm → Therm) : (s.onTherm inst f).tone = s.tone := rfl
@[simp] theorem State.onTherm_therm (inst : BitVec 4) (f : Therm → Therm) : (s.onTherm inst f).therm = onTargets inst f s.therm := rfl
@[simp] theorem State.onTherm_noise (inst : BitVec 4) (f : Therm → Therm) : (s.onTherm inst f).noise = s.noise := rfl
@[simp] theorem State.onTherm_scope (inst : BitVec 4) (f : Therm → Therm) : (s.onTherm inst f).scope = s.scope := rfl
@[simp] theorem State.onTherm_brcap (inst : BitVec 4) (f : Therm → Therm) : (s.onTherm inst f).brcap = s.brcap := rfl
@[simp] theorem State.onTherm_brplay (inst : BitVec 4) (f : Therm → Therm) : (s.onTherm inst f).brplay = s.brplay := rfl

/-! ### `State.onNoise` -/

@[simp] theorem State.onNoise_cfg (inst : BitVec 4) (f : Noise → Noise) : (s.onNoise inst f).cfg = s.cfg := rfl
@[simp] theorem State.onNoise_shmAvailable (inst : BitVec 4) (f : Noise → Noise) : (s.onNoise inst f).shmAvailable = s.shmAvailable := rfl
@[simp] theorem State.onNoise_phase (inst : BitVec 4) (f : Noise → Noise) : (s.onNoise inst f).phase = s.phase := rfl
@[simp] theorem State.onNoise_blockIndex (inst : BitVec 4) (f : Noise → Noise) : (s.onNoise inst f).blockIndex = s.blockIndex := rfl
@[simp] theorem State.onNoise_inQueue (inst : BitVec 4) (f : Noise → Noise) : (s.onNoise inst f).inQueue = s.inQueue := rfl
@[simp] theorem State.onNoise_outQueue (inst : BitVec 4) (f : Noise → Noise) : (s.onNoise inst f).outQueue = s.outQueue := rfl
@[simp] theorem State.onNoise_osc (inst : BitVec 4) (f : Noise → Noise) : (s.onNoise inst f).osc = s.osc := rfl
@[simp] theorem State.onNoise_vca (inst : BitVec 4) (f : Noise → Noise) : (s.onNoise inst f).vca = s.vca := rfl
@[simp] theorem State.onNoise_tone (inst : BitVec 4) (f : Noise → Noise) : (s.onNoise inst f).tone = s.tone := rfl
@[simp] theorem State.onNoise_therm (inst : BitVec 4) (f : Noise → Noise) : (s.onNoise inst f).therm = s.therm := rfl
@[simp] theorem State.onNoise_noise (inst : BitVec 4) (f : Noise → Noise) : (s.onNoise inst f).noise = onTargets inst f s.noise := rfl
@[simp] theorem State.onNoise_scope (inst : BitVec 4) (f : Noise → Noise) : (s.onNoise inst f).scope = s.scope := rfl
@[simp] theorem State.onNoise_brcap (inst : BitVec 4) (f : Noise → Noise) : (s.onNoise inst f).brcap = s.brcap := rfl
@[simp] theorem State.onNoise_brplay (inst : BitVec 4) (f : Noise → Noise) : (s.onNoise inst f).brplay = s.brplay := rfl

/-! ### `State.onScope` -/

@[simp] theorem State.onScope_cfg (inst : BitVec 4) (f : Scope → Scope) : (s.onScope inst f).cfg = s.cfg := rfl
@[simp] theorem State.onScope_shmAvailable (inst : BitVec 4) (f : Scope → Scope) : (s.onScope inst f).shmAvailable = s.shmAvailable := rfl
@[simp] theorem State.onScope_phase (inst : BitVec 4) (f : Scope → Scope) : (s.onScope inst f).phase = s.phase := rfl
@[simp] theorem State.onScope_blockIndex (inst : BitVec 4) (f : Scope → Scope) : (s.onScope inst f).blockIndex = s.blockIndex := rfl
@[simp] theorem State.onScope_inQueue (inst : BitVec 4) (f : Scope → Scope) : (s.onScope inst f).inQueue = s.inQueue := rfl
@[simp] theorem State.onScope_outQueue (inst : BitVec 4) (f : Scope → Scope) : (s.onScope inst f).outQueue = s.outQueue := rfl
@[simp] theorem State.onScope_osc (inst : BitVec 4) (f : Scope → Scope) : (s.onScope inst f).osc = s.osc := rfl
@[simp] theorem State.onScope_vca (inst : BitVec 4) (f : Scope → Scope) : (s.onScope inst f).vca = s.vca := rfl
@[simp] theorem State.onScope_tone (inst : BitVec 4) (f : Scope → Scope) : (s.onScope inst f).tone = s.tone := rfl
@[simp] theorem State.onScope_therm (inst : BitVec 4) (f : Scope → Scope) : (s.onScope inst f).therm = s.therm := rfl
@[simp] theorem State.onScope_noise (inst : BitVec 4) (f : Scope → Scope) : (s.onScope inst f).noise = s.noise := rfl
@[simp] theorem State.onScope_scope (inst : BitVec 4) (f : Scope → Scope) : (s.onScope inst f).scope = onTargets inst f s.scope := rfl
@[simp] theorem State.onScope_brcap (inst : BitVec 4) (f : Scope → Scope) : (s.onScope inst f).brcap = s.brcap := rfl
@[simp] theorem State.onScope_brplay (inst : BitVec 4) (f : Scope → Scope) : (s.onScope inst f).brplay = s.brplay := rfl

/-! ### `State.onBrcap` -/

@[simp] theorem State.onBrcap_cfg (inst : BitVec 4) (f : Brcap → Brcap) : (s.onBrcap inst f).cfg = s.cfg := rfl
@[simp] theorem State.onBrcap_shmAvailable (inst : BitVec 4) (f : Brcap → Brcap) : (s.onBrcap inst f).shmAvailable = s.shmAvailable := rfl
@[simp] theorem State.onBrcap_phase (inst : BitVec 4) (f : Brcap → Brcap) : (s.onBrcap inst f).phase = s.phase := rfl
@[simp] theorem State.onBrcap_blockIndex (inst : BitVec 4) (f : Brcap → Brcap) : (s.onBrcap inst f).blockIndex = s.blockIndex := rfl
@[simp] theorem State.onBrcap_inQueue (inst : BitVec 4) (f : Brcap → Brcap) : (s.onBrcap inst f).inQueue = s.inQueue := rfl
@[simp] theorem State.onBrcap_outQueue (inst : BitVec 4) (f : Brcap → Brcap) : (s.onBrcap inst f).outQueue = s.outQueue := rfl
@[simp] theorem State.onBrcap_osc (inst : BitVec 4) (f : Brcap → Brcap) : (s.onBrcap inst f).osc = s.osc := rfl
@[simp] theorem State.onBrcap_vca (inst : BitVec 4) (f : Brcap → Brcap) : (s.onBrcap inst f).vca = s.vca := rfl
@[simp] theorem State.onBrcap_tone (inst : BitVec 4) (f : Brcap → Brcap) : (s.onBrcap inst f).tone = s.tone := rfl
@[simp] theorem State.onBrcap_therm (inst : BitVec 4) (f : Brcap → Brcap) : (s.onBrcap inst f).therm = s.therm := rfl
@[simp] theorem State.onBrcap_noise (inst : BitVec 4) (f : Brcap → Brcap) : (s.onBrcap inst f).noise = s.noise := rfl
@[simp] theorem State.onBrcap_scope (inst : BitVec 4) (f : Brcap → Brcap) : (s.onBrcap inst f).scope = s.scope := rfl
@[simp] theorem State.onBrcap_brcap (inst : BitVec 4) (f : Brcap → Brcap) : (s.onBrcap inst f).brcap = onTargets inst f s.brcap := rfl
@[simp] theorem State.onBrcap_brplay (inst : BitVec 4) (f : Brcap → Brcap) : (s.onBrcap inst f).brplay = s.brplay := rfl

/-! ### `State.onBrplay` -/

@[simp] theorem State.onBrplay_cfg (inst : BitVec 4) (f : Brplay → Brplay) : (s.onBrplay inst f).cfg = s.cfg := rfl
@[simp] theorem State.onBrplay_shmAvailable (inst : BitVec 4) (f : Brplay → Brplay) : (s.onBrplay inst f).shmAvailable = s.shmAvailable := rfl
@[simp] theorem State.onBrplay_phase (inst : BitVec 4) (f : Brplay → Brplay) : (s.onBrplay inst f).phase = s.phase := rfl
@[simp] theorem State.onBrplay_blockIndex (inst : BitVec 4) (f : Brplay → Brplay) : (s.onBrplay inst f).blockIndex = s.blockIndex := rfl
@[simp] theorem State.onBrplay_inQueue (inst : BitVec 4) (f : Brplay → Brplay) : (s.onBrplay inst f).inQueue = s.inQueue := rfl
@[simp] theorem State.onBrplay_outQueue (inst : BitVec 4) (f : Brplay → Brplay) : (s.onBrplay inst f).outQueue = s.outQueue := rfl
@[simp] theorem State.onBrplay_osc (inst : BitVec 4) (f : Brplay → Brplay) : (s.onBrplay inst f).osc = s.osc := rfl
@[simp] theorem State.onBrplay_vca (inst : BitVec 4) (f : Brplay → Brplay) : (s.onBrplay inst f).vca = s.vca := rfl
@[simp] theorem State.onBrplay_tone (inst : BitVec 4) (f : Brplay → Brplay) : (s.onBrplay inst f).tone = s.tone := rfl
@[simp] theorem State.onBrplay_therm (inst : BitVec 4) (f : Brplay → Brplay) : (s.onBrplay inst f).therm = s.therm := rfl
@[simp] theorem State.onBrplay_noise (inst : BitVec 4) (f : Brplay → Brplay) : (s.onBrplay inst f).noise = s.noise := rfl
@[simp] theorem State.onBrplay_scope (inst : BitVec 4) (f : Brplay → Brplay) : (s.onBrplay inst f).scope = s.scope := rfl
@[simp] theorem State.onBrplay_brcap (inst : BitVec 4) (f : Brplay → Brplay) : (s.onBrplay inst f).brcap = s.brcap := rfl
@[simp] theorem State.onBrplay_brplay (inst : BitVec 4) (f : Brplay → Brplay) : (s.onBrplay inst f).brplay = onTargets inst f s.brplay := rfl

end Sys2Proof.Machine
end

