-- ==== Sys2Proof/Laws/Ops.lean ====
section
/-!
SUPPORT. What the shared operations of Machine/Ops.lean can do: memory and its canonical form, region fields, a bridge's accesses, the
instances a command addresses, and the counting, latching and reporting of events.
-/

namespace Sys2Proof.Machine

/-! ### Memory -/

theorem Memory.read_of_lt {m : Memory} {k : Nat} (h : ∀ c ∈ m, k < c.1) : Memory.read m k = Memory.unlisted := by
  induction m with
  | nil => rfl
  | cons c m ih =>
    obtain ⟨a, b⟩ := c
    have ha : k < a := h (a, b) (by simp)
    simp only [Memory.read]
    rw [if_neg (by omega)]
    exact ih fun c hc => h c (by simp [hc])

theorem Memory.mem_write {m : Memory} {k : Nat} {v : Byte} {c : Host.Cell} (h : c ∈ Memory.write m k v) : c = (k, v) ∨ c ∈ m := by
  induction m with
  | nil =>
    simp only [Memory.write] at h
    split at h <;> simp_all
  | cons d m ih =>
    obtain ⟨a, b⟩ := d
    simp only [Memory.write] at h
    split at h
    · split at h
      · exact .inr h
      · simp at h ⊢; tauto
    · split at h
      · split at h
        · simp at h ⊢; tauto
        · simp at h ⊢; tauto
      · simp at h ⊢
        rcases h with h | h
        · tauto
        · rcases ih h with h | h
          · tauto
          · tauto

/-- A write keeps the canonical form. -/
theorem Memory.wf_write {m : Memory} (h : Memory.wf m) (k : Nat) (v : Byte) : Memory.wf (Memory.write m k v) := by
  induction m with
  | nil =>
    simp only [Memory.write]
    split
    · exact h
    · rename_i hv; simp [Memory.wf, hv]
  | cons d m ih =>
    obtain ⟨a, b⟩ := d
    obtain ⟨hp, hn⟩ := h
    rw [List.pairwise_cons] at hp
    have hm : Memory.wf m := ⟨hp.2, fun c hc => hn c (by simp [hc])⟩
    simp only [Memory.write]
    split
    · split
      · exact ⟨List.pairwise_cons.2 hp, hn⟩
      · rename_i hk hv
        refine ⟨List.pairwise_cons.2 ⟨?_, List.pairwise_cons.2 hp⟩, ?_⟩
        · intro c hc
          rcases List.mem_cons.1 hc with rfl | hc
          · exact hk
          · exact Nat.lt_trans hk (hp.1 c hc)
        · intro c hc
          rcases List.mem_cons.1 hc with rfl | hc
          · exact hv
          · exact hn c hc
    · split
      · split
        · exact hm
        · rename_i hk hv
          refine ⟨List.pairwise_cons.2 ⟨?_, hp.2⟩, ?_⟩
          · intro c hc; have := hp.1 c hc; simp at this; simpa [hk] using this
          · intro c hc
            rcases List.mem_cons.1 hc with rfl | hc
            · exact hv
            · exact hm.2 c hc
      · rename_i h1 h2
        have := ih hm
        refine ⟨List.pairwise_cons.2 ⟨?_, this.1⟩, ?_⟩
        · intro c hc
          rcases Memory.mem_write hc with rfl | hc
          · simp; omega
          · exact hp.1 c hc
        · intro c hc
          rcases List.mem_cons.1 hc with rfl | hc
          · exact hn (a, b) (by simp)
          · exact this.2 c hc

/-- What a write leaves to be read. -/
theorem Memory.read_write {m : Memory} (h : Memory.wf m) (k : Nat) (v : Byte) (j : Nat) :
    Memory.read (Memory.write m k v) j = if j = k then v else Memory.read m j := by
  induction m with
  | nil =>
    simp only [Memory.write]
    by_cases hv : v = Memory.unlisted
    · rw [if_pos hv]; simp only [Memory.read]; split <;> simp [hv]
    · rw [if_neg hv]; simp only [Memory.read, eq_comm (a := k)]
  | cons d m ih =>
    obtain ⟨a, b⟩ := d
    obtain ⟨hp, hn⟩ := h
    rw [List.pairwise_cons] at hp
    have hm : Memory.wf m := ⟨hp.2, fun c hc => hn c (by simp [hc])⟩
    simp only [Memory.write]
    split
    · rename_i hk
      by_cases hv : v = Memory.unlisted
      · rw [if_pos hv]
        by_cases hj : j = k
        · subst hj
          rw [if_pos rfl, hv]
          apply Memory.read_of_lt
          intro c hc
          rcases List.mem_cons.1 hc with rfl | hc
          · exact hk
          · exact Nat.lt_trans hk (hp.1 c hc)
        · rw [if_neg hj]
      · rw [if_neg hv]
        simp only [Memory.read, eq_comm (a := k)]
    · split
      · rename_i hk
        subst hk
        by_cases hv : v = Memory.unlisted
        · rw [if_pos hv]
          by_cases hj : j = k
          · subst hj
            rw [if_pos rfl, hv]
            exact Memory.read_of_lt hp.1
          · rw [if_neg hj]; simp only [Memory.read]; rw [if_neg (by omega)]
        · rw [if_neg hv]
          by_cases hj : j = k
          · subst hj; simp [Memory.read]
          · simp only [Memory.read]; rw [if_neg (by omega), if_neg hj, if_neg (by omega)]
      · rename_i h1 h2
        simp only [Memory.read]
        rw [ih hm]
        by_cases hj : j = k
        · subst hj; simp; intro h; omega
        · simp [hj]

theorem Memory.wf_writeAll {m : Memory} (h : Memory.wf m) (k : Nat) (vs : List Byte) : Memory.wf (Memory.writeAll m k vs) := by
  induction vs generalizing m k with
  | nil => exact h
  | cons v vs ih => exact ih (Memory.wf_write h k v) (k + 1)

/-- What consecutive writes leave to be read. -/
theorem Memory.read_writeAll {m : Memory} (h : Memory.wf m) (k : Nat) (vs : List Byte) (j : Nat) :
    Memory.read (Memory.writeAll m k vs) j = if k ≤ j ∧ j < k + vs.length then vs.getD (j - k) 0 else Memory.read m j := by
  induction vs generalizing m k with
  | nil =>
    rw [Memory.writeAll, if_neg (by simp)]
  | cons v vs ih =>
    rw [Memory.writeAll, ih (Memory.wf_write h k v), Memory.read_write h]
    by_cases hj : j = k
    · subst hj; simp
    · rw [if_neg hj]
      by_cases hr : k ≤ j ∧ j < k + (v :: vs).length
      · have h1 : k + 1 ≤ j ∧ j < k + 1 + vs.length := by simp at hr; omega
        rw [if_pos hr, if_pos h1]
        have : j - k = (j - (k + 1)) + 1 := by omega
        rw [this]; rfl
      · have h1 : ¬ (k + 1 ≤ j ∧ j < k + 1 + vs.length) := by simp at hr; omega
        rw [if_neg hr, if_neg h1]

theorem Memory.mem_writeAll {m : Memory} {k : Nat} {vs : List Byte} {c : Host.Cell} (h : c ∈ Memory.writeAll m k vs) :
    (k ≤ c.1 ∧ c.1 < k + vs.length) ∨ c ∈ m := by
  induction vs generalizing m k with
  | nil => exact .inr h
  | cons v vs ih =>
    rcases ih h with h | h
    · left; simp; omega
    · rcases Memory.mem_write h with rfl | h
      · left; simp
      · exact .inr h

/-! ### Region fields -/

theorem fieldBytes_length (e : Endian) (v : BitVec 32) : (fieldBytes e v).length = 4 := by cases e <;> rfl

theorem word32_bytes32 (v : BitVec 32) :
    word32 (v.extractLsb' 0 8) (v.extractLsb' 8 8) (v.extractLsb' 16 8) (v.extractLsb' 24 8) = v := by
  unfold word32
  ext i hi
  simp only [BitVec.getElem_append, BitVec.getElem_extractLsb']
  split
  · simp [BitVec.getLsbD, BitVec.getElem_eq_testBit_toNat]
  · split
    · simp only [BitVec.getLsbD, BitVec.getElem_eq_testBit_toNat]; congr 1; omega
    · split
      · simp only [BitVec.getLsbD, BitVec.getElem_eq_testBit_toNat]; congr 1; omega
      · simp only [BitVec.getLsbD, BitVec.getElem_eq_testBit_toNat]; congr 1; omega

/-- A 32-bit pattern is the four bytes of its bits, `b0` in bits [7:0]. -/
theorem word32_iff {b0 b1 b2 b3 : Byte} {v : BitVec 32} :
    word32 b0 b1 b2 b3 = v ↔
      b0 = v.extractLsb' 0 8 ∧ b1 = v.extractLsb' 8 8 ∧ b2 = v.extractLsb' 16 8 ∧ b3 = v.extractLsb' 24 8 := by
  constructor
  · rintro rfl
    refine ⟨?_, ?_, ?_, ?_⟩ <;> ext i hi <;> simp only [word32, BitVec.getElem_extractLsb', BitVec.getLsbD_append]
    · simp [hi]
    · simp [hi, show ¬ 8 + i < 8 by omega]
    · simp [hi, show ¬ 16 + i < 8 by omega, show 16 + i - 8 = 8 + i by omega]
    · simp [hi, show ¬ 24 + i < 8 by omega, show 24 + i - 8 = 16 + i by omega, show ¬ 16 + i < 8 by omega,
        show 16 + i - 8 = 8 + i by omega]
  · rintro ⟨rfl, rfl, rfl, rfl⟩
    exact word32_bytes32 v

/-- The bytes of a field hold the field (20_memory.md R104). -/
theorem fieldWord_fieldBytes (e : Endian) (v : BitVec 32) :
    fieldWord e ((fieldBytes e v).getD 0 0) ((fieldBytes e v).getD 1 0) ((fieldBytes e v).getD 2 0) ((fieldBytes e v).getD 3 0) = v := by
  cases e <;> exact word32_bytes32 v

/-- All a 4-byte store can do: it needs its bytes to exist, writes them, and keeps the region's size and form. -/
theorem Region.store32_spec {e : Endian} {o : Nat} {v : BitVec 32} {r r' : Region} (hw : r.mem.wf) (h : r.store32 e o v = some r') :
    o + 4 ≤ r.size ∧ r'.size = r.size ∧ r'.mem.wf ∧
      (∀ j, r'.mem.read j = if o ≤ j ∧ j < o + 4 then (fieldBytes e v).getD (j - o) 0 else r.mem.read j) ∧
      ∀ c ∈ r'.mem, (o ≤ c.1 ∧ c.1 < o + 4) ∨ c ∈ r.mem := by
  unfold Region.store32 at h
  split at h
  · rename_i ho
    cases h
    refine ⟨ho, rfl, Memory.wf_writeAll hw _ _, fun j => ?_, fun c hc => ?_⟩
    · have := Memory.read_writeAll hw o (fieldBytes e v) j
      rwa [fieldBytes_length] at this
    · have := Memory.mem_writeAll hc
      rwa [fieldBytes_length] at this
  · cases h

theorem Region.store32_some {e : Endian} {o : Nat} {v : BitVec 32} {r : Region} (h : o + 4 ≤ r.size) :
    ∃ r', r.store32 e o v = some r' := by simp [Region.store32, h]

theorem Region.load32_some {e : Endian} {o : Nat} {r : Region} (h : o + 4 ≤ r.size) :
    r.load32 e o = some (fieldWord e (r.mem.read o) (r.mem.read (o + 1)) (r.mem.read (o + 2)) (r.mem.read (o + 3))) := by
  simp [Region.load32, h]

/-- A stored field loads back. -/
theorem Region.load32_store32 {e : Endian} {o : Nat} {v : BitVec 32} {r r' : Region} (hw : r.mem.wf) (h : r.store32 e o v = some r') :
    r'.load32 e o = some v := by
  obtain ⟨h1, h2, -, h4, -⟩ := Region.store32_spec hw h
  rw [Region.load32_some (by omega)]
  rw [h4 o, h4 (o + 1), h4 (o + 2), h4 (o + 3)]
  rw [if_pos (by omega), if_pos (by omega), if_pos (by omega), if_pos (by omega)]
  have a0 : o - o = 0 := by omega
  have a1 : o + 1 - o = 1 := by omega
  have a2 : o + 2 - o = 2 := by omega
  have a3 : o + 3 - o = 3 := by omega
  rw [a0, a1, a2, a3, fieldWord_fieldBytes]

/-- A store leaves every other field. -/
theorem Region.load32_store32_other {e : Endian} {o o' : Nat} {v : BitVec 32} {r r' : Region} (hw : r.mem.wf)
    (h : r.store32 e o v = some r') (ho : o' + 4 ≤ o ∨ o + 4 ≤ o') : r'.load32 e o' = r.load32 e o' := by
  obtain ⟨h1, h2, -, h4, -⟩ := Region.store32_spec hw h
  unfold Region.load32
  by_cases hs : o' + 4 ≤ r.size
  · rw [h2, if_pos hs, if_pos hs, h4 o', h4 (o' + 1), h4 (o' + 2), h4 (o' + 3)]
    rw [if_neg (by omega), if_neg (by omega), if_neg (by omega), if_neg (by omega)]
  · rw [h2, if_neg hs, if_neg hs]

theorem Region.ok_fresh (cap ch : Nat) : (freshRegion cap ch).Ok cap ch := by
  refine ⟨rfl, ⟨List.Pairwise.nil, ?_⟩, ?_⟩ <;> intro c hc <;> cases hc

theorem Region.ok_store32 {e : Endian} {o cap ch : Nat} {v : BitVec 32} {r r' : Region} (hr : r.Ok cap ch)
    (h : r.store32 e o v = some r') : r'.Ok cap ch := by
  obtain ⟨h1, h2, h3, -, h5⟩ := Region.store32_spec hr.2.1 h
  refine ⟨h2.trans hr.1, h3, fun c hc => ?_⟩
  rcases h5 c hc with h | h
  · omega
  · rw [h2]; exact hr.2.2 c h

/-! ### A bridge's accesses -/

/-- A race depends on what the peer has written, not on what the block has accessed. -/
@[simp] theorem Order.raced_exposed (d : Order) (x : List Nat) (o : Nat) : ({ d with exposed := x } : Order).raced o = d.raced o := rfl

/-- With every release acquired, what races is what is unordered. -/
theorem Order.raced_acquired {d : Order} {o : Nat} (hr : d.released = []) (h : d.unordered o = false) : d.raced o = false := by
  simp [Order.raced, h, hr]

theorem Order.read_eq (o : Nat) (d : Order) : d.read o = { d with exposed := (d.read o).exposed } := by
  unfold Order.read
  split <;> rfl

theorem Order.acquire_eq (o : Nat) (d : Order) : d.acquire o = { d with released := (d.acquire o).released } := by
  unfold Order.acquire
  split <;> rfl

/-- All a load can do: it answers on a region that has the bytes, notes the access, and on a race counts a draw. -/
theorem Link.load32_spec {dir : Nat} {e : Endian} {o : Nat} {l : Link} {r : Region} (hr : l.region = some r) (ho : o + 4 ≤ r.size) :
    ∃ v x n, l.load32 dir e o = some (v, { l with order := { l.order with exposed := x }, races := n }) ∧
      (l.order.raced o = false → r.load32 e o = some v ∧ n = l.races) := by
  have hl := Region.load32_some (e := e) ho
  unfold Link.load32
  split
  · rename_i h; rw [hr] at h; cases h
  · rename_i r0 h
    rw [hr] at h; cases h
    simp only [hl]
    rw [Order.read_eq]
    cases hc : l.order.raced o
    · exact ⟨_, _, l.races, rfl, fun _ => ⟨rfl, rfl⟩⟩
    · exact ⟨_, _, _, rfl, fun h => by cases h⟩

/-- All a store can do: it answers on a region that has the bytes, changes the region, notes the access, and on a race counts a
draw. -/
theorem Link.store32_spec {dir : Nat} {e : Endian} {o : Nat} {v : BitVec 32} {l : Link} {r : Region} (hr : l.region = some r)
    (ho : o + 4 ≤ r.size) :
    ∃ w x n r', l.store32 dir e o v = some { l with region := some r', order := { l.order with exposed := x }, races := n } ∧
      r.store32 e o w = some r' ∧ (l.order.raced o = false → w = v ∧ n = l.races) := by
  unfold Link.store32
  split
  · rename_i h; rw [hr] at h; cases h
  · rename_i r0 h
    rw [hr] at h; cases h
    cases hc : l.order.raced o
    · obtain ⟨r', h'⟩ := Region.store32_some (e := e) (v := v) ho
      exact ⟨v, _, l.races, r', by simp only [h', Option.map_some, Bool.false_eq_true, if_false]; rfl, h', fun _ => ⟨rfl, rfl⟩⟩
    · obtain ⟨r', h'⟩ := Region.store32_some (e := e) (v := Config.raceDraw dir l.stream l.races) ho
      exact ⟨_, _, l.races + 1, r', by simp only [h', Option.map_some, if_true]; rfl, h', fun h => by cases h⟩

/-- All an atomic load can do: a load that acquires unless a write there is unordered. -/
theorem Link.atomicLoad_spec {dir : Nat} {e : Endian} {o : Nat} {l : Link} {r : Region} (hr : l.region = some r) (ho : o + 4 ≤ r.size) :
    ∃ v a x n, l.atomicLoad dir e o = some (v, { l with order := { l.order with released := a, exposed := x }, races := n }) ∧
      (l.order.unordered o = false → r.load32 e o = some v ∧ a = [] ∧ n = l.races) := by
  unfold Link.atomicLoad
  rw [Order.acquire_eq]
  obtain ⟨v, x, n, h1, h2⟩ := Link.load32_spec (dir := dir) (e := e)
    (l := { l with order := { l.order with released := (l.order.acquire o).released } }) hr ho
  refine ⟨v, _, x, n, h1, fun hu => ?_⟩
  have ha : (l.order.acquire o).released = [] := by simp [Order.acquire, hu]
  have hq : ({ l.order with released := (l.order.acquire o).released } : Order).raced o = false := by
    rw [ha]
    simp only [Order.raced, List.contains_nil, Bool.or_false]
    exact hu
  obtain ⟨h3, h4⟩ := h2 hq
  exact ⟨h3, ha, h4⟩

/-- All an atomic store can do: a store that releases unless it races. -/
theorem Link.atomicStore_spec {dir : Nat} {e : Endian} {o : Nat} {v : BitVec 32} {l : Link} {r : Region} (hr : l.region = some r)
    (ho : o + 4 ≤ r.size) :
    ∃ w x n r', l.atomicStore dir e o v =
        some { l with region := some r', order := { l.order with exposed := x, foreign := l.order.raced o }, races := n } ∧
      r.store32 e o w = some r' ∧ (l.order.raced o = false → w = v ∧ n = l.races) := by
  exact Link.store32_spec (l := { l with order := l.order.release o }) hr ho

/-! ### Indices (47_bridge.md R420, R421) -/

theorem slotOf_lt {cap : Nat} (h : 2 ≤ cap) (v : BitVec 32) : slotOf cap v < cap := by
  unfold slotOf
  have h1 := Int.emod_nonneg v.toInt (show (cap : Int) ≠ 0 by omega)
  have h2 := Int.emod_lt_of_pos v.toInt (show (0 : Int) < cap by omega)
  omega

theorem slotOf_ofNat {cap k : Nat} (h : cap ≤ 2 ^ 31) (hk : k < cap) : slotOf cap (BitVec.ofNat 32 k) = k := by
  unfold slotOf
  have : (BitVec.ofNat 32 k).toInt = k := by
    rw [BitVec.toInt_eq_toNat_of_lt] <;> rw [BitVec.toNat_ofNat, Nat.mod_eq_of_lt] <;> omega
  rw [this, Int.emod_eq_of_lt (by omega) (by omega)]
  rfl

/-- An index's slot is the one number below the capacity congruent to it (R420). -/
theorem slotOf_eq {cap k : Nat} {v : BitVec 32} (hk : k < cap) (h : (cap : Int) ∣ v.toInt - k) : slotOf cap v = k := by
  unfold slotOf
  rw [Int.emod_eq_emod_iff_emod_sub_eq_zero.2 (Int.emod_eq_zero_of_dvd h), Int.emod_eq_of_lt (by omega) (by omega)]
  rfl

theorem usedFrames_eq {cap w r k : Nat} (hk : k < cap) (h : (cap : Int) ∣ (w : Int) - r - k) : usedFrames cap w r = k := by
  unfold usedFrames
  rw [Int.emod_eq_emod_iff_emod_sub_eq_zero.2 (Int.emod_eq_zero_of_dvd h), Int.emod_eq_of_lt (by omega) (by omega)]
  rfl

theorem usedFrames_lt {cap : Nat} (h : 2 ≤ cap) (w r : Nat) : usedFrames cap w r < cap := by
  unfold usedFrames
  have h1 := Int.emod_nonneg ((w : Int) - r) (show (cap : Int) ≠ 0 by omega)
  have h2 := Int.emod_lt_of_pos ((w : Int) - r) (show (0 : Int) < cap by omega)
  omega

/-! ### Addressing -/

/-- All `onTargets` does (30_encoding.md R145), for at most 15 instances or any number. -/
theorem getElem?_onTargets {α : Type} (inst : BitVec 4) (f : α → α) (l : List α) (k : Nat) :
    (onTargets inst f l)[k]? = l[k]?.map fun u => if addressed inst k then f u else u := by
  unfold onTargets addressed
  by_cases h : inst = 15#4
  · simp [h]
  · rw [if_neg h, List.getElem?_modify]
    by_cases hk : inst.toNat = k <;> simp [h, hk]

theorem length_onTargets {α : Type} (inst : BitVec 4) (f : α → α) (l : List α) : (onTargets inst f l).length = l.length := by
  unfold onTargets; split <;> simp

theorem appliedTo_onTargets {α : Type} (inst : BitVec 4) (f : α → α) (l : List α) : AppliedTo inst f l (onTargets inst f l) := by
  refine ⟨length_onTargets .., fun k u h => ?_⟩
  rw [getElem?_onTargets, h]; rfl

theorem mem_onTargets {α : Type} {inst : BitVec 4} {f : α → α} {l : List α} {v : α} (h : v ∈ onTargets inst f l) :
    ∃ u ∈ l, v = u ∨ v = f u := by
  obtain ⟨k, hk⟩ := List.mem_iff_getElem?.1 h
  rw [getElem?_onTargets] at hk
  obtain ⟨u, hu, rfl⟩ := Option.map_eq_some_iff.1 hk
  refine ⟨u, List.mem_of_getElem? hu, ?_⟩
  split
  · exact .inr rfl
  · exact .inl rfl

theorem map_onTargets {α β : Type} (inst : BitVec 4) (f : α → α) (g : α → β) (l : List α) (h : ∀ u, g (f u) = g u) :
    (onTargets inst f l).map g = l.map g := by
  apply List.ext_getElem?
  intro k
  simp only [List.getElem?_map, getElem?_onTargets, Option.map_map]
  congr 1
  funext u
  simp only [Function.comp]
  split
  · exact h u
  · rfl

/-! ### Events -/

@[simp] theorem Counts.get_set (k j : EventCode) (v : U32) (c : Counts) : (c.set k v).get j = if j = k then v else c.get j := by
  cases k <;> cases j <;> rfl

@[simp] theorem Reports.get_set (k j : EventCode) (b : U64) (r : Reports) :
    (r.set k b).get j = if j = k then some b else r.get j := by
  cases k <;> cases j <;> rfl

@[simp] theorem Common.count_faulted (k : EventCode) (n : Nat) (c : Common) : (c.count k n).faulted = c.faulted := rfl
@[simp] theorem Common.count_lastReport (k : EventCode) (n : Nat) (c : Common) : (c.count k n).lastReport = c.lastReport := rfl
@[simp] theorem Common.count_faultDraw (k : EventCode) (n : Nat) (c : Common) : (c.count k n).faultDraw = c.faultDraw := rfl

theorem Common.count_get (k j : EventCode) (n : Nat) (c : Common) :
    (c.count k n).pending.get j = if j = k then c.pending.get k + BitVec.ofNat 32 n else c.pending.get j := by
  simp [Common.count]

/-- All a fault draw does (60_exceptions.md R466): nothing, or the latch and one UNIT_FAULT. -/
theorem Common.takeFault_cases (c : Common) :
    (c.faulted = true ∧ c.takeFault = c) ∨ (c.faulted = false ∧ c.faultDraw = false ∧ c.takeFault = c) ∨
      (c.faulted = false ∧ c.faultDraw = true ∧
        c.takeFault = { c with faulted := true, pending := { c.pending with unitFault := c.pending.unitFault + 1 } }) := by
  unfold Common.takeFault
  cases c.faulted <;> cases c.faultDraw <;> simp [Common.count, Counts.set, Counts.get]

theorem Common.takeFault_faulted {c : Common} (h : c.faulted = true) : c.takeFault.faulted = true := by
  rcases c.takeFault_cases with ⟨-, h'⟩ | ⟨h', -⟩ | ⟨h', -⟩
  · rw [h']; exact h
  · rw [h] at h'; cases h'
  · rw [h] at h'; cases h'

end Sys2Proof.Machine
end

