-- ==== Sys2Proof/Laws/Step.lean ====
section
/-!
SUPPORT. What one step can do, said once: the five kinds of move, and what a command can change in the class it acts on. Proofs over
steps cite these and never unfold `step` or `exec`.
-/

namespace Sys2Proof.Machine

/-! ### Commands -/

/-- What no OSC command touches, and the one value a command can set the phase to. -/
abbrev Osc.CommandKeeps (u v : Osc) : Prop :=
  v.cfg = u.cfg ∧ v.common = u.common ∧ v.mute.gain = u.mute.gain ∧ v.latch = u.latch ∧ v.ports = u.ports ∧ v.out0 = u.out0 ∧
    v.out1 = u.out1 ∧ (v.phase = u.phase ∨ v.phase = f0)

/-- What no VCA command touches. -/
abbrev Vca.CommandKeeps (u v : Vca) : Prop :=
  v.cfg = u.cfg ∧ v.common = u.common ∧ v.mute.gain = u.mute.gain ∧ v.latch = u.latch ∧ v.input = u.input ∧ v.cv = u.cv ∧ v.out = u.out

/-- What no TONE command touches. -/
abbrev Tone.CommandKeeps (u v : Tone) : Prop :=
  v.cfg = u.cfg ∧ v.common = u.common ∧ v.mute.gain = u.mute.gain ∧ v.latchPosition = u.latchPosition ∧ v.input = u.input ∧
    v.out = u.out ∧ v.chans.length = u.chans.length

/-- What no THERM command touches. -/
abbrev Therm.CommandKeeps (u v : Therm) : Prop :=
  v.cfg = u.cfg ∧ v.common = u.common ∧ v.latchEnable = u.latchEnable ∧ v.input = u.input ∧ v.out = u.out

/-- What no NOISE command touches. -/
abbrev Noise.CommandKeeps (u v : Noise) : Prop :=
  v.cfg = u.cfg ∧ v.common = u.common ∧ v.mute.gain = u.mute.gain ∧ v.latch = u.latch ∧ v.bypassed = u.bypassed ∧
    v.draws = u.draws ∧ v.stream = u.stream ∧ v.drawn = u.drawn ∧ v.out = u.out

/-- What no SCOPE command touches, and that it keeps the unit's ranges. -/
abbrev Scope.CommandKeeps (u v : Scope) : Prop :=
  v.cfg = u.cfg ∧ v.common = u.common ∧ v.latch = u.latch ∧ v.inY = u.inY ∧ v.inX = u.inX ∧ v.made = u.made ∧
    ∀ p, scopeCfgOk u.cfg = true → u.Ok p → v.Ok p

/-- What no command touches in a unit's common state. -/
abbrev Common.CommandKeeps (c d : Common) : Prop := d.faulted = c.faulted ∧ d.lastReport = c.lastReport ∧ d.faultDraw = c.faultDraw

/-- What no BRCAP command touches, and that it keeps the unit's ranges. -/
abbrev Brcap.CommandKeeps (u v : Brcap) : Prop :=
  v.cfg = u.cfg ∧ u.common.CommandKeeps v.common ∧ v.input = u.input ∧ v.made = u.made ∧ v.link.order.racy = u.link.order.racy ∧
    ∀ p, bridgeCfgOk u.cfg = true → u.Ok p → v.Ok p

/-- What no BRPLAY command touches, and that it keeps the unit's ranges. -/
abbrev Brplay.CommandKeeps (u v : Brplay) : Prop :=
  v.cfg = u.cfg ∧ u.common.CommandKeeps v.common ∧ v.out = u.out ∧ v.link.order.racy = u.link.order.racy ∧
    ∀ p q, bridgeCfgOk u.cfg = true → u.Ok p q → v.Ok p q

theorem Counts.count_keeps (k : EventCode) (n : Nat) (c : Common) : c.CommandKeeps (c.count k n) := ⟨rfl, rfl, rfl⟩

theorem startEvents_keeps (shm : Bool) (l : Link) (c : Common) : c.CommandKeeps (startEvents shm l c) := by
  unfold startEvents
  split
  · exact ⟨rfl, rfl, rfl⟩
  · exact Counts.count_keeps ..

/-- The frames a payload gives: `n` of them, each of `ch` samples, at the places of the frame-major layout. -/
theorem framesOf_eq (ch n : Nat) (xs : List F32) (h : n * ch ≤ xs.length) :
    framesOf ch n xs = (List.range n).map fun f => (List.range ch).map fun c => xs.getD (f * ch + c) 0 := by
  induction n generalizing xs with
  | zero => rfl
  | succ n ih =>
    rw [framesOf, ih _ (by simp; rw [Nat.succ_mul] at h; omega), List.range_succ_eq_map, List.map_cons, List.map_map]
    congr 1
    · apply List.ext_getElem?
      intro i
      rw [Nat.succ_mul] at h
      by_cases hi : i < ch
      · have : i < xs.length := by omega
        simp [hi, this]
      · simp [hi]
    · apply List.map_congr_left
      intro f _
      apply List.map_congr_left
      intro c _
      simp [List.getD_eq_getElem?_getD, Nat.succ_mul]
      congr 2
      omega

theorem framesOf_length (ch n : Nat) (xs : List F32) : (framesOf ch n xs).length = n := by
  induction n generalizing xs with
  | zero => rfl
  | succ n ih => simp [framesOf, ih]

/-! ### The ranges a command keeps -/

theorem Scope.resize_keeps (v : U32) (u : Scope) : u.CommandKeeps (u.resize v) := by
  refine ⟨rfl, rfl, rfl, rfl, rfl, rfl, fun p hc h => ?_⟩
  simp only [scopeCfgOk, Bool.and_eq_true, decide_eq_true_eq] at hc
  have h1 : u.cfg.nMin ≤ clampCount v u.cfg.nMin u.cfg.nMax := by unfold clampCount; omega
  have h2 : clampCount v u.cfg.nMin u.cfg.nMax ≤ u.cfg.nMax := by unfold clampCount; omega
  exact ⟨h1, h2, List.length_replicate, List.length_replicate, show 0 < 2 * clampCount v u.cfg.nMin u.cfg.nMax by omega, Nat.zero_le _,
    show 0 < clampCount v u.cfg.nMin u.cfg.nMax by omega,
    Nat.zero_le _, by simp [Scope.resize], h.2.2.2.2.2.2.2.2.2⟩

theorem Link.setCapacity_ok {c : BridgeCfg} {l : Link} (hc : bridgeCfgOk c = true) (h : l.Ok c) (v : U32) :
    (l.setCapacity c v).Ok c := by
  simp only [bridgeCfgOk, Bool.and_eq_true, decide_eq_true_eq] at hc
  have h1 := h.2.2.1
  have h2 := h.2.2.2.1
  refine ⟨h.1, h.2.1, ?_, ?_, h.2.2.2.2⟩ <;> simp only [Link.setCapacity, clampCount] <;> omega

theorem Link.stop_ok {c : BridgeCfg} {l : Link} (h : l.Ok c) : ({ l with run := .stopped } : Link).Ok c :=
  ⟨h.1, h.2.1, h.2.2.1, h.2.2.2.1, h.2.2.2.2.1, h.2.2.2.2.2.1, by simp, h.2.2.2.2.2.2.2⟩

theorem Link.start_ok {c : BridgeCfg} {l : Link} (hc : bridgeCfgOk c = true) (h : l.Ok c) (shm : Bool) :
    (l.start shm c.ch).Ok c := by
  simp only [bridgeCfgOk, Bool.and_eq_true, decide_eq_true_eq] at hc
  have h1 := h.2.2.1
  have h2 := h.2.2.2.1
  unfold Link.start
  split
  · rename_i hs
    have hf : l.fallbackLatched = false := by simp [Link.canShare] at hs; exact hs.2
    refine ⟨show 2 ≤ l.capNext by omega, show l.capNext ≤ 2 ^ 31 by omega, h1, h2, by simp [hf], by simp, by simp, ?_⟩
    simp only [Option.mem_def, Option.some.injEq, forall_eq']
    exact Region.ok_fresh _ _
  · exact ⟨show 2 ≤ l.capNext by omega, show l.capNext ≤ 2 ^ 31 by omega, h1, h2, by simp, by simp, by simp, by simp⟩

theorem Link.start_racy (l : Link) (shm : Bool) (ch : Nat) : (l.start shm ch).order.racy = l.order.racy := by unfold Link.start; split <;> rfl

theorem Link.start_cap (l : Link) (shm : Bool) (ch : Nat) : (l.start shm ch).cap = l.capNext := by unfold Link.start; split <;> rfl

theorem Brcap.start_keeps (shm : Bool) (u : Brcap) : u.CommandKeeps (u.start shm) := by
  refine ⟨rfl, startEvents_keeps .., rfl, rfl, Link.start_racy .., fun p hc h => ?_⟩
  have hk := Link.start_ok hc h.1 shm
  simp only [bridgeCfgOk, Bool.and_eq_true, decide_eq_true_eq] at hc
  exact ⟨hk, show 0 < (u.link.start shm u.cfg.ch).cap by have := hk.1; omega, show 0 < u.cfg.chunkFrames by omega,
    by simp [Brcap.start], h.2.2.2.2⟩

theorem Brplay.start_keeps (shm : Bool) (u : Brplay) : u.CommandKeeps (u.start shm) := by
  refine ⟨rfl, startEvents_keeps .., rfl, Link.start_racy .., fun p q hc h => ?_⟩
  have hk := Link.start_ok hc h.1 shm
  exact ⟨hk, show 0 < (u.link.start shm u.cfg.ch).cap by have := hk.1; omega, Nat.zero_le _, by simp [Brplay.start],
    List.length_replicate, h.2.2.2.2.2⟩

theorem Brplay.push_keeps (n : U32) (payload : List F32) (u : Brplay) : u.CommandKeeps (u.push n payload) := by
  unfold Brplay.push
  split
  · rename_i hp
    refine ⟨rfl, ?_, rfl, rfl, fun p q hc h => ⟨h.1, h.2.1, ?_, ?_, h.2.2.2.2⟩⟩
    · dsimp only
      split
      · exact Counts.count_keeps ..
      · exact ⟨rfl, rfl, rfl⟩
    · have := h.2.2.1
      simp only [List.length_append, framesOf_length]
      omega
    · intro f hf
      simp only [List.mem_append] at hf
      rcases hf with hf | hf
      · exact h.2.2.2.1 f hf
      · rw [framesOf_eq _ _ _ ((Nat.mul_le_mul_right _ (by omega)).trans hp.2.2)] at hf
        simp only [List.mem_map, List.mem_range] at hf
        obtain ⟨a, _, rfl⟩ := hf
        simp
  · exact ⟨rfl, ⟨rfl, rfl, rfl⟩, rfl, rfl, fun _ _ _ h => h⟩

/-! ### Every command -/

/-- A command answers a next state: the state as it was, or one class's instances changed where it addresses them. -/
theorem exec_cases (i : Instr) (s : State) : ∃ t, exec i s = .next t ∧
    (t = s ∨ (∃ inst f, t = s.onOsc inst f ∧ ∀ u : Osc, u.CommandKeeps (f u)) ∨ (∃ inst f, t = s.onVca inst f ∧ ∀ u : Vca, u.CommandKeeps (f u)) ∨
      (∃ inst f, t = s.onTone inst f ∧ ∀ u : Tone, u.CommandKeeps (f u)) ∨ (∃ inst f, t = s.onTherm inst f ∧ ∀ u : Therm, u.CommandKeeps (f u)) ∨
      (∃ inst f, t = s.onNoise inst f ∧ ∀ u : Noise, u.CommandKeeps (f u)) ∨ (∃ inst f, t = s.onScope inst f ∧ ∀ u : Scope, u.CommandKeeps (f u)) ∨
      (∃ inst f, t = s.onBrcap inst f ∧ ∀ u : Brcap, u.CommandKeeps (f u)) ∨ ∃ inst f, t = s.onBrplay inst f ∧ ∀ u : Brplay, u.CommandKeeps (f u)) := by
  cases i
  case setParamOscFrequency | setParamOscDetune | setParamOscPulseWidth | setParamOscSymmetry | setParamOscSineLevel | setParamOscSawLevel
      | setParamOscTriLevel | setParamOscPulseLevel | setParamOscSlewCutoff | setParamOscPurity =>
    exact ⟨_, rfl, .inr (.inl ⟨_, _, rfl, fun u => ⟨rfl, rfl, rfl, rfl, rfl, rfl, rfl, .inl rfl⟩⟩)⟩
  case resetPhaseOsc => exact ⟨_, rfl, .inr (.inl ⟨_, _, rfl, fun u => ⟨rfl, rfl, rfl, rfl, rfl, rfl, rfl, .inr rfl⟩⟩)⟩
  case setWaveformOsc | resyncOsc =>
    refine ⟨_, rfl, .inr (.inl ⟨_, _, rfl, fun u => ?_⟩)⟩
    split <;> exact ⟨rfl, rfl, rfl, rfl, rfl, rfl, rfl, .inl rfl⟩
  case setDormantOsc =>
    refine ⟨_, rfl, .inr (.inl ⟨_, _, rfl, fun u => ?_⟩)⟩
    dsimp only
    split <;> exact ⟨rfl, rfl, rfl, rfl, rfl, rfl, rfl, .inl rfl⟩
  case setParamVcaDialVoltage | setParamVcaCutoffEnabled =>
    exact ⟨_, rfl, .inr (.inr (.inl ⟨_, _, rfl, fun u => ⟨rfl, rfl, rfl, rfl, rfl, rfl, rfl⟩⟩))⟩
  case resyncVca =>
    refine ⟨_, rfl, .inr (.inr (.inl ⟨_, _, rfl, fun u => ?_⟩))⟩
    split <;> exact ⟨rfl, rfl, rfl, rfl, rfl, rfl, rfl⟩
  case setDormantVca =>
    refine ⟨_, rfl, .inr (.inr (.inl ⟨_, _, rfl, fun u => ?_⟩))⟩
    dsimp only
    split <;> exact ⟨rfl, rfl, rfl, rfl, rfl, rfl, rfl⟩
  case setParamTonePosition =>
    exact ⟨_, rfl, .inr (.inr (.inr (.inl ⟨_, _, rfl, fun u => ⟨rfl, rfl, rfl, rfl, rfl, rfl, rfl⟩⟩)))⟩
  case resyncTone =>
    refine ⟨_, rfl, .inr (.inr (.inr (.inl ⟨_, _, rfl, fun u => ?_⟩)))⟩
    split
    · exact ⟨rfl, rfl, rfl, rfl, rfl, rfl, by simp⟩
    · exact ⟨rfl, rfl, rfl, rfl, rfl, rfl, rfl⟩
  case setDormantTone =>
    refine ⟨_, rfl, .inr (.inr (.inr (.inl ⟨_, _, rfl, fun u => ?_⟩)))⟩
    dsimp only
    split
    · exact ⟨rfl, rfl, rfl, rfl, rfl, rfl, by simp⟩
    · exact ⟨rfl, rfl, rfl, rfl, rfl, rfl, rfl⟩
  case setParamThermEnable =>
    exact ⟨_, rfl, .inr (.inr (.inr (.inr (.inl ⟨_, _, rfl, fun u => ⟨rfl, rfl, rfl, rfl, rfl⟩⟩))))⟩
  case resyncTherm =>
    refine ⟨_, rfl, .inr (.inr (.inr (.inr (.inl ⟨_, _, rfl, fun u => ?_⟩))))⟩
    split <;> exact ⟨rfl, rfl, rfl, rfl, rfl⟩
  case setParamNoiseColour | setParamNoiseLevel | setParamNoiseBypass =>
    exact ⟨_, rfl, .inr (.inr (.inr (.inr (.inr (.inl ⟨_, _, rfl, fun u => ⟨rfl, rfl, rfl, rfl, rfl, rfl, rfl, rfl, rfl⟩⟩)))))⟩
  case resyncNoise =>
    refine ⟨_, rfl, .inr (.inr (.inr (.inr (.inr (.inl ⟨_, _, rfl, fun u => ?_⟩)))))⟩
    split <;> exact ⟨rfl, rfl, rfl, rfl, rfl, rfl, rfl, rfl, rfl⟩
  case setDormantNoise =>
    refine ⟨_, rfl, .inr (.inr (.inr (.inr (.inr (.inl ⟨_, _, rfl, fun u => ?_⟩)))))⟩
    dsimp only
    split <;> exact ⟨rfl, rfl, rfl, rfl, rfl, rfl, rfl, rfl, rfl⟩
  case setParamScopeTriggerLevel | setParamScopeHysteresis | setTriggerLevelScope =>
    exact ⟨_, rfl, .inr (.inr (.inr (.inr (.inr (.inr (.inl ⟨_, _, rfl, fun u => ⟨rfl, rfl, rfl, rfl, rfl, rfl, fun _ _ h => h⟩⟩))))))⟩
  case setBufferSizeScope inst size =>
    exact ⟨_, rfl, .inr (.inr (.inr (.inr (.inr (.inr (.inl ⟨_, _, rfl, Scope.resize_keeps size⟩))))))⟩
  case stopBrcap =>
    refine ⟨_, rfl, .inr (.inr (.inr (.inr (.inr (.inr (.inr (.inl ⟨_, _, rfl, fun u =>
      ⟨rfl, ⟨rfl, rfl, rfl⟩, rfl, rfl, rfl, fun p hc h => ?_⟩⟩)))))))⟩
    simp only [bridgeCfgOk, Bool.and_eq_true, decide_eq_true_eq] at hc
    exact ⟨Link.stop_ok h.1, h.2.1, show 0 < u.cfg.chunkFrames by omega, by simp, h.2.2.2.2⟩
  case setBufferSizeBrcap =>
    exact ⟨_, rfl, .inr (.inr (.inr (.inr (.inr (.inr (.inr (.inl ⟨_, _, rfl, fun u =>
      ⟨rfl, ⟨rfl, rfl, rfl⟩, rfl, rfl, rfl, fun _ hc h => ⟨Link.setCapacity_ok hc h.1 _, h.2⟩⟩⟩)))))))⟩
  case startBrcap => exact ⟨_, rfl, .inr (.inr (.inr (.inr (.inr (.inr (.inr (.inl ⟨_, _, rfl, Brcap.start_keeps _⟩)))))))⟩
  case stopBrplay =>
    exact ⟨_, rfl, .inr (.inr (.inr (.inr (.inr (.inr (.inr (.inr ⟨_, _, rfl, fun u =>
      ⟨rfl, ⟨rfl, rfl, rfl⟩, rfl, rfl, fun p q hc h => ⟨Link.stop_ok h.1, h.2⟩⟩⟩)))))))⟩
  case setBufferSizeBrplay =>
    exact ⟨_, rfl, .inr (.inr (.inr (.inr (.inr (.inr (.inr (.inr ⟨_, _, rfl, fun u =>
      ⟨rfl, ⟨rfl, rfl, rfl⟩, rfl, rfl, fun _ _ hc h => ⟨Link.setCapacity_ok hc h.1 _, h.2⟩⟩⟩)))))))⟩
  case startBrplay => exact ⟨_, rfl, .inr (.inr (.inr (.inr (.inr (.inr (.inr (.inr ⟨_, _, rfl, Brplay.start_keeps _⟩)))))))⟩
  case pushChunkBrplay => exact ⟨_, rfl, .inr (.inr (.inr (.inr (.inr (.inr (.inr (.inr ⟨_, _, rfl, Brplay.push_keeps _ _⟩)))))))⟩
  case captureOutbound | eventOutbound | chunkOutbound => exact ⟨_, rfl, .inl rfl⟩

/-! ### Steps -/

/-- The five kinds of move. -/
theorem step_cases {s t : State} (h : step s = .next t) : s.configOk = true ∧
    ((∃ p q, s.phase = .boundary ∧ s.inQueue = p :: q ∧
        ((∃ i, decode p = .ok i ∧ exec i (s.setInQueue q) = .next t) ∨ (∃ r, decode p = .error r) ∧ t = s.setInQueue q)) ∨
      (s.phase = .boundary ∧ s.inQueue = [] ∧ t = beginBlock s) ∨ (∃ i, s.phase = .frame i ∧ t = frameStep i s) ∨
      (s.phase = .bridges ∧ bridgeStep s = some t) ∨ (s.phase = .endOfBlock ∧ t = endBlock s)) := by
  simp only [step, checkedMove] at h
  split at h
  · rename_i hc
    refine ⟨hc, ?_⟩
    simp only [renderMove] at h
    split at h
    · rename_i hp
      split at h
      · rename_i p q hq
        refine .inl ⟨p, q, hp, hq, ?_⟩
        simp only [applyPacket] at h
        split at h
        · exact .inl ⟨_, ‹_›, h⟩
        · exact .inr ⟨⟨_, ‹_›⟩, (Host.Outcome.next.inj h).symm⟩
      · exact .inr (.inl ⟨hp, ‹_›, (Host.Outcome.next.inj h).symm⟩)
    · exact .inr (.inr (.inl ⟨_, ‹_›, (Host.Outcome.next.inj h).symm⟩))
    · split at h
      · exact .inr (.inr (.inr (.inl ⟨‹_›, by rw [‹bridgeStep s = _›, Host.Outcome.next.inj h]⟩)))
      · cases h
    · exact .inr (.inr (.inr (.inr ⟨‹_›, (Host.Outcome.next.inj h).symm⟩)))
  · cases h

theorem step_command {s : State} {p : Packet} {q : List Packet} (hc : s.configOk = true) (hp : s.phase = .boundary)
    (hq : s.inQueue = p :: q) : step s = applyPacket p (s.setInQueue q) := by
  simp [step, checkedMove, renderMove, hc, hp, hq]

theorem step_begin {s : State} (hc : s.configOk = true) (hp : s.phase = .boundary) (hq : s.inQueue = []) :
    step s = .next (beginBlock s) := by
  simp [step, checkedMove, renderMove, hc, hp, hq]

theorem step_frame {s : State} {i : Nat} (hc : s.configOk = true) (hp : s.phase = .frame i) : step s = .next (frameStep i s) := by
  simp [step, checkedMove, renderMove, hc, hp]

theorem step_bridges {s t : State} (hc : s.configOk = true) (hp : s.phase = .bridges) (h : bridgeStep s = some t) :
    step s = .next t := by
  simp [step, checkedMove, renderMove, hc, hp, h]

theorem step_end {s : State} (hc : s.configOk = true) (hp : s.phase = .endOfBlock) : step s = .next (endBlock s) := by
  simp [step, checkedMove, renderMove, hc, hp]

/-- A packet always answers a next state that keeps what commands keep. -/
theorem applyPacket_next (p : Packet) (s : State) : ∃ t, applyPacket p s = .next t := by
  simp only [applyPacket]
  split
  · obtain ⟨t, h, _⟩ := exec_cases ‹Instr› s
    exact ⟨t, h⟩
  · exact ⟨s, rfl⟩

/-! ### Every element's result -/

/-- The results, one for one. -/
theorem mapAll_spec {α β : Type} {f : α → Option β} {l : List α} {l' : List β} (h : mapAll f l = some l') :
    l'.length = l.length ∧ ∀ (k : Nat) (u : α), l[k]? = some u → ∃ v : β, l'[k]? = some v ∧ f u = some v := by
  induction l generalizing l' with
  | nil => cases h; simp
  | cons a as ih =>
    simp only [mapAll, Option.bind_eq_some_iff, Option.map_eq_some_iff] at h
    obtain ⟨b, hb, bs, hbs, rfl⟩ := h
    obtain ⟨hl, hk⟩ := ih hbs
    refine ⟨by simp [hl], fun k u hu => ?_⟩
    cases k with
    | zero => simp at hu; subst hu; exact ⟨b, rfl, hb⟩
    | succ k => simp at hu; simpa using hk k u hu

theorem mapAll_mem {α β : Type} {f : α → Option β} {l : List α} {l' : List β} (h : mapAll f l = some l') :
    ∀ v ∈ l', ∃ u ∈ l, f u = some v := by
  induction l generalizing l' with
  | nil => cases h; simp
  | cons a as ih =>
    simp only [mapAll, Option.bind_eq_some_iff, Option.map_eq_some_iff] at h
    obtain ⟨b, hb, bs, hbs, rfl⟩ := h
    intro v hv
    simp only [List.mem_cons] at hv ⊢
    rcases hv with rfl | hv
    · exact ⟨a, .inl rfl, hb⟩
    · obtain ⟨u, hu, e⟩ := ih hbs v hv
      exact ⟨u, .inr hu, e⟩

theorem mapAll_some {α β : Type} {f : α → Option β} {l : List α} (h : ∀ u ∈ l, ∃ v, f u = some v) : ∃ l', mapAll f l = some l' := by
  induction l with
  | nil => exact ⟨[], rfl⟩
  | cons a as ih =>
    obtain ⟨b, hb⟩ := h a (by simp)
    obtain ⟨bs, hbs⟩ := ih fun u hu => h u (by simp [hu])
    exact ⟨b :: bs, by simp [mapAll, hb, hbs]⟩

/-- A property every element keeps. -/
theorem mapAll_map {α β γ : Type} {f : α → Option β} {l : List α} {l' : List β} (g : α → γ) (g' : β → γ)
    (h : mapAll f l = some l') (hg : ∀ u v, u ∈ l → f u = some v → g' v = g u) : l'.map g' = l.map g := by
  induction l generalizing l' with
  | nil => cases h; rfl
  | cons a as ih =>
    simp only [mapAll, Option.bind_eq_some_iff, Option.map_eq_some_iff] at h
    obtain ⟨b, hb, bs, hbs, rfl⟩ := h
    simp [hg a b (by simp) hb, ih hbs fun u v hu => hg u v (by simp [hu])]

/-- What the bridges' move is made of. -/
theorem bridgeStep_spec {s t : State} (h : bridgeStep s = some t) :
    t = { s with phase := .endOfBlock, brcap := t.brcap, brplay := t.brplay } ∧
      mapAll (brcapBlock s.cfg) s.brcap = some t.brcap ∧ mapAll (brplayBlock s.cfg) s.brplay = some t.brplay := by
  simp only [bridgeStep, Option.bind_eq_some_iff, Option.map_eq_some_iff] at h
  obtain ⟨c, hc, p, hp, rfl⟩ := h
  exact ⟨rfl, hc, hp⟩

/-! ### The configuration -/

/-- The configuration check reads nothing but the configuration. -/
theorem configOk_eq (s : State) :
    s.configOk =
      (blockCfgOk s.cfg &&
        (decide ((s.osc.map Osc.cfg).length ≤ 15) && decide ((s.vca.map Vca.cfg).length ≤ 15) &&
          decide ((s.tone.map Tone.cfg).length ≤ 15) && decide ((s.therm.map Therm.cfg).length ≤ 15) &&
          decide ((s.noise.map Noise.cfg).length ≤ 15) && decide ((s.scope.map Scope.cfg).length ≤ 15) &&
          decide ((s.brcap.map Brcap.cfg).length ≤ 15) && decide ((s.brplay.map Brplay.cfg).length ≤ 15)) &&
        (s.osc.map Osc.cfg).all oscCfgOk && (s.vca.map Vca.cfg).all vcaCfgOk && (s.tone.map Tone.cfg).all toneCfgOk &&
        (s.therm.map Therm.cfg).all thermCfgOk && (s.noise.map Noise.cfg).all noiseCfgOk &&
        (s.scope.map Scope.cfg).all scopeCfgOk && (s.brcap.map Brcap.cfg).all bridgeCfgOk &&
        (s.brplay.map Brplay.cfg).all bridgeCfgOk) := by
  simp only [State.configOk, instancesOk, List.length_map, List.all_map]
  rfl

theorem configOk_of {s t : State} (hc : s.configOk = true) (h0 : t.cfg = s.cfg) (h1 : t.osc.map Osc.cfg = s.osc.map Osc.cfg)
    (h2 : t.vca.map Vca.cfg = s.vca.map Vca.cfg) (h3 : t.tone.map Tone.cfg = s.tone.map Tone.cfg)
    (h4 : t.therm.map Therm.cfg = s.therm.map Therm.cfg) (h5 : t.noise.map Noise.cfg = s.noise.map Noise.cfg)
    (h6 : t.scope.map Scope.cfg = s.scope.map Scope.cfg) (h7 : t.brcap.map Brcap.cfg = s.brcap.map Brcap.cfg)
    (h8 : t.brplay.map Brplay.cfg = s.brplay.map Brplay.cfg) : t.configOk = true := by
  rw [configOk_eq] at hc ⊢
  rw [h0, h1, h2, h3, h4, h5, h6, h7, h8]
  exact hc

/-- What a legal configuration says of each part. -/
theorem configOk_parts {s : State} (h : s.configOk = true) :
    1 ≤ s.cfg.q ∧ (∀ u ∈ s.osc, oscCfgOk u.cfg = true) ∧ (∀ u ∈ s.vca, vcaCfgOk u.cfg = true) ∧
      (∀ u ∈ s.tone, toneCfgOk u.cfg = true) ∧ (∀ u ∈ s.scope, scopeCfgOk u.cfg = true) ∧
      (∀ u ∈ s.brcap, bridgeCfgOk u.cfg = true) ∧ (∀ u ∈ s.brplay, bridgeCfgOk u.cfg = true) ∧ s.scope.length ≤ 15 ∧
      s.brcap.length ≤ 15 ∧ (∀ u ∈ s.therm, thermCfgOk u.cfg = true) ∧ ∀ u ∈ s.noise, noiseCfgOk u.cfg = true := by
  simp only [State.configOk, blockCfgOk, instancesOk, Bool.and_eq_true, decide_eq_true_eq, List.all_eq_true] at h
  tauto

end Sys2Proof.Machine
end

