-- ==== Sys2Proof/Laws/Bridge.lean ====
section
/-!
SUPPORT. What the bridges' block steps can do, said once: the frames stored and loaded, the region kept in form, and the playback
outputs; and the arithmetic of the guard slot.
-/

namespace Sys2Proof.Machine

/-! ### Offsets -/

theorem sampleOffset_succ (ch f c : Nat) : sampleOffset ch f (c + 1) = sampleOffset ch f c + 4 := by unfold sampleOffset; omega

theorem sampleOffset_add (ch f c : Nat) : sampleOffset ch f c = sampleOffset ch f 0 + 4 * c := by unfold sampleOffset; omega

theorem sampleOffset_next (ch f : Nat) : sampleOffset ch f ch = sampleOffset ch (f + 1) 0 := by
  unfold sampleOffset; rw [show (f + 1) * ch = f * ch + ch from Nat.succ_mul f ch]; rfl

theorem sampleOffset_mono {ch f f' : Nat} (h : f ≤ f') : sampleOffset ch f 0 ≤ sampleOffset ch f' 0 := by
  have := Nat.mul_le_mul_right ch h
  unfold sampleOffset
  omega

/-- A slot's bytes are in the region. -/
theorem sampleOffset_le {cap ch f : Nat} (h : f < cap) : sampleOffset ch f ch ≤ regionBytes cap ch := by
  rw [sampleOffset_next]
  have : (f + 1) * ch ≤ cap * ch := Nat.mul_le_mul_right ch h
  unfold sampleOffset regionBytes
  rw [Nat.mul_assoc]
  omega

/-- Different slots do not overlap. -/
theorem sampleOffset_apart {ch f f' : Nat} (h : f ≠ f') :
    sampleOffset ch f ch ≤ sampleOffset ch f' 0 ∨ sampleOffset ch f' ch ≤ sampleOffset ch f 0 := by
  rcases Nat.lt_or_gt_of_ne h with h | h
  · exact .inl (sampleOffset_next ch f ▸ sampleOffset_mono h)
  · exact .inr (sampleOffset_next ch f' ▸ sampleOffset_mono h)

/-- Fewer than `cap` steps do not come back to the same slot. -/
theorem slot_ne {cap w k : Nat} (hk : 1 ≤ k) (hc : k < cap) : (w + k) % cap ≠ w % cap := by
  intro h
  have h1 : (w + k) ≡ w + 0 [MOD cap] := h
  have h2 := Nat.ModEq.add_left_cancel' w h1
  rw [Nat.ModEq, Nat.mod_eq_of_lt hc, Nat.zero_mod] at h2
  omega

/-- A field depends on its four bytes alone. -/
theorem Region.load32_congr {e : Endian} {o : Nat} {r r' : Region} (hs : r'.size = r.size)
    (h : ∀ j, o ≤ j → j < o + 4 → r'.mem.read j = r.mem.read j) : r'.load32 e o = r.load32 e o := by
  unfold Region.load32
  rw [hs, h o (by omega) (by omega), h (o + 1) (by omega) (by omega), h (o + 2) (by omega) (by omega), h (o + 3) (by omega) (by omega)]

/-- A field loads exactly when its four bytes hold it in the region's order (20_memory.md R104). -/
theorem Region.load32_iff {e : Endian} {o : Nat} {v : BitVec 32} {r : Region} : r.load32 e o = some v ↔ r.FieldAt e o v := by
  unfold Region.load32 Region.FieldAt
  by_cases h : o + 4 ≤ r.size
  · simp only [h, if_true, Option.some.injEq, true_and]
    cases e <;> simp only [fieldWord, word32_iff, List.cons.injEq, and_true]
    tauto
  · simp [h]

/-! ### Storing frames -/

theorem storeFrame_spec {dir : Nat} {e : Endian} {cap ch slot : Nat} (hs : slot < cap) (vs : Frame) (c : Nat) (l : Link) (r : Region)
    (hr : l.region = some r) (ho : r.Ok cap ch) (hc : c + vs.length ≤ ch) :
    ∃ r' x n, l.storeFrame dir e ch slot c vs =
        some { l with region := some r', order := { l.order with exposed := x }, races := n } ∧ r'.Ok cap ch ∧
      ((∀ i, i < vs.length → l.order.raced (sampleOffset ch slot (c + i)) = false) → n = l.races ∧
        (∀ k v, vs[k]? = some v → r'.load32 e (sampleOffset ch slot (c + k)) = some v) ∧
        ∀ o, o < sampleOffset ch slot c ∨ sampleOffset ch slot (c + vs.length) ≤ o → r'.mem.read o = r.mem.read o) := by
  induction vs generalizing c l r with
  | nil =>
    refine ⟨r, l.order.exposed, l.races, ?_, ho, fun _ => ⟨rfl, by simp, fun _ _ => rfl⟩⟩
    rw [Link.storeFrame, ← hr]
  | cons v vs ih =>
    simp only [List.length_cons] at hc
    have hin : sampleOffset ch slot c + 4 ≤ r.size := by
      have h1 := sampleOffset_le (ch := ch) hs
      have h2 := sampleOffset_add ch slot c
      have h3 := sampleOffset_add ch slot ch
      rw [ho.1]
      omega
    obtain ⟨w, x, n, r1, h1, h2, h3⟩ := Link.store32_spec (dir := dir) (e := e) (v := v) hr hin
    have ho1 := Region.ok_store32 ho h2
    obtain ⟨r', x', n', h4, h5, h6⟩ := ih (c + 1) { l with region := some r1, order := { l.order with exposed := x }, races := n } r1 rfl ho1 (by omega)
    refine ⟨r', x', n', by rw [Link.storeFrame, h1]; exact h4, h5, fun hq => ?_⟩
    obtain ⟨h7, h8, h9⟩ := h6 fun i hi => by
      have := hq (i + 1) (by simp only [List.length_cons]; omega)
      rwa [show c + (i + 1) = c + 1 + i by omega] at this
    obtain ⟨hw, hn⟩ := h3 (hq 0 (by simp))
    rw [hw] at h2
    have hso := sampleOffset_succ ch slot c
    have hspec := Region.store32_spec ho.2.1 h2
    refine ⟨h7.trans hn, fun k u hk => ?_, fun o hb => ?_⟩
    · cases k with
      | zero =>
        simp only [List.getElem?_cons_zero, Option.some.injEq] at hk
        rw [Nat.add_zero, ← hk, ← Region.load32_store32 ho.2.1 h2]
        exact Region.load32_congr (h5.1.trans ho1.1.symm) fun j _ hj => h9 j (.inl (by omega))
      | succ k =>
        simp only [List.getElem?_cons_succ] at hk
        have := h8 k u hk
        rwa [show c + 1 + k = c + (k + 1) by omega] at this
    · have e1 : sampleOffset ch slot (c + 1 + vs.length) = sampleOffset ch slot (c + (v :: vs).length) := by
        rw [List.length_cons]; congr 1; omega
      have e2 : sampleOffset ch slot (c + 1 + vs.length) = sampleOffset ch slot c + 4 + 4 * vs.length := by
        unfold sampleOffset; omega
      rw [h9 o (by omega), hspec.2.2.2.1 o, if_neg (by omega)]

theorem storeFrames_spec {dir : Nat} {e : Endian} {ch : Nat} (vs : List Frame) (w : Nat) (l : Link) (r : Region)
    (hr : l.region = some r) (ho : r.Ok l.cap ch) (hcap : 2 ≤ l.cap) (hlen : vs.length ≤ l.cap) (hch : ∀ v ∈ vs, v.length = ch) :
    ∃ r' x n, l.storeFrames dir e ch w vs =
        some { l with region := some r', order := { l.order with exposed := x }, races := n } ∧ r'.Ok l.cap ch ∧
      ((∀ f i, f < vs.length → i < ch → l.order.raced (sampleOffset ch ((w + f) % l.cap) i) = false) → n = l.races ∧
        (∀ (f c : Nat) (fr : Frame) (v : F32), vs[f]? = some fr → fr[c]? = some v →
          r'.load32 e (sampleOffset ch ((w + f) % l.cap) c) = some v) ∧
        ∀ o, (∀ f, f < vs.length → o < sampleOffset ch ((w + f) % l.cap) 0 ∨ sampleOffset ch ((w + f) % l.cap) ch ≤ o) →
          r'.mem.read o = r.mem.read o) := by
  induction vs generalizing w l r with
  | nil =>
    refine ⟨r, l.order.exposed, l.races, ?_, ho, fun _ => ⟨rfl, by simp, fun _ _ => rfl⟩⟩
    rw [Link.storeFrames, ← hr]
  | cons v vs ih =>
    simp only [List.length_cons] at hlen
    have hslot : ∀ k, k % l.cap < l.cap := fun k => Nat.mod_lt _ (by omega)
    have hv := hch v (by simp)
    obtain ⟨r1, x1, n1, h1, h2, h3⟩ := storeFrame_spec (dir := dir) (e := e) (hslot w) v 0 l r hr ho (by omega)
    obtain ⟨r', x', n', h4, h5, h6⟩ := ih (w + 1) { l with region := some r1, order := { l.order with exposed := x1 }, races := n1 } r1 rfl h2 hcap (by dsimp only; omega)
      fun x hx => hch x (by simp [hx])
    dsimp only at h4 h5 h6
    refine ⟨r', x', n', by rw [Link.storeFrames, h1]; exact h4, h5, fun hq => ?_⟩
    obtain ⟨h7, h8, h9⟩ := h6 fun f i hf hi => by
      have := hq (f + 1) i (by simp only [List.length_cons]; omega) hi
      rwa [show w + (f + 1) = w + 1 + f by omega] at this
    obtain ⟨a1, a2, a3⟩ := h3 fun i hi => by
      simpa using hq 0 i (by simp) (hv ▸ hi)
    rw [Nat.zero_add, hv] at a3
    refine ⟨h7.trans a1, fun f c fr x hf hx => ?_, fun o hb => ?_⟩
    · cases f with
      | zero =>
        simp only [List.getElem?_cons_zero, Option.some.injEq] at hf
        subst hf
        have hcl : c < ch := by
          rw [← hv]
          exact (List.getElem?_eq_some_iff.1 hx).1
        rw [Nat.add_zero, ← a2 c x hx, Nat.zero_add]
        refine Region.load32_congr (h5.1.trans h2.1.symm) fun j hj1 hj2 => h9 j fun g hg => ?_
        have hne : (w + 1 + g) % l.cap ≠ w % l.cap := by
          rw [show w + 1 + g = w + (g + 1) by omega]
          exact slot_ne (by omega) (by omega)
        have b1 := sampleOffset_add ch (w % l.cap) c
        have b2 := sampleOffset_add ch (w % l.cap) ch
        rcases sampleOffset_apart (ch := ch) hne with h | h <;> omega
      | succ f =>
        simp only [List.getElem?_cons_succ] at hf
        have := h8 f c fr x hf hx
        rwa [show w + 1 + f = w + (f + 1) by omega] at this
    · rw [h9 o fun f hf => ?_, a3 o (hb 0 (by simp))]
      have := hb (f + 1) (by simp; omega)
      rwa [show w + (f + 1) = w + 1 + f by omega] at this

/-! ### Loading frames -/

theorem loadFrame_spec {dir : Nat} {e : Endian} {cap ch slot : Nat} (hs : slot < cap) (k c : Nat) (l : Link) (r : Region)
    (hr : l.region = some r) (ho : r.Ok cap ch) (hc : c + k ≤ ch) :
    ∃ fr x n, l.loadFrame dir e ch slot k c = some (fr, { l with order := { l.order with exposed := x }, races := n }) ∧ fr.length = k ∧
      ((∀ i, i < k → l.order.raced (sampleOffset ch slot (c + i)) = false) → n = l.races ∧
        ∀ i, i < k → ∃ v, r.load32 e (sampleOffset ch slot (c + i)) = some v ∧ fr[i]? = some (san32 v)) := by
  induction k generalizing c l with
  | zero => exact ⟨[], l.order.exposed, l.races, rfl, rfl, fun _ => ⟨rfl, fun _ h => absurd h (Nat.not_lt_zero _)⟩⟩
  | succ k ih =>
    have hin : sampleOffset ch slot c + 4 ≤ r.size := by
      have h1 := sampleOffset_le (ch := ch) hs
      have h2 := sampleOffset_add ch slot c
      have h3 := sampleOffset_add ch slot ch
      rw [ho.1]
      omega
    obtain ⟨v, x, n, h1, h2⟩ := Link.load32_spec (dir := dir) (e := e) hr hin
    obtain ⟨fr, x', n', h3, h4, h5⟩ := ih (c + 1) { l with order := { l.order with exposed := x }, races := n } hr (by omega)
    refine ⟨san32 v :: fr, x', n', by rw [Link.loadFrame, h1]; simp [h3], by simp [h4], fun hq => ?_⟩
    obtain ⟨h6, h7⟩ := h5 fun i hi => by
      have := hq (i + 1) (by omega)
      rwa [show c + (i + 1) = c + 1 + i by omega] at this
    obtain ⟨h8, hn⟩ := h2 (hq 0 (by omega))
    refine ⟨h6.trans hn, fun i hi => ?_⟩
    cases i with
    | zero => exact ⟨v, h8, rfl⟩
    | succ i =>
      have := h7 i (by omega)
      rwa [show c + 1 + i = c + (i + 1) by omega] at this

theorem loadFrames_spec {dir : Nat} {e : Endian} {ch : Nat} (n w : Nat) (l : Link) (r : Region)
    (hr : l.region = some r) (ho : r.Ok l.cap ch) (hcap : 2 ≤ l.cap) :
    ∃ vs x k, l.loadFrames dir e ch n w = some (vs, { l with order := { l.order with exposed := x }, races := k }) ∧ vs.length = n ∧ (∀ v ∈ vs, v.length = ch) ∧
      ((∀ f c, f < n → c < ch → l.order.raced (sampleOffset ch ((w + f) % l.cap) c) = false) → k = l.races ∧ ∀ f c, f < n → c < ch →
        ∃ v fr, r.load32 e (sampleOffset ch ((w + f) % l.cap) c) = some v ∧ vs[f]? = some fr ∧ fr[c]? = some (san32 v)) := by
  induction n generalizing w l with
  | zero => exact ⟨[], l.order.exposed, l.races, rfl, rfl, by simp, fun _ => ⟨rfl, fun _ _ h => absurd h (Nat.not_lt_zero _)⟩⟩
  | succ n ih =>
    obtain ⟨fr, x1, n1, h1, h2, h3⟩ := loadFrame_spec (dir := dir) (e := e) (Nat.mod_lt w (show 0 < l.cap by omega)) ch 0 l r hr ho (by omega)
    obtain ⟨vs, x, k, h4, h5, h6, h7⟩ := ih (w + 1) { l with order := { l.order with exposed := x1 }, races := n1 } hr ho hcap
    dsimp only at h4 h7
    refine ⟨fr :: vs, x, k, by rw [Link.loadFrames, h1]; simp [h4], by simp [h5], ?_, fun hq => ?_⟩
    · intro v hv
      simp only [List.mem_cons] at hv
      rcases hv with rfl | hv
      · exact h2
      · exact h6 v hv
    · obtain ⟨h8, h9⟩ := h7 fun f c hf hc => by
        have := hq (f + 1) c (by omega) hc
        rwa [show w + (f + 1) = w + 1 + f by omega] at this
      obtain ⟨h10, h11⟩ := h3 fun i hi => by
        simpa using hq 0 i (by omega) hi
      refine ⟨h8.trans h10, fun f c hf hc => ?_⟩
      cases f with
      | zero =>
        obtain ⟨v, hv1, hv2⟩ := h11 c hc
        rw [Nat.zero_add] at hv1
        exact ⟨v, fr, hv1, rfl, hv2⟩
      | succ f =>
        have := h9 f c (by omega) hc
        rwa [show w + 1 + f = w + (f + 1) by omega] at this

/-! ### The guard slot (47_bridge.md R420, R421) -/

/-- `used` counts the frames from `r` up to `w`. -/
theorem usedFrames_spec {cap w r : Nat} (hw : w < cap) (hr : r < cap) :
    usedFrames cap w r = if r ≤ w then w - r else w + cap - r := by
  unfold usedFrames
  split
  · rw [Int.emod_eq_of_lt (by omega) (by omega)]
    omega
  · rw [← Int.add_emod_right, Int.emod_eq_of_lt (by omega) (by omega)]
    omega

theorem mod_cap {cap a : Nat} (h : a < 2 * cap) : a % cap = if a < cap then a else a - cap := by
  split
  · exact Nat.mod_eq_of_lt ‹_›
  · rw [Nat.mod_eq_sub_mod (by omega), Nat.mod_eq_of_lt (by omega)]

theorem freeFrames_lt {cap : Nat} (h : 2 ≤ cap) (w r : Nat) : freeFrames cap w r < cap := by
  have := usedFrames_lt h w r
  unfold freeFrames
  omega

/-! ### The block steps -/

/-- The fallback capture's loop: whole chunks leave in order, less than a chunk stays, no frame is lost. -/
theorem emitChunks_spec {n : Nat} (hn : 1 ≤ n) (fuel : Nat) (staging : List Frame) (hf : staging.length ≤ fuel) :
    (emitChunks n fuel staging).2.length < n ∧ (∀ c ∈ (emitChunks n fuel staging).1, c.length = n) ∧
      (emitChunks n fuel staging).1.flatten ++ (emitChunks n fuel staging).2 = staging := by
  induction fuel generalizing staging with
  | zero =>
    have : staging = [] := List.length_eq_zero_iff.1 (by omega)
    subst this
    exact ⟨hn, by simp [emitChunks], rfl⟩
  | succ fuel ih =>
    rw [emitChunks]
    split
    · rename_i h
      obtain ⟨h1, h2, h3⟩ := ih (staging.drop n) (by simp; omega)
      refine ⟨h1, ?_, ?_⟩
      · intro c hc
        simp only [List.mem_cons] at hc
        rcases hc with rfl | hc
        · simp; omega
        · exact h2 c hc
      · dsimp only
        rw [List.flatten_cons, List.append_assoc, h3, List.take_append_drop]
    · exact ⟨by dsimp only; omega, by simp, rfl⟩

theorem inputFrame_length (ch : Nat) (input : List Samples) (f : Nat) : (inputFrame ch input f).length = ch := by simp [inputFrame]

theorem count_zero (k : EventCode) (c : Common) : c.count k 0 = c := by
  cases c with
  | mk f p r d => cases k <;> simp [Common.count, Counts.set, Counts.get]

/-- One output array per channel, one sample per frame. -/
theorem channelsOf_spec (ch : Nat) (frames : List Frame) :
    (channelsOf ch frames).length = ch ∧ (∀ a ∈ channelsOf ch frames, a.length = frames.length) ∧
      ∀ c f : Nat, c < ch → ((channelsOf ch frames).getD c [])[f]? = frames[f]?.map fun fr : Frame => fr.getD c 0 := by
  refine ⟨by simp [channelsOf], ?_, fun c f hc => by simp [channelsOf, hc]⟩
  intro a ha
  simp only [channelsOf, List.mem_map] at ha
  obtain ⟨c, _, rfl⟩ := ha
  simp

/-- What a block of playback leaves. -/
theorem play_spec (g : BlockCfg) (played : List Frame) (u : Brplay) (hp : played.length ≤ g.q) :
    (u.play g played).cfg = u.cfg ∧ (u.play g played).link = u.link ∧ (u.play g played).rLocal = u.rLocal ∧
      (u.play g played).fifo = u.fifo ∧ (u.play g played).lastFrame = played.getLastD u.lastFrame ∧
      (u.play g played).common = u.common.count .underflow (g.q - played.length) ∧ (u.play g played).out.length = u.cfg.ch ∧
      ∀ a ∈ (u.play g played).out, a.length = g.q := by
  refine ⟨rfl, rfl, rfl, rfl, rfl, ?_, (channelsOf_spec ..).1, fun a ha => ?_⟩
  · unfold Brplay.play
    dsimp only
    split
    · rfl
    · rw [show g.q - played.length = 0 by omega, count_zero]
  · have := (channelsOf_spec ..).2.1 a ha
    simp only [List.length_append, List.length_replicate] at this
    omega

theorem san32_frame_length (fr : Frame) : (fr.map san32).length = fr.length := List.length_map _

/-! ### What the block steps leave alone, in any state -/

/-- A link that differs in its region, what the block has acquired, accessed and released, and its race counter alone. -/
abbrev Link.SameBut (l l' : Link) : Prop :=
  l' =
    { l with
      region := l'.region
      order := { l.order with released := l'.order.released, exposed := l'.order.exposed, foreign := l'.order.foreign }
      races := l'.races }

theorem Link.SameBut.trans {a b c : Link} (h : a.SameBut b) (h' : b.SameBut c) : a.SameBut c := by
  unfold Link.SameBut at *
  rw [h', h]

theorem load32_same {dir : Nat} {e : Endian} {o : Nat} {l : Link} {r : BitVec 32 × Link} (h : l.load32 dir e o = some r) :
    l.SameBut r.2 := by
  unfold Link.load32 at h
  split at h
  · cases h
  · split at h
    · cases h
    · rw [Order.read_eq] at h
      split at h <;> cases h <;> rfl

theorem store32_same {dir : Nat} {e : Endian} {o : Nat} {v : BitVec 32} {l l' : Link} (h : l.store32 dir e o v = some l') :
    l.SameBut l' := by
  unfold Link.store32 at h
  split at h
  · cases h
  · split at h
    all_goals
      obtain ⟨r', _, rfl⟩ := Option.map_eq_some_iff.1 h
      rfl

theorem atomicLoad_same {dir : Nat} {e : Endian} {o : Nat} {l : Link} {r : BitVec 32 × Link} (h : l.atomicLoad dir e o = some r) :
    l.SameBut r.2 := by
  unfold Link.atomicLoad at h
  rw [Order.acquire_eq] at h
  exact Link.SameBut.trans (b := { l with order := { l.order with released := (l.order.acquire o).released } }) rfl (load32_same h)

theorem atomicStore_same {dir : Nat} {e : Endian} {o : Nat} {v : BitVec 32} {l l' : Link} (h : l.atomicStore dir e o v = some l') :
    l.SameBut l' :=
  Link.SameBut.trans (b := { l with order := l.order.release o }) rfl (store32_same h)

theorem storeFrame_same {dir : Nat} {e : Endian} {ch slot : Nat} (vs : Frame) {c : Nat} {l l' : Link}
    (h : l.storeFrame dir e ch slot c vs = some l') : l.SameBut l' := by
  induction vs generalizing c l with
  | nil => cases h; rfl
  | cons v vs ih =>
    obtain ⟨m, h1, h2⟩ := Option.bind_eq_some_iff.1 h
    exact (store32_same h1).trans (ih h2)

theorem storeFrames_same {dir : Nat} {e : Endian} {ch : Nat} (vs : List Frame) {w : Nat} {l l' : Link}
    (h : l.storeFrames dir e ch w vs = some l') : l.SameBut l' := by
  induction vs generalizing w l with
  | nil => cases h; rfl
  | cons v vs ih =>
    obtain ⟨m, h1, h2⟩ := Option.bind_eq_some_iff.1 h
    exact (storeFrame_same v h1).trans (ih h2)

theorem loadFrame_same {dir : Nat} {e : Endian} {ch slot : Nat} (k : Nat) {c : Nat} {l : Link} {r : Frame × Link}
    (h : l.loadFrame dir e ch slot k c = some r) : l.SameBut r.2 := by
  induction k generalizing c l r with
  | zero => cases h; rfl
  | succ k ih =>
    obtain ⟨m, h1, h2⟩ := Option.bind_eq_some_iff.1 h
    obtain ⟨x, h3, rfl⟩ := Option.map_eq_some_iff.1 h2
    exact (load32_same h1).trans (ih (r := x) h3)

theorem loadFrames_same {dir : Nat} {e : Endian} {ch : Nat} (n : Nat) {w : Nat} {l : Link} {r : List Frame × Link}
    (h : l.loadFrames dir e ch n w = some r) : l.SameBut r.2 := by
  induction n generalizing w l r with
  | zero => cases h; rfl
  | succ n ih =>
    obtain ⟨m, h1, h2⟩ := Option.bind_eq_some_iff.1 h
    obtain ⟨x, h3, rfl⟩ := Option.map_eq_some_iff.1 h2
    exact (loadFrame_same ch h1).trans (ih (r := x) h3)

theorem brcapBlock_same {g : BlockCfg} {u v : Brcap} (h : brcapBlock g u = some v) :
    v.cfg = u.cfg ∧ u.common.CommandKeeps v.common ∧ v.input = u.input ∧ u.link.SameBut v.link := by
  unfold brcapBlock at h
  split at h
  · cases h
    exact ⟨rfl, ⟨rfl, rfl, rfl⟩, rfl, rfl⟩
  · split at h
    · obtain ⟨a, h1, h⟩ := Option.bind_eq_some_iff.1 h
      obtain ⟨b, h2, h⟩ := Option.bind_eq_some_iff.1 h
      obtain ⟨c, h3, rfl⟩ := Option.map_eq_some_iff.1 h
      refine ⟨rfl, ?_, rfl, (atomicLoad_same h1).trans ((storeFrames_same _ h2).trans (atomicStore_same h3))⟩
      dsimp only
      split <;> exact ⟨rfl, rfl, rfl⟩
    · cases h
      exact ⟨rfl, ⟨rfl, rfl, rfl⟩, rfl, rfl⟩

theorem play_same (g : BlockCfg) (played : List Frame) (u : Brplay) :
    (u.play g played).cfg = u.cfg ∧ u.common.CommandKeeps (u.play g played).common := by
  refine ⟨rfl, ?_⟩
  unfold Brplay.play
  dsimp only
  split <;> exact ⟨rfl, rfl, rfl⟩

theorem brplayBlock_same {g : BlockCfg} {u v : Brplay} (h : brplayBlock g u = some v) :
    v.cfg = u.cfg ∧ u.common.CommandKeeps v.common ∧ u.link.SameBut v.link := by
  unfold brplayBlock at h
  split at h
  · cases h
    exact ⟨rfl, ⟨rfl, rfl, rfl⟩, rfl⟩
  · split at h
    · obtain ⟨a, h1, h⟩ := Option.bind_eq_some_iff.1 h
      obtain ⟨b, h2, h⟩ := Option.bind_eq_some_iff.1 h
      obtain ⟨c, h3, rfl⟩ := Option.map_eq_some_iff.1 h
      exact ⟨rfl, (play_same ..).2, (atomicLoad_same h1).trans ((loadFrames_same _ h2).trans (atomicStore_same h3))⟩
    · cases h
      exact ⟨rfl, (play_same ..).2, rfl⟩

/-- BRCAP's block step answers from every state in range, and keeps the ranges. -/
theorem brcapBlock_ok {g : BlockCfg} {u : Brcap} (hc : bridgeCfgOk u.cfg = true) (h : u.Ok .bridges) :
    ∃ v, brcapBlock g u = some v ∧ v.cfg = u.cfg ∧ u.common.CommandKeeps v.common ∧ v.Ok .endOfBlock ∧
      u.link.SameBut v.link := by
  simp only [bridgeCfgOk, Bool.and_eq_true, decide_eq_true_eq] at hc
  obtain ⟨hl, hw, hs, hsc, hm, _⟩ := h
  have hcap := hl.1
  unfold brcapBlock
  split
  · exact ⟨u, rfl, rfl, ⟨rfl, rfl, rfl⟩, ⟨hl, hw, hs, hsc, hm, by simp⟩, rfl⟩
  · rename_i hr
    split
    · rename_i hmode
      have hrun : u.link.run = .running := by
        cases h : u.link.run <;> simp_all
      obtain ⟨r, hreg⟩ := Option.isSome_iff_exists.1 (hl.2.2.2.2.2.2.1 hrun hmode)
      have hrok : r.Ok u.link.cap u.cfg.ch := hl.2.2.2.2.2.2.2 r (by simp [hreg])
      have hsz : 8 ≤ r.size := by rw [hrok.1]; unfold regionBytes; omega
      obtain ⟨v, a, x, n, h1, _⟩ := Link.atomicLoad_spec (dir := captureDir) (e := g.endian) (o := readIndexOffset) hreg (by simp [readIndexOffset]; omega)
      simp only [brcapShared, h1, Option.bind_some]
      obtain ⟨r1, x1, n1, h2, h3, _⟩ := storeFrames_spec (dir := captureDir) (e := g.endian) (ch := u.cfg.ch)
        ((List.range (min g.q (freeFrames u.link.cap u.wLocal (slotOf u.link.cap v)))).map (inputFrame u.cfg.ch u.input)) u.wLocal
        { u.link with order := { u.link.order with released := a, exposed := x }, races := n } r hreg hrok hcap (by
          simp; right; exact (freeFrames_lt hcap _ _).le) (by
          intro v hv; simp only [List.mem_map] at hv; obtain ⟨f, _, rfl⟩ := hv; exact inputFrame_length ..)
      simp only [h2, Option.bind_some]
      obtain ⟨w, x2, n2, r2, h4, h5, _⟩ := Link.atomicStore_spec (dir := captureDir) (e := g.endian) (o := writeIndexOffset) (v := BitVec.ofNat 32 ((u.wLocal + min g.q (freeFrames u.link.cap u.wLocal (slotOf u.link.cap v))) % u.link.cap)) (l := { u.link with region := some r1, order := { u.link.order with released := a, exposed := x1 }, races := n1 }) (r := r1) rfl (by have := h3.1; simp only at this; rw [this]; simp [writeIndexOffset, regionBytes]; omega)
      rw [h4]
      refine ⟨_, rfl, rfl, ?_, ?_, rfl⟩
      · dsimp only; split <;> exact ⟨rfl, rfl, rfl⟩
      · refine ⟨?_, Nat.mod_lt _ (by omega), hs, hsc, hm, by simp⟩
        obtain ⟨a1, a2, a3, a4, a5, a6, a7, a8⟩ := hl
        refine ⟨a1, a2, a3, a4, a5, ?_, ?_, ?_⟩
        · intro h; exact absurd hmode (by dsimp only at h; rw [h]; decide)
        · intro _ _; rfl
        · simp; exact Region.ok_store32 h3 h5
    · refine ⟨_, rfl, rfl, ⟨rfl, rfl, rfl⟩, ?_, rfl⟩
      have hall : ∀ f ∈ u.staging ++ (List.range g.q).map (inputFrame u.cfg.ch u.input), f.length = u.cfg.ch := by
        intro f hf
        simp only [List.mem_append, List.mem_map] at hf
        rcases hf with hf | ⟨k, _, rfl⟩
        · exact hsc f hf
        · exact inputFrame_length ..
      obtain ⟨e1, e2, e3⟩ := emitChunks_spec (n := u.cfg.chunkFrames) (by omega) _ (u.staging ++ (List.range g.q).map (inputFrame u.cfg.ch u.input)) (le_refl _)
      refine ⟨hl, hw, e1, ?_, ?_, by simp⟩
      · intro f hf
        exact hall f (by rw [← e3]; exact List.mem_append_right _ hf)
      · intro fs hfs
        simp only [brcapFallback, List.mem_append] at hfs
        rcases hfs with hfs | hfs
        · exact hm fs hfs
        · refine ⟨e2 fs hfs, fun f hf => hall f ?_⟩
          rw [← e3]
          exact List.mem_append_left _ (List.mem_flatten.2 ⟨fs, hfs, hf⟩)

theorem getLastD_mem {α : Type} (l : List α) (d : α) : l.getLastD d = d ∨ l.getLastD d ∈ l := by
  have := List.getLastD_mem_cons (l := l) (a := d)
  simpa [List.mem_cons] using this

/-- BRPLAY's block step answers from every state in range, and keeps the ranges. -/
theorem brplayBlock_ok {g : BlockCfg} {u : Brplay} (h : u.Ok .bridges g.q) :
    ∃ v, brplayBlock g u = some v ∧ v.cfg = u.cfg ∧ u.common.CommandKeeps v.common ∧ v.Ok .endOfBlock g.q ∧
      u.link.SameBut v.link := by
  obtain ⟨hl, hr, hf, hfc, hlf, ho, hoc⟩ := h
  have hcap := hl.1
  unfold brplayBlock
  split
  · refine ⟨_, rfl, rfl, ⟨rfl, rfl, rfl⟩, ⟨hl, hr, hf, hfc, hlf, by simp [Brplay.silent], ?_⟩, rfl⟩
    intro a ha
    simp [Brplay.silent] at ha
    simp [playCountOk, playCounts, ha]
  · rename_i hr'
    split
    · rename_i hmode
      have hrun : u.link.run = .running := by
        cases h : u.link.run <;> simp_all
      obtain ⟨r, hreg⟩ := Option.isSome_iff_exists.1 (hl.2.2.2.2.2.2.1 hrun hmode)
      have hrok : r.Ok u.link.cap u.cfg.ch := hl.2.2.2.2.2.2.2 r (by simp [hreg])
      have hsz : 8 ≤ r.size := by rw [hrok.1]; unfold regionBytes; omega
      obtain ⟨v, a, x, n, h1, _⟩ := Link.atomicLoad_spec (dir := playDir) (e := g.endian) (o := writeIndexOffset) hreg (by simp [writeIndexOffset]; omega)
      simp only [brplayShared, h1, Option.bind_some]
      obtain ⟨vs, x1, k, h2, h3, h3', _⟩ := loadFrames_spec (dir := playDir) (e := g.endian) (ch := u.cfg.ch)
        (min g.q (usedFrames u.link.cap (slotOf u.link.cap v) u.rLocal)) u.rLocal
        { u.link with order := { u.link.order with released := a, exposed := x }, races := n } r hreg hrok hcap 
      simp only [h2, Option.bind_some]
      obtain ⟨w, x2, n2, r2, h4, h5, _⟩ := Link.atomicStore_spec (dir := playDir) (e := g.endian) (o := readIndexOffset) (v := BitVec.ofNat 32 ((u.rLocal + min g.q (usedFrames u.link.cap (slotOf u.link.cap v) u.rLocal)) % u.link.cap)) (l := { u.link with order := { u.link.order with released := a, exposed := x1 }, races := k }) (r := r) hreg (by simp [readIndexOffset]; omega)
      rw [h4]
      obtain ⟨p1, p2, p3, p4, p5, p6, p7, p8⟩ := play_spec g vs u (by omega)
      refine ⟨_, rfl, rfl, ?_, ?_, rfl⟩
      · dsimp only; rw [p6]; exact ⟨rfl, rfl, rfl⟩
      · refine ⟨?_, Nat.mod_lt _ (by omega), hf, hfc, ?_, p7, ?_⟩
        · obtain ⟨a1, a2, a3, a4, a5, a6, a7, a8⟩ := hl
          refine ⟨a1, a2, a3, a4, a5, ?_, ?_, ?_⟩
          · intro h; exact absurd hmode (by dsimp only at h; rw [h]; decide)
          · intro _ _; rfl
          · simp; exact Region.ok_store32 hrok h5
        · dsimp only; rw [p5]
          rcases getLastD_mem vs u.lastFrame with h | h
          · rw [h]; exact hlf
          · exact h3' _ h
        · intro a ha
          simp [playCountOk, playCounts, p8 a ha]
    · obtain ⟨p1, p2, p3, p4, p5, p6, p7, p8⟩ := play_spec g ((u.fifo.take (min g.q u.fifo.length)).map fun f => f.map san32) u (by simp)
      refine ⟨_, rfl, rfl, ?_, ?_, rfl⟩
      · simp only [brplayFallback]; rw [p6]; exact ⟨rfl, rfl, rfl⟩
      · refine ⟨hl, hr, ?_, ?_, ?_, p7, ?_⟩
        · simp [brplayFallback]; exact Nat.le_add_right_of_le hf
        · intro f hf; exact hfc f (List.mem_of_mem_drop hf)
        · simp only [brplayFallback]; rw [p5]
          rcases getLastD_mem ((u.fifo.take (min g.q u.fifo.length)).map fun f => f.map san32) u.lastFrame with h | h
          · rw [h]; exact hlf
          · simp only [List.mem_map] at h
            obtain ⟨f, hf, e⟩ := h
            rw [← e]; simp; exact hfc f (List.mem_of_mem_take hf)
        · intro a ha
          simp [playCountOk, playCounts, p8 a ha]

end Sys2Proof.Machine
end

