-- ==== Sys2Proof/Laws/Encoding.lean ====
section
/-!
SUPPORT. Laws of the packet fields: what the decoder reads back of the bytes the encoder writes (30_encoding.md R141 to R153).
-/

namespace Sys2Proof.Machine

theorem word64_halves (v : BitVec 64) : word64 (v.extractLsb' 0 32) (v.extractLsb' 32 32) = v := by
  unfold word64
  ext i hi
  simp only [BitVec.getElem_append, BitVec.getElem_extractLsb']
  split
  · simp [BitVec.getLsbD, BitVec.getElem_eq_testBit_toNat]
  · simp only [BitVec.getLsbD, BitVec.getElem_eq_testBit_toNat]; congr 1; omega

theorem class_of_byte (cls inst : BitVec 4) : (cls ++ inst).extractLsb' 4 4 = cls := by
  ext i hi
  rw [BitVec.getElem_extractLsb', BitVec.getLsbD_append]
  simp [BitVec.getLsbD_eq_getElem hi]

theorem inst_of_byte (cls inst : BitVec 4) : (cls ++ inst).extractLsb' 0 4 = inst := by
  ext i hi
  rw [BitVec.getElem_extractLsb', BitVec.getLsbD_append]
  simp [hi]

theorem bytes32_length (v : BitVec 32) : (bytes32 v).length = 4 := rfl

theorem bytes64_length (v : BitVec 64) : (bytes64 v).length = 8 := rfl

theorem sampleBytes_length (xs : List F32) : (sampleBytes xs).length = 4 * xs.length := by
  induction xs with
  | nil => rfl
  | cons x xs ih => rw [sampleBytes, List.length_append, ih, bytes32_length, List.length_cons]; omega

theorem sampleBytes_append (xs ys : List F32) : sampleBytes (xs ++ ys) = sampleBytes xs ++ sampleBytes ys := by
  induction xs with
  | nil => rfl
  | cons x xs ih => simp [sampleBytes, ih]

/-- The samples of a payload are read back. -/
theorem samplesOf_sampleBytes (xs : List F32) : samplesOf (sampleBytes xs) = xs := by
  induction xs with
  | nil => rfl
  | cons x xs ih =>
    have : sampleBytes (x :: xs) = x.extractLsb' 0 8 :: x.extractLsb' 8 8 :: x.extractLsb' 16 8 :: x.extractLsb' 24 8 :: sampleBytes xs := rfl
    rw [this, samplesOf, ih, word32_bytes32]

/-- What the decoder makes of a header, an operand of two words and a payload. -/
theorem decode_parts (op : Byte) (cls inst : BitVec 4) (pidx : Byte) (lo hi : U32) (rest : List Byte) :
    decode (header op cls inst pidx ++ bytes32 lo ++ bytes32 hi ++ rest) = decodeFields op cls inst pidx lo hi rest := by
  have : decode (header op cls inst pidx ++ bytes32 lo ++ bytes32 hi ++ rest) =
      decodeFields op ((cls ++ inst).extractLsb' 4 4) ((cls ++ inst).extractLsb' 0 4) pidx
        (word32 (lo.extractLsb' 0 8) (lo.extractLsb' 8 8) (lo.extractLsb' 16 8) (lo.extractLsb' 24 8))
        (word32 (hi.extractLsb' 0 8) (hi.extractLsb' 8 8) (hi.extractLsb' 16 8) (hi.extractLsb' 24 8)) rest := rfl
  rw [this, class_of_byte, inst_of_byte, word32_bytes32, word32_bytes32]

theorem decode_real (op : Byte) (cls inst : BitVec 4) (pidx : Byte) (v : BitVec 64) :
    decode (header op cls inst pidx ++ bytes64 v) =
      decodeFields op cls inst pidx (v.extractLsb' 0 32) (v.extractLsb' 32 32) [] := by
  have := decode_parts op cls inst pidx (v.extractLsb' 0 32) (v.extractLsb' 32 32) []
  rw [List.append_nil, List.append_assoc] at this
  exact this

theorem decode_word (op : Byte) (cls inst : BitVec 4) (pidx : Byte) (v : U32) (rest : List Byte) :
    decode (header op cls inst pidx ++ operand32 v ++ rest) = decodeFields op cls inst pidx v 0 rest := by
  have := decode_parts op cls inst pidx v 0 rest
  rw [List.append_assoc (header op cls inst pidx)] at this
  exact this

/-- The part of a CAPTURE after its operand decodes back. -/
theorem decodeCapture_encoded (inst : BitVec 4) (pidx : Byte) (valid n : U32) (rate : F64) (ys xs : List F32)
    (hy : ys.length = n.toNat) (hx : xs.length = n.toNat) :
    decodeCapture inst pidx valid n (bytes64 rate ++ sampleBytes ys ++ sampleBytes xs) =
      .ok (.captureOutbound inst (pidx.getLsbD 0) valid n rate ys xs) := by
  rw [List.append_assoc, ← sampleBytes_append]
  have hlen : ¬ ys.length + xs.length < 2 * n.toNat := by omega
  have hr := word64_halves rate
  rw [← word32_bytes32 (rate.extractLsb' 0 32), ← word32_bytes32 (rate.extractLsb' 32 32)] at hr
  simp only [bytes64, bytes32, List.cons_append, List.nil_append, decodeCapture, samplesOf_sampleBytes, List.length_append, hlen,
    if_false, hr]
  simp [← hy, List.take_of_length_le (Nat.le_of_eq (hx.trans hy.symm))]

end Sys2Proof.Machine
end

