-- ==== Sys2Proof/Laws/Frame.lean ====
section
/-!
SUPPORT. What one frame of each sample class leaves alone and how it lengthens the output arrays; the report of one unit's events; and
what a capture keeps of a SCOPE's ranges.
-/

namespace Sys2Proof.Machine

/-! ### The sample classes -/

theorem silent_iff (c : Common) (m : Mute) : processed c m = false ↔ silent c m := by
  unfold processed silent Mute.frozen
  cases c.faulted <;> simp

theorem processed_iff (c : Common) (m : Mute) : processed c m = true ↔ ¬ silent c m := by
  rw [← silent_iff]
  simp

theorem oscFrame_keeps (g : BlockCfg) (i : Nat) (u : Osc) :
    (oscFrame g i u).cfg = u.cfg ∧ (oscFrame g i u).common = u.common ∧ (oscFrame g i u).reg = u.reg ∧
      (oscFrame g i u).latch = u.latch ∧ (oscFrame g i u).mode = u.mode ∧ (oscFrame g i u).ports = u.ports ∧
      (oscFrame g i u).mute.dormant = u.mute.dormant ∧ (oscFrame g i u).out0.length = u.out0.length + 1 ∧
      (oscFrame g i u).out1.length = u.out1.length + 1 := by
  unfold oscFrame
  split
  · exact ⟨rfl, rfl, rfl, rfl, rfl, rfl, rfl, List.length_append, List.length_append⟩
  · exact ⟨rfl, rfl, rfl, rfl, rfl, rfl, rfl, List.length_append, List.length_append⟩

/-- A phase in [0, 1), part by part. -/
theorem phaseInRange_iff (p : F64) : phaseInRange p = true ↔ fle f0 p = true ∧ flt p f1 = true := by
  rw [phaseInRange, Bool.and_eq_true]

/-- The advanced phase is in [0, 1), whatever the phase and the increment. -/
theorem advance_inRange (phase dt : F64) : phaseInRange (advance phase dt) = true := by
  unfold advance openPhase
  split
  · assumption
  · split
    · assumption
    · decide

/-- Where the formula of R253 gives a phase in range, the advanced phase is it. -/
theorem advance_eq_wrap {phase dt : F64} (h : phaseInRange (wrapPhase phase dt) = true) : advance phase dt = wrapPhase phase dt := by
  rw [advance, if_pos h]

/-- A frame's phase is the one before it or an advanced one. -/
theorem oscFrame_phase (g : BlockCfg) (i : Nat) (u : Osc) :
    (oscFrame g i u).phase = u.phase ∨ ∃ t dt, (oscFrame g i u).phase = advance t dt := by
  unfold oscFrame
  split
  · exact .inr ⟨_, _, rfl⟩
  · exact .inl rfl

theorem vcaFrame_keeps (g : BlockCfg) (i : Nat) (u : Vca) :
    (vcaFrame g i u).cfg = u.cfg ∧ (vcaFrame g i u).common = u.common ∧ (vcaFrame g i u).reg = u.reg ∧
      (vcaFrame g i u).latch = u.latch ∧ (vcaFrame g i u).input = u.input ∧ (vcaFrame g i u).cv = u.cv ∧
      (vcaFrame g i u).mute.dormant = u.mute.dormant ∧ (vcaFrame g i u).out.length = u.out.length + 1 := by
  unfold vcaFrame
  split
  · unfold vcaProcess
    dsimp only
    split <;> exact ⟨rfl, rfl, rfl, rfl, rfl, rfl, rfl, List.length_append⟩
  · exact ⟨rfl, rfl, rfl, rfl, rfl, rfl, rfl, List.length_append⟩

theorem appendSamples_length (out : List Samples) (f : Nat → F32) : (appendSamples out f).length = out.length := by
  simp [appendSamples]

theorem mem_appendSamples {out : List Samples} {f : Nat → F32} {a : Samples} (h : a ∈ appendSamples out f) :
    ∃ b ∈ out, a.length = b.length + 1 := by
  obtain ⟨k, hk, rfl⟩ := List.mem_iff_getElem.1 h
  simp only [appendSamples, List.length_mapIdx] at hk
  exact ⟨out[k], List.getElem_mem hk, by simp [appendSamples]⟩

/-- The filter output is the rule R310 to R313 write. -/
theorem shelfOutput_eq_rule (fs tau p x : F64) (f : ShelfState) :
    shelfOutput (coeffs (shelfK fs tau) p) p x f = shelfRule fs tau p x f := by
  cases h : feq p f0 <;> simp [shelfOutput, shelfRule, coeffs, shelfK, san, h]

theorem toneFrame_keeps (g : BlockCfg) (i : Nat) (u : Tone) :
    (toneFrame g i u).cfg = u.cfg ∧ (toneFrame g i u).common = u.common ∧ (toneFrame g i u).position = u.position ∧
      (toneFrame g i u).latchPosition = u.latchPosition ∧ (toneFrame g i u).input = u.input ∧
      (toneFrame g i u).mute.dormant = u.mute.dormant ∧ (toneFrame g i u).chans.length = u.chans.length ∧
      ∃ f, (toneFrame g i u).out = appendSamples u.out f := by
  unfold toneFrame
  split
  · exact ⟨rfl, rfl, rfl, rfl, rfl, rfl, List.length_mapIdx, _, rfl⟩
  · exact ⟨rfl, rfl, rfl, rfl, rfl, rfl, rfl, _, rfl⟩

theorem thermFrame_keeps (g : BlockCfg) (i : Nat) (u : Therm) :
    (thermFrame g i u).cfg = u.cfg ∧ (thermFrame g i u).common = u.common ∧ (thermFrame g i u).enable = u.enable ∧
      (thermFrame g i u).latchEnable = u.latchEnable ∧ (thermFrame g i u).input = u.input ∧
      (thermFrame g i u).out.length = u.out.length + 1 := by
  unfold thermFrame
  split
  · exact ⟨rfl, rfl, rfl, rfl, rfl, List.length_append⟩
  · dsimp only
    split <;> exact ⟨rfl, rfl, rfl, rfl, rfl, List.length_append⟩

theorem noiseFrame_keeps (g : BlockCfg) (u : Noise) :
    (noiseFrame g u).cfg = u.cfg ∧ (noiseFrame g u).common = u.common ∧ (noiseFrame g u).reg = u.reg ∧
      (noiseFrame g u).latch = u.latch ∧ (noiseFrame g u).stream = u.stream ∧ (noiseFrame g u).mute.dormant = u.mute.dormant ∧
      (noiseFrame g u).out.length = u.out.length + 1 := by
  have h : u.afterDraw.cfg = u.cfg ∧ u.afterDraw.common = u.common ∧ u.afterDraw.reg = u.reg ∧ u.afterDraw.latch = u.latch ∧
      u.afterDraw.stream = u.stream ∧ u.afterDraw.mute.dormant = u.mute.dormant ∧ u.afterDraw.out = u.out := by
    unfold Noise.afterDraw
    split <;> exact ⟨rfl, rfl, rfl, rfl, rfl, rfl, rfl⟩
  obtain ⟨h1, h2, h3, h4, h5, h6, h7⟩ := h
  unfold noiseFrame
  split
  · exact ⟨h1, h2, h3, h4, h5, h6, by rw [← h7]; exact List.length_append⟩
  · exact ⟨rfl, rfl, rfl, rfl, rfl, rfl, List.length_append⟩

theorem scopeFrame_keeps (i : Nat) (u : Scope) :
    (scopeFrame i u).cfg = u.cfg ∧ (scopeFrame i u).common = u.common ∧ (scopeFrame i u).reg = u.reg ∧
      (scopeFrame i u).latch = u.latch ∧ (scopeFrame i u).n = u.n ∧ (scopeFrame i u).inY = u.inY ∧ (scopeFrame i u).inX = u.inX := by
  unfold scopeFrame
  split
  · exact ⟨rfl, rfl, rfl, rfl, rfl, rfl, rfl⟩
  · dsimp only
    split <;> exact ⟨rfl, rfl, rfl, rfl, rfl, rfl, rfl⟩

/-- The state after a frame, part by part. -/
theorem frameStep_eq (i : Nat) (s : State) :
    (frameStep i s).cfg = s.cfg ∧ (frameStep i s).blockIndex = s.blockIndex ∧ (frameStep i s).inQueue = s.inQueue ∧
      (frameStep i s).outQueue = s.outQueue ∧ (frameStep i s).brcap = s.brcap ∧ (frameStep i s).brplay = s.brplay ∧
      (frameStep i s).shmAvailable = s.shmAvailable := ⟨rfl, rfl, rfl, rfl, rfl, rfl, rfl⟩

/-! ### Counts and reports -/

theorem Counts.get_set_self (k : EventCode) (v : U32) (c : Counts) : (c.set k v).get k = v := by cases k <;> rfl

theorem Counts.get_set_other {j k : EventCode} (h : j ≠ k) (v : U32) (c : Counts) : (c.set k v).get j = c.get j := by
  cases j <;> cases k <;> first | rfl | exact absurd rfl h

theorem Reports.get_set_self (k : EventCode) (b : U64) (c : Reports) : (c.set k b).get k = some b := by cases k <;> rfl

theorem Reports.get_set_other {j k : EventCode} (h : j ≠ k) (b : U64) (c : Reports) : (c.set k b).get j = c.get j := by
  cases j <;> cases k <;> first | rfl | exact absurd rfl h

theorem due_iff (b : U64) (n : Nat) (k : EventCode) (c : Common) : c.due b n k = true ↔ dueForReport b n k c := by
  unfold Common.due dueForReport
  cases c.lastReport.get k <;> simp

/-- Whether another code is due does not change with one code's report. -/
theorem reportCode_due (b : U64) (n : Nat) (cls : UnitClass) (inst : Nat) {j k : EventCode} (h : j ≠ k) (r : Common × List Instr) :
    (reportCode b n cls inst k r).1.due b n j = r.1.due b n j := by
  unfold reportCode
  split
  · simp [Common.due, Counts.get_set_other h, Reports.get_set_other h]
  · rfl

/-- One code's report: cleared, stamped and emitted if due, else nothing. -/
theorem reportCode_spec (b : U64) (n : Nat) (cls : UnitClass) (inst : Nat) (k : EventCode) (r : Common × List Instr) :
    (reportCode b n cls inst k r).1.faulted = r.1.faulted ∧ (reportCode b n cls inst k r).1.faultDraw = r.1.faultDraw ∧
      (∀ j, j ≠ k → (reportCode b n cls inst k r).1.pending.get j = r.1.pending.get j ∧
        (reportCode b n cls inst k r).1.lastReport.get j = r.1.lastReport.get j) ∧
      (r.1.due b n k = true → (reportCode b n cls inst k r).1.pending.get k = 0 ∧
        (reportCode b n cls inst k r).1.lastReport.get k = some b ∧
        (reportCode b n cls inst k r).2 = r.2 ++ [.eventOutbound cls.code (BitVec.ofNat 4 inst) k.code (r.1.pending.get k)]) ∧
      (r.1.due b n k = false → reportCode b n cls inst k r = r) := by
  unfold reportCode
  split
  · rename_i h
    refine ⟨rfl, rfl, fun j hj => ⟨Counts.get_set_other hj .., Reports.get_set_other hj ..⟩, fun _ =>
      ⟨Counts.get_set_self .., Reports.get_set_self .., rfl⟩, fun h' => ?_⟩
    rw [h] at h'
    cases h'
  · rename_i h
    exact ⟨rfl, rfl, fun _ _ => ⟨rfl, rfl⟩, fun h' => absurd h' h, fun _ => rfl⟩

/-- The codes in the order of R472. -/
theorem report_fold (b : U64) (n : Nat) (cls : UnitClass) (inst : Nat) (ks : List EventCode) (hk : ks.Nodup) (r : Common × List Instr) :
    let r' := ks.foldl (fun r k => reportCode b n cls inst k r) r
    r'.1.faulted = r.1.faulted ∧ r'.1.faultDraw = r.1.faultDraw ∧
      (∀ j, (j ∉ ks → r'.1.pending.get j = r.1.pending.get j ∧ r'.1.lastReport.get j = r.1.lastReport.get j) ∧
        (j ∈ ks → (r.1.due b n j = true → r'.1.pending.get j = 0 ∧ r'.1.lastReport.get j = some b) ∧
          (r.1.due b n j = false → r'.1.pending.get j = r.1.pending.get j ∧ r'.1.lastReport.get j = r.1.lastReport.get j))) ∧
      r'.2 = r.2 ++ (ks.filter fun k => r.1.due b n k).map fun k =>
        .eventOutbound cls.code (BitVec.ofNat 4 inst) k.code (r.1.pending.get k) := by
  induction ks generalizing r with
  | nil => simp
  | cons k ks ih =>
    obtain ⟨hk1, hk2⟩ := List.nodup_cons.1 hk
    have hne : ∀ j ∈ ks, j ≠ k := fun j hj e => hk1 (e ▸ hj)
    obtain ⟨s1, s2, s3, s4, s5⟩ := reportCode_spec b n cls inst k r
    obtain ⟨i1, i2, i3, i4⟩ := ih hk2 (reportCode b n cls inst k r)
    rw [List.foldl_cons]
    refine ⟨i1.trans s1, i2.trans s2, fun j => ⟨fun hj => ?_, fun hj => ?_⟩, ?_⟩
    · simp only [List.mem_cons, not_or] at hj
      have h1 := (i3 j).1 hj.2
      have h2 := s3 j hj.1
      exact ⟨h1.1.trans h2.1, h1.2.trans h2.2⟩
    · by_cases e : j = k
      · subst e
        have h1 := (i3 j).1 hk1
        exact ⟨fun hd => ⟨h1.1.trans (s4 hd).1, h1.2.trans (s4 hd).2.1⟩, fun hd => by rw [s5 hd] at h1; rw [s5 hd]; exact h1⟩
      · have hm : j ∈ ks := by simpa [e] using hj
        have h1 := (i3 j).2 hm
        have h2 := s3 j e
        have h3 := reportCode_due b n cls inst e r
        rw [h3] at h1
        exact ⟨h1.1, fun hd => ⟨(h1.2 hd).1.trans h2.1, (h1.2 hd).2.trans h2.2⟩⟩
    · rw [i4]
      have hf : (ks.filter fun j => (reportCode b n cls inst k r).1.due b n j) = ks.filter fun j => r.1.due b n j :=
        List.filter_congr fun j hj => by rw [reportCode_due b n cls inst (hne j hj)]
      have hm : (ks.filter fun j => r.1.due b n j).map (fun j => Instr.eventOutbound cls.code (BitVec.ofNat 4 inst) j.code
            ((reportCode b n cls inst k r).1.pending.get j)) =
          (ks.filter fun j => r.1.due b n j).map fun j => Instr.eventOutbound cls.code (BitVec.ofNat 4 inst) j.code (r.1.pending.get j) :=
        List.map_congr_left fun j hj => by rw [(s3 j (hne j (List.mem_filter.1 hj).1)).1]
      rw [hf, hm]
      cases hd : r.1.due b n k with
      | true => simp [(s4 hd).2.2, hd]
      | false => simp [s5 hd, hd]

/-- One unit's report at the end of a block (60_exceptions.md R470, R472). -/
theorem report_spec (b : U64) (n : Nat) (cls : UnitClass) (inst : Nat) (c : Common) :
    (c.report b n cls inst).1.faulted = c.faulted ∧ (c.report b n cls inst).1.faultDraw = c.faultDraw ∧
      (∀ j, (c.due b n j = true → (c.report b n cls inst).1.pending.get j = 0 ∧ (c.report b n cls inst).1.lastReport.get j = some b) ∧
        (c.due b n j = false → (c.report b n cls inst).1.pending.get j = c.pending.get j ∧
          (c.report b n cls inst).1.lastReport.get j = c.lastReport.get j)) ∧
      (c.report b n cls inst).2 = ([EventCode.unitFault, .overflow, .underflow, .fallback].filter fun k => c.due b n k).map fun k =>
        .eventOutbound cls.code (BitVec.ofNat 4 inst) k.code (c.pending.get k) := by
  obtain ⟨h1, h2, h3, h4⟩ := report_fold b n cls inst [EventCode.unitFault, .overflow, .underflow, .fallback] (by decide) (c, [])
  exact ⟨h1, h2, fun j => (h3 j).2 (by cases j <;> decide), h4.trans (List.nil_append _)⟩

/-- The counts a unit keeps do not depend on the name it reports under. -/
theorem report_common (b : U64) (n : Nat) (cls cls' : UnitClass) (inst inst' : Nat) (c : Common) :
    (c.report b n cls inst).1 = (c.report b n cls' inst').1 := by
  have h : ∀ (ks : List EventCode) (r r' : Common × List Instr), r.1 = r'.1 →
      (ks.foldl (fun r k => reportCode b n cls inst k r) r).1 = (ks.foldl (fun r k => reportCode b n cls' inst' k r) r').1 := by
    intro ks
    induction ks with
    | nil => exact fun _ _ h => h
    | cons k ks ih =>
      intro r r' h
      refine ih _ _ ?_
      simp only [reportCode, h]
      split <;> simp_all
  exact h _ _ _ rfl

/-! ### Captures -/

theorem extractWindow_length (n start valid : Nat) (v : Samples) : (extractWindow n start valid v).length = n := by
  simp [extractWindow]

theorem bufferedView_length (n w l : Nat) (buf : Samples) : (bufferedView n w l buf).length = l := by simp [bufferedView]

/-- View index `k` is ring position `(w - L + k) mod 2N` (46_scope.md R381); nothing else is the view. -/
theorem bufferedView_unique {n w l : Nat} {buf v : Samples} (hl : l ≤ 2 * n) (hv : v.length = l)
    (h : ∀ k pos : Nat, k < l → (pos : Int) = ((w : Int) - l + k) % (2 * n) → v[k]? = some (buf.getD pos 0)) :
    v = bufferedView n w l buf := by
  refine List.ext_getElem? fun k => ?_
  by_cases hk : k < l
  · rw [h k (ringPosition n w l k) hk ?_]
    · simp [bufferedView, hk]
    · unfold ringPosition
      rw [Int.natCast_mod, ← Int.add_emod_right ((w : Int) - l + k)]
      congr 1
      omega
  · rw [List.getElem?_eq_none (by omega), List.getElem?_eq_none (by rw [bufferedView_length]; omega)]

/-- A candidate is in range and above every candidate before it. -/
theorem scanAt_found (yv : Samples) (lev : F64) (h : Nat) (r : Search) (j : Nat) :
    (scanAt yv lev h r j).found = r.found ∨ (scanAt yv lev h r j).found = r.found ++ [j] ∧ risingEdge yv lev j = true := by
  unfold scanAt
  split
  · exact .inr ⟨rfl, (‹_ ∧ _›).2⟩
  · exact .inl rfl

/-- Every candidate is an edge in the scanned range, in increasing order. -/
theorem scan_found (yv : Samples) (lev : F64) (h : Nat) (k start : Nat) (r : Search) (hlt : ∀ j ∈ r.found, j < start)
    (hp : r.found.Pairwise (· < ·)) :
    let r' := (List.range' start k).foldl (scanAt yv lev h) r
    (∀ j ∈ r'.found, j ∈ r.found ∨ start ≤ j ∧ j < start + k ∧ risingEdge yv lev j = true) ∧ r'.found.Pairwise (· < ·) := by
  induction k generalizing start r with
  | zero => exact ⟨fun j hj => .inl hj, hp⟩
  | succ k ih =>
    rw [List.range'_succ, List.foldl_cons]
    have hs := scanAt_found yv lev h r start
    have h1 : ∀ j ∈ (scanAt yv lev h r start).found, j < start + 1 := by
      rcases hs with e | ⟨e, _⟩ <;> rw [e] <;> intro j hj
      · have := hlt j hj
        omega
      · simp only [List.mem_append, List.mem_singleton] at hj
        rcases hj with hj | rfl
        · have := hlt j hj
          omega
        · omega
    have h2 : (scanAt yv lev h r start).found.Pairwise (· < ·) := by
      rcases hs with e | ⟨e, _⟩ <;> rw [e]
      · exact hp
      · exact List.pairwise_append.2 ⟨hp, List.pairwise_singleton .., fun a ha b hb => by
          simp only [List.mem_singleton] at hb
          subst hb
          exact hlt a ha⟩
    obtain ⟨ih1, ih2⟩ := ih (start + 1) _ h1 h2
    refine ⟨fun j hj => ?_, ih2⟩
    rcases ih1 j hj with hj | ⟨ha, hb, hc⟩
    · rcases hs with e | ⟨e, he⟩ <;> rw [e] at hj
      · exact .inl hj
      · simp only [List.mem_append, List.mem_singleton] at hj
        rcases hj with hj | rfl
        · exact .inl hj
        · exact .inr ⟨Nat.le_refl _, by omega, he⟩
    · exact .inr ⟨by omega, by omega, hc⟩

theorem searchTriggers_found (yv : Samples) (lev : F64) (h n l : Nat) :
    (∀ j ∈ (searchTriggers yv lev h n l).found, 1 ≤ j ∧ j < 1 + (l - n) ∧ risingEdge yv lev j = true) ∧
      (searchTriggers yv lev h n l).found.Pairwise (· < ·) := by
  obtain ⟨h1, h2⟩ := scan_found yv lev h (l - n) 1 ⟨0, []⟩ (by simp) .nil
  exact ⟨fun j hj => by simpa using h1 j hj, h2⟩

theorem nearest_mem (a0 pred : Int) (j : Nat) (js : List Nat) : nearest a0 pred j js ∈ j :: js := by
  induction js generalizing j with
  | nil => simp [nearest]
  | cons k ks ih =>
    simp only [nearest]
    split
    · have := ih k
      simp only [List.mem_cons] at this ⊢
      tauto
    · have := ih j
      simp only [List.mem_cons] at this ⊢
      tauto

theorem chooseTrigger_mem (a0 : Int) (anchor : Option U64) (period : Option Nat) (j : Nat) (js : List Nat) :
    chooseTrigger a0 anchor period j js ∈ j :: js := by
  unfold chooseTrigger
  split
  · exact nearest_mem ..
  · simp

/-- A decision's valid count and period are in range when the candidates are. -/
theorem decideCapture_ok {n l : Nat} (hn : 1 ≤ n) (hl : l ≤ 2 * n) (a0 : Int) (anchor : Option U64) (period : Option Nat)
    {found : List Nat} (hf : ∀ j ∈ found, 1 ≤ j ∧ j < 1 + (l - n)) (hs : found.Pairwise (· < ·))
    (hp : ∀ k ∈ period, 1 ≤ k ∧ k < n) :
    1 ≤ (decideCapture n l a0 anchor period found).valid ∧ (decideCapture n l a0 anchor period found).valid ≤ n ∧
      ∀ k ∈ (decideCapture n l a0 anchor period found).period, 1 ≤ k ∧ k < n := by
  match found with
  | [] => simp [decideCapture, hn]
  | [j] => exact ⟨hn, Nat.le_refl n, hp⟩
  | j :: j' :: js =>
    have h1 := hf j (by simp)
    have h2 := hf j' (by simp)
    have h3 : j < j' := by
      rw [List.pairwise_cons] at hs
      exact hs.1 j' (by simp)
    simp only [decideCapture, Option.mem_def, Option.some.injEq, forall_eq']
    have hd : 1 ≤ n / (j' - j) := (Nat.one_le_div_iff (by omega)).2 (by omega)
    refine ⟨?_, Nat.div_mul_le_self .., by omega, by omega⟩
    calc 1 ≤ 1 * (j' - j) := by omega
      _ ≤ n / (j' - j) * (j' - j) := Nat.mul_le_mul_right _ hd

/-- A frame keeps a SCOPE's ranges. -/
theorem scopeFrame_ok {p p' : Phase} {i : Nat} {u : Scope} (hp' : p' ≠ .boundary) (h : u.Ok p) :
    (scopeFrame i u).Ok p' := by
  obtain ⟨h1, h2, h3, h4, h5, h6, h7, h8, h9, h10, _⟩ := h
  have hn : 1 ≤ u.n := by omega
  unfold scopeFrame
  split
  · exact ⟨h1, h2, h3, h4, h5, h6, h7, h8, h9, h10, fun e => absurd e hp'⟩
  · dsimp only
    have hw : (u.w + 1) % (2 * u.n) < 2 * u.n := Nat.mod_lt _ (by omega)
    split
    · rename_i hcap
      have hnew : u.newCount + 1 = u.n := hcap
      have hfound := searchTriggers_found
        (bufferedView u.n ((u.w + 1) % (2 * u.n)) (min (u.filled + 1) (2 * u.n)) (u.bufY.set u.w (fround (portSample u.inY i))))
        u.latch.triggerLevel u.latch.hysteresis u.n (min (u.filled + 1) (2 * u.n))
      have hd := decideCapture_ok (n := u.n) (l := min (u.filled + 1) (2 * u.n)) hn (by omega)
        (((u.total + 1).toNat : Int) - (min (u.filled + 1) (2 * u.n) : Nat)) u.anchor u.period
        (fun j hj => ⟨(hfound.1 j hj).1, (hfound.1 j hj).2.1⟩) hfound.2 h9
      refine ⟨h1, h2, by simpa [Scope.capture, Scope.write] using h3, by simpa [Scope.capture, Scope.write] using h4, hw,
        Nat.min_le_right .., show 0 < u.n by omega, Nat.zero_le _, hd.2.2, ?_, fun e => absurd e hp'⟩
      intro c hc'
      simp only [Scope.capture, Scope.write, List.mem_append, List.mem_singleton] at hc'
      rcases hc' with hc' | rfl
      · exact h10 c hc'
      · exact ⟨extractWindow_length .., extractWindow_length .., hd.2.1⟩
    · rename_i hcap
      have hnew : u.newCount + 1 ≠ u.n := hcap
      exact ⟨h1, h2, by simpa [Scope.write] using h3, by simpa [Scope.write] using h4, hw, Nat.min_le_right ..,
        show u.newCount + 1 < u.n by omega, show u.newCount + 1 ≤ min (u.filled + 1) (2 * u.n) by omega, h9, h10,
        fun e => absurd e hp'⟩

end Sys2Proof.Machine
end

