-- ==== Sys2Proof/Laws/Block.lean ====
section
/-!
SUPPORT. The block as a whole: lists of units mapped or addressed, the packets of the end of a block and their form, and runs of moves.
-/

namespace Sys2Proof.Machine

/-! ### Lists of units -/

theorem getElem?_map_of {α β : Type} {l : List α} {f : α → β} {k : Nat} {u : α} (h : l[k]? = some u) :
    (l.map f)[k]? = some (f u) := by
  rw [List.getElem?_map, h]
  rfl

/-- A view no unit changes. -/
theorem map_keeps {α β : Type} {l : List α} {f : α → α} {g : α → β} (h : ∀ u ∈ l, g (f u) = g u) : (l.map f).map g = l.map g := by
  rw [List.map_map]
  exact List.map_congr_left h

/-- A property every unit gets. -/
theorem forall_mem_map {α : Type} {P Q : α → Prop} {l : List α} {f : α → α} (h : ∀ u ∈ l, P u) (hf : ∀ u ∈ l, P u → Q (f u)) :
    ∀ u ∈ l.map f, Q u := by
  intro u hu
  obtain ⟨v, hv, rfl⟩ := List.mem_map.1 hu
  exact hf v hv (h v hv)

/-- A property a command keeps. -/
theorem forall_mem_onTargets {α : Type} {P : α → Prop} {l : List α} {f : α → α} {inst : BitVec 4} (h : ∀ u ∈ l, P u)
    (hf : ∀ u ∈ l, P u → P (f u)) : ∀ u ∈ onTargets inst f l, P u := by
  intro u hu
  obtain ⟨v, hv, rfl | rfl⟩ := mem_onTargets hu
  · exact h _ hv
  · exact hf v hv (h v hv)

/-- A property one changed unit keeps. -/
theorem forall_mem_modify {α : Type} {P : α → Prop} {l : List α} {f : α → α} {k : Nat} (h : ∀ u ∈ l, P u) (hf : ∀ u, P u → P (f u)) :
    ∀ u ∈ l.modify k f, P u := by
  intro u hu
  obtain ⟨j, hj⟩ := List.mem_iff_getElem?.1 hu
  rw [List.getElem?_modify] at hj
  obtain ⟨v, hv, rfl⟩ := Option.map_eq_some_iff.1 hj
  have := h v (List.mem_of_getElem? hv)
  split
  · exact hf v this
  · exact this

theorem map_modify_of {α β : Type} {l : List α} {f : α → α} {g : α → β} {k : Nat} (h : ∀ u, g (f u) = g u) :
    (l.modify k f).map g = l.map g := by
  apply List.ext_getElem?
  intro j
  rw [List.getElem?_map, List.getElem?_map, List.getElem?_modify]
  cases l[j]? with
  | none => rfl
  | some u =>
    simp only [Option.map_some]
    split <;> simp [h]

/-! ### Output counts -/

/-- One more sample in every frame, from frame `i` to what follows it. -/
theorem sampleCount_next {q i n : Nat} (h : i < q) (hn : sampleCountOk (.frame i) q n) : sampleCountOk (phaseAfter q i) q (n + 1) := by
  simp only [sampleCountOk, sampleCounts, List.mem_singleton] at hn
  subst hn
  unfold phaseAfter
  split
  · simp [sampleCountOk, sampleCounts]
  · simp only [sampleCountOk, sampleCounts, List.mem_singleton]
    omega

/-! ### The packets of a block -/

theorem settled_spec (s : State) (c : Common) : (settled s c).faulted = c.faulted ∧ (settled s c).faultDraw = c.faultDraw := by
  obtain ⟨h1, h2, _⟩ := report_spec s.blockIndex s.cfg.logInterval .osc 0 c
  exact ⟨h1, h2⟩

/-- Every EVENT packet of a class reports a due count. -/
theorem classReports_mem {s : State} {cls : UnitClass} {cs : List Common} {p : Instr} (h : p ∈ classReports s cls cs) :
    ∃ (k : Nat) (c : Common) (code : EventCode), cs[k]? = some c ∧ c.due s.blockIndex s.cfg.logInterval code = true ∧
      p = .eventOutbound cls.code (BitVec.ofNat 4 k) code.code (c.pending.get code) := by
  simp only [classReports, List.mem_flatten, List.mem_mapIdx] at h
  obtain ⟨l, ⟨k, hk, rfl⟩, hp⟩ := h
  rw [(report_spec ..).2.2.2] at hp
  simp only [List.mem_map, List.mem_filter] at hp
  obtain ⟨code, ⟨_, hd⟩, rfl⟩ := hp
  exact ⟨k, _, code, List.getElem?_eq_getElem hk, hd, rfl⟩

theorem eventPackets_mem {s : State} {p : Instr} (h : p ∈ eventPackets s) :
    ∃ (cls : UnitClass) (k : Nat) (c : Common) (code : EventCode), (s.commonOf cls)[k]? = some c ∧
      c.due s.blockIndex s.cfg.logInterval code = true ∧
      p = .eventOutbound cls.code (BitVec.ofNat 4 k) code.code (c.pending.get code) := by
  simp only [eventPackets, List.mem_append] at h
  rcases h with ((((((h | h) | h) | h) | h) | h) | h) | h <;> exact ⟨_, classReports_mem h⟩

theorem ofNat4_toNat {k : Nat} (h : k < 15) : (BitVec.ofNat 4 k).toNat = k := by
  simp only [BitVec.toNat_ofNat]
  omega

theorem oneInstance_ofNat {k : Nat} (h : k < 15) : oneInstance (BitVec.ofNat 4 k) = true := by
  have : BitVec.ofNat 4 k ≠ 15#4 := by
    intro e
    have h' := congrArg BitVec.toNat e
    rw [ofNat4_toNat h] at h'
    simp at h'
    omega
  simp [oneInstance, this]

theorem countField_toNat {n : Nat} (h : n < 2 ^ 32) : (countField n).toNat = n := by
  rw [countField, if_pos h, BitVec.toNat_ofNat, Nat.mod_eq_of_lt h]

/-- The packets of the block's data are well formed, unless a count does not fit its field. -/
theorem capturePacket_ok {c : Capture} (h : c.Ok) (rate : F64) {k : Nat} (hk : k < 15) :
    (c.packet rate k).wf = true ∨ isOversized (c.packet rate k) = true := by
  obtain ⟨h1, h2, h3⟩ := h
  by_cases hn : c.n < 2 ^ 32
  · left
    simp only [Capture.packet, Instr.wf, oneInstance_ofNat hk, Bool.true_and, Bool.and_eq_true, decide_eq_true_eq,
      countField_toNat hn, countField_toNat (Nat.lt_of_le_of_lt h3 hn)]
    exact ⟨⟨h3, h1⟩, h2⟩
  · right
    simp only [Capture.packet, isOversized, decide_eq_true_eq]
    omega

theorem flatten_length {ch : Nat} {fs : List Frame} (h : ∀ f ∈ fs, f.length = ch) : fs.flatten.length = fs.length * ch := by
  rw [List.length_flatten, List.map_congr_left h]
  simp

theorem chunkPacket_ok {c : BridgeCfg} (hc : bridgeCfgOk c = true) {fs : List Frame} (h : fs.length = c.chunkFrames)
    (hf : ∀ f ∈ fs, f.length = c.ch) {k : Nat} (hk : k < 15) :
    (chunkPacket k fs).wf = true ∨ isOversized (chunkPacket k fs) = true := by
  simp only [bridgeCfgOk, Bool.and_eq_true, decide_eq_true_eq] at hc
  by_cases hn : fs.length < 2 ^ 32
  · left
    simp only [chunkPacket, Instr.wf, oneInstance_ofNat hk, Bool.true_and, flatten_length hf, countField_toNat hn]
    unfold framesLengthOk
    rw [if_neg (by omega), Nat.mul_comm, Nat.mul_mod_left, Nat.mul_div_cancel _ (by omega)]
    simp
    omega
  · right
    simp only [chunkPacket, isOversized, decide_eq_true_eq, flatten_length hf]
    have := Nat.mul_le_mul (Nat.not_lt.1 hn) hc.1.1.1.1.1.1
    omega

/-- At most 15 instances of every class (00_scope.md R7). -/
theorem configOk_instances {s : State} (h : s.configOk = true) (cls : UnitClass) : (s.commonOf cls).length ≤ 15 := by
  simp only [State.configOk, instancesOk, Bool.and_eq_true, decide_eq_true_eq] at h
  cases cls <;> simp only [State.commonOf, List.length_map] <;> tauto

/-! ### Runs of moves -/

theorem moves_zero (s : State) : moves 0 s = .next s := rfl

theorem moves_succ {s t : State} (h : step s = .next t) (k : Nat) : moves (k + 1) s = moves k t := by
  show (match step s with | .next t => moves k t | .fault r => .fault r | .refused r => .refused r) = _
  rw [h]

theorem moves_succ_inv {s t : State} {k : Nat} (h : moves (k + 1) s = .next t) : ∃ u, step s = .next u ∧ moves k u = .next t := by
  have h : (match step s with | .next t => moves k t | .fault r => .fault r | .refused r => .refused r) = _ := h
  split at h
  · exact ⟨_, ‹_›, h⟩
  · cases h
  · cases h

theorem moves_add {a : Nat} {s t : State} (h : moves a s = .next t) (b : Nat) : moves (a + b) s = moves b t := by
  induction a generalizing s with
  | zero =>
    rw [moves_zero] at h
    cases h
    rw [Nat.zero_add]
  | succ a ih =>
    obtain ⟨u, hu, h⟩ := moves_succ_inv h
    rw [show a + 1 + b = (a + b) + 1 by omega, moves_succ hu]
    exact ih h

end Sys2Proof.Machine
end

