-- ==== Sys2Proof/Laws/Float.lean ====
section
/-!
SUPPORT. Laws of the IEEE arithmetic of Machine/Float.lean: rounding depends on the value alone, is monotone, and is exact on
values of the format; the ranges and the neutral elements the frame steps rest on.
-/

namespace Sys2Proof.Machine

/-! ### `roundShift` -/

theorem roundShift_zero (m : Nat) : roundShift m 0 = m := by
  have : m % 1 = 0 := Nat.mod_one m
  simp [roundShift, this]

theorem roundShift_scale (m k j : Nat) : roundShift (m * 2 ^ j) (k + j) = roundShift m k := by
  have hp : 0 < 2 ^ j := Nat.two_pow_pos j
  have hd : (m * 2 ^ j) >>> (k + j) = m >>> k := by
    rw [Nat.shiftRight_eq_div_pow, Nat.shiftRight_eq_div_pow, Nat.pow_add, Nat.mul_div_mul_right _ _ hp]
  have hm : m * 2 ^ j % 2 ^ (k + j) = m % 2 ^ k * 2 ^ j := by
    rw [Nat.pow_add, Nat.mul_mod_mul_right]
  have h1 : (2 ^ (k + j) < 2 * (m % 2 ^ k * 2 ^ j)) ↔ (2 ^ k < 2 * (m % 2 ^ k)) := by
    rw [Nat.pow_add, ← Nat.mul_assoc]; exact Nat.mul_lt_mul_right hp
  have h2 : (2 * (m % 2 ^ k * 2 ^ j) = 2 ^ (k + j)) ↔ (2 * (m % 2 ^ k) = 2 ^ k) := by
    rw [Nat.pow_add, ← Nat.mul_assoc]; exact Nat.mul_left_inj (Nat.ne_of_gt hp)
  unfold roundShift
  rw [hd, hm]
  simp only [h1, h2]

theorem roundShift_exact (m k : Nat) : roundShift (m * 2 ^ k) k = m := by
  have := roundShift_scale m 0 k
  rw [Nat.zero_add] at this
  rw [this, roundShift_zero]

theorem roundShift_mono {m m' : Nat} (h : m ≤ m') (k : Nat) : roundShift m k ≤ roundShift m' k := by
  have hd : m / 2 ^ k ≤ m' / 2 ^ k := Nat.div_le_div_right h
  have e1 := Nat.div_add_mod m (2 ^ k)
  have e2 := Nat.div_add_mod m' (2 ^ k)
  unfold roundShift
  rw [Nat.shiftRight_eq_div_pow, Nat.shiftRight_eq_div_pow]
  rcases Nat.lt_or_ge (m / 2 ^ k) (m' / 2 ^ k) with hlt | hge
  · simp only; split <;> split <;> omega
  · have he : m / 2 ^ k = m' / 2 ^ k := Nat.le_antisymm hd hge
    rw [he] at e1 ⊢
    have hr : m % 2 ^ k ≤ m' % 2 ^ k := by omega
    simp only; split <;> split <;> omega

/-! ### `roundMag` -/

theorem log2_mul_pow {m : Nat} (h : m ≠ 0) (j : Nat) : (m * 2 ^ j).log2 = m.log2 + j := by
  have hp := Nat.two_pow_pos j
  have h1 := Nat.log2_self_le h
  have h2 : m < 2 ^ (m.log2 + 1) := Nat.lt_log2_self
  rw [Nat.log2_eq_iff (Nat.mul_ne_zero h (Nat.ne_of_gt hp))]
  constructor
  · rw [Nat.pow_add]; exact Nat.mul_le_mul_right _ h1
  · have : m.log2 + j + 1 = (m.log2 + 1) + j := by omega
    rw [this, Nat.pow_add]; exact Nat.mul_lt_mul_of_pos_right h2 hp

theorem log2_mono {m m' : Nat} (h : m ≠ 0) (hm : m ≤ m') : m.log2 ≤ m'.log2 := by
  have hne : m' ≠ 0 := by omega
  exact (Nat.le_log2 hne).2 (Nat.le_trans (Nat.log2_self_le h) hm)

/-- Scaling the significand up and the exponent down changes nothing. -/
theorem roundMag_scale (prec : Nat) (emin : Int) (inf m : Nat) (e : Int) (j : Nat) :
    roundMag prec emin inf (m * 2 ^ j) (e - j) = roundMag prec emin inf m e := by
  rcases Nat.eq_zero_or_pos m with rfl | hm
  · simp [roundMag]
  have hne : m ≠ 0 := Nat.ne_of_gt hm
  have hp : m * 2 ^ j ≠ 0 := Nat.mul_ne_zero hne (Nat.ne_of_gt (Nat.two_pow_pos j))
  have hl : (m * 2 ^ j).log2 = m.log2 + j := log2_mul_pow hne j
  unfold roundMag
  rw [if_neg hne, if_neg hp, hl]
  have hq : e - (j : Int) + ((m.log2 + j + 1 : Nat) : Int) - (prec : Int) = e + ((m.log2 + 1 : Nat) : Int) - (prec : Int) := by
    push_cast; ring
  simp only [hq]
  generalize max (e + ((m.log2 + 1 : Nat) : Int) - (prec : Int)) emin = q
  congr 2
  by_cases h1 : q ≤ e
  · rw [if_pos h1]
    by_cases h2 : q ≤ e - j
    · rw [if_pos h2, Nat.shiftLeft_eq, Nat.shiftLeft_eq, Nat.mul_assoc, ← Nat.pow_add]
      congr 2; omega
    · rw [if_neg h2, Nat.shiftLeft_eq]
      have hj : j = (e - q).toNat + (q - (e - (j : Int))).toNat := by omega
      generalize (e - q).toNat = a at hj ⊢
      generalize (q - (e - (j : Int))).toNat = b at hj ⊢
      rw [hj, Nat.pow_add, ← Nat.mul_assoc, roundShift_exact]
  · have h2 : ¬ q ≤ e - j := by omega
    rw [if_neg h1, if_neg h2]
    have hj : (q - (e - (j : Int))).toNat = (q - e).toNat + j := by omega
    rw [hj, roundShift_scale]

/-- The rounding below the least quantum: every quantity a natural number. -/
theorem roundMag_low {prec : Nat} {inf m : Nat} (hm : m ≠ 0) (emin : Int) (d : Nat) :
    roundMag prec emin inf m (emin - d) =
      min ((max (m.log2 + 1 - prec) d - d) * 2 ^ (prec - 1) + roundShift m (max (m.log2 + 1 - prec) d)) inf := by
  unfold roundMag
  rw [if_neg hm]
  set k := max (m.log2 + 1 - prec) d with hk
  have hq : max (emin - (d : Int) + ((m.log2 + 1 : Nat) : Int) - (prec : Int)) emin = emin - d + k := by omega
  simp only [hq]
  have h1 : (emin - (d : Int) + (k : Int) - emin).toNat = k - d := by omega
  rw [h1]
  by_cases h0 : k = 0
  · have hle : emin - (d : Int) + (k : Int) ≤ emin - d := by omega
    have hz : (emin - (d : Int) - (emin - (d : Int) + (k : Int))).toNat = 0 := by omega
    rw [if_pos hle, h0, roundShift_zero]
    simp
  · have hle : ¬ emin - (d : Int) + (k : Int) ≤ emin - d := by omega
    have hz : (emin - (d : Int) + (k : Int) - (emin - (d : Int))).toNat = k := by omega
    rw [if_neg hle, hz]

theorem roundMag_low_mono {prec : Nat} (hprec : 1 ≤ prec) (emin : Int) (inf : Nat) {m m' : Nat} (h : m ≤ m') (d : Nat) :
    roundMag prec emin inf m (emin - d) ≤ roundMag prec emin inf m' (emin - d) := by
  rcases Nat.eq_zero_or_pos m with rfl | hm
  · simp [roundMag]
  have hne : m ≠ 0 := by omega
  have hne' : m' ≠ 0 := by omega
  rw [roundMag_low hne, roundMag_low hne']
  have hlog : m.log2 ≤ m'.log2 := log2_mono hne h
  set k := max (m.log2 + 1 - prec) d with hk
  set k' := max (m'.log2 + 1 - prec) d with hk'
  have hkk : k ≤ k' := by omega
  refine min_le_min ?_ le_rfl
  rcases Nat.lt_or_ge k k' with hlt | hge
  · have hb : 2 ^ (k' + (prec - 1)) ≤ m' := by
      have : k' + (prec - 1) = m'.log2 := by omega
      rw [this]; exact Nat.log2_self_le hne'
    have hlo : 2 ^ (prec - 1) ≤ roundShift m' k' := by
      calc 2 ^ (prec - 1) = roundShift (2 ^ (prec - 1) * 2 ^ k') k' := (roundShift_exact _ _).symm
        _ ≤ roundShift m' k' := roundShift_mono (by rw [← Nat.pow_add, Nat.add_comm]; exact hb) k'
    have hhi : roundShift m k ≤ 2 ^ prec := by
      calc roundShift m k ≤ roundShift (2 ^ prec * 2 ^ k) k := by
            refine roundShift_mono ?_ k
            have h1 : m < 2 ^ (m.log2 + 1) := Nat.lt_log2_self
            have h2 : 2 ^ (m.log2 + 1) ≤ 2 ^ (prec + k) := Nat.pow_le_pow_right (by norm_num) (by omega)
            rw [← Nat.pow_add]; omega
        _ = 2 ^ prec := roundShift_exact _ _
    have hp : 2 ^ prec = 2 * 2 ^ (prec - 1) := by
      rw [← pow_succ']; congr 1; omega
    have hs : k + 1 - d ≤ k' - d := by omega
    have := Nat.mul_le_mul_right (2 ^ (prec - 1)) hs
    have hkd : k + 1 - d = (k - d) + 1 := by omega
    rw [hkd, Nat.add_mul] at this
    omega
  · have he : k = k' := by omega
    rw [he]
    have := roundShift_mono h k'
    omega

/-- Rounding is monotone in the value: `m * 2 ^ e ≤ m' * 2 ^ e'`, said at a common exponent. -/
theorem roundMag_mono {prec : Nat} (hprec : 1 ≤ prec) (emin : Int) (inf : Nat) {m m' : Nat} {e e' : Int} (a b : Nat)
    (hab : e - a = e' - b) (h : m * 2 ^ a ≤ m' * 2 ^ b) :
    roundMag prec emin inf m e ≤ roundMag prec emin inf m' e' := by
  rw [← roundMag_scale prec emin inf m e a, ← roundMag_scale prec emin inf m' e' b, hab]
  generalize e' - (b : Int) = x
  obtain ⟨j, d, hj⟩ : ∃ j d : Nat, x - j = emin - d := ⟨(x - emin).toNat, (emin - x).toNat, by omega⟩
  rw [← roundMag_scale prec emin inf _ x j, ← roundMag_scale prec emin inf (m' * 2 ^ b) x j, hj]
  exact roundMag_low_mono hprec emin inf (Nat.mul_le_mul_right _ h) d

theorem roundMag_le_inf (prec : Nat) (emin : Int) (inf m : Nat) (e : Int) : roundMag prec emin inf m e ≤ inf := by
  unfold roundMag; split
  · exact Nat.zero_le _
  · exact Nat.min_le_right _ _

/-! ### Patterns -/

theorem magOf_lt (x : F64) : magOf x < 2 ^ 63 := Nat.mod_lt _ (by norm_num)

theorem isNeg_pack {n : Bool} {m : Nat} (h : m < 2 ^ 63) : isNeg (pack n m) = n := by
  cases n <;> simp [isNeg, pack] <;> omega

theorem magOf_pack {n : Bool} {m : Nat} (h : m < 2 ^ 63) : magOf (pack n m) = m := by
  cases n <;> simp [magOf, pack] <;> omega

theorem pack_self (x : F64) : pack (isNeg x) (magOf x) = x := by
  apply BitVec.eq_of_toNat_eq
  have := x.isLt
  by_cases h : 2 ^ 63 ≤ x.toNat
  · simp only [pack, isNeg, magOf, h, decide_true, BitVec.toNat_ofNat, if_true]; omega
  · simp only [pack, isNeg, magOf, h, decide_false, BitVec.toNat_ofNat, Bool.false_eq_true, if_false]; omega

theorem magOf_ext {x y : F64} (hn : isNeg x = isNeg y) (hm : magOf x = magOf y) : x = y := by
  rw [← pack_self x, ← pack_self y, hn, hm]

theorem round64_le (m : Nat) (e : Int) : round64 m e ≤ infMag := roundMag_le_inf ..

theorem round64_lt (m : Nat) (e : Int) : round64 m e < 2 ^ 63 := by
  have := round64_le m e
  simp only [infMag] at this; omega

@[simp] theorem isNeg_round (n : Bool) (m : Nat) (e : Int) : isNeg (pack n (round64 m e)) = n := isNeg_pack (round64_lt m e)

@[simp] theorem magOf_round (n : Bool) (m : Nat) (e : Int) : magOf (pack n (round64 m e)) = round64 m e := magOf_pack (round64_lt m e)

theorem isNaN_pack {n : Bool} {m : Nat} (h : m ≤ infMag) : isNaN (pack n m) = false := by
  have h63 : m < 2 ^ 63 := by simp only [infMag] at h; omega
  simp [isNaN, magOf_pack h63, h]

@[simp] theorem isNaN_round (n : Bool) (m : Nat) (e : Int) : isNaN (pack n (round64 m e)) = false := isNaN_pack (round64_le m e)

theorem isNaN_nanResult (op : Nat) (a b : F64) : isNaN (nanResult op a b) = true := by
  have h : (0x7FF8000000000000 : Nat) ≤ magOf (nanResult op a b) := by
    have hand : magOf (nanResult op a b) &&& 0x7FF8000000000000 = 0x7FF8000000000000 := by
      unfold magOf nanResult
      apply Nat.eq_of_testBit_eq
      intro i
      rw [Nat.testBit_and, Nat.testBit_mod_two_pow, BitVec.toNat_or, Nat.testBit_or]
      have hc : (0x7FF8000000000000#64).toNat = 0x7FF8000000000000 := rfl
      rw [hc]
      by_cases hi : i < 63
      · simp [hi]; intro h; left; exact h
      · have : Nat.testBit 0x7FF8000000000000 i = false :=
          Nat.testBit_lt_two_pow (Nat.lt_of_lt_of_le (by norm_num : 0x7FF8000000000000 < 2 ^ 63) (Nat.pow_le_pow_right (by norm_num) (by omega)))
        simp [this]
    rw [← hand]; exact Nat.and_le_left
  have : infMag < magOf (nanResult op a b) := by simp only [infMag]; omega
  simp [isNaN, this]

/-! ### Exactness -/

theorem expOf_ge (x : F64) : -1074 ≤ expOf x := by unfold expOf; omega

theorem sigOf_lt (x : F64) : sigOf x < 2 ^ 53 := by
  unfold sigOf; split
  · have := Nat.div_add_mod (magOf x) (2 ^ 52); omega
  · have := Nat.mod_lt (magOf x) (show 0 < 2 ^ 52 by norm_num); omega

/-- A finite value as a multiple of the least quantum `2 ^ -1074`. -/
def unitsOf (x : F64) : Nat := sigOf x * 2 ^ (expOf x + 1074).toNat

theorem round64_scale (m : Nat) (e : Int) (j : Nat) : round64 (m * 2 ^ j) (e - j) = round64 m e := roundMag_scale ..

/-- A number of a format with `f` fraction bits is its own rounding. -/
theorem roundMag_self (f : Nat) (emin : Int) (inf mag : Nat) (h : mag < inf) :
    roundMag (f + 1) emin inf (if mag / 2 ^ f = 0 then mag else 2 ^ f + mag % 2 ^ f) (((mag / 2 ^ f - 1 : Nat) : Int) + emin) = mag := by
  have hpos := Nat.two_pow_pos f
  have hdm := Nat.div_add_mod mag (2 ^ f)
  have hml := Nat.mod_lt mag hpos
  unfold roundMag
  by_cases he : mag / 2 ^ f = 0
  · rw [if_pos he, he]
    by_cases hz : mag = 0
    · simp [hz]
    rw [if_neg hz]
    have hlog : mag.log2 < f := (Nat.log2_lt hz).2 (by rw [he] at hdm; omega)
    have hq : max ((((0 - 1 : Nat) : Int) + emin) + ((mag.log2 + 1 : Nat) : Int) - ((f + 1 : Nat) : Int)) emin = emin := by omega
    simp only [hq]
    rw [if_pos (by omega)]
    simp only [Nat.zero_sub, Nat.cast_zero, zero_add, sub_self, Int.toNat_zero, Nat.zero_mul, Nat.shiftLeft_zero]
    exact Nat.min_eq_left (Nat.le_of_lt h)
  · rw [if_neg he]
    have hz : 2 ^ f + mag % 2 ^ f ≠ 0 := by omega
    rw [if_neg hz]
    have hlog : (2 ^ f + mag % 2 ^ f).log2 = f := by
      rw [Nat.log2_eq_iff hz]; constructor
      · omega
      · rw [pow_succ]; omega
    have hq : max ((((mag / 2 ^ f - 1 : Nat) : Int) + emin) + (((2 ^ f + mag % 2 ^ f).log2 + 1 : Nat) : Int) - ((f + 1 : Nat) : Int)) emin =
        ((mag / 2 ^ f - 1 : Nat) : Int) + emin := by
      rw [hlog]; generalize mag / 2 ^ f - 1 = d; omega
    simp only [hq]
    rw [if_pos le_rfl]
    simp only [sub_self, Int.toNat_zero, Nat.shiftLeft_zero, Nat.add_sub_cancel]
    have h1 : ∀ d : Nat, ((d : Int) + emin - emin).toNat = d := fun d => by omega
    rw [h1]
    have h2 : (mag / 2 ^ f - 1) * 2 ^ f + 2 ^ f = 2 ^ f * (mag / 2 ^ f) := by
      obtain ⟨k, hk⟩ : ∃ k, mag / 2 ^ f = k + 1 := Nat.exists_eq_succ_of_ne_zero he
      rw [hk]; simp; ring
    omega

/-- A binary64 number is its own rounding. -/
theorem round64_self {x : F64} (h : isFinite x = true) : round64 (sigOf x) (expOf x) = magOf x := by
  have hfin : magOf x < infMag := by simpa [isFinite] using h
  exact roundMag_self 52 (-1074) infMag (magOf x) hfin

theorem round64_units {x : F64} (h : isFinite x = true) : round64 (unitsOf x) (-1074) = magOf x := by
  have := round64_scale (sigOf x) (expOf x) (expOf x + 1074).toNat
  have he : expOf x - ((expOf x + 1074).toNat : Int) = -1074 := by have := expOf_ge x; omega
  rw [he] at this
  rw [unitsOf, this, round64_self h]

theorem round64_mono {m m' : Nat} {e e' : Int} (a b : Nat) (hab : e - a = e' - b) (h : m * 2 ^ a ≤ m' * 2 ^ b) :
    round64 m e ≤ round64 m' e' := roundMag_mono (by norm_num) _ _ a b hab h

/-- The order of magnitudes is the order of the values. -/
theorem unitsOf_le {x y : F64} (hx : isFinite x = true) (hy : isFinite y = true) (h : magOf x ≤ magOf y) : unitsOf x ≤ unitsOf y := by
  by_contra hlt
  have h1 : magOf y ≤ magOf x := by
    rw [← round64_units hx, ← round64_units hy]
    exact round64_mono 0 0 rfl (by omega)
  have he : magOf x = magOf y := Nat.le_antisymm h h1
  have : unitsOf x = unitsOf y := by simp [unitsOf, sigOf, expOf, he]
  omega

/-! ### Signed values -/

/-- A finite value, with its sign, as a multiple of the least quantum. -/
def valueOf (x : F64) : Int := signed (isNeg x) (unitsOf x)

/-- The order key of the rounding of a value. -/
def roundKey (v : Int) : Int := signed (decide (v < 0)) (round64 v.natAbs (-1074))

theorem roundKey_mono {v w : Int} (h : v ≤ w) : roundKey v ≤ roundKey w := by
  unfold roundKey
  by_cases hv : v < 0 <;> by_cases hw : w < 0
  · have := round64_mono (m := w.natAbs) (m' := v.natAbs) (e := -1074) (e' := -1074) 0 0 rfl (by omega)
    simp [hv, hw, signed]; omega
  · simp only [hv, hw, signed, decide_true, decide_false, if_true, Bool.false_eq_true, if_false]; omega
  · omega
  · have := round64_mono (m := v.natAbs) (m' := w.natAbs) (e := -1074) (e' := -1074) 0 0 rfl (by omega)
    simp [hv, hw, signed]; omega

theorem round64_zero (e : Int) : round64 0 e = 0 := by simp [round64, roundMag]

theorem roundKey_value {x : F64} (h : isFinite x = true) : roundKey (valueOf x) = ordKey x := by
  have hu := round64_units h
  unfold roundKey valueOf ordKey signed
  cases hn : isNeg x
  · have : ¬ ((unitsOf x : Nat) : Int) < 0 := by omega
    simp [this, hu]
  · by_cases hz : unitsOf x = 0
    · rw [hz, round64_zero] at hu
      simp [hz, ← hu, round64_zero]
    · have : (-((unitsOf x : Nat) : Int)) < 0 := by omega
      simp only [if_true, this, decide_true, Int.natAbs_neg, Int.natAbs_natCast, hu]

theorem value_mono {x y : F64} (hx : isFinite x = true) (hy : isFinite y = true) (h : ordKey x ≤ ordKey y) : valueOf x ≤ valueOf y := by
  have h1 := @unitsOf_le x y hx hy
  have h2 := @unitsOf_le y x hy hx
  have hz : ∀ z : F64, magOf z = 0 → unitsOf z = 0 := by
    intro z hz; simp [unitsOf, sigOf, hz]
  unfold ordKey signed at h
  unfold valueOf signed
  cases hnx : isNeg x <;> cases hny : isNeg y <;> simp [hnx, hny] at h ⊢
  · exact_mod_cast h1 h
  · have h3 := hz x (by omega)
    have h4 := hz y (by omega)
    omega
  · exact h2 h

theorem not_nan_of_finite {x : F64} (h : isFinite x = true) : isNaN x = false := by
  simp [isFinite] at h; simp [isNaN]; omega

theorem not_inf_of_finite {x : F64} (h : isFinite x = true) : isInf x = false := by
  simp [isFinite] at h; simp [isInf]; omega

/-- Addition of finite values is the rounding of the exact sum. -/
theorem fadd_finite {a b : F64} (ha : isFinite a = true) (hb : isFinite b = true) :
    fadd a b = if valueOf a + valueOf b = 0 then pack (isNeg a && isNeg b) 0
      else pack (decide (valueOf a + valueOf b < 0)) (round64 (valueOf a + valueOf b).natAbs (-1074)) := by
  unfold fadd
  simp only [not_nan_of_finite ha, not_nan_of_finite hb, not_inf_of_finite ha, not_inf_of_finite hb, Bool.or_self,
    Bool.false_eq_true, if_false]
  have ga := expOf_ge a
  have gb := expOf_ge b
  set e := min (expOf a) (expOf b) with he
  set j := (e + 1074).toNat with hj
  have key : ∀ x : F64, e ≤ expOf x → signed (isNeg x) (sigOf x <<< (expOf x - e).toNat) * (2 ^ j : Nat) = valueOf x := by
    intro x hx
    have : sigOf x <<< (expOf x - e).toNat * 2 ^ j = unitsOf x := by
      rw [Nat.shiftLeft_eq, Nat.mul_assoc, ← Nat.pow_add, unitsOf]
      congr 2; omega
    unfold valueOf signed
    split <;> rw [← this] <;> push_cast <;> ring
  have ka := key a (by omega)
  have kb := key b (by omega)
  generalize signed (isNeg a) (sigOf a <<< (expOf a - e).toNat) = ta at *
  generalize signed (isNeg b) (sigOf b <<< (expOf b - e).toNat) = tb at *
  have hs : valueOf a + valueOf b = (ta + tb) * (2 ^ j : Nat) := by rw [← ka, ← kb]; ring
  have hpos : (0 : Int) < (2 ^ j : Nat) := by exact_mod_cast Nat.two_pow_pos j
  rw [hs]
  by_cases hz : ta + tb = 0
  · simp [hz]
  · have hz' : (ta + tb) * (2 ^ j : Nat) ≠ 0 := mul_ne_zero hz (ne_of_gt hpos)
    have hl : (ta + tb) * (2 ^ j : Nat) < 0 ↔ ta + tb < 0 := by
      constructor
      · intro h; by_contra hc; have := mul_nonneg (not_lt.1 hc) (le_of_lt hpos); omega
      · intro h; exact mul_neg_of_neg_of_pos h hpos
    rw [if_neg hz, if_neg hz']
    simp only [hl, Int.natAbs_mul, Int.natAbs_natCast]
    have := round64_scale (ta + tb).natAbs e j
    have hej : e - (j : Int) = -1074 := by omega
    rw [hej] at this
    rw [this]

theorem ordKey_fadd {a b : F64} (ha : isFinite a = true) (hb : isFinite b = true) :
    ordKey (fadd a b) = roundKey (valueOf a + valueOf b) := by
  rw [fadd_finite ha hb]
  unfold roundKey ordKey
  split
  · rename_i h
    rw [h, magOf_pack (by norm_num)]
    simp [round64_zero, signed]
  · simp

theorem isNaN_fadd {a b : F64} (ha : isFinite a = true) (hb : isFinite b = true) : isNaN (fadd a b) = false := by
  rw [fadd_finite ha hb]
  split
  · exact isNaN_pack (Nat.zero_le _)
  · simp

theorem isFinite_fneg (x : F64) : isFinite (fneg x) = isFinite x := by simp [isFinite, magOf_fneg]

theorem valueOf_fneg (x : F64) : valueOf (fneg x) = -valueOf x := by
  unfold valueOf
  rw [isNeg_fneg, show unitsOf (fneg x) = unitsOf x by simp [unitsOf, sigOf, expOf, magOf_fneg]]
  cases isNeg x <;> simp [signed]

/-! ### `min`, `max`, `clamp` -/

theorem tied_cases (max : Bool) (a b : F64) : tied max a b = a ∨ tied max a b = b := by
  unfold tied; split
  · exact .inl rfl
  · split
    · exact .inl rfl
    · exact .inr rfl

/-- `max` of two values is one of them, and its key is the greater. -/
theorem fmax_spec {a b : F64} (ha : isNaN a = false) (hb : isNaN b = false) :
    (fmax a b = a ∨ fmax a b = b) ∧ ordKey (fmax a b) = max (ordKey a) (ordKey b) := by
  unfold fmax flt
  simp only [ha, hb, Bool.not_false, Bool.true_and, decide_eq_true_eq]
  split
  · exact ⟨.inr rfl, by omega⟩
  · split
    · exact ⟨.inl rfl, by omega⟩
    · refine ⟨tied_cases _ a b, ?_⟩
      rcases tied_cases _ a b with h | h <;> rw [h] <;> omega

/-- `min` of two values is one of them, and its key is the lesser. -/
theorem fmin_spec {a b : F64} (ha : isNaN a = false) (hb : isNaN b = false) :
    (fmin a b = a ∨ fmin a b = b) ∧ ordKey (fmin a b) = min (ordKey a) (ordKey b) := by
  unfold fmin flt
  simp only [ha, hb, Bool.not_false, Bool.true_and, decide_eq_true_eq]
  split
  · exact ⟨.inr rfl, by omega⟩
  · split
    · exact ⟨.inl rfl, by omega⟩
    · refine ⟨tied_cases _ a b, ?_⟩
      rcases tied_cases _ a b with h | h <;> rw [h] <;> omega

theorem isNaN_fmax {a b : F64} (ha : isNaN a = false) (hb : isNaN b = false) : isNaN (fmax a b) = false := by
  rcases (fmax_spec ha hb).1 with h | h <;> rw [h] <;> assumption

theorem isNaN_fmin {a b : F64} (ha : isNaN a = false) (hb : isNaN b = false) : isNaN (fmin a b) = false := by
  rcases (fmin_spec ha hb).1 with h | h <;> rw [h] <;> assumption

/-! ### Neutral elements -/

theorem fmul_one {x : F64} (h : isFinite x = true) : fmul x f1 = x := by
  have h1 : isNaN f1 = false := by decide
  have h2 : isInf f1 = false := by decide
  have h3 : sigOf f1 = 2 ^ 52 := by decide
  have h4 : expOf f1 = -52 := by decide
  have h5 : isNeg f1 = false := by decide
  unfold fmul
  simp only [not_nan_of_finite h, not_inf_of_finite h, h1, h2, h3, h4, h5, Bool.or_self, Bool.false_eq_true, if_false]
  have := round64_scale (sigOf x) (expOf x) 52
  have he : expOf x + -52 = expOf x - (52 : Nat) := by omega
  rw [he, this, round64_self h]
  simp [pack_self]

/-! ### binary32 -/

/-- The significand a binary32 sample is widened from. -/
def sig32 (x : F32) : Nat := if magOf32 x / 2 ^ 23 = 0 then magOf32 x else 2 ^ 23 + magOf32 x % 2 ^ 23

theorem round32_self {x : F32} (h : isFinite32 x = true) :
    round32 (sig32 x) (((magOf32 x / 2 ^ 23 - 1 : Nat) : Int) - 149) = magOf32 x := by
  have hfin : magOf32 x < 0x7F800000 := of_decide_eq_true h
  exact roundMag_self 23 (-149) 0x7F800000 (magOf32 x) hfin

theorem sig32_lt (x : F32) : sig32 x < 2 ^ 24 := by
  unfold sig32; split
  · have := Nat.div_add_mod (magOf32 x) (2 ^ 23); omega
  · have := Nat.mod_lt (magOf32 x) (show 0 < 2 ^ 23 by norm_num); omega

theorem pack32_self (x : F32) : pack32 (isNeg32 x) (magOf32 x) = x := by
  apply BitVec.eq_of_toNat_eq
  have := x.isLt
  by_cases h : 2 ^ 31 ≤ x.toNat
  · simp only [pack32, isNeg32, magOf32, h, decide_true, BitVec.toNat_ofNat, if_true]; omega
  · simp only [pack32, isNeg32, magOf32, h, decide_false, BitVec.toNat_ofNat, Bool.false_eq_true, if_false]; omega

theorem widen_finite_eq {x : F32} (h : isFinite32 x = true) :
    widen x = pack (isNeg32 x) (round64 (sig32 x) (((magOf32 x / 2 ^ 23 - 1 : Nat) : Int) - 149)) := by
  have hfin : magOf32 x < infMag32 := by simpa [isFinite32] using h
  unfold widen
  rw [if_neg (by omega), if_neg (by omega)]
  rfl

/-- A significand of at most 24 bits at a binary32 exponent is a binary64 number: what its rounding's fields are. -/
theorem round64_narrow {m : Nat} {e : Int} (hm : m ≠ 0) (hlt : m < 2 ^ 24) (h1 : -149 ≤ e) (h2 : e ≤ 104) :
    round64 m e < infMag ∧ ∃ j : Nat, ∀ x, magOf x = round64 m e → sigOf x = m * 2 ^ j ∧ expOf x = e - j := by
  have hlog : m.log2 < 24 := (Nat.log2_lt hm).2 hlt
  have hlo := Nat.log2_self_le hm
  have hhi : m < 2 ^ (m.log2 + 1) := Nat.lt_log2_self
  have hval : round64 m e = min ((e + m.log2 - 52 + 1074).toNat * 2 ^ 52 + m * 2 ^ (52 - m.log2)) infMag := by
    unfold round64 roundMag
    rw [if_neg hm]
    have hq : max (e + ((m.log2 + 1 : Nat) : Int) - ((53 : Nat) : Int)) (-1074) = e + m.log2 - 52 := by omega
    simp only [hq]
    rw [if_pos (by omega), Nat.shiftLeft_eq]
    have : (e - (e + (m.log2 : Int) - 52)).toNat = 52 - m.log2 := by omega
    rw [this]
    norm_num
  have hb1 : 2 ^ 52 ≤ m * 2 ^ (52 - m.log2) := by
    calc 2 ^ 52 = 2 ^ m.log2 * 2 ^ (52 - m.log2) := by rw [← Nat.pow_add]; congr 1; omega
      _ ≤ _ := Nat.mul_le_mul_right _ hlo
  have hb2 : m * 2 ^ (52 - m.log2) < 2 ^ 53 := by
    calc m * 2 ^ (52 - m.log2) < 2 ^ (m.log2 + 1) * 2 ^ (52 - m.log2) := Nat.mul_lt_mul_of_pos_right hhi (Nat.two_pow_pos _)
      _ = 2 ^ 53 := by rw [← Nat.pow_add]; congr 1; omega
  set n := m * 2 ^ (52 - m.log2) with hn
  set q := (e + m.log2 - 52 + 1074).toNat with hq
  have hqv : (q : Int) = e + m.log2 - 52 + 1074 := by omega
  have hqb : q ≤ 1149 := by omega
  have hlt' : q * 2 ^ 52 + n < infMag := by simp only [infMag]; omega
  rw [Nat.min_eq_left (Nat.le_of_lt hlt')] at hval
  refine ⟨by rw [hval]; exact hlt', 52 - m.log2, fun x hx => ?_⟩
  rw [hval] at hx
  have hdiv : magOf x / 2 ^ 52 = q + 1 := by omega
  have hmod : magOf x % 2 ^ 52 = n - 2 ^ 52 := by omega
  constructor
  · unfold sigOf; rw [if_neg (by omega), hmod]; omega
  · unfold expOf; omega

/-- A finite sample widens to a finite number (00_scope.md R12). -/
theorem isFinite_widen {x : F32} (h : isFinite32 x = true) : isFinite (widen x) = true := by
  have hfin : magOf32 x < infMag32 := by simpa [isFinite32] using h
  rw [widen_finite_eq h]
  by_cases hm : sig32 x = 0
  · simp [isFinite, hm, round64_zero, infMag, magOf_pack]
  · have := (round64_narrow hm (sig32_lt x) (e := ((magOf32 x / 2 ^ 23 - 1 : Nat) : Int) - 149) (by omega)
      (by simp only [infMag32] at hfin; omega)).1
    simpa only [isFinite, magOf_round, decide_eq_true_eq] using this

/-- Rounding a widened finite sample gives the sample back, so a product by 1 is output bit for bit (43_shelving.md R317). -/
theorem fround_widen {x : F32} (h : isFinite32 x = true) : fround (widen x) = x := by
  have hfin : magOf32 x < infMag32 := by simpa [isFinite32] using h
  have hw := isFinite_widen h
  have hmag : magOf (widen x) = round64 (sig32 x) (((magOf32 x / 2 ^ 23 - 1 : Nat) : Int) - 149) := by
    rw [widen_finite_eq h, magOf_round]
  have hneg : isNeg (widen x) = isNeg32 x := by rw [widen_finite_eq h, isNeg_round]
  have hself := round32_self h
  unfold fround
  simp only [not_nan_of_finite hw, not_inf_of_finite hw, Bool.false_eq_true, if_false, hneg]
  suffices round32 (sigOf (widen x)) (expOf (widen x)) = magOf32 x by rw [this, pack32_self]
  by_cases hm : sig32 x = 0
  · rw [hm, round64_zero] at hmag
    rw [hm] at hself
    have : sigOf (widen x) = 0 := by simp [sigOf, hmag]
    rw [this, ← hself]
    simp [round32, roundMag]
  · obtain ⟨-, j, hj⟩ := round64_narrow hm (sig32_lt x) (e := ((magOf32 x / 2 ^ 23 - 1 : Nat) : Int) - 149) (by omega)
      (by simp only [infMag32] at hfin; omega)
    obtain ⟨h1, h2⟩ := hj _ hmag
    rw [h1, h2]
    exact (roundMag_scale 24 (-149) 0x7F800000 (sig32 x) _ j).trans hself

theorem isFinite32_san32 (x : F32) : isFinite32 (san32 x) = true := by
  unfold san32; split
  · assumption
  · decide

/-- An input sample is finite when a unit reads it (00_scope.md R13). -/
theorem isFinite_sample (x : F32) : isFinite (sample x) = true := isFinite_widen (isFinite32_san32 x)

/-! ### The unit interval -/

theorem key_nonneg_mag {x : F64} (h : isNeg x = false) : ordKey x = magOf x := by simp [ordKey, signed, h]

/-- A value in [0, 1] is finite. -/
theorem isFinite_of_le_one {x : F64} (h0 : 0 ≤ ordKey x) (h1 : ordKey x ≤ ordKey f1) : isFinite x = true := by
  have : (ordKey f1 : Int) = 0x3FF0000000000000 := by decide
  rw [this] at h1
  unfold ordKey signed at h0 h1
  have : infMag = 0x7FF0000000000000 := rfl
  simp only [isFinite, decide_eq_true_eq]
  split at h0 <;> rename_i hh <;> simp only [hh, if_true, if_false, Bool.false_eq_true] at h1 <;> omega

/-- A finite value over itself is 1, unless it is a zero. -/
theorem fdiv_self {x : F64} (h : isFinite x = true) (hz : isZero x = false) : fdiv x x = f1 := by
  have hs : 0 < sigOf x := by
    unfold sigOf
    simp only [isZero, decide_eq_false_iff_not] at hz
    split <;> omega
  have hd : sigOf x <<< 120 = sigOf x * 2 ^ 120 := Nat.shiftLeft_eq ..
  have hm : 2 * (sigOf x <<< 120 / sigOf x) + (if sigOf x <<< 120 % sigOf x = 0 then 0 else 1) = 1 * 2 ^ 121 := by
    rw [hd, Nat.mul_div_cancel_left _ hs, Nat.mul_mod_right, if_pos rfl]
    norm_num
  simp only [fdiv, not_nan_of_finite h, not_inf_of_finite h, hz, Bool.or_self, Bool.false_eq_true, if_false]
  rw [hm, show expOf x - expOf x - 121 = (0 : Int) - (121 : Nat) by omega, round64_scale]
  cases isNeg x <;> decide

theorem isZero_of_pos {x : F64} (h : flt f0 x = true) : isZero x = false := by
  obtain ⟨-, -, h⟩ := (flt_iff _ _).1 h
  rw [show ordKey f0 = 0 by decide] at h
  simp only [isZero, decide_eq_false_iff_not]
  intro hz
  simp [ordKey, hz, signed] at h

theorem isNeg_of_pos {x : F64} (h : flt f0 x = true) : isNeg x = false := by
  obtain ⟨-, -, h⟩ := (flt_iff _ _).1 h
  rw [show ordKey f0 = 0 by decide] at h
  cases hn : isNeg x
  · rfl
  · simp only [ordKey, signed, hn, if_true] at h
    omega

/-- +0 over a positive finite value. -/
theorem fdiv_zero {x : F64} (h : isFinite x = true) (hn : isNeg x = false) (hz : isZero x = false) : fdiv f0 x = f0 := by
  have c : isNaN f0 = false ∧ isInf f0 = false ∧ isNeg f0 = false ∧ sigOf f0 = 0 := by decide
  simp only [fdiv, c, not_nan_of_finite h, not_inf_of_finite h, hz, hn, Bool.or_self, Bool.false_eq_true, if_false, Nat.zero_shiftLeft, Nat.zero_div, Nat.zero_mod, if_true, Nat.mul_zero, Nat.add_zero, round64_zero]
  decide

/-- `1 / b` for `b` at or above 1 lies in [0, 1]. -/
theorem fdiv_one {b : F64} (h : fle f1 b = true) : isFinite (fdiv f1 b) = true ∧ isNeg (fdiv f1 b) = false ∧ magOf (fdiv f1 b) ≤ magOf f1 := by
  obtain ⟨h1, h2, h3⟩ := (fle_iff _ _).1 h
  have k1 : ordKey f1 = 0x3FF0000000000000 := by decide
  rw [k1] at h3
  have hneg : isNeg b = false := by
    by_contra hc
    simp only [Bool.not_eq_false] at hc
    simp only [ordKey, signed, hc, if_true] at h3
    omega
  rw [key_nonneg_mag hneg] at h3
  have h3 : 0x3FF0000000000000 ≤ magOf b := by exact_mod_cast h3
  have f1neg : isNeg f1 = false := by decide
  have f1nan : isNaN f1 = false := by decide
  have f1inf : isInf f1 = false := by decide
  have m1 : magOf f1 = 0x3FF0000000000000 := by decide
  have hm : infMag = 0x7FF0000000000000 := rfl
  have fin : ∀ m, m ≤ magOf f1 → isFinite (pack false m) = true ∧ isNeg (pack false m) = false ∧ magOf (pack false m) ≤ magOf f1 := by
    intro m hm'
    have hlt : m < 2 ^ 63 := by rw [m1] at hm'; omega
    refine ⟨?_, isNeg_pack hlt, by rw [magOf_pack hlt]; exact hm'⟩
    simp only [isFinite, magOf_pack hlt, decide_eq_true_eq]; rw [m1] at hm'; omega
  have hz : isZero b = false := by simp [isZero]; omega
  unfold fdiv
  simp only [f1nan, h2, Bool.or_self, Bool.false_eq_true, if_false, f1inf, hz, f1neg, hneg, bne_self_eq_false]
  split
  · exact fin 0 (Nat.zero_le _)
  · apply fin
    have hsig : 2 ^ 52 ≤ sigOf b := by
      unfold sigOf; split <;> omega
    have hs1 : sigOf f1 = 2 ^ 52 := by decide
    have he1 : expOf f1 = -52 := by decide
    rw [hs1, he1]
    have hk : round64 1 0 = magOf f1 := by decide +kernel
    rw [← hk]
    have heb : -52 ≤ expOf b := by unfold expOf; omega
    set eb := expOf b
    have hq : (2 ^ 52 <<< 120 : Nat) = 2 ^ 172 := by decide
    rw [hq]
    have hm2 : 2 * (2 ^ 172 / sigOf b) + (if 2 ^ 172 % sigOf b = 0 then 0 else 1) ≤ 2 ^ 121 := by
      have d := Nat.div_add_mod (2 ^ 172) (sigOf b)
      have l : 2 ^ 52 * (2 ^ 172 / sigOf b) ≤ sigOf b * (2 ^ 172 / sigOf b) := Nat.mul_le_mul_right _ hsig
      split <;> omega
    refine round64_mono 0 (173 + eb).toNat (by omega) ?_
    calc _ ≤ 2 ^ 121 * 2 ^ 0 := Nat.mul_le_mul_right _ hm2
      _ = 2 ^ 121 := by norm_num
      _ ≤ 2 ^ (173 + eb).toNat := Nat.pow_le_pow_right (by norm_num) (by omega)
      _ = 1 * 2 ^ (173 + eb).toNat := by rw [Nat.one_mul]

/-! ### The interval [-1, 1] -/

/-- A value lies in [-1, 1] when its magnitude is at most that of 1. -/
theorem unit_iff_mag (x : F64) : (fle fNeg1 x = true ∧ fle x f1 = true) ↔ magOf x ≤ magOf f1 := by
  have k : ordKey fNeg1 = -0x3FF0000000000000 ∧ ordKey f1 = 0x3FF0000000000000 ∧ magOf f1 = 0x3FF0000000000000 ∧ isNaN fNeg1 = false ∧
      isNaN f1 = false := by decide
  have hi : infMag = 0x7FF0000000000000 := rfl
  rw [fle_iff, fle_iff, k.1, k.2.1, k.2.2.1, k.2.2.2.1, k.2.2.2.2]
  unfold ordKey signed isNaN
  simp only [decide_eq_false_iff_not]
  cases isNeg x <;> simp only [Bool.false_eq_true, if_true, if_false, true_and] <;> omega

theorem isFinite_of_mag {x : F64} (h : magOf x ≤ magOf f1) : isFinite x = true := by
  have : magOf f1 = 0x3FF0000000000000 ∧ infMag = 0x7FF0000000000000 := by decide
  simp only [isFinite, decide_eq_true_eq]
  omega

/-- A factor in [-1, 1] raises no magnitude. -/
theorem fmul_mag_le {k s : F64} (hk : isFinite k = true) (hs : magOf s ≤ magOf f1) :
    isNaN (fmul k s) = false ∧ isNeg (fmul k s) = (isNeg k != isNeg s) ∧ magOf (fmul k s) ≤ magOf k := by
  have fs := isFinite_of_mag hs
  have hsig : sigOf s ≤ 2 ^ (-expOf s).toNat := by
    have m1 : magOf f1 = 0x3FF0000000000000 := by decide
    have he : expOf s ≤ -52 := by unfold expOf; omega
    by_cases hc : expOf s = -52
    · rw [hc]
      unfold expOf at hc
      unfold sigOf
      rw [show (-(-52 : Int)).toNat = 52 from rfl]
      split <;> omega
    · exact Nat.le_trans (Nat.le_of_lt (sigOf_lt s)) (Nat.pow_le_pow_right (by norm_num) (by omega))
  have hr : round64 (sigOf k * sigOf s) (expOf k + expOf s) ≤ magOf k := by
    rw [← round64_self hk]
    have he : expOf s ≤ 0 := by
      have m1 : magOf f1 = 0x3FF0000000000000 := by decide
      unfold expOf; omega
    refine round64_mono 0 (-expOf s).toNat (by omega) ?_
    rw [pow_zero, Nat.mul_one]
    exact Nat.mul_le_mul_left _ hsig
  simp only [fmul, not_nan_of_finite hk, not_inf_of_finite hk, not_nan_of_finite fs, not_inf_of_finite fs, Bool.or_self, Bool.false_eq_true,
    if_false]
  exact ⟨isNaN_pack (round64_le ..), isNeg_pack (round64_lt ..), by rw [magOf_pack (round64_lt ..)]; exact hr⟩

/-- A quotient whose divisor is not a zero and has the greater magnitude lies in [-1, 1]. -/
theorem fdiv_mag_le {a b : F64} (ha : isFinite a = true) (hb : isFinite b = true) (hz : isZero b = false) (h : magOf a ≤ magOf b) :
    isNaN (fdiv a b) = false ∧ magOf (fdiv a b) ≤ magOf f1 := by
  have hu := unitsOf_le ha hb h
  have hs : 0 < sigOf b := by
    unfold sigOf
    simp only [isZero, decide_eq_false_iff_not] at hz
    split <;> omega
  have hd : expOf a ≤ expOf b := by
    unfold expOf
    have := Nat.div_le_div_right (c := 2 ^ 52) h
    omega
  obtain ⟨d, hde⟩ : ∃ d : Nat, expOf b = expOf a + d := ⟨(expOf b - expOf a).toNat, by omega⟩
  have hsig : sigOf a ≤ sigOf b * 2 ^ d := by
    have ga := expOf_ge a
    unfold unitsOf at hu
    rw [show (expOf b + 1074).toNat = d + (expOf a + 1074).toNat by omega, Nat.pow_add, ← Nat.mul_assoc] at hu
    exact Nat.le_of_mul_le_mul_right hu (Nat.two_pow_pos _)
  have hm : 2 * (sigOf a <<< 120 / sigOf b) + (if sigOf a <<< 120 % sigOf b = 0 then 0 else 1) ≤ 2 ^ (d + 121) := by
    have hn : sigOf a <<< 120 ≤ sigOf b * 2 ^ (d + 120) := by
      rw [Nat.shiftLeft_eq, Nat.pow_add, ← Nat.mul_assoc]
      exact Nat.mul_le_mul_right _ hsig
    rw [show 2 ^ (d + 121) = 2 * 2 ^ (d + 120) by rw [show d + 121 = d + 120 + 1 by omega, Nat.pow_succ, Nat.mul_comm]]
    generalize sigOf a <<< 120 = n at *
    generalize 2 ^ (d + 120) = p at *
    have hdm := Nat.div_add_mod n (sigOf b)
    have hq : n / sigOf b ≤ p := Nat.div_le_of_le_mul hn
    rcases Nat.lt_or_eq_of_le hq with hlt | heq
    · split <;> omega
    · rw [heq] at hdm ⊢
      rw [if_pos (by omega)]
      omega
  have hr : round64 (2 * (sigOf a <<< 120 / sigOf b) + (if sigOf a <<< 120 % sigOf b = 0 then 0 else 1)) (expOf a - expOf b - 121) ≤
      magOf f1 := by
    rw [show magOf f1 = round64 1 0 by decide +kernel]
    exact round64_mono 0 (d + 121) (by omega) (by omega)
  simp only [fdiv, not_nan_of_finite ha, not_inf_of_finite ha, not_nan_of_finite hb, not_inf_of_finite hb, hz, Bool.or_self,
    Bool.false_eq_true, if_false]
  exact ⟨isNaN_pack (round64_le ..), by rw [magOf_pack (round64_lt ..)]; exact hr⟩

/-- A positive integer converts to a value at or above 1. -/
theorem ofNat_ge_one {n : Nat} (h : 1 ≤ n) : fle f1 (ofNat n) = true := by
  have hk : round64 1 0 = magOf f1 := by decide +kernel
  have h1 : magOf f1 ≤ round64 n 0 := by
    rw [← hk]; exact round64_mono 0 0 rfl (by omega)
  rw [fle_iff]
  refine ⟨by decide, isNaN_pack (round64_le _ _), ?_⟩
  have : ordKey f1 = (magOf f1 : Int) := by decide
  rw [this]
  unfold ofNat
  rw [key_nonneg_mag (isNeg_pack (round64_lt ..)), magOf_pack (round64_lt ..)]
  exact_mod_cast h1

theorem valueOf_nonneg {x : F64} (h : isNeg x = false) : 0 ≤ valueOf x := by simp [valueOf, signed, h]

end Sys2Proof.Machine
end

