-- ==== Sys2Proof/Laws/Numerics.lean ====
section
/-!
SUPPORT. The functions `fExp`, `fCos`, `fTanh` and `fPow` are those of the numerics record, so each law of 00_scope.md R16 holds of them;
and the range of the hybrid sine, which rests on no law.
-/

namespace Sys2Proof.Machine

theorem numerics_lawful : numerics.Lawful := lawfulNumerics.2

/-- The two zero patterns. -/
theorem zero_cases {x : F64} (h : isZero x = true) : x = f0 ∨ x = fneg f0 := by
  have hm : magOf x = magOf f0 := by simpa [isZero, show magOf f0 = 0 by decide] using h
  cases hn : isNeg x
  · exact .inl (magOf_ext (hn.trans (by decide)) hm)
  · exact .inr (magOf_ext (hn.trans (by decide)) (hm.trans (by decide)))

theorem fExp_eq (x : F64) : fExp x = numerics.exp x := by
  unfold fExp
  split
  · rcases zero_cases ‹_› with rfl | rfl
    · exact numerics_lawful.exp_zero.1.symm
    · exact numerics_lawful.exp_zero.2.symm
  · rfl

theorem fCos_eq (x : F64) : fCos x = numerics.cos x := by
  unfold fCos
  split
  · rcases zero_cases ‹_› with rfl | rfl
    · exact numerics_lawful.cos_zero.1.symm
    · exact numerics_lawful.cos_zero.2.symm
  · rfl

theorem fTanh_eq (x : F64) : fTanh x = numerics.tanh x := by
  unfold fTanh
  split
  · rcases zero_cases ‹_› with rfl | rfl
    · exact numerics_lawful.tanh_zero.symm
    · rw [numerics_lawful.tanh_odd, numerics_lawful.tanh_zero]
  · rfl

theorem fPow_eq (b x : F64) : fPow b x = numerics.pow b x := by
  unfold fPow
  split
  · rcases zero_cases ‹_› with rfl | rfl
    · exact (numerics_lawful.pow_zero b).1.symm
    · exact (numerics_lawful.pow_zero b).2.symm
  · split
    · rename_i h; rw [h.1, h.2, numerics_lawful.pow10_neg1]
    · split
      · rename_i h; rw [h.1, h.2, numerics_lawful.pow2_neg1]
      · split
        · rename_i h; rw [h.1, h.2, numerics_lawful.pow2_one]
        · rfl

/-- The hybrid sine lies in [-1, 1], whatever the record. -/
theorem hybridSine_inRange (k t : F64) : hybridInRange (hybridSine k t) = true := by
  unfold hybridSine openHybrid
  dsimp only
  repeat' split
  all_goals first | assumption | decide

/-- A quotient in range is the hybrid sine. -/
theorem hybridSine_eq_quotient {k t : F64} (h : hybridInRange (fdiv (fTanh (fmul k (triWave t))) (fTanh k)) = true) :
    hybridSine k t = fdiv (fTanh (fmul k (triWave t))) (fTanh k) := by
  rw [hybridSine, if_pos h]

/-- A zero over a zero is no number, so out of the range of the hybrid sine. -/
theorem hybridSine_open {k t : F64} (h1 : isZero (fTanh (fmul k (triWave t))) = true) (h2 : isZero (fTanh k) = true) :
    hybridSine k t = openHybrid k (fmul k (triWave t)) := by
  have hn : ∀ x : F64, isZero x = true → isNaN x = false ∧ isInf x = false := by
    intro x h
    simp only [isZero, decide_eq_true_eq] at h
    simp [isNaN, isInf, h, infMag]
  have : isNaN (fdiv (fTanh (fmul k (triWave t))) (fTanh k)) = true := by
    simp only [fdiv, hn _ h1, hn _ h2, h1, h2, Bool.or_self, Bool.false_eq_true, if_false, if_true, isNaN_nanResult]
  rw [hybridSine, if_neg]
  simp [hybridInRange, fle, this]

end Sys2Proof.Machine
end

