-- ==== Sys2Proof/Laws/Outside.lean ====
section
/-!
SUPPORT. What the moves of the other agents can do: a peer's accesses keep its region in form and change only bytes, order and race
draws; the packets of a run of moves.
-/

namespace Sys2Proof.Machine

/-! ### The peer -/

theorem Region.ok_write {cap ch k : Nat} {r : Region} (h : r.Ok cap ch) (hk : k < r.size) (b : Byte) :
    ({ r with mem := r.mem.write k b } : Region).Ok cap ch := by
  refine ⟨h.1, Memory.wf_write h.2.1 k b, fun c hc => ?_⟩
  rcases Memory.mem_write hc with rfl | hc
  · exact hk
  · exact h.2.2 c hc

/-- A link that differs in its region, order and race counter alone. -/
abbrev Link.PeerMoved (l l' : Link) : Prop := l' = { l with region := l'.region, order := l'.order, races := l'.races }

/-- The region stays as it is or stays in form. -/
abbrev Link.RegionKept (l l' : Link) : Prop :=
  l'.region.isSome = l.region.isSome ∧ ∀ cap ch, (∀ r ∈ l.region, r.Ok cap ch) → ∀ r ∈ l'.region, r.Ok cap ch

theorem Link.peerWriteBytes_spec (dir : Nat) (bs : List Byte) {k n : Nat} {l : Link} {r : Region} (hr : l.region = some r)
    (hs : r.size = n) (hk : k + bs.length ≤ n) :
    l.PeerMoved (l.peerWriteBytes dir k bs) ∧ l.RegionKept (l.peerWriteBytes dir k bs) := by
  induction bs generalizing k l r with
  | nil => exact ⟨rfl, rfl, fun _ _ h => h⟩
  | cons b bs ih =>
    simp only [List.length_cons] at hk
    rw [Link.peerWriteBytes]
    obtain ⟨w, d, m, he⟩ : ∃ w d m, l.peerWriteByte dir k b =
        { l with region := some { r with mem := r.mem.write k w }, order := d, races := m } := by
      simp only [Link.peerWriteByte, hr]
      split
      · exact ⟨_, _, _, rfl⟩
      · exact ⟨_, _, l.races, rfl⟩
    rw [he]
    obtain ⟨h1, h2, h3⟩ := ih (l := { l with region := some { r with mem := r.mem.write k w }, order := d, races := m })
      (k := k + 1) rfl hs (by omega)
    refine ⟨?_, h2.trans (by rw [hr]; rfl), fun cap ch h => h3 cap ch ?_⟩
    · unfold Link.PeerMoved at h1 ⊢
      rw [h1]
    · simp only [hr, Option.mem_def, Option.some.injEq, forall_eq'] at h ⊢
      exact Region.ok_write h (by omega) w

/-- All a peer's access can do. -/
theorem Link.peerMove_spec (dir : Nat) (e : Endian) (a : PeerAccess) (l : Link) :
    l.PeerMoved (l.peerMove dir e a) ∧ l.RegionKept (l.peerMove dir e a) := by
  have same : l.PeerMoved l ∧ l.RegionKept l := ⟨rfl, rfl, fun _ _ h => h⟩
  cases a with
  | load o => exact ⟨rfl, rfl, fun _ _ h => h⟩
  | store o v =>
    simp only [Link.peerMove, Link.peerStore]
    split
    · exact same
    · rename_i r hr
      split
      · cases hs : r.store32 e o v with
        | none => exact same
        | some r' =>
          refine ⟨rfl, by simp [hr], fun cap ch h => ?_⟩
          simp only [hr, Option.mem_def, Option.some.injEq, forall_eq'] at h
          simp only [Option.map_some, Option.getD_some, Option.mem_def, Option.some.injEq, forall_eq']
          exact Region.ok_store32 h hs
      · exact same
  | write o bytes =>
    simp only [Link.peerMove]
    split
    · rename_i hm
      unfold Link.mayWrite at hm
      split at hm
      · cases hm
      · rename_i r hr
        simp only [Bool.and_eq_true, decide_eq_true_eq] at hm
        exact Link.peerWriteBytes_spec dir bytes hr rfl hm.1
    · exact same

theorem Link.peerMove_ok {c : BridgeCfg} {l : Link} (h : l.Ok c) (dir : Nat) (e : Endian) (a : PeerAccess) :
    (l.peerMove dir e a).Ok c ∧ (l.peerMove dir e a).cap = l.cap := by
  obtain ⟨h1, h2, h3⟩ := l.peerMove_spec dir e a
  generalize l.peerMove dir e a = l' at *
  unfold Link.PeerMoved at h1
  have hcap : l'.cap = l.cap := by rw [h1]
  have hnext : l'.capNext = l.capNext := by rw [h1]
  have hmode : l'.mode = l.mode := by rw [h1]
  have hrun : l'.run = l.run := by rw [h1]
  have hlatch : l'.fallbackLatched = l.fallbackLatched := by rw [h1]
  obtain ⟨a1, a2, a3, a4, a5, a6, a7, a8⟩ := h
  refine ⟨⟨by rwa [hcap], by rwa [hcap], by rwa [hnext], by rwa [hnext], by rwa [hmode, hlatch], fun hm => ?_, fun hr hm => ?_, ?_⟩, hcap⟩
  · have := a6 (by rwa [hmode] at hm)
    rw [this] at h2
    exact Option.not_isSome_iff_eq_none.1 (by rw [h2]; simp)
  · rw [h2]
    exact a7 (by rwa [hrun] at hr) (by rwa [hmode] at hm)
  · rw [hcap]
    exact h3 _ _ a8

end Sys2Proof.Machine
end

