-- ==== Sys2Proof/Laws/PerInstr.lean ====
section
/-!
SUPPORT. A law of every instruction's encoding, one lemma per constructor.
-/

namespace Sys2Proof.Laws.EncodeShape

open Sys2Proof.Machine

/-- A packet has its fixed part of 12 bytes, its reserved byte is 0, and it is a whole number of 4-byte words (30_encoding.md
R140, R141, R146, R150 to R153). -/
def Statement (i : Instr) : Prop := 12 ≤ (encode i).length ∧ (encode i).length % 4 = 0 ∧ (encode i).head? = some 0

theorem setParamOscFrequency (inst : BitVec 4) (v : F64) : Statement (.setParamOscFrequency inst v) :=
  ⟨Nat.le_refl 12, (rfl : (12 : Nat) % 4 = 0), rfl⟩

theorem setParamOscDetune (inst : BitVec 4) (v : F64) : Statement (.setParamOscDetune inst v) :=
  ⟨Nat.le_refl 12, (rfl : (12 : Nat) % 4 = 0), rfl⟩

theorem setParamOscPulseWidth (inst : BitVec 4) (v : F64) : Statement (.setParamOscPulseWidth inst v) :=
  ⟨Nat.le_refl 12, (rfl : (12 : Nat) % 4 = 0), rfl⟩

theorem setParamOscSymmetry (inst : BitVec 4) (v : F64) : Statement (.setParamOscSymmetry inst v) :=
  ⟨Nat.le_refl 12, (rfl : (12 : Nat) % 4 = 0), rfl⟩

theorem setParamOscSineLevel (inst : BitVec 4) (v : F64) : Statement (.setParamOscSineLevel inst v) :=
  ⟨Nat.le_refl 12, (rfl : (12 : Nat) % 4 = 0), rfl⟩

theorem setParamOscSawLevel (inst : BitVec 4) (v : F64) : Statement (.setParamOscSawLevel inst v) :=
  ⟨Nat.le_refl 12, (rfl : (12 : Nat) % 4 = 0), rfl⟩

theorem setParamOscTriLevel (inst : BitVec 4) (v : F64) : Statement (.setParamOscTriLevel inst v) :=
  ⟨Nat.le_refl 12, (rfl : (12 : Nat) % 4 = 0), rfl⟩

theorem setParamOscPulseLevel (inst : BitVec 4) (v : F64) : Statement (.setParamOscPulseLevel inst v) :=
  ⟨Nat.le_refl 12, (rfl : (12 : Nat) % 4 = 0), rfl⟩

theorem setParamOscSlewCutoff (inst : BitVec 4) (v : F64) : Statement (.setParamOscSlewCutoff inst v) :=
  ⟨Nat.le_refl 12, (rfl : (12 : Nat) % 4 = 0), rfl⟩

theorem setParamOscPurity (inst : BitVec 4) (v : F64) : Statement (.setParamOscPurity inst v) :=
  ⟨Nat.le_refl 12, (rfl : (12 : Nat) % 4 = 0), rfl⟩

theorem setParamVcaDialVoltage (inst : BitVec 4) (v : F64) : Statement (.setParamVcaDialVoltage inst v) :=
  ⟨Nat.le_refl 12, (rfl : (12 : Nat) % 4 = 0), rfl⟩

theorem setParamVcaCutoffEnabled (inst : BitVec 4) (v : F64) : Statement (.setParamVcaCutoffEnabled inst v) :=
  ⟨Nat.le_refl 12, (rfl : (12 : Nat) % 4 = 0), rfl⟩

theorem setParamTonePosition (inst : BitVec 4) (v : F64) : Statement (.setParamTonePosition inst v) :=
  ⟨Nat.le_refl 12, (rfl : (12 : Nat) % 4 = 0), rfl⟩

theorem setParamThermEnable (inst : BitVec 4) (v : F64) : Statement (.setParamThermEnable inst v) :=
  ⟨Nat.le_refl 12, (rfl : (12 : Nat) % 4 = 0), rfl⟩

theorem setParamNoiseColour (inst : BitVec 4) (v : F64) : Statement (.setParamNoiseColour inst v) :=
  ⟨Nat.le_refl 12, (rfl : (12 : Nat) % 4 = 0), rfl⟩

theorem setParamNoiseLevel (inst : BitVec 4) (v : F64) : Statement (.setParamNoiseLevel inst v) :=
  ⟨Nat.le_refl 12, (rfl : (12 : Nat) % 4 = 0), rfl⟩

theorem setParamNoiseBypass (inst : BitVec 4) (v : F64) : Statement (.setParamNoiseBypass inst v) :=
  ⟨Nat.le_refl 12, (rfl : (12 : Nat) % 4 = 0), rfl⟩

theorem setParamScopeTriggerLevel (inst : BitVec 4) (v : F64) : Statement (.setParamScopeTriggerLevel inst v) :=
  ⟨Nat.le_refl 12, (rfl : (12 : Nat) % 4 = 0), rfl⟩

theorem setParamScopeHysteresis (inst : BitVec 4) (v : F64) : Statement (.setParamScopeHysteresis inst v) :=
  ⟨Nat.le_refl 12, (rfl : (12 : Nat) % 4 = 0), rfl⟩

theorem setWaveformOsc (inst : BitVec 4) (mode : U32) : Statement (.setWaveformOsc inst mode) :=
  ⟨Nat.le_refl 12, (rfl : (12 : Nat) % 4 = 0), rfl⟩

theorem resetPhaseOsc (inst : BitVec 4) : Statement (.resetPhaseOsc inst) :=
  ⟨Nat.le_refl 12, (rfl : (12 : Nat) % 4 = 0), rfl⟩

theorem stopBrcap (inst : BitVec 4) : Statement (.stopBrcap inst) :=
  ⟨Nat.le_refl 12, (rfl : (12 : Nat) % 4 = 0), rfl⟩

theorem stopBrplay (inst : BitVec 4) : Statement (.stopBrplay inst) :=
  ⟨Nat.le_refl 12, (rfl : (12 : Nat) % 4 = 0), rfl⟩

theorem resyncOsc (inst : BitVec 4) (v : F64) : Statement (.resyncOsc inst v) :=
  ⟨Nat.le_refl 12, (rfl : (12 : Nat) % 4 = 0), rfl⟩

theorem resyncVca (inst : BitVec 4) (v : F64) : Statement (.resyncVca inst v) :=
  ⟨Nat.le_refl 12, (rfl : (12 : Nat) % 4 = 0), rfl⟩

theorem resyncTone (inst : BitVec 4) (v : F64) : Statement (.resyncTone inst v) :=
  ⟨Nat.le_refl 12, (rfl : (12 : Nat) % 4 = 0), rfl⟩

theorem resyncTherm (inst : BitVec 4) (v : F64) : Statement (.resyncTherm inst v) :=
  ⟨Nat.le_refl 12, (rfl : (12 : Nat) % 4 = 0), rfl⟩

theorem resyncNoise (inst : BitVec 4) (v : F64) : Statement (.resyncNoise inst v) :=
  ⟨Nat.le_refl 12, (rfl : (12 : Nat) % 4 = 0), rfl⟩

theorem setBufferSizeScope (inst : BitVec 4) (size : U32) : Statement (.setBufferSizeScope inst size) :=
  ⟨Nat.le_refl 12, (rfl : (12 : Nat) % 4 = 0), rfl⟩

theorem setBufferSizeBrcap (inst : BitVec 4) (size : U32) : Statement (.setBufferSizeBrcap inst size) :=
  ⟨Nat.le_refl 12, (rfl : (12 : Nat) % 4 = 0), rfl⟩

theorem setBufferSizeBrplay (inst : BitVec 4) (size : U32) : Statement (.setBufferSizeBrplay inst size) :=
  ⟨Nat.le_refl 12, (rfl : (12 : Nat) % 4 = 0), rfl⟩

theorem setTriggerLevelScope (inst : BitVec 4) (level : F64) : Statement (.setTriggerLevelScope inst level) :=
  ⟨Nat.le_refl 12, (rfl : (12 : Nat) % 4 = 0), rfl⟩

theorem startBrcap (inst : BitVec 4) : Statement (.startBrcap inst) :=
  ⟨Nat.le_refl 12, (rfl : (12 : Nat) % 4 = 0), rfl⟩

theorem startBrplay (inst : BitVec 4) : Statement (.startBrplay inst) :=
  ⟨Nat.le_refl 12, (rfl : (12 : Nat) % 4 = 0), rfl⟩

theorem setDormantOsc (inst : BitVec 4) (flag : U32) : Statement (.setDormantOsc inst flag) :=
  ⟨Nat.le_refl 12, (rfl : (12 : Nat) % 4 = 0), rfl⟩

theorem setDormantVca (inst : BitVec 4) (flag : U32) : Statement (.setDormantVca inst flag) :=
  ⟨Nat.le_refl 12, (rfl : (12 : Nat) % 4 = 0), rfl⟩

theorem setDormantTone (inst : BitVec 4) (flag : U32) : Statement (.setDormantTone inst flag) :=
  ⟨Nat.le_refl 12, (rfl : (12 : Nat) % 4 = 0), rfl⟩

theorem setDormantNoise (inst : BitVec 4) (flag : U32) : Statement (.setDormantNoise inst flag) :=
  ⟨Nat.le_refl 12, (rfl : (12 : Nat) % 4 = 0), rfl⟩

theorem pushChunkBrplay (inst : BitVec 4) (n : U32) (payload : List F32) : Statement (.pushChunkBrplay inst n payload) := by
  refine ⟨?_, ?_, rfl⟩ <;> simp only [encode, header, operand32, List.length_append, List.length_cons, List.length_nil,
    bytes32_length, sampleBytes_length] <;> omega

theorem captureOutbound (inst : BitVec 4) (triggered : Bool) (valid n : U32) (rate : F64) (ys xs : List F32) : Statement (.captureOutbound inst triggered valid n rate ys xs) := by
  refine ⟨?_, ?_, rfl⟩ <;> simp only [encode, header, List.length_append, List.length_cons, List.length_nil,
    bytes32_length, bytes64_length, sampleBytes_length] <;> omega

theorem eventOutbound (cls inst : BitVec 4) (code : BitVec 8) (count : U32) : Statement (.eventOutbound cls inst code count) :=
  ⟨Nat.le_refl 12, (rfl : (12 : Nat) % 4 = 0), rfl⟩

theorem chunkOutbound (inst : BitVec 4) (n : U32) (samples : List F32) : Statement (.chunkOutbound inst n samples) := by
  refine ⟨?_, ?_, rfl⟩ <;> simp only [encode, header, operand32, List.length_append, List.length_cons, List.length_nil,
    bytes32_length, sampleBytes_length] <;> omega

end Sys2Proof.Laws.EncodeShape
end

