-- ==== Sys2Proof/Tests/Slice0.lean ====
section
/-!
SUPPORT. The model's own tests. Expected results are the vectors and programs of 95_test_vectors.md (cited by their letters) or hand
calculation from the rule named; then one witness per obligation that has hypotheses: a concrete state and operands that meet
them all together.
-/

namespace Sys2Proof.Tests

set_option Elab.async false

open Sys2Proof Sys2Proof.Machine

/-! ### Helpers -/

def bytes (l : List Nat) : Packet := l.map (BitVec.ofNat 8)

def nextOf : Result → Option State
  | .next t => some t
  | .fault _ => none
  | .refused _ => none

/-- Four frames a block, one instance of each class, small buffers, a VCA without smoothing, a ramp of 4. -/
def small : Construction :=
  { Config.construction with
    block := { Config.block with q := 4 }
    osc := [{ Config.osc with rampFrames := 4 }]
    vca := [{ Config.vca with rampFrames := 4, smoothTau := 0 }]
    scope := [{ Config.scope with nDefault := 4 }]
    brcap := [{ Config.bridge with capDefault := 8, chunkFrames := 3 }]
    brplay := [{ Config.bridge with capDefault := 8 }] }

def start : State := State.construct small

/-! ### Well-formedness: each check refuses an ill-formed term -/

theorem test_wf_push_chunk_needs_whole_frames :
    (Instr.pushChunkBrplay 0 2 [0, 0, 0]).wf = false ∧ (Instr.pushChunkBrplay 0 0 [0]).wf = false ∧
      (Instr.pushChunkBrplay 0 1 []).wf = false ∧ (Instr.pushChunkBrplay 0 1 (List.replicate 33 0)).wf = false ∧
      (Instr.pushChunkBrplay 0 2 [0, 0, 0, 0]).wf = true := by decide

theorem test_wf_capture_checks :
    (Instr.captureOutbound 15 false 1 1 0 [0] [0]).wf = false ∧ (Instr.captureOutbound 0 false 2 1 0 [0] [0]).wf = false ∧
      (Instr.captureOutbound 0 false 1 1 0 [] [0]).wf = false ∧ (Instr.captureOutbound 0 false 1 1 0 [0] [0, 0]).wf = false ∧
      (Instr.captureOutbound 0 false 1 1 0 [0] [0]).wf = true := by decide

theorem test_wf_event_checks :
    (Instr.eventOutbound 0 0 1 1).wf = false ∧ (Instr.eventOutbound 9 0 1 1).wf = false ∧
      (Instr.eventOutbound 1 15 1 1).wf = false ∧ (Instr.eventOutbound 1 0 0 1).wf = false ∧
      (Instr.eventOutbound 1 0 5 1).wf = false ∧ (Instr.eventOutbound 8 14 4 1).wf = true := by decide

theorem test_wf_chunk_checks :
    (Instr.chunkOutbound 15 1 [0]).wf = false ∧ (Instr.chunkOutbound 0 2 [0, 0, 0]).wf = false ∧
      (Instr.chunkOutbound 0 2 [0, 0, 0, 0]).wf = true := by decide

/-! ### Decoding: every row's word, written from 30_encoding.md R141 to R153 (vector E1 where it gives the bytes) -/

theorem test_decode_setparam_osc :
    decode (bytes [0, 0, 0x10, 1, 0, 0, 0, 0, 0, 0x70, 0xC7, 0x40]) = .ok (.setParamOscFrequency 0 0x40C7700000000000) ∧
      decode (bytes [0, 1, 0x10, 1, 0, 0, 0, 0, 0, 0, 0x59, 0x40]) = .ok (.setParamOscDetune 0 0x4059000000000000) ∧
      decode (bytes [0, 2, 0x11, 1, 0, 0, 0, 0, 0, 0, 0xE0, 0x3F]) = .ok (.setParamOscPulseWidth 1 0x3FE0000000000000) ∧
      decode (bytes [0, 3, 0x1E, 1, 0, 0, 0, 0, 0, 0, 0xD0, 0x3F]) = .ok (.setParamOscSymmetry 14 0x3FD0000000000000) ∧
      decode (bytes [0, 4, 0x1F, 1, 0, 0, 0, 0, 0, 0, 0xF0, 0x3F]) = .ok (.setParamOscSineLevel 15 0x3FF0000000000000) :=
  ⟨rfl, rfl, rfl, rfl, rfl⟩

theorem test_decode_setparam_osc_levels :
    decode (bytes [0, 5, 0x10, 1, 0, 0, 0, 0, 0, 0, 0xF0, 0x3F]) = .ok (.setParamOscSawLevel 0 0x3FF0000000000000) ∧
      decode (bytes [0, 6, 0x10, 1, 0, 0, 0, 0, 0, 0, 0xE0, 0x3F]) = .ok (.setParamOscTriLevel 0 0x3FE0000000000000) ∧
      decode (bytes [0, 7, 0x10, 1, 1, 2, 3, 4, 5, 6, 7, 8]) = .ok (.setParamOscPulseLevel 0 0x0807060504030201) ∧
      decode (bytes [0, 8, 0x10, 1, 0, 0, 0, 0, 0x80, 0x84, 0x2E, 0x41]) = .ok (.setParamOscSlewCutoff 0 0x412E848000000000) ∧
      decode (bytes [0, 9, 0x10, 1, 0, 0, 0, 0, 0, 0, 0, 0]) = .ok (.setParamOscPurity 0 0x0000000000000000) :=
  ⟨rfl, rfl, rfl, rfl, rfl⟩

theorem test_decode_setparam_filters :
    decode (bytes [0, 0, 0x20, 1, 0, 0, 0, 0, 0, 0, 0, 0xC0]) = .ok (.setParamVcaDialVoltage 0 0xC000000000000000) ∧
      decode (bytes [0, 1, 0x20, 1, 0, 0, 0, 0, 0, 0, 0xF0, 0x3F]) = .ok (.setParamVcaCutoffEnabled 0 0x3FF0000000000000) ∧
      decode (bytes [0, 0, 0x30, 1, 0, 0, 0, 0, 0, 0, 0xF0, 0xBF]) = .ok (.setParamTonePosition 0 0xBFF0000000000000) ∧
      decode (bytes [0, 0, 0x4F, 1, 0, 0, 0, 0, 0, 0, 0, 0]) = .ok (.setParamThermEnable 15 0x0000000000000000) ∧
      decode (bytes [0, 0, 0x50, 1, 0, 0, 0, 0, 0, 0, 0xF0, 0xBF]) = .ok (.setParamNoiseColour 0 0xBFF0000000000000) ∧
      decode (bytes [0, 1, 0x50, 1, 0, 0, 0, 0, 0, 0, 0xE0, 0x3F]) = .ok (.setParamNoiseLevel 0 0x3FE0000000000000) ∧
      decode (bytes [0, 2, 0x50, 1, 0, 0, 0, 0, 0, 0, 0xF0, 0x3F]) = .ok (.setParamNoiseBypass 0 0x3FF0000000000000) :=
  ⟨rfl, rfl, rfl, rfl, rfl, rfl, rfl⟩

theorem test_decode_scope :
    decode (bytes [0, 0, 0x60, 1, 0, 0, 0, 0, 0, 0, 0xE0, 0x3F]) = .ok (.setParamScopeTriggerLevel 0 0x3FE0000000000000) ∧
      decode (bytes [0, 1, 0x60, 1, 0, 0, 0, 0, 0, 0, 0x6E, 0x40]) = .ok (.setParamScopeHysteresis 0 0x406E000000000000) ∧
      decode (bytes [0, 0, 0x60, 6, 4, 0, 0, 0, 0, 0, 0, 0]) = .ok (.setBufferSizeScope 0 4) ∧
      decode (bytes [0, 0, 0x60, 7, 0, 0, 0, 0, 0, 0, 0, 0]) = .ok (.setTriggerLevelScope 0 0x0000000000000000) :=
  ⟨rfl, rfl, rfl, rfl⟩

theorem test_decode_osc_commands :
    decode (bytes [0, 0, 0x10, 2, 1, 0, 0, 0, 0, 0, 0, 0]) = .ok (.setWaveformOsc 0 1) ∧
      decode (bytes [0, 0, 0x10, 3, 0, 0, 0, 0, 0, 0, 0, 0]) = .ok (.resetPhaseOsc 0) ∧
      decode (bytes [0, 0, 0x10, 9, 1, 0, 0, 0, 0, 0, 0, 0]) = .ok (.setDormantOsc 0 1) ∧
      decode (bytes [0, 0, 0x20, 9, 1, 0, 0, 0, 0, 0, 0, 0]) = .ok (.setDormantVca 0 1) ∧
      decode (bytes [0, 0, 0x3F, 9, 1, 0, 0, 0, 0, 0, 0, 0]) = .ok (.setDormantTone 15 1) ∧
      decode (bytes [0, 0, 0x50, 9, 0, 0, 0, 0, 0, 0, 0, 0]) = .ok (.setDormantNoise 0 0) :=
  ⟨rfl, rfl, rfl, rfl, rfl, rfl⟩

theorem test_decode_resync :
    decode (bytes [0, 0, 0x10, 5, 0, 0, 0, 0, 0, 0, 0, 0xC0]) = .ok (.resyncOsc 0 0xC000000000000000) ∧
      decode (bytes [0, 0, 0x20, 5, 0, 0, 0, 0, 0, 0, 0, 0xC0]) = .ok (.resyncVca 0 0xC000000000000000) ∧
      decode (bytes [0, 0, 0x30, 5, 0, 0, 0, 0, 0, 0, 0xD0, 0x3F]) = .ok (.resyncTone 0 0x3FD0000000000000) ∧
      decode (bytes [0, 0, 0x40, 5, 0, 0, 0, 0, 0, 0, 0xF0, 0x3F]) = .ok (.resyncTherm 0 0x3FF0000000000000) ∧
      decode (bytes [0, 0, 0x50, 5, 0, 0, 0, 0, 0, 0, 0xF0, 0x3F]) = .ok (.resyncNoise 0 0x3FF0000000000000) :=
  ⟨rfl, rfl, rfl, rfl, rfl⟩

theorem test_decode_bridge_commands :
    decode (bytes [0, 0, 0x70, 4, 0, 0, 0, 0, 0, 0, 0, 0]) = .ok (.stopBrcap 0) ∧
      decode (bytes [0, 0, 0x80, 4, 0, 0, 0, 0, 0, 0, 0, 0]) = .ok (.stopBrplay 0) ∧
      decode (bytes [0, 0, 0x70, 6, 8, 0, 0, 0, 0, 0, 0, 0]) = .ok (.setBufferSizeBrcap 0 8) ∧
      decode (bytes [0, 0, 0x80, 6, 8, 0, 0, 0, 0, 0, 0, 0]) = .ok (.setBufferSizeBrplay 0 8) ∧
      decode (bytes [0, 0, 0x70, 8, 0, 0, 0, 0, 0, 0, 0, 0]) = .ok (.startBrcap 0) ∧
      decode (bytes [0, 0, 0x80, 8, 0, 0, 0, 0, 0, 0, 0, 0]) = .ok (.startBrplay 0) ∧
      decode (bytes [0, 0, 0x80, 0x0A, 1, 0, 0, 0, 0, 0, 0, 0, 0, 0, 0x80, 0x3F, 0, 0, 0x80, 0xBF]) =
        .ok (.pushChunkBrplay 0 1 [0x3F800000, 0xBF800000]) :=
  ⟨rfl, rfl, rfl, rfl, rfl, rfl, rfl⟩

/-- The outbound rows: a CAPTURE of one sample, vector X2's EVENT, a CHUNK of one frame (R150 to R152). -/
theorem test_decode_outbound :
    decode (bytes [0, 1, 0x60, 0x81, 1, 0, 0, 0, 1, 0, 0, 0, 0, 0, 0, 0, 0, 0x70, 0xE7, 0x40, 0, 0, 0x80, 0x3F, 0, 0, 0, 0x40]) =
        .ok (.captureOutbound 0 true 1 1 0x40E7700000000000 [0x3F800000] [0x40000000]) ∧
      decode (bytes [0, 2, 0x70, 0x82, 3, 0, 0, 0, 0, 0, 0, 0]) = .ok (.eventOutbound 7 0 2 3) ∧
      decode (bytes [0, 0, 0x70, 0x83, 1, 0, 0, 0, 0, 0, 0, 0, 0, 0, 0x80, 0x3F, 0, 0, 0x80, 0xBF]) =
        .ok (.chunkOutbound 0 1 [0x3F800000, 0xBF800000]) :=
  ⟨rfl, rfl, rfl⟩

/-- Vector X2 and program P5's first CAPTURE, byte for byte. -/
theorem test_encode_outbound :
    encode (.eventOutbound 7 0 2 3) = bytes [0, 2, 0x70, 0x82, 3, 0, 0, 0, 0, 0, 0, 0] ∧
      encode (.captureOutbound 0 false 4 4 0x40E7700000000000 [0xBF800000, 0xBF800000, 0x3F800000, 0x3F800000] [0x00000000, 0x3F800000, 0x40000000, 0x40400000]) =
        bytes [0, 0, 0x60, 0x81, 4, 0, 0, 0, 4, 0, 0, 0, 0, 0, 0, 0, 0, 0x70, 0xE7, 0x40] ++
          bytes [0, 0, 0x80, 0xBF, 0, 0, 0x80, 0xBF, 0, 0, 0x80, 0x3F, 0, 0, 0x80, 0x3F] ++
          bytes [0, 0, 0, 0, 0, 0, 0x80, 0x3F, 0, 0, 0, 0x40, 0, 0, 0x40, 0x40] :=
  ⟨rfl, rfl⟩

/-- Vector E2: the ignored packets and the name each is refused under. -/
theorem test_decode_rejects :
    decode (bytes [0, 0, 0x10, 0, 0, 0, 0, 0, 0, 0, 0, 0]) = .error .reservedOpcode ∧
      decode (bytes [0, 0, 0x10, 0x0B, 0, 0, 0, 0, 0, 0, 0, 0]) = .error .reservedOpcode ∧
      decode (bytes [0, 0, 0, 1, 0, 0, 0, 0, 0, 0, 0, 0]) = .error .reservedClass ∧
      decode (bytes [0, 0, 0x90, 1, 0, 0, 0, 0, 0, 0, 0, 0]) = .error .reservedClass ∧
      decode (bytes [0, 10, 0x10, 1, 0, 0, 0, 0, 0, 0, 0, 0]) = .error .unknownParameter ∧
      decode (bytes [0, 0, 0x20, 2, 0, 0, 0, 0, 0, 0, 0, 0]) = .error .pairNotActing ∧
      decode (bytes [0, 0, 0x60, 5, 0, 0, 0, 0, 0, 0, 0, 0]) = .error .pairNotActing ∧
      decode (bytes [0, 0, 0x40, 9, 0, 0, 0, 0, 0, 0, 0, 0]) = .error .pairNotActing ∧
      decode (bytes [0, 0, 0x10, 1, 0, 0, 0, 0, 0, 0, 0]) = .error .tooShort :=
  ⟨rfl, rfl, rfl, rfl, rfl, rfl, rfl, rfl, rfl⟩

/-- Vector E2: an outbound opcode received inbound, and instance 7 of one, change no state. -/
theorem test_ignored_packets_change_nothing :
    nextOf (applyPacket (bytes [0, 0, 0x60, 0x81, 0, 0, 0, 0, 0, 0, 0, 0]) start) = some start ∧
      nextOf (applyPacket (bytes [0, 0, 0x17, 1, 0, 0, 0, 0, 0, 0, 0, 0x40]) start) = some start := by decide +kernel

/-- Vector E3: `rsv`, `pidx` of SETWAVEFORM and operand bits [63:32] do not matter. -/
theorem test_dont_care_bits :
    decode (bytes [0xFF, 0, 0x10, 2, 1, 0, 0, 0, 0, 0, 0, 0]) = .ok (.setWaveformOsc 0 1) ∧
      decode (bytes [0, 0xAB, 0x10, 2, 1, 0, 0, 0, 0, 0, 0, 0]) = .ok (.setWaveformOsc 0 1) ∧
      decode (bytes [0, 0, 0x10, 2, 1, 0, 0, 0, 0xFF, 0xFF, 0xFF, 0xFF]) = .ok (.setWaveformOsc 0 1) :=
  ⟨rfl, rfl, rfl⟩

/-- The words of the opcode table: the header is the first four bytes, so its opcode byte is bits 31..24. -/
theorem test_decode_table_word :
    decodeTableWord 96 0x407B80000000000001100000 = some (.setParamOscFrequency 0 0x407B800000000000) ∧
      decodeTableWord 32 0x08700000 = some (.startBrcap 0) ∧
      decodeTableWord 32 0x81600000 = some (.captureOutbound 0 false 0 0 0 [] []) := by decide +kernel

/-- The placed word is what the next step runs (log 10). -/
theorem test_fetch_word_runs :
    (nextOf (step (State.reset.withFetchWord 96 0x407B80000000000001100000))).map
        (fun t => (t.osc.map fun u => u.reg.frequency, t.inQueue)) = some ([0x407B800000000000], []) ∧
      (nextOf (step (State.reset.withFetchWord 32 0x08800000))).map (fun t => t.brplay.map fun u => u.link.run) =
        some [.running] := by decide +kernel

/-! ### Numeric vectors (95_test_vectors.md part 2) -/

/-- O1. -/
theorem test_blep :
    blep 0x0000000000000000 0x3FD0000000000000 = 0xBFF0000000000000 ∧ blep 0x3FC0000000000000 0x3FD0000000000000 = 0xBFD0000000000000 ∧
      blep 0x3FE0000000000000 0x3FD0000000000000 = 0 ∧
      blep 0x3FEC000000000000 0x3FD0000000000000 = 0x3FD0000000000000 ∧
      blep 0x3FA999999999999A 0x3FB999999999999A = 0xBFD0000000000000 ∧
      blep 0x3FECCCCCCCCCCCCD 0x3FC999999999999A = 0x3FD0000000000002 := by
  decide +kernel

/-- O2. -/
theorem test_saw_wave :
    sawWave 0x0000000000000000 0x3FD0000000000000 = 0 ∧ sawWave 0x3FD0000000000000 0x3FD0000000000000 = 0xBFE0000000000000 ∧
      sawWave 0x3FE8000000000000 0x3FD0000000000000 = 0x3FE0000000000000 ∧
      sawWave 0x3FB999999999999A 0x3F847AE147AE147B = 0xBFE999999999999A ∧
      sawWave 0x3FEFD70A3D70A3D7 0x3F847AE147AE147B = 0x3FE7AE147AE147B2 := by decide +kernel

/-- O3. -/
theorem test_pulse_wave :
    pulseWave 0x0000000000000000 0x3FD0000000000000 0x3FE0000000000000 = 0 ∧
      pulseWave 0x3FD0000000000000 0x3FD0000000000000 0x3FE0000000000000 = 0x3FF0000000000000 ∧
      pulseWave 0x3FE8000000000000 0x3FD0000000000000 0x3FE0000000000000 = 0xBFF0000000000000 ∧
      pulseWave 0x3FDFAE147AE147AE 0x3F847AE147AE147B 0x3FE0000000000000 = 0x3FE8000000000004 ∧
      pulseWave 0x3FE010624DD2F1AA 0x3F847AE147AE147B 0x3FE0000000000000 = 0xBFD70A3D70A3D710 := by decide +kernel

/-- O4. -/
theorem test_tri_wave :
    [0x0000000000000000, 0x3FC0000000000000, 0x3FD0000000000000, 0x3FE0000000000000, 0x3FE8000000000000, 0x3FEC000000000000].map triWave = [0xBFF0000000000000, 0xBFE0000000000000, 0x0000000000000000, 0x3FF0000000000000, 0x0000000000000000, 0xBFE0000000000000] := by
  decide +kernel

/-- O5: the attenuation, the remap and the pure sine's one exact value. -/
theorem test_sine_parts :
    [0x3FE0000000000000, 0x3FD0000000000000, 0x3F847AE147AE147B, 0x3FEFAE147AE147AE].map (attenuation 0x4020000000000000) = [0x3FF0000000000000, 0x3FE2000000000000, 0x3FC23D70A3D70A40, 0x3FC23D70A3D70A40] ∧
      remap 0x3FB999999999999A 0x3FC999999999999A = 0x3FD0000000000000 ∧
      remap 0x3FE3333333333333 0x3FC999999999999A = 0x3FE8000000000000 ∧
      pureSine 0x0000000000000000 = 0xBFF0000000000000 := by decide +kernel

/-- O5: the hybrid sine's exact values at purity 0, its peak `F.tanh(2) / F.tanh(2)` and its zero, under the laws of R16 alone. -/
theorem test_hybrid_sine :
    hybridSine 0x4000000000000000 0x3FE0000000000000 = 0x3FF0000000000000 ∧
      hybridSine 0x4000000000000000 0x3FD0000000000000 = 0 := by
  have hpeak : fmul 0x4000000000000000 (triWave 0x3FE0000000000000) = 0x4000000000000000 := by decide +kernel
  have hzero : fmul 0x4000000000000000 (triWave 0x3FD0000000000000) = 0 := by decide +kernel
  have hz0 : fTanh 0 = 0 := by decide +kernel
  have hl := numerics_lawful.tanh_mono 0 0x4000000000000000 (by decide)
  have hu := (numerics_lawful.tanh_unit 0x4000000000000000).2
  rw [← fTanh_eq, ← fTanh_eq, hz0] at hl
  rw [← fTanh_eq] at hu
  cases hz : isZero (fTanh 0x4000000000000000)
  · obtain ⟨_, hn, h0⟩ := (fle_iff _ _).1 hl
    obtain ⟨_, _, h1⟩ := (fle_iff _ _).1 hu
    have key : ordKey (0 : F64) = 0 := by decide
    have hf := isFinite_of_le_one (by omega) h1
    have hp : flt f0 (fTanh 0x4000000000000000) = true := by
      rw [flt_iff]
      refine ⟨by decide, hn, lt_of_le_of_ne h0 fun h => ?_⟩
      simp only [isZero, decide_eq_false_iff_not] at hz
      rw [show ordKey f0 = 0 by decide] at h
      unfold ordKey signed at h
      split at h <;> omega
    rw [hybridSine_eq_quotient, hybridSine_eq_quotient, hpeak, hzero, hz0]
    · exact ⟨fdiv_self hf hz, fdiv_zero hf (isNeg_of_pos hp) hz⟩
    · rw [hzero, hz0, show (0 : F64) = f0 from rfl, fdiv_zero hf (isNeg_of_pos hp) hz]
      decide
    · rw [hpeak, fdiv_self hf hz]
      decide
  · rw [hybridSine_open (by rw [hpeak]; exact hz) hz, hybridSine_open (by rw [hzero, hz0]; decide) hz, hpeak, hzero]
    decide

/-- O6: the cases that need no value of `F.exp`. -/
theorem test_slew :
    slewAlpha 0x40E7700000000000 0x0000000000000000 = 0 ∧
      slew 0x0000000000000000 0x3FF0000000000000 0x3FE0000000000000 = 0x3FE0000000000000 ∧
      slew 0x3FE0000000000000 0x3FF0000000000000 0x3FE0000000000000 = 0x3FE8000000000000 ∧
      slew 0x3FD0000000000000 0x3FF0000000000000 0x0000000000000000 = 0x3FD0000000000000 := by decide +kernel

/-- O7, the third at `1 - 2^-53` and `2^-53`; 2.75 less its floor. -/
theorem test_advance :
    advance 0x3FE8000000000000 0x3FD0000000000000 = 0 ∧ advance 0x3FECCCCCCCCCCCCD 0x3FC999999999999A = 0x3FB99999999999A0 ∧
      advance 0x3FEFFFFFFFFFFFFF 0x3CA0000000000000 = 0 ∧
      advance 0x3FD0000000000000 0x4004000000000000 = 0x3FE8000000000000 := by decide +kernel

/-- O8: the exact rows; a register below the minimum is clamped, a NaN register reads as 440. -/
theorem test_phase_increment :
    phaseIncrement 0x40E7700000000000 0x40C7700000000000 0x0000000000000000 = 0x3FD0000000000000 ∧
      phaseIncrement 0x40E7700000000000 0x408F400000000000 0x4092C00000000000 = 0x3FA5555555555555 ∧
      aval (frequencyParam Config.osc) 0xC014000000000000 [] 0 = 0x3F847AE147AE147B ∧
      aval (frequencyParam Config.osc) 0x7FF8000000000001 [] 0 = 0x407B800000000000 ∧
      phaseIncrement 0x40E5888000000000 0x407B800000000000 0x0000000000000000 = 0x3F846EFDCB4A6B82 := by decide +kernel

/-- O9: SYNC -0.5, 0.0, 0.3, 0.4 from reset has its edge at 0.3; a NaN sample is never an edge. -/
theorem test_sync_edge :
    syncEdge 0x0000000000000000 0xBFE0000000000000 = false ∧ syncEdge 0xBFE0000000000000 0x0000000000000000 = false ∧
      syncEdge 0x0000000000000000 (portSample [0x3E99999A] 0) = true ∧
      syncEdge (portSample [0x3E99999A] 0) (portSample [0x3ECCCCCD] 0) = false ∧
      syncEdge 0x0000000000000000 (portSample [0x7FC00000] 0) = false := by
  decide +kernel

/-- V2, V3 and V6's exact rows: unsaturated voltages, the gains the laws fix, the threshold. -/
theorem test_vca_gain :
    saturate Config.vca 0x0000000000000000 = 0x0000000000000000 ∧ saturate Config.vca 0xC000000000000000 = 0xC000000000000000 ∧
      gainOf Config.vca 0x0000000000000000 = 0x3FF0000000000000 ∧
      gainOf Config.vca 0xC000000000000000 = 0x3FB999999999999A ∧
      gainOf Config.vca 0xC028333333333333 = 0x0000000000000000 := by decide +kernel

/-- T1, K = 9.6. -/
theorem test_shelf_coefficients :
    shelfK 0x40E7700000000000 0x3F1A36E2EB1C432D = 0x4023333333333333 ∧
      coeffs 0x4023333333333333 0xBFF0000000000000 = ⟨0x3FB826A439F656F2, 0x3FB826A439F656F2, 0xBFE9F656F1826A44⟩ ∧
      coeffs 0x4023333333333333 0xBFE0000000000000 = ⟨0x3FE1826A439F656F, 0xBFD6F1826A439F65, 0xBFE9F656F1826A44⟩ ∧
      coeffs 0x4023333333333333 0x0000000000000000 = ⟨0x3FF0000000000000, 0x0000000000000000, 0x0000000000000000⟩ ∧
      coeffs 0x4023333333333333 0x3FE0000000000000 = ⟨0x3FF73ECADE304D48, 0xBFF439F656F1826A, 0xBFE9F656F1826A44⟩ ∧
      coeffs 0x4023333333333333 0x3FF0000000000000 = ⟨0x3FFE7D95BC609A91, 0xBFFB78C13521CFB3, 0xBFE9F656F1826A44⟩ := by decide +kernel

/-- N1. -/
theorem test_noise_coefficients :
    shelfK 0x40E7700000000000 0x3F2A36E2EB1C432D = 0x4033333333333333 ∧
      coeffs 0x4033333333333333 0xBFF0000000000000 = ⟨0x3FA958B67EBB907A, 0x3FA958B67EBB907A, 0xBFECD4E930288DF1⟩ := by decide +kernel

/-- T2, T4, T5: the second impulse sample; a resynchronised state; the identity on -0. -/
theorem test_shelf_output :
    shelfOutput (coeffs 0x4023333333333333 0xBFF0000000000000) 0xBFF0000000000000 0x0000000000000000 ⟨0x3FF0000000000000, 0x3FB826A439F656F2⟩ = 0x3FC5DF5F99ED9732 ∧
      shelfOutput (coeffs 0x4023333333333333 0x3FF0000000000000) 0x3FF0000000000000 0x0000000000000000 ⟨0x3FF0000000000000, 0x3FFE7D95BC609A91⟩ = 0xBFC5DF5F99ED9730 ∧
      shelfOutput (coeffs 0x4023333333333333 0xBFF0000000000000) 0xBFF0000000000000 0x3FD0000000000000 ⟨0x3FD0000000000000, 0x3FD0000000000000⟩ = 0x3FD0000000000000 ∧
      shelfOutput (coeffs 0x4023333333333333 0x3FD3333333333333) 0x3FD3333333333333 0x3FD0000000000000 ⟨0x3FD0000000000000, 0x3FD0000000000000⟩ = 0x3FD0000000000001 ∧
      shelfOutput (coeffs 0x4023333333333333 0x0000000000000000) 0x0000000000000000 0x8000000000000000 ⟨0x3FF0000000000000, 0x3FF0000000000000⟩ = 0x8000000000000000 := by decide +kernel

/-- T6. -/
theorem test_flush : flush 0x399856C1984E1CBF 0x39B4484BFEEBC2A0 = 0 ∧
      flush 0xB9B4484BFEEBC2A0 0x39B4484BFEEBC2A0 = 0xB9B4484BFEEBC2A0 ∧
      flush 0x39C4484BFEEBC2A0 0x39B4484BFEEBC2A0 = 0x39C4484BFEEBC2A0 := by
  decide +kernel

/-- H4's first three inputs: snaps. -/
theorem test_therm_snaps :
    thermNext Config.block Config.therm 0x0000000000000000 0x3FB999999999999A = 0x3FB999999999999A ∧
      thermNext Config.block Config.therm 0x3FB999999999999A 0x3FC999999999999A = 0x3FC999999999999A ∧
      thermNext Config.block Config.therm 0x3FC999999999999A 0x3FC3333333333333 = 0x3FC3333333333333 := by decide +kernel

/-- N3: the switch waits for a close sample; at an exact match it is taken. -/
theorem test_noise_bypass_switch :
    nextBypass Config.noise true false 0x3FD999999999999A 0x3FE0000000000000 = false ∧
      nextBypass Config.noise true false 0x3FDFF10DAEFFA7E7 0x3FE0000000000000 = true ∧
      nextBypass Config.noise false true 0x3FE0000000000000 0x3FE0000000000000 = false := by decide +kernel

/-- M1 and M2. -/
theorem test_ramp :
    ramp 4 0x3FF0000000000000 true = 0x3FE8000000000000 ∧ ramp 3 0x3FF0000000000000 true = 0x3FE5555555555556 ∧
      ramp 3 0x3FD5555555555557 true = 0x3CA0000000000000 ∧
      ramp 3 0x3CA0000000000000 true = 0 ∧ ramp 3 0x0000000000000000 false = 0x3FD5555555555555 ∧
      ramp 3 0x3FE5555555555555 false = 0x3FF0000000000000 := by decide +kernel

def edges : Samples := List.replicate 10 0xBF800000 ++ [0x3F800000, 0xBF800000] ++ List.replicate 27 0x3F800000 ++ [0xBF800000] ++ List.replicate 60 0x3F800000

/-- S3: rising edges at 10, 12 and 40. -/
theorem test_trigger_holdoff :
    (searchTriggers edges 0 5 50 100).found = [10, 40] ∧ (searchTriggers edges 0 0 50 100).found = [10, 12, 40] ∧
      (searchTriggers edges 0 1 50 100).found = [10, 12, 40] := by decide +kernel

/-- S4: the nearest to 1200 is 103; without an anchor the earliest; the new period. -/
theorem test_trigger_choice :
    chooseTrigger 1100 (some 1000) (some 100) 3 [52, 103] = 103 ∧ chooseTrigger 1100 none (some 100) 3 [52, 103] = 3 ∧
      decideCapture 1024 2048 1100 (some 1000) (some 100) [3, 52, 103] =
        { triggered := true, start := 103, valid := 980, anchor := some 1203, period := some 49 } := by decide +kernel

/-- W5, captures 1 to 3. -/
theorem test_scenario_five_decisions :
    decideCapture 1024 1024 0 none none [] = { triggered := false, start := 0, valid := 1024, anchor := none, period := none } ∧
      decideCapture 1024 2048 0 none none [481, 961] =
        { triggered := true, start := 481, valid := 960, anchor := some 481, period := some 480 } ∧
      decideCapture 1024 2048 1024 (some 481) (some 480) [417, 897] =
        { triggered := true, start := 417, valid := 960, anchor := some 1441, period := some 480 } := by decide +kernel

/-- B1, B2's bounds and W6. -/
theorem test_bridge_indices :
    usedFrames 8 2 6 = 4 ∧ freeFrames 8 2 6 = 3 ∧ usedFrames 8 6 2 = 4 ∧ usedFrames 8 3 3 = 0 ∧ freeFrames 8 3 3 = 7 ∧
      slotOf 8 (-1) = 7 ∧ slotOf 8 13 = 5 ∧ usedFrames 128 100 60 = 40 ∧ freeFrames 128 100 60 = 87 := by decide +kernel

/-- R104: the byte order of a region's fields. -/
theorem test_region_byte_order :
    ((freshRegion 2 1).store32 .little 0 0x01020304).map (fun r => r.mem) = some [(0, 4), (1, 3), (2, 2), (3, 1)] ∧
      ((freshRegion 2 1).store32 .big 12 0x01020304).map (fun r => (r.mem.read 12, r.load32 .big 12, r.load32 .little 12)) =
        some (1, some 0x01020304, some 0x04030201) ∧
      (freshRegion 2 1).store32 .big 13 0 = none := by decide +kernel

/-- Writing the value an unlisted byte reads as removes the entry; other bytes stay. -/
theorem test_memory_canonical :
    Memory.write [(1, 5), (3, 7)] 3 0 = [(1, 5)] ∧ Memory.write [(1, 5), (3, 7)] 2 9 = [(1, 5), (2, 9), (3, 7)] ∧
      Memory.read [(1, 5), (3, 7)] 2 = 0 := by decide

/-! ### One step of each command -/

/-- E6: the same boundary leaves 200; E4: SETWAVEFORM 5 leaves MULTI; O9's wake clears `prevSync`. -/
theorem test_exec_osc :
    ((nextOf (execSetParamOscFrequency 0 0x4069000000000000 (start.onOsc 0 fun u => { u with reg := { u.reg with frequency := 0x4059000000000000 } }))).map
        fun t => t.osc.map fun u => u.reg.frequency) = some [0x4069000000000000] ∧
      ((nextOf (execSetWaveformOsc 0 5 start)).map fun t => t.osc.map Osc.mode) = some [.multi] ∧
      ((nextOf (execSetWaveformOsc 15 1 start)).map fun t => t.osc.map Osc.mode) = some [.saw] ∧
      ((nextOf (execResetPhaseOsc 0 (start.onOsc 0 fun u => { u with phase := 0x3FE0000000000000 }))).map fun t => t.osc.map Osc.phase) = some [0] ∧
      ((nextOf (execSetDormantOsc 0 0 (start.onOsc 0 fun u => { u with mute := ⟨true, 0⟩, prevSync := 0x3FF0000000000000, slewSaw := 0x3FF0000000000000 }))).map
        fun t => t.osc.map fun u => (u.mute.dormant, u.prevSync, u.slewSaw)) = some [(false, 0, 0)] := by decide +kernel

/-- E5: a broadcast reaches every instance, in a block of three. -/
theorem test_exec_broadcast :
    ((nextOf (execSetParamThermEnable 15 0
        (start.setTherm [Therm.reset Config.therm, Therm.reset Config.therm, Therm.reset Config.therm]))).map
      fun t => t.therm.map Therm.enable) = some [0, 0, 0] := by decide +kernel

def vcaAsleep : State := start.onVca 0 fun u => { u with mute := ⟨true, 0⟩ }

/-- E6 on a dormant VCA: OFF then RESYNC leaves `s = -3`, `sInit = 1`; the reverse order leaves `sInit = 0`. -/
theorem test_exec_vca_wake_order :
    (((nextOf (execSetDormantVca 0 0 vcaAsleep)).bind fun t => nextOf (execResyncVca 0 0xC008000000000000 t)).map
        fun t => t.vca.map fun u => (u.s, u.sInit)) = some [(0xC008000000000000, true)] ∧
      (((nextOf (execResyncVca 0 0xC008000000000000 vcaAsleep)).bind fun t => nextOf (execSetDormantVca 0 0 t)).map
        fun t => t.vca.map fun u => (u.s, u.sInit)) = some [(0xC008000000000000, false)] := by decide +kernel

/-- R192 to R196: an infinity is ignored, a finite value taken. -/
theorem test_exec_resync :
    ((nextOf (execResyncOsc 0 0x7FF0000000000000 start)).map fun t => t.osc.map Osc.slewSaw) = some [0] ∧
      ((nextOf (execResyncTone 0 0x3FD0000000000000 start)).map fun t => t.tone.map Tone.chans) = some [[⟨0x3FD0000000000000, 0x3FD0000000000000⟩]] ∧
      ((nextOf (execResyncTherm 0 0x3FD0000000000000 start)).map fun t => t.therm.map Therm.cur) = some [0x3FD0000000000000] ∧
      ((nextOf (execResyncNoise 0 0x3FD0000000000000 start)).map fun t => t.noise.map Noise.filter) = some [⟨0x3FD0000000000000, 0x3FD0000000000000⟩] := by
  decide +kernel

/-- S6 on a block whose window may hold 2 to 32768 samples; the bridges clamp the next START's capacity. -/
theorem test_exec_set_buffer_size :
    ((nextOf (execSetBufferSizeScope 0 0 start)).map fun t => t.scope.map fun u => (u.n, u.bufY.length)) = some [(2, 4)] ∧
      clampCount 1000000 2 32768 = 32768 ∧ clampCount 512 2 32768 = 512 ∧
      ((nextOf (execSetBufferSizeBrcap 0 1 start)).map fun t => t.brcap.map fun u => (u.link.capNext, u.link.cap)) = some [(2, 8)] ∧
      ((nextOf (execSetBufferSizeBrplay 0 4 start)).map fun t => t.brplay.map fun u => u.link.capNext) = some [4] := by
  decide +kernel

/-- P3's START: 72 zero bytes; B7: without shared memory FALLBACK, counted once. -/
theorem test_exec_start :
    ((nextOf (execStartBrcap 0 start)).map fun t => t.brcap.map fun u => (u.link.run, u.link.region)) =
        some [(.running, some ⟨72, []⟩)] ∧
      ((nextOf (execStartBrcap 0 (start.provideShm false))).map fun t =>
        t.brcap.map fun u => (u.link.mode, u.link.fallbackLatched, u.common.pending.fallback)) = some [(.fallback, true, 1)] ∧
      ((nextOf (execStartBrplay 0 (start.onBrplay 0 fun u => { u with link := { u.link with fallbackLatched := true } }))).map fun t =>
        t.brplay.map fun u => (u.link.mode, u.link.region, u.common.pending.fallback)) = some [(.fallback, none, 0)] := by
  decide +kernel

/-- STOP discards the staged frames, keeps the transport and the region. -/
theorem test_exec_stop :
    ((nextOf (execStopBrcap 0 (start.onBrcap 0 fun u =>
        { u with staging := [[0, 0]], link := { u.link with run := .running, region := some ⟨72, []⟩ } }))).map fun t =>
      t.brcap.map fun u => (u.link.run, u.staging, u.link.region)) = some [(.stopped, [], some ⟨72, []⟩)] ∧
      ((nextOf (execStopBrplay 0 (start.onBrplay 0 fun u => { u with link := { u.link with run := .running } }))).map fun t =>
        t.brplay.map fun u => u.link.run) = some [.stopped] := by decide +kernel

def fallbackPlay (fifo : List Frame) : State := start.onBrplay 0 fun u =>
    { u with link := { u.link with run := .running, mode := .fallback, fallbackLatched := true, cap := 4 }, fifo := fifo }

/-- B6 with `cap = 4`: 3 frames fit an empty FIFO; then 2 more are dropped and counted. -/
theorem test_exec_push_chunk :
    ((nextOf (execPushChunkBrplay 0 3 [1, 2, 3, 4, 5, 6] (fallbackPlay []))).map fun t =>
        t.brplay.map fun u => (u.fifo, u.common.pending.overflow)) = some [([[1, 2], [3, 4], [5, 6]], 0)] ∧
      ((nextOf (execPushChunkBrplay 0 2 [7, 8, 9, 10] (fallbackPlay [[1, 2], [3, 4], [5, 6]]))).map fun t =>
        t.brplay.map fun u => (u.fifo, u.common.pending.overflow)) = some [([[1, 2], [3, 4], [5, 6]], 2)] := by decide +kernel

/-! ### One step of the block -/

/-- A running capture bridge in shared mode. -/
def capturing (w : Nat) (mem : Memory) (input : List Samples) : State :=
  (start.onBrcap 0 fun u =>
    { u with link := { u.link with run := .running, region := some ⟨72, mem⟩ }, wLocal := w, input := input }).setPhase .bridges

/-- A running playback bridge in shared mode; the three frames of P6 published. -/
def playing (underflow : UnderflowMode) : State :=
  (start.onBrplay 0 fun u =>
    { u with
      cfg := { u.cfg with underflow := underflow }
      link :=
        { u.link with
          run := .running
          region :=
            some ⟨72, [(0, 3), (11, 0x3F), (15, 0xBF), (18, 0x80), (19, 0x3E), (22, 0x80), (23, 0xBE), (26, 0x80), (27, 0x3F), (30, 0x80),
              (31, 0xBF)]⟩ } }).setPhase .bridges

/-- P3, block 0: the first 40 bytes of the region. -/
theorem test_capture_block_zero :
    ((nextOf (step (capturing 0 [] [[0x3F800000, 0x40000000, 0x40400000, 0x40800000], [0xBF800000, 0xC0000000, 0xC0400000, 0xC0800000]]))).map fun t =>
      (t.brcap.map fun u => u.wLocal, (List.range 40).map fun o => t.captureByte 0 o)) =
      some ([4], (bytes [4, 0, 0, 0, 0, 0, 0, 0, 0, 0, 0x80, 0x3F, 0, 0, 0x80, 0xBF, 0, 0, 0, 0x40, 0, 0, 0, 0xC0, 0, 0, 0x40, 0x40, 0, 0,
        0x40, 0xC0, 0, 0, 0x80, 0x40, 0, 0, 0x80, 0xC0]).map some) := by decide +kernel

/-- P3, block 1: one frame dropped and counted; block 2: the write wraps to slots 7, 0, 1, 2. -/
theorem test_capture_overflow_and_wrap :
    ((nextOf (step (capturing 4 [(0, 4)] [[0x40A00000, 0x40C00000, 0x40E00000, 0x41000000], [0xC0A00000, 0xC0C00000, 0xC0E00000, 0xC1000000]]))).map fun t =>
      t.brcap.map fun u => (u.wLocal, u.common.pending.overflow)) = some [(7, 1)] ∧
      ((nextOf (step (capturing 7 [(0, 7), (4, 7)] [[0x41100000, 0x41200000, 0x41300000, 0x41400000], []]))).map fun t =>
        t.brcap.map fun u => (u.wLocal, u.link.region.bind (Region.load32 .little 64), u.link.region.bind (Region.load32 .little 8))) =
        some [(3, some 0x41100000, some 0x41200000)] := by decide +kernel

/-- B4 and P6, block 1, and its HOLD variant. -/
theorem test_playback_block :
    ((nextOf (step (playing .silence))).map fun t =>
      t.brplay.map fun u => (u.out, u.rLocal, u.common.pending.underflow, u.lastFrame)) =
        some [([[0x3F000000, 0x3E800000, 0x3F800000, 0], [0xBF000000, 0xBE800000, 0xBF800000, 0]], 3, 1, [0x3F800000, 0xBF800000])] ∧
      ((nextOf (step (playing .hold))).map fun t => t.brplay.map Brplay.out) =
        some [[[0x3F000000, 0x3E800000, 0x3F800000, 0x3F800000], [0xBF000000, 0xBE800000, 0xBF800000, 0xBF800000]]] := by decide +kernel

/-- R105: a misaligned write of the peer over `readIndex` and the first sample leaves the block's next load of the index a draw. -/
theorem test_misaligned_peer_write_races :
    (((capturing 0 [] []).act (.capturePeer 0 (.write 6 [1, 2, 3]))).brcap.map fun u =>
        (u.link.order.pending, u.link.region, (u.link.atomicLoad captureDir .little 4).map fun r => r.2.races)) =
      [([8, 4], some ⟨72, [(6, 1), (7, 2), (8, 3)]⟩, some 1)] := by decide +kernel

/-- R110: a slot rewritten without a store of `writeIndex` after it races; with the store it is read as written. -/
theorem test_peer_release_orders_writes :
    (((playing .silence).act (.playPeer 0 (.write 8 [0, 0, 0, 0]))).brplay.map fun u => u.link.order.raced 8) = [true] ∧
      ((nextOf (step (((playing .silence).act (.playPeer 0 (.write 8 [0, 0, 0, 0]))).act (.playPeer 0 (.store 0 3))))).map fun t =>
        t.brplay.map fun u => (u.out, u.link.races, u.link.order.released)) =
        some [([[0, 0x3E800000, 0x3F800000, 0], [0xBF000000, 0xBE800000, 0xBF800000, 0]], 0, [])] := ⟨by decide +kernel, by decide +kernel⟩

/-- R110: a slot the block has read can be written only after the peer has loaded `readIndex`; a captured one becomes a draw. -/
theorem test_peer_acquires_before_it_writes :
    ((nextOf (step (playing .silence))).map fun t =>
        ((t.act (.playPeer 0 (.write 11 [1]))).playByte 0 11,
          ((t.act (.playPeer 0 (.load 4))).act (.playPeer 0 (.write 11 [1]))).playByte 0 11)) = some (some 0x3F, some 1) ∧
      ((nextOf (step (capturing 0 [] []))).map fun t =>
        ((t.act (.capturePeer 0 (.write 8 [1]))).brcap.map fun u => u.link.races,
          ((t.act (.capturePeer 0 (.load 0))).act (.capturePeer 0 (.write 8 [1]))).brcap.map fun u => u.link.races)) =
        some ([1], [0]) := ⟨by decide +kernel, by decide +kernel⟩

/-- R530: an array of fewer than Q samples, or one supplied inside a block, is no move. -/
theorem test_supply_needs_whole_arrays :
    (start.act (.supply ⟨[], [], [], [[1, 2, 3]], [], []⟩)).therm.map Therm.input = [[]] ∧
      (start.act (.supply ⟨[], [], [], [[1, 2, 3, 4]], [], []⟩)).therm.map Therm.input = [[1, 2, 3, 4]] ∧
      ((start.setPhase (.frame 1)).act (.supply ⟨[], [], [], [[1, 2, 3, 4]], [], []⟩)).therm.map Therm.input = [[]] := by
  decide +kernel

/-- R531: a packet collected inside the block, a peer's store between its last moves and a command that comes too late are all part
of the run; a run whose block has not ended is none. -/
theorem test_run_takes_moves_inside_a_block :
    let s := { (capturing 4 [] []).setPhase .endOfBlock with outQueue := [.eventOutbound 8 0 2 2] }
    let es := [Event.outside (.collect 1), .outside (.capturePeer 0 (.store 4 3)), .outside (.post (bytes [1])), .render]
    (runEvents es s).map (fun r => (r.collected, r.outputs.length, r.final.inQueue,
        r.final.brcap.map fun u => u.link.region.map fun g => g.mem)) =
        some ([.eventOutbound 8 0 2 2], 1, [bytes [1]], [some [(4, 3)]]) ∧
      runEvents (es.take 3) s = none ∧ runEvents [] start = some ⟨[], [], start⟩ :=
  ⟨rfl, rfl, rfl⟩

def fallbackBridges : State := ((start.onBrcap 0 fun u =>
    { u with link := { u.link with run := .running, mode := .fallback, fallbackLatched := true }, staging := [[9, 9]] }).onBrplay 0 fun u =>
      { u with link := { u.link with run := .running, mode := .fallback, fallbackLatched := true }, fifo := [[1, 2]] }).setPhase .bridges

/-- R425 with chunks of 3: four frames and one staged make one chunk and leave two; R433: a FIFO of one frame underflows. -/
theorem test_fallback_blocks :
    ((nextOf (step fallbackBridges)).map fun t => t.brcap.map fun u => (u.made, u.staging)) =
        some [([[[9, 9], [0, 0], [0, 0]]], [[0, 0], [0, 0]])] ∧
      ((nextOf (step fallbackBridges)).map fun t => t.brplay.map fun u => (u.out, u.fifo, u.common.pending.underflow)) =
        some [([[1, 0, 0, 0], [2, 0, 0, 0]], [], 3)] := ⟨by decide +kernel, by decide +kernel⟩

def oscAt12k : State := (start.onOsc 0 fun u => { u with reg := { u.reg with frequency := 0x40C7700000000000 }, mode := .tri, phase := 0x3FD0000000000000 }).setPhase (.frame 0)

/-- P1's shape with the triangle, which no slew touches: phases 0.25 and 0.5 at 12 kHz; M3's frozen frame. -/
theorem test_osc_frame :
    ((nextOf (step oscAt12k)).map fun t => t.osc.map fun u => (u.out0, u.out1, u.phase)) = some [([0], [0], 0x3FE0000000000000)] ∧
      ((nextOf (step (oscAt12k.onOsc 0 fun u => { u with mute := ⟨true, 0⟩ }))).map fun t => t.osc.map fun u => (u.out0, u.out1, u.phase)) =
        some [([0], [0], 0x3FD0000000000000)] ∧
      ((nextOf (step (oscAt12k.onOsc 0 fun u => { u with phase := 0x3FE0000000000000 }))).map fun t => t.osc.map fun u => (u.out0, u.phase)) =
        some [([0x3F800000], 0x3FE8000000000000)] := by decide +kernel

def vcaAt (dial cv : F64) (c : F32) : State := (start.onVca 0 fun u =>
    { u with latch := ⟨dial, true⟩, s := cv, sInit := true, input := [0x3F000000], cv := [c] }).setPhase (.frame 0)

/-- P2: dial -2 and 0.5 in; W3: the cutoff at dial -12 whatever the control voltage, while the filter runs. -/
theorem test_vca_frame :
    ((nextOf (step (vcaAt 0xC000000000000000 0xC000000000000000 0))).map fun t => t.vca.map fun u => (u.out, u.s)) = some [([0x3D4CCCCD], 0xC000000000000000)] ∧
      ((nextOf (step (vcaAt 0xC028000000000000 0xC028000000000000 0x41400000))).map fun t => t.vca.map fun u => (u.out, u.s)) = some [([0], 0x0000000000000000)] ∧
      ((nextOf (step (vcaAt 0x0000000000000000 0xC028000000000000 0))).map fun t => t.vca.map fun u => u.out) = some [[0x3F000000]] := by decide +kernel

theorem nan_product : isNaN (fmul (fmul f0 0x7FF0000000000000) f1) = true := by
  have h : fmul f0 0x7FF0000000000000 = nanResult 2 f0 0x7FF0000000000000 := rfl
  rw [h, fmul, isNaN_nanResult]
  exact isNaN_nanResult ..

/-- R283: a smoothed voltage that overflows is stored as +0; the NaN of 0 times an infinite gain is output as +0. -/
theorem test_vca_stops_invalid_values :
    smooth 0x3FE0000000000000 0x7FEE42D130773B76 0xFFEE42D130773B76 = 0x0000000000000000 ∧
      smooth 0x3FE0000000000000 0x3FF0000000000000 0x4000000000000000 = 0x3FF8000000000000 ∧
      vcaOutput 0x0000000000000000 0x7FF0000000000000 0x3FF0000000000000 = 0 ∧
      vcaOutput 0x3FE0000000000000 0x3FB999999999999A 0x3FF0000000000000 = 0x3D4CCCCD :=
  ⟨by decide +kernel, by decide +kernel, if_pos nan_product, by decide +kernel⟩

def toneAt (p : F64) (x : F32) : State := (start.onTone 0 fun u => { u with latchPosition := p, input := [[x]] }).setPhase (.frame 0)

/-- P4: the first frame; position 0 is the identity on -0. -/
theorem test_tone_frame :
    ((nextOf (step (toneAt 0xBFF0000000000000 0x3F800000))).map fun t => t.tone.map fun u => (u.out, u.chans)) =
        some [([[0x3DC13522]], [⟨0x3FF0000000000000, 0x3FB826A439F656F2⟩])] ∧
      ((nextOf (step (toneAt 0x0000000000000000 0x80000000))).map fun t => t.tone.map Tone.out) = some [[[0x80000000]]] := by decide +kernel

def thermAt (on : Bool) (x : F32) : State := (start.onTherm 0 fun u => { u with latchEnable := on, cur := 0x3FD0000000000000, input := [x] }).setPhase (.frame 0)

/-- H4's snap at the threshold; H6: bypassed, the input goes out and `cur` stays. -/
theorem test_therm_frame :
    ((nextOf (step (thermAt true 0x3EA00000))).map fun t => t.therm.map fun u => (u.cur, u.out)) = some [(0x3FD4000000000000, [0x3EA00000])] ∧
      ((nextOf (step (thermAt false 0x3F800000))).map fun t => t.therm.map fun u => (u.cur, u.out)) = some [(0x3FD0000000000000, [0x3F800000])] := by
  decide +kernel

def noiseAt (colour : F64) (m : Mute) : State := (start.onNoise 0 fun u =>
    { u with latch := ⟨colour, 0x3FF0000000000000, false⟩, mute := m, draws := [0x3FE0000000000000, 0xBFD0000000000000] }).setPhase (.frame 0)

/-- N2, first draw, colours -1 and +1; N4: a frozen frame takes no draw. -/
theorem test_noise_frame :
    ((nextOf (step (noiseAt 0xBFF0000000000000 .reset))).map fun t => t.noise.map fun u => (u.out, u.draws)) = some [([0x3CCAC5B4], [0xBFD0000000000000])] ∧
      ((nextOf (step (noiseAt 0x3FF0000000000000 .reset))).map fun t => t.noise.map Noise.out) = some [[0x3F79A9D2]] ∧
      ((nextOf (step (noiseAt 0xBFF0000000000000 ⟨true, 0⟩))).map fun t => t.noise.map fun u => (u.out, u.draws)) = some [([0], [0x3FE0000000000000, 0xBFD0000000000000])] := by
  decide +kernel

def scopeFull : State := (start.onScope 0 fun u =>
    { u with
      bufY := [0xBF800000, 0xBF800000, 0x3F800000, 0x3F800000, 0xBF800000, 0xBF800000, 0x3F800000, 0], bufX := [0x00000000, 0x3F800000, 0x40000000, 0x40400000, 0x40800000, 0x40A00000, 0x40C00000, 0]
      w := 7, filled := 7, newCount := 3, total := 7, inY := [0, 0, 0, 0x3F800000], inX := [0, 0, 0, 0x40E00000] }).setPhase (.frame 3)

/-- P5, block 1's capture: seven samples written, the eighth fires it. -/
theorem test_scope_frame :
    ((nextOf (step scopeFull)).map fun t => t.scope.map Scope.made) =
        some [[⟨true, 4, 4, [0x3F800000, 0x3F800000, 0xBF800000, 0xBF800000], [0x40000000, 0x40400000, 0x40800000, 0x40A00000]⟩]] ∧
      ((nextOf (step scopeFull)).map fun t => t.scope.map fun u => (u.w, u.filled, u.newCount)) = some [(0, 8, 0)] ∧
      ((nextOf (step scopeFull)).map fun t => t.scope.map fun u => (u.total, u.anchor, u.period)) = some [(8, some 2, none)] :=
  ⟨by decide +kernel, by decide +kernel, by decide +kernel⟩

def atBoundary : State := (start.onVca 0 fun u => { u with reg := ⟨0x4014000000000000, 0x3FD999999999999A⟩ }).onOsc 0 fun u => { u with common := u.common.drawFault true }

/-- R39: the boundary latches the clamped registers; X3: a drawn fault latches and counts. -/
theorem test_boundary :
    ((nextOf (step atBoundary)).map fun t =>
      (t.phase, t.vca.map Vca.latch, t.osc.map fun u => (u.common.faulted, u.common.pending.unitFault))) =
      some (.frame 0, [⟨0x0000000000000000, false⟩], [(true, 1)]) := by decide +kernel

def atEnd : State := (((start.onScope 0 fun u => { u with made := [⟨false, 1, 1, [0], [0]⟩] }).onBrplay 0 fun u =>
    { u with common := { u.common with pending := ⟨0, 2, 3, 0⟩ } }).onTone 0 fun u => { u with chans := [⟨0x399856C1984E1CBF, 0x39C4484BFEEBC2A0⟩] }).setPhase
      .endOfBlock

/-- X4's order, X2's count, T6's flush, and the block counter. -/
theorem test_end_of_block :
    ((nextOf (step atEnd)).map fun t => (t.outQueue, t.blockIndex)) =
        some ([.captureOutbound 0 false 1 1 0x40E7700000000000 [0] [0], .eventOutbound 8 0 2 2, .eventOutbound 8 0 3 3], 1) ∧
      ((nextOf (step atEnd)).map fun t => t.brplay.map fun u => (u.common.pending, u.common.lastReport.overflow)) =
        some [(⟨0, 0, 0, 0⟩, some 0)] ∧
      ((nextOf (step atEnd)).map fun t => t.tone.map Tone.chans) = some [[⟨0, 0x39C4484BFEEBC2A0⟩]] := by decide +kernel

def reported : Common := { Common.reset with pending := ⟨0, 0, 128, 0⟩, lastReport := ⟨none, none, some 10, none⟩ }

/-- X1: a count is not due 374 blocks after its report, and due 375 after it. -/
theorem test_report_interval :
    reported.due 384 375 .underflow = false ∧ reported.due 385 375 .underflow = true := by decide +kernel

/-! ### The assembler (30_encoding.md R160 to R163) -/

theorem test_assemble_commands :
    assembleLine 2 "SETPARAM OSC[0].frequency, 440.0".toList = some [bytes [0, 0, 0x10, 1, 0, 0, 0, 0, 0, 0x80, 0x7B, 0x40]] ∧
      assembleLine 2 "SETPARAM OSC[0].slewCutoff, 1.0e6".toList = some [bytes [0, 8, 0x10, 1, 0, 0, 0, 0, 0x80, 0x84, 0x2E, 0x41]] ∧
      assembleLine 2 "SETWAVEFORM OSC[0], SAW".toList = some [bytes [0, 0, 0x10, 2, 1, 0, 0, 0, 0, 0, 0, 0]] ∧
      assembleLine 2 "SETPARAM THERM[*].enable, 0.0".toList = some [bytes [0, 0, 0x4F, 1, 0, 0, 0, 0, 0, 0, 0, 0]] ∧
      assembleLine 2 "START BRCAP[0]".toList = some [bytes [0, 0, 0x70, 8, 0, 0, 0, 0, 0, 0, 0, 0]] ∧
      assembleLine 2 "SETPARAM OSC[15].frequency, 440.0".toList = none := by decide +kernel

theorem test_assemble_pseudo :
    assembleLine 2 "WAKE VCA[0], -2.0".toList =
        some [bytes [0, 0, 0x20, 9, 0, 0, 0, 0, 0, 0, 0, 0], bytes [0, 0, 0x20, 5, 0, 0, 0, 0, 0, 0, 0, 0xC0]] ∧
      assembleLine 2 "RESTART BRPLAY[0], 8".toList =
        some [bytes [0, 0, 0x80, 4, 0, 0, 0, 0, 0, 0, 0, 0], bytes [0, 0, 0x80, 6, 8, 0, 0, 0, 0, 0, 0, 0],
          bytes [0, 0, 0x80, 8, 0, 0, 0, 0, 0, 0, 0, 0]] ∧
      assembleLine 2 "THERMAL OFF".toList = some [bytes [0, 0, 0x4F, 1, 0, 0, 0, 0, 0, 0, 0, 0]] := by decide +kernel

/-! ### Witnesses: for each obligation with hypotheses, a state and operands that meet them, clause by clause -/

/-- A word of each shape with a payload, at no frame and at one. -/
theorem witness_EncodedPacketsDecodeBack :
    (Instr.pushChunkBrplay 15 0 []).wf = true ∧ (Instr.captureOutbound 14 true 0 0 0 [] []).wf = true ∧
      (Instr.chunkOutbound 0 1 [0]).wf = true ∧ (Instr.eventOutbound 1 0 4 0).wf = true := by decide

theorem witness_PacketsHaveTheirLengths :
    ([0x3F800000, 0xBF800000] : List F32).length = (1 : U32).toNat * 2 ∧ ([] : List F32).length = (0 : U32).toNat * 32 ∧
      (Instr.captureOutbound 0 true 1 1 0 [0] [0]).wf = true := by decide

/-- The opcodes at the ends of each clause's range. -/
theorem witness_IgnoredBitsDoNotMatter :
    (2 ≤ (2 : Byte).toNat ∧ (2 : Byte).toNat < 0x80) ∧ (2 ≤ (0x7F : Byte).toNat ∧ (0x7F : Byte).toNat < 0x80) ∧
      (0x0A : Byte).toNat = 10 ∧ (8 : Byte).toNat = 8 ∧ (9 : Byte).toNat < 10 := by decide

/-- A packet of 11 bytes; the last opcode of the range; a row on each side of the last OSC parameter. -/
theorem witness_OnlyActingRowsDecode :
    (bytes [0, 0, 0x10, 1, 0, 0, 0, 0, 0, 0, 0]).length < 12 ∧ (0x7F : Byte).toNat < 0x80 ∧ actingRow 1 1 9 = true ∧
      actingRow 1 1 10 = false := by decide

/-- A reserved opcode, and an outbound row. -/
theorem witness_RejectedPacketsChangeNothing :
    start.configOk = true ∧ start.phase = .boundary ∧ (start.post (bytes [0])).inQueue = [bytes [0]] ∧
      decode (bytes [0]) = .error .tooShort ∧
      decode (bytes [0, 2, 0x70, 0x82, 3, 0, 0, 0, 0, 0, 0, 0]) = .ok (.eventOutbound 7 0 2 3) ∧
      commandTarget (.eventOutbound 7 0 2 3) = none := ⟨by decide +kernel, rfl, rfl, rfl, rfl, rfl⟩

/-- The first instance number past the last, and the greatest. -/
theorem witness_AbsentInstancesAreIgnored :
    commandTarget (.startBrcap 1) = some (.brcap, 1) ∧ (1 : BitVec 4) ≠ 15#4 ∧ start.ninst .brcap ≤ (1 : BitVec 4).toNat ∧
      commandTarget (.startBrcap 14) = some (.brcap, 14) ∧ (14 : BitVec 4) ≠ 15#4 ∧ start.ninst .brcap ≤ (14 : BitVec 4).toNat := by
  decide +kernel

theorem witness_BroadcastRunsEveryInstance :
    commandTarget (.startBrcap 15) = some (.brcap, 15) ∧ start.ninst .brcap ≤ 15 := by decide +kernel

/-- A command that is no START; a START of another instance. -/
theorem witness_CommandsKeepRegionBytes :
    ((nextOf (exec (.stopBrcap 0) start)).isSome = true ∧ ∀ inst, Instr.stopBrcap 0 = .startBrcap inst → addressed inst 0 = false) ∧
      (nextOf (exec (.startBrcap 1) start)).isSome = true ∧ ∀ inst, Instr.startBrcap 1 = .startBrcap inst → addressed inst 0 = false :=
  ⟨⟨by decide +kernel, fun _ h => nomatch h⟩, by decide +kernel, fun _ h => by cases h; decide +kernel⟩

theorem witness_StepRunsDecodedCommand :
    start.configOk = true ∧ start.phase = .boundary ∧
      (start.post (bytes [0, 0, 0x10, 3, 0, 0, 0, 0, 0, 0, 0, 0])).inQueue = [bytes [0, 0, 0x10, 3, 0, 0, 0, 0, 0, 0, 0, 0]] ∧
      decode (bytes [0, 0, 0x10, 3, 0, 0, 0, 0, 0, 0, 0, 0]) = .ok (.resetPhaseOsc 0) := ⟨by decide +kernel, rfl, rfl, rfl⟩

/-- Every part of the block answers a next state: the boundary, the first and the last frame, the bridges, the end. -/
theorem witness_BlockFollowsSchedule :
    (start.phase ≠ .boundary ∨ start.inQueue = []) ∧
      ([Phase.boundary, .frame 0, .frame 3, .bridges, .endOfBlock].map fun p => (nextOf (step (start.setPhase p))).isSome) =
        [true, true, true, true, true] := by decide +kernel

theorem witness_CommandStateHoldsInsideBlock :
    (nextOf (step (start.setPhase (.frame 3)))).isSome = true ∧ (start.setPhase (.frame 3)).phase ≠ .boundary ∧
      (nextOf (step (start.setPhase .bridges))).isSome = true ∧ (start.setPhase .bridges).phase ≠ .boundary ∧
      (nextOf (step (start.setPhase .endOfBlock))).isSome = true ∧ (nextOf (step start)).isSome = true ∧ start.inQueue = [] := by
  decide +kernel

/-- One instance of every class that latches parameters, at a boundary with nothing queued. -/
theorem witness_BoundaryLatchesParameters :
    start.configOk = true ∧ start.phase = .boundary ∧ start.inQueue = [] ∧ start.osc[0]?.isSome = true ∧ start.vca[0]?.isSome = true ∧
      start.tone[0]?.isSome = true ∧ start.therm[0]?.isSome = true ∧ start.noise[0]?.isSome = true ∧ start.scope[0]?.isSome = true ∧
      start.brcap[0]?.isSome = true ∧ start.brplay[0]?.isSome = true := by
  decide +kernel

/-- A drawn fault, and an instance without one. -/
theorem witness_FaultDrawsLatch :
    atBoundary.configOk = true ∧ atBoundary.phase = .boundary ∧ atBoundary.inQueue = [] ∧
      (((atBoundary.commonOf .osc)[0]?).map fun c => (c.faulted, c.faultDraw)) = some (false, true) ∧
      (((atBoundary.commonOf .vca)[0]?).map fun c => (c.faulted, c.faultDraw)) = some (false, false) := by decide +kernel

theorem witness_FaultsAndConfigurationPersist :
    let s := start.onTherm 0 fun u => { u with common := { u.common with faulted := true } }
    (nextOf (step s)).isSome = true ∧ ((s.commonOf .therm)[0]?).map Common.faulted = some true :=
  ⟨by decide +kernel, by decide +kernel⟩

theorem witness_OutboundPacketsAreOrdered :
    atEnd.configOk = true ∧ atEnd.phase = .endOfBlock ∧ (atEnd.scope[0]?.map fun u => u.made.length) = some 1 := by decide +kernel

/-- Never reported; reported exactly the interval ago; reported one block too lately. -/
theorem witness_DueEventsAreReported :
    atEnd.configOk = true ∧ atEnd.phase = .endOfBlock ∧ dueForReport 0 375 .overflow { Common.reset with pending := ⟨0, 2, 3, 0⟩ } ∧
      dueForReport 385 375 .underflow reported ∧ ¬ dueForReport 384 375 .underflow reported :=
  ⟨by decide +kernel, rfl, by simp [dueForReport, Counts.get, Reports.get, Common.reset], by simp [dueForReport, Counts.get, Reports.get, reported, Common.reset], by simp [dueForReport, Counts.get, Reports.get, reported, Common.reset]⟩

theorem witness_reset_inv : State.reset.Inv := by and_intros <;> decide +kernel

theorem start_inv : start.Inv := by and_intros <;> decide +kernel

theorem witness_StepKeepsTheInvariant : start.Inv ∧ (nextOf (step start)).isSome = true := ⟨start_inv, by decide +kernel⟩

theorem witness_BlockNeverStops : start.Inv := start_inv

theorem witness_EveryBlockEnds : start.Inv ∧ start.phase = .boundary := ⟨start_inv, rfl⟩

theorem witness_OutsideMovesKeepTheInvariant : start.Inv ∧ HostSuppliesBlock start := ⟨start_inv, by decide +kernel⟩

def faulty (c : Common) : Common := { c with faulted := true }

/-- A frozen OSC and VCA; a faulted TONE, NOISE, THERM and SCOPE. -/
def silentFrame : State :=
  ((((((start.onOsc 0 fun u => { u with mute := ⟨true, 0⟩ }).onVca 0 fun u => { u with mute := ⟨true, 0x8000000000000000⟩ }).onTone 0
    fun u => { u with common := faulty u.common }).onNoise 0 fun u => { u with common := faulty u.common }).onTherm 0
    fun u => { u with common := faulty u.common }).onScope 0 fun u => { u with common := faulty u.common }).setPhase (.frame 0)

theorem witness_SilentFramesChangeNothing :
    silentFrame.configOk = true ∧ (∀ u ∈ silentFrame.osc, silent u.common u.mute) ∧ (∀ u ∈ silentFrame.vca, silent u.common u.mute) ∧
      (∀ u ∈ silentFrame.tone, silent u.common u.mute) ∧ (∀ u ∈ silentFrame.noise, silent u.common u.mute) ∧
      (∀ u ∈ silentFrame.therm, u.common.faulted = true) ∧ ∀ u ∈ silentFrame.scope, u.common.faulted = true :=
  by and_intros <;> decide +kernel

/-- An OSC to be processed with an edge of its SYNC input at frame 0, none at frame 1, and a NaN at frame 2. -/
def syncing : State :=
  (start.onOsc 0 fun u => { u with ports := { u.ports with sync := [0x3E99999A, 0, 0x7FC00000] } }).setPhase (.frame 0)

/-- MULTI and TRI among the modes. -/
theorem witness_OscFrameFollowsPhase :
    syncing.configOk = true ∧ (∀ u ∈ syncing.osc, ¬ silent u.common u.mute) ∧
      (∀ u ∈ syncing.osc, fle u.prevSync f0 = true ∧ flt f0 (portSample u.ports.sync 0) = true) ∧
      (∀ u ∈ syncing.osc, flt f0 (portSample u.ports.sync 1) = false) ∧ (∀ u ∈ syncing.osc, isFinite32 (port u.ports.sync 2) = false) ∧
      (∀ u ∈ syncing.osc, u.mode = .multi) ∧ oscAt12k.configOk = true ∧ (∀ u ∈ oscAt12k.osc, ¬ silent u.common u.mute ∧ u.mode = .tri) ∧
      flt 0x3FC0000000000000 0x3FD0000000000000 = true ∧ (flt 0x3FEC000000000000 0x3FD0000000000000 = false ∧
      flt (fsub f1 0x3FD0000000000000) 0x3FEC000000000000 = true) ∧
      (flt fHalf 0x3FD0000000000000 = false ∧ flt (fsub f1 0x3FD0000000000000) fHalf = false) :=
  by and_intros <;> decide +kernel

/-- A state that steps; the greatest phase below 1 with the greatest and with a tiny increment. -/
theorem witness_PhaseStaysInUnitInterval :
    oscAt12k.PhasesOk ∧ (nextOf (step oscAt12k)).isSome = true ∧ fle f0 0x3FEFFFFFFFFFFFFF = true ∧ flt 0x3FEFFFFFFFFFFFFF f1 = true ∧
      flt f0 f1 = true ∧ fle f1 f1 = true ∧
      flt f0 0x3CA0000000000000 = true ∧ fle 0x3CA0000000000000 f1 = true := by decide +kernel

theorem witness_SingleModesLeaveSecondOutputZero :
    oscAt12k.configOk = true ∧ oscAt12k.GainsOk ∧ oscAt12k.phase = .frame 0 ∧ ∀ u ∈ oscAt12k.osc, u.mode ≠ .multi :=
  ⟨by decide +kernel, by decide +kernel, rfl, by decide +kernel⟩

theorem witness_StepKeepsGainsInRange : start.GainsOk ∧ (nextOf (step start)).isSome = true := ⟨by decide +kernel, by decide +kernel⟩

theorem witness_AwakeGainStaysOne : 1 ≤ 1 := by decide

/-- A control voltage that overflows: `CV_SCALE` 1e308 on a sample of 1e38. -/
def overflowing : State :=
  (start.onVca 0 fun u => { u with cfg := { u.cfg with cvScale := 0x7FE1CCF385EBC8A0 }, cv := [0x7E967699] }).setPhase (.frame 0)

/-- A finite voltage to smooth with `beta` 1, not cut off, and its gain 0.1; one that is not finite; the cutoff; a gain below the
threshold; a voltage above the linear region; a NaN product. -/
theorem witness_VcaFrameFollowsVoltage :
    (vcaAt 0xC000000000000000 0xC000000000000000 0).configOk = true ∧
      (∀ u ∈ (vcaAt 0xC000000000000000 0xC000000000000000 0).vca, ¬ silent u.common u.mute) ∧
      (∀ u ∈ (vcaAt 0xC000000000000000 0xC000000000000000 0).vca, isFinite (fadd u.latch.dialVoltage (fmul (portSample u.cv 0) u.cfg.cvScale)) = true) ∧
      overflowing.configOk = true ∧
      (∀ u ∈ overflowing.vca, isFinite (fadd u.latch.dialVoltage (fmul (portSample u.cv 0) u.cfg.cvScale)) = false) ∧
      (∀ u ∈ (vcaAt 0xC028000000000000 0x0000000000000000 0).vca, u.latch.cutoffEnabled = true ∧
      fle u.latch.dialVoltage u.cfg.dialMin = true) ∧
      (∀ u ∈ (vcaAt 0xC028000000000000 0x0000000000000000 0xBF800000).vca,
        flt (fmul (saturate u.cfg (fadd u.latch.dialVoltage (portSample u.cv 0))) u.cfg.dbPerVolt) u.cfg.silenceDb = true) ∧
      (∀ u ∈ (vcaAt 0xC000000000000000 0xC000000000000000 0).vca, fle u.latch.dialVoltage u.cfg.dialMin = false ∧
      fle 0xC000000000000000 u.cfg.vLin = true ∧
        feq (fPow f10 (fdiv (fmul 0xC000000000000000 u.cfg.dbPerVolt) f20)) f0 = false) ∧
      (∀ u ∈ (vcaAt 0x0000000000000000 0x0000000000000000 0x40400000).vca, fle 0x4008000000000000 u.cfg.vLin = false ∧
      fle (fsub u.cfg.vHard u.cfg.vLin) f0 = false) ∧
      feq f0 f0 = true ∧ isNaN (fmul (fmul f0 0x7FF0000000000000) f1) = true :=
  by and_intros <;> first | exact nan_product | decide +kernel

/-- The default VCA with its dial at 0, before its first frame. -/
def unityVca : State := (State.reset.onVca 0 fun u => { u with latch := ⟨0, true⟩ }).setPhase (.frame 0)

theorem witness_VcaUnityGainIsExact :
    unityVca.configOk = true ∧ unityVca.phase = .frame 0 ∧
      (∀ u ∈ unityVca.vca, u.cfg = Config.vca ∧ u.common.faulted = false ∧ u.mute = ⟨false, f1⟩ ∧ u.latch.dialVoltage = 0 ∧
        portSample u.cv 0 = 0 ∧ (u.sInit = false ∨ u.s = 0)) := ⟨by decide +kernel, rfl, by decide +kernel⟩

/-- Position 0, and the end of the range. -/
theorem witness_ToneFrameFiltersChannels :
    (toneAt 0x0000000000000000 0x3F800000).configOk = true ∧ (toneAt 0x0000000000000000 0x3F800000).phase = .frame 0 ∧
      (∀ u ∈ (toneAt 0x0000000000000000 0x3F800000).tone, ¬ silent u.common u.mute ∧ u.mute = ⟨false, f1⟩ ∧
      feq u.latchPosition f0 = true) ∧
      (toneAt 0xBFF0000000000000 0x3F800000).configOk = true ∧
      ∀ u ∈ (toneAt 0xBFF0000000000000 0x3F800000).tone, ¬ silent u.common u.mute ∧ feq u.latchPosition f0 = false ∧
      u.chans[0]?.isSome = true :=
  ⟨by decide +kernel, rfl, by decide +kernel, by decide +kernel, by decide +kernel⟩

/-- Bypassed; a difference of exactly the threshold, which snaps; one past it, heating; and a cooling one. -/
theorem witness_ThermalFrameSlewsOrSnaps :
    (thermAt false 0x3F800000).configOk = true ∧ (∀ u ∈ (thermAt false 0x3F800000).therm, u.common.faulted = false ∧
      u.latchEnable = false) ∧
      flt Config.therm.threshold (fabs (fsub 0x3FB999999999999A 0x0000000000000000)) = false ∧
      (∀ u ∈ (thermAt true 0x3F800000).therm, u.latchEnable = true ∧
      flt u.cfg.threshold (fabs (fsub (portSample u.input 0) u.cur)) = true ∧
        flt f0 (fsub (portSample u.input 0) u.cur) = true) ∧
      ∀ u ∈ (thermAt true 0xBF800000).therm, flt u.cfg.threshold (fabs (fsub (portSample u.input 0) u.cur)) = true ∧
        flt f0 (fsub (portSample u.input 0) u.cur) = false :=
  by and_intros <;> decide +kernel

/-- A supplied draw in the range, and an instance without one. -/
theorem witness_NoiseFrameTakesOneDraw :
    (noiseAt 0xBFF0000000000000 .reset).configOk = true ∧ (∀ u ∈ (noiseAt 0xBFF0000000000000 .reset).noise, ¬ silent u.common u.mute ∧
      u.draws ≠ []) ∧
      isFinite fNeg1 = true ∧ fle fNeg1 fNeg1 = true ∧ flt fNeg1 f1 = true ∧
      ∀ u ∈ (start.setPhase (.frame 0)).noise, ¬ silent u.common u.mute ∧ u.draws = [] :=
  by and_intros <;> decide +kernel

theorem witness_EndOfBlockFlushesFilters :
    atEnd.configOk = true ∧ atEnd.phase = .endOfBlock ∧ atEnd.tone[0]?.isSome = true ∧ atEnd.noise[0]?.isSome = true ∧
      atEnd.osc[0]?.isSome = true ∧ atEnd.vca[0]?.isSome = true ∧ atEnd.therm[0]?.isSome = true ∧ atEnd.scope[0]?.isSome = true ∧
      atEnd.brcap[0]?.isSome = true ∧ atEnd.brplay[0]?.isSome = true := by
  decide +kernel

/-- The detune range, at its ends and just past them; an infinite register; and a finite and an infinite modulation sample. -/
theorem witness_ParameterReadsStayInRange :
    isFinite f0 = true ∧ isFinite 0xC092C00000000000 = true ∧ isFinite 0x4092C00000000000 = true ∧
      fle 0xC092C00000000000 0x4092C00000000000 = true ∧
      isFinite 0x7FF0000000000000 = false ∧ (isFinite 0x4092C00000000000 = true ∧ fle 0x4092C00000000000 0x4092C00000000000 = true) ∧
      (flt 0xC092C20000000000 0xC092C00000000000 = true ∧ flt 0x4092C00000000000 0x4092C20000000000 = true) ∧
      (isFinite32 0x3F000000 = true ∧ isFinite32 0x7F800000 = false) ∧
      oscCfgOk Config.osc = true := by
  decide +kernel

theorem witness_NumericsLawsHold :
    fle 0xFFF0000000000000 f0 = true ∧ isNaN 0xFFF0000000000000 = false ∧ fle fNeg1 fNeg1 = true ∧ fle fNeg1 f1 = true ∧
      (isFinite f2 = true ∧ flt f0 f2 = true ∧ fle fNeg1 (triWave fHalf) = true ∧ fle (triWave fHalf) f1 = true) := by decide +kernel

/-- The least half-integer exponent, and the greatest whose power is a binary64 value: 308. -/
theorem witness_NumericsLawsHold_half :
    (isFinite fHalf = true ∧ 2 * ratOf fHalf = ((1 : Int) : ℚ) ∧ (1 : Int) ≤ 616) ∧
      (isFinite 0x4073400000000000 = true ∧ 2 * ratOf 0x4073400000000000 = ((616 : Int) : ℚ) ∧ (616 : Int) ≤ 616) := by
  have h1 : sigOf fHalf = 2 ^ 52 ∧ expOf fHalf = -53 ∧ isNeg fHalf = false := by decide +kernel
  have h2 : sigOf 0x4073400000000000 = 308 * 2 ^ 44 ∧ expOf 0x4073400000000000 = -44 ∧
      isNeg 0x4073400000000000 = false := by decide +kernel
  refine ⟨⟨by decide +kernel, ?_, by decide⟩, by decide +kernel, ?_, by decide⟩
  · rw [ratOf, h1.1, h1.2.1, h1.2.2]; norm_num [signed]
  · rw [ratOf, h2.1, h2.2.1, h2.2.2]; norm_num [signed]

/-- The first index that may trigger, and the last. -/
theorem witness_TriggerSearchIsGreedy :
    (searchTriggers [0xBF800000, 0x3F800000, 0xBF800000, 0x3F800000] 0 0 2 4).found = [1] ∧
      (searchTriggers [0xBF800000, 0xBF800000, 0x3F800000, 0x3F800000] 0 0 2 4).found = [2] ∧ (1 ≤ 1 ∧ 1 + 2 ≤ 4) ∧
      2 + 2 ≤ 4 := by decide +kernel

/-- S4's candidates with and without an anchor, and the least period. -/
theorem witness_TriggerChoiceFollowsAnchor :
    ([3, 52, 103] : List Nat).Pairwise (· < ·) ∧ ((none : Option U64) = none ∨ (some 100 : Option Nat) = none) ∧
      some (1000 : U64) = some 1000 ∧
      (1 ≤ 100 ∧ 1 ≤ 1) := by decide

/-- A scope of window 4 whose view is `y`. -/
def scopeOf (y : Samples) : Scope :=
  { Scope.reset { Config.scope with nDefault := 4 } with bufY := y, w := 0, filled := 8, total := 8, newCount := 4 }

/-- No candidate, one, and two, each with a full ring; and a ring whose oldest sample is not at 0, read from `w - L + k`. -/
theorem witness_CaptureWindowFollowsTriggers :
    (∀ y, 1 ≤ (scopeOf y).n ∧ (scopeOf y).n ≤ (scopeOf y).filled ∧ (scopeOf y).filled ≤ 2 * (scopeOf y).n) ∧
      (searchTriggers (bufferedView 4 0 8 (List.replicate 8 0)) 0 0 4 8).found = [] ∧
      (searchTriggers (bufferedView 4 0 8 [0xBF800000, 0xBF800000, 0x3F800000, 0x3F800000, 0xBF800000, 0xBF800000, 0x3F800000, 0x3F800000]) 0 0 4 8).found = [2] ∧
      (searchTriggers (bufferedView 4 0 8 [0xBF800000, 0x3F800000, 0xBF800000, 0x3F800000, 0xBF800000, 0x3F800000, 0xBF800000, 0x3F800000]) 0 0 4 8).found = [1, 3] ∧
      (bufferedView 4 1 5 [10, 11, 12, 13, 14, 15, 16, 17] = [14, 15, 16, 17, 10] ∧
        ∀ k < (5 : Nat), ∀ pos < (8 : Nat), (pos : Int) = ((1 : Int) - 5 + k) % (2 * 4) →
          ([14, 15, 16, 17, 10] : Samples)[k]? = some (([10, 11, 12, 13, 14, 15, 16, 17] : Samples).getD pos 0)) :=
  ⟨fun _ => ⟨Nat.le_of_ble_eq_true rfl, Nat.le_of_ble_eq_true rfl, Nat.le_of_ble_eq_true rfl⟩, by decide +kernel, by decide +kernel,
    by decide +kernel, by decide +kernel⟩

/-- The frame that fires a capture, one that does not, and a ring of exactly `N` samples. -/
theorem witness_ScopeFrameWritesRingAndCaptures :
    scopeFull.configOk = true ∧ (∀ u ∈ scopeFull.scope, u.common.faulted = false ∧ u.newCount + 1 = u.n) ∧
      (∀ u ∈ (start.setPhase (.frame 0)).scope, u.common.faulted = false ∧ u.newCount + 1 ≠ u.n) ∧
      1 ≤ ({ scopeOf [] with filled := 4 } : Scope).n ∧
      ({ scopeOf [] with filled := 4 } : Scope).filled = ({ scopeOf [] with filled := 4 } : Scope).n :=
  ⟨by decide +kernel, by decide +kernel, by decide +kernel, by decide, rfl⟩

/-- Two scopes that differ in their registers, their last countdown and their counts. -/
theorem witness_CapturesAreDeterministic :
    ∃ u v : Scope, u ≠ v ∧ u.common.faulted = v.common.faulted ∧
      ({ u with holdoff := 0, reg := ⟨0, 0⟩, common := Common.reset } : Scope) =
        { v with holdoff := 0, reg := ⟨0, 0⟩, common := Common.reset } :=
  ⟨scopeOf [], { scopeOf [] with holdoff := 3, reg := ⟨1, 2⟩, common := { Common.reset with pending := ⟨0, 1, 0, 0⟩ } },
    by decide +kernel, rfl, rfl⟩

/-- The least capacity, empty and full; a write that wraps and a read that empties. -/
theorem witness_GuardSlotSeparatesFullAndEmpty :
    (2 ≤ 2 ∧ 0 < 2 ∧ 1 < 2) ∧ 1 ≤ freeFrames 2 0 0 ∧ freeFrames 2 1 0 = 0 ∧ (2 ≤ 8 ∧ 7 < 8) ∧ 7 ≤ freeFrames 8 7 7 ∧
      7 ≤ usedFrames 8 6 7 := by decide

/-- The state with Q samples on every port of the sample classes, as the bridges find it. -/
def afterFrames (s : State) : State :=
  ((((s.setOsc (s.osc.map fun u => { u with out0 := [0, 0, 0, 0], out1 := [0, 0, 0, 0] })).setVca
    (s.vca.map fun u => { u with out := [0, 0, 0, 0] })).setTone (s.tone.map fun u => { u with out := [[0, 0, 0, 0]] })).setTherm
    (s.therm.map fun u => { u with out := [0, 0, 0, 0] })).setNoise (s.noise.map fun u => { u with out := [0, 0, 0, 0] })

/-- A region whose peer has written the field at `o` without releasing it, and is announced to write byte `b`. -/
def peerBeside (m : Memory) (o b : Nat) (l : Link) : Link :=
  { l with region := some ⟨72, m⟩, order := { l.order with pending := [o], racy := [b] } }

/-- P3's block 1 beside a peer that writes slot 7: `readIndex` in range, then negative (read as slot 7, B1), then unreduced
(read as slot 5, B1: nothing fits). -/
theorem witness_CaptureBridgePublishesFrames :
    ∀ a ∈ ([([(0, 4)], 0, 0, 4, 3), ([(0, 4), (4, 255), (5, 255), (6, 255), (7, 255)], -1, 7, 5, 2), ([(0, 4), (4, 13)], 13, 5, 7, 0)] :
        List (Memory × BitVec 32 × Nat × Nat × Nat)),
      let s := afterFrames ((capturing 4 [] []).onBrcap 0 fun u => { u with link := peerBeside a.1 64 70 u.link })
      (s.Inv ∧ s.phase = .bridges) ∧ ∀ u ∈ s.brcap, u.common.faulted = false ∧ u.link.run = .running ∧ u.link.mode = .shared ∧
        u.link.region = some ⟨72, a.1⟩ ∧ Region.FieldAt s.cfg.endian 4 a.2.1 ⟨72, a.1⟩ ∧
        a.2.2.1 < u.link.cap ∧ (u.link.cap : Int) ∣ a.2.1.toInt - a.2.2.1 ∧ a.2.2.2.1 < u.link.cap ∧
        (u.link.cap : Int) ∣ (u.wLocal : Int) - a.2.2.1 - a.2.2.2.1 ∧ a.2.2.2.2 = min s.cfg.q (u.link.cap - a.2.2.2.1 - 1) ∧
        u.link.order.unordered 0 = false ∧ u.link.order.unordered 4 = false ∧
        ∀ f < a.2.2.2.2, ∀ c < u.cfg.ch, u.link.order.unordered (8 + 4 * ((u.wLocal + f) % u.link.cap * u.cfg.ch + c)) = false := by
  simp only [List.forall_mem_cons, List.not_mem_nil, false_imp_iff, implies_true, and_true]
  and_intros <;> decide +kernel

/-- P6's block 1 while the peer writes free slots past `writeIndex` (R437): some frames come, one underflows; `writeIndex` in
range, negative and unreduced, and 0, where no frame comes. -/
theorem witness_PlaybackBridgeOutputsFrames :
    ∀ a ∈ ([([(0, 3)], 3, 3, 3), ([(0, 251), (1, 255), (2, 255), (3, 255)], -5, 3, 3), ([(0, 11)], 11, 3, 3), ([], 0, 0, 0)] :
        List (Memory × BitVec 32 × Nat × Nat)),
      let s := afterFrames ((playing .hold).onBrplay 0 fun u => { u with link := peerBeside a.1 32 40 u.link })
      (s.Inv ∧ s.phase = .bridges) ∧ ∀ u ∈ s.brplay, u.common.faulted = false ∧ u.link.run = .running ∧ u.link.mode = .shared ∧
        u.link.region = some ⟨72, a.1⟩ ∧ Region.FieldAt s.cfg.endian 0 a.2.1 ⟨72, a.1⟩ ∧
        a.2.2.1 < u.link.cap ∧ (u.link.cap : Int) ∣ a.2.1.toInt - a.2.2.1 ∧ a.2.2.2 < u.link.cap ∧
        (u.link.cap : Int) ∣ (a.2.2.1 : Int) - u.rLocal - a.2.2.2 ∧
        u.link.order.unordered 0 = false ∧ u.link.order.unordered 4 = false ∧
        ∀ f < min s.cfg.q a.2.2.2, ∀ c < u.cfg.ch,
          u.link.order.unordered (8 + 4 * ((u.rLocal + f) % u.link.cap * u.cfg.ch + c)) = false := by
  simp only [List.forall_mem_cons, List.not_mem_nil, false_imp_iff, implies_true, and_true]
  and_intros <;> decide +kernel

theorem witness_FallbackCaptureKeepsEveryFrame :
    (afterFrames fallbackBridges).Inv ∧ (afterFrames fallbackBridges).phase = .bridges ∧
      ∀ u ∈ (afterFrames fallbackBridges).brcap, u.common.faulted = false ∧ u.link.run = .running ∧ u.link.mode = .fallback :=
  ⟨by and_intros <;> decide +kernel, rfl, by decide +kernel⟩

/-- A FIFO of one frame, fewer than the block has. -/
theorem witness_FallbackPlaybackDrainsFifo :
    (afterFrames fallbackBridges).Inv ∧ (afterFrames fallbackBridges).phase = .bridges ∧
      ∀ u ∈ (afterFrames fallbackBridges).brplay, u.common.faulted = false ∧ u.link.run = .running ∧ u.link.mode = .fallback ∧
        u.fifo = [[1, 2]] := ⟨by and_intros <;> decide +kernel, rfl, by decide +kernel⟩

/-- A stopped capture bridge and a faulted playback bridge. -/
theorem witness_IdleBridgesAreSilent :
    let s := (afterFrames (start.onBrplay 0 fun u => { u with common := faulty u.common })).setPhase .bridges
    s.Inv ∧ s.phase = .bridges ∧ (∀ u ∈ s.brcap, u.link.run = .stopped) ∧ ∀ u ∈ s.brplay, u.common.faulted = true :=
  ⟨by and_intros <;> decide +kernel, rfl, by decide +kernel, by decide +kernel⟩

/-- START's two branches, SETDORMANT's, PUSHCHUNK's and SETWAVEFORM's: a state on each side of the test. -/
theorem witness_command_branches :
    (∀ u ∈ start.brcap, start.shmAvailable = true ∧ u.link.fallbackLatched = false) ∧ (start.provideShm false).shmAvailable = false ∧
      (∀ u ∈ vcaAsleep.vca, u.mute.dormant = true) ∧ (∀ u ∈ start.vca, u.mute.dormant = false) ∧
      (∀ u ∈ (fallbackPlay [[1, 2], [3, 4], [5, 6]]).brplay,
        u.link.run = .running ∧ u.link.mode = .fallback ∧ (2 : U32).toNat * u.cfg.ch ≤ ([7, 8, 9, 10] : List F32).length ∧
          u.link.cap - 1 - u.fifo.length = 0) ∧
      ((4 : U32) = 4 ∧ (5 : U32) ≠ 4) ∧ isFinite 0x7FEFFFFFFFFFFFFF = true ∧ isFinite 0x7FF0000000000000 = false :=
  ⟨by decide +kernel, rfl, by decide +kernel, by decide +kernel, by decide +kernel, by decide, by decide, by decide⟩

end Sys2Proof.Tests
end

section
/-!
PROOFS. Order and negation of patterns, as the proofs about ranges use them (00_scope.md R11, R14).
-/

namespace Sys2Proof.Machine

theorem fle_trans {a b c : F64} (hab : fle a b = true) (hbc : fle b c = true) : fle a c = true := by
  obtain ⟨ha, -, hle⟩ := (fle_iff _ _).1 hab
  obtain ⟨-, hc, hle'⟩ := (fle_iff _ _).1 hbc
  exact (fle_iff _ _).2 ⟨ha, hc, hle.trans hle'⟩

theorem fle_of_flt {a b : F64} (h : flt a b = true) : fle a b = true := by
  obtain ⟨ha, hb, hlt⟩ := (flt_iff _ _).1 h
  exact (fle_iff _ _).2 ⟨ha, hb, hlt.le⟩

@[simp] theorem ordKey_fneg (x : F64) : ordKey (fneg x) = -ordKey x := by
  unfold ordKey
  rw [isNeg_fneg, magOf_fneg]
  cases isNeg x <;> simp [signed]

@[simp] theorem isNaN_fneg (x : F64) : isNaN (fneg x) = isNaN x := by simp [isNaN, magOf_fneg]

/-- The order key of a pattern is its magnitude up to the sign. -/
theorem natAbs_ordKey (x : F64) : (ordKey x).natAbs = magOf x := by
  unfold ordKey
  cases isNeg x <;> simp [signed]

theorem fle_fneg_fneg {a b : F64} (h : fle a b = true) : fle (fneg b) (fneg a) = true := by
  obtain ⟨ha, hb, hle⟩ := (fle_iff _ _).1 h
  simpa [fle_iff, ha, hb] using hle

/-- Lying in `[-b, b]` is having at most the magnitude of a positive `b`. -/
theorem fle_fneg_and_fle_iff {a b : F64} (ha : isNaN a = false) (hb : isNaN b = false) (hpos : 0 ≤ ordKey b) :
    (fle (fneg b) a = true ∧ fle a b = true) ↔ magOf a ≤ magOf b := by
  rw [fle_iff, fle_iff, isNaN_fneg, ordKey_fneg, ← natAbs_ordKey a, ← natAbs_ordKey b]
  simp only [ha, hb, true_and]
  omega

end Sys2Proof.Machine
end

section
/-!
PROOFS. Parameter reads (00_scope.md R13, R14; 10_state.md R39): `clamp`, `clampP` and `aval` in terms of the order of the patterns.
-/

namespace Sys2Proof.Machine

theorem clamp_spec {v lo hi : F64} (hv : isNaN v = false) (hlo : isNaN lo = false) (hhi : isNaN hi = false) :
    isNaN (clamp v lo hi) = false ∧ ordKey (clamp v lo hi) = min (max (ordKey v) (ordKey lo)) (ordKey hi) := by
  have hmax := isNaN_fmax hv hlo
  exact ⟨isNaN_fmin hmax hhi, by rw [clamp, (fmin_spec hmax hhi).2, (fmax_spec hv hlo).2]⟩

/-- A clamp into an ordered range lies in it. -/
theorem clamp_inRange {v lo hi : F64} (hv : isNaN v = false) (h : fle lo hi = true) :
    fle lo (clamp v lo hi) = true ∧ fle (clamp v lo hi) hi = true := by
  obtain ⟨hlo, hhi, hle⟩ := (fle_iff _ _).1 h
  obtain ⟨hn, hkey⟩ := clamp_spec hv hlo hhi
  rw [fle_iff, fle_iff, hkey]
  exact ⟨⟨hlo, hn, by omega⟩, hn, hhi, by omega⟩

/-- A value in the range is kept, up to the sign of a zero. -/
theorem clamp_of_inRange {v lo hi : F64} (hlo : fle lo v = true) (hhi : fle v hi = true) : feq (clamp v lo hi) v = true := by
  obtain ⟨nlo, nv, h1⟩ := (fle_iff _ _).1 hlo
  obtain ⟨-, nhi, h2⟩ := (fle_iff _ _).1 hhi
  obtain ⟨hn, hkey⟩ := clamp_spec nv nlo nhi
  exact (feq_iff _ _).2 ⟨hn, nv, by omega⟩

theorem clamp_of_below {v lo hi : F64} (h : fle lo hi = true) (hv : flt v lo = true) : feq (clamp v lo hi) lo = true := by
  obtain ⟨nlo, nhi, h1⟩ := (fle_iff _ _).1 h
  obtain ⟨nv, -, h2⟩ := (flt_iff _ _).1 hv
  obtain ⟨hn, hkey⟩ := clamp_spec nv nlo nhi
  exact (feq_iff _ _).2 ⟨hn, nlo, by omega⟩

theorem clamp_of_above {v lo hi : F64} (h : fle lo hi = true) (hv : flt hi v = true) : feq (clamp v lo hi) hi = true := by
  obtain ⟨nlo, nhi, h1⟩ := (fle_iff _ _).1 h
  obtain ⟨-, nv, h2⟩ := (flt_iff _ _).1 hv
  obtain ⟨hn, hkey⟩ := clamp_spec nv nlo nhi
  exact (feq_iff _ _).2 ⟨hn, nhi, by omega⟩

theorem clampP_of_finite (p : Param) {v : F64} (h : isFinite v = true) : clampP p v = clamp v p.lo p.hi := by
  rw [clampP, if_pos h]

theorem clampP_of_not_finite (p : Param) {v : F64} (h : isFinite v = false) : clampP p v = clampP p p.dflt := by
  simp [clampP, h]

/-- Whatever a parameter is given, its clamped value lies in its range. -/
theorem clampP_inRange {p : Param} (hd : isFinite p.dflt = true) (h : fle p.lo p.hi = true) (v : F64) :
    fle p.lo (clampP p v) = true ∧ fle (clampP p v) p.hi = true := by
  cases hv : isFinite v
  · rw [clampP_of_not_finite p hv, clampP_of_finite p hd]
    exact clamp_inRange (not_nan_of_finite hd) h
  · rw [clampP_of_finite p hv]
    exact clamp_inRange (not_nan_of_finite hv) h

theorem sample_of_finite {x : F32} (h : isFinite32 x = true) : sample x = widen x := by rw [sample, san32, if_pos h]

theorem sample_of_not_finite {x : F32} (h : isFinite32 x = false) : sample x = f0 := by
  rw [sample, san32, if_neg (by simp [h])]
  decide

theorem aval_of_finite (p : Param) {reg : F64} (h : isFinite reg = true) (mod : Samples) (i : Nat) :
    aval p reg mod i = clampP p (fadd reg (sample (mod.getD i 0))) := by
  rw [aval, if_pos h, portSample, port]

theorem aval_of_not_finite (p : Param) {reg : F64} (h : isFinite reg = false) (mod : Samples) (i : Nat) :
    aval p reg mod i = clampP p p.dflt := by
  rw [aval, h, ← clampP_of_not_finite p h]
  rfl

/-- An a-rate read lies in the parameter's range, whatever the register and the modulation. -/
theorem aval_inRange {p : Param} (hd : isFinite p.dflt = true) (h : fle p.lo p.hi = true) (reg : F64) (mod : Samples) (i : Nat) :
    fle p.lo (aval p reg mod i) = true ∧ fle (aval p reg mod i) p.hi = true := by
  cases hr : isFinite reg
  · rw [aval_of_not_finite p hr]
    exact clampP_inRange hd h _
  · rw [aval_of_finite p hr]
    exact clampP_inRange hd h _

/-- The ranges of the a-rate parameters of a legal OSC are in order (10_state.md R48). -/
theorem oscCfgOk_ranges {c : OscCfg} (h : oscCfgOk c = true) :
    fle c.fMin c.fMax = true ∧ fle (fneg c.detuneMax) c.detuneMax = true ∧ fle c.pwMin c.pwMax = true := by
  simp only [oscCfgOk, Bool.and_eq_true] at h
  obtain ⟨⟨⟨⟨⟨⟨⟨⟨-, hf⟩, hd⟩, -⟩, hlo⟩, hhi⟩, -⟩, -⟩, -⟩ := h
  have hneg : fle (fneg c.detuneMax) f0 = true := fle_trans (fle_fneg_fneg hd) (by decide)
  exact ⟨hf, fle_trans hneg hd, fle_trans (fle_of_flt hlo) (fle_of_flt hhi)⟩

/-- Settles O48: `clampP` is the clamp of the value or of the default, whose order key is `min (max v lo) hi`, and an a-rate read
is a `clampP` in both of its branches. -/
theorem parameterReadsStayInRange : Obligations.ParameterReadsStayInRange := by
  refine ⟨?clamped, ?read, ?osc⟩
  case clamped =>
    intro p v hd _ _ h
    obtain ⟨hlo, hhi⟩ := clampP_inRange hd h v
    refine ⟨hlo, hhi, clampP_of_not_finite p, fun hv => ?_, fun hv => ?_, fun hv => ?_⟩ <;> rw [clampP_of_finite p hv]
    · exact clamp_of_inRange
    · exact clamp_of_below h
    · exact clamp_of_above h
  case read =>
    rintro p reg mod i x rfl
    refine ⟨fun hr hx => ?_, fun hr hx => ?_, fun hr => aval_of_not_finite p hr mod i⟩
    · rw [aval_of_finite p hr, sample_of_finite hx]
    · rw [aval_of_finite p hr, sample_of_not_finite hx]
  case osc =>
    intro c reg mod i h
    obtain ⟨hf, hd, hw⟩ := oscCfgOk_ranges h
    have half : isFinite fHalf = true := by decide
    obtain ⟨fLo, fHi⟩ := aval_inRange (p := frequencyParam c) (show isFinite 0x407B800000000000 = true by decide) hf reg mod i
    obtain ⟨dLo, dHi⟩ := aval_inRange (p := detuneParam c) (show isFinite f0 = true by decide) hd reg mod i
    obtain ⟨wLo, wHi⟩ := aval_inRange (p := pulseWidthParam c) half hw reg mod i
    obtain ⟨sLo, sHi⟩ := aval_inRange (p := symmetryParam c) half hw reg mod i
    exact ⟨fLo, fHi, dLo, dHi, wLo, wHi, sLo, sHi⟩

end Sys2Proof.Machine
end

section
/-!
PROOFS. The laws of the numerics record (00_scope.md R16) for `fExp`, `fCos`, `fTanh` and `fPow`, and the range of the quotient of the
hybrid sine (41_oscillator.md R246), which rests on `F.tanh` being odd and monotonic.
-/

namespace Sys2Proof.Machine

theorem negZero_eq : (0x8000000000000000 : F64) = fneg f0 := by decide

theorem fTanh_fneg (x : F64) : fTanh (fneg x) = fneg (fTanh x) := by
  rw [fTanh_eq, fTanh_eq, numerics_lawful.tanh_odd]

theorem fTanh_mono {x y : F64} (h : fle x y = true) : fle (fTanh x) (fTanh y) = true := by
  rw [fTanh_eq, fTanh_eq]
  exact numerics_lawful.tanh_mono x y h

theorem fTanh_unit (x : F64) : fle fNeg1 (fTanh x) = true ∧ fle (fTanh x) f1 = true := by
  rw [fTanh_eq]
  exact numerics_lawful.tanh_unit x

theorem isFinite_fTanh (x : F64) : isFinite (fTanh x) = true := isFinite_of_mag ((unit_iff_mag _).1 (fTanh_unit x))

theorem fPow_two_mono {x y : F64} (h : fle x y = true) : fle (fPow f2 x) (fPow f2 y) = true := by
  rw [fPow_eq, fPow_eq]
  exact numerics_lawful.pow2_mono x y h

theorem fPow_two_neg1 : fPow f2 fNeg1 = fHalf := by rw [fPow_eq, numerics_lawful.pow2_neg1]

theorem fPow_two_one : fPow f2 f1 = f2 := by rw [fPow_eq, numerics_lawful.pow2_one]

/-- `F.pow(2, x)` lies in [0.5, 2] for `x` in [-1, 1] (R16). -/
theorem fPow_two_unit {x : F64} (hlo : fle fNeg1 x = true) (hhi : fle x f1 = true) :
    fle fHalf (fPow f2 x) = true ∧ fle (fPow f2 x) f2 = true := by
  have h1 := fPow_two_mono hlo
  have h2 := fPow_two_mono hhi
  rw [fPow_two_neg1] at h1
  rw [fPow_two_one] at h2
  exact ⟨h1, h2⟩

/-- `F.tanh` is at or above 0 where its argument is. -/
theorem fTanh_nonneg {k : F64} (h : fle f0 k = true) : fle f0 (fTanh k) = true := by
  have hz : fTanh f0 = f0 := by rw [fTanh_eq, numerics_lawful.tanh_zero]
  rw [← hz]
  exact fTanh_mono h

/-- Of two arguments the one of the greater magnitude has the `F.tanh` of the greater magnitude. -/
theorem magOf_fTanh_le {x k : F64} (hx : isNaN x = false) (hk : fle f0 k = true) (h : magOf x ≤ magOf k) :
    magOf (fTanh x) ≤ magOf (fTanh k) := by
  have key0 : ordKey f0 = 0 := by decide
  obtain ⟨-, nk, kpos⟩ := (fle_iff _ _).1 hk
  obtain ⟨-, nt, tpos⟩ := (fle_iff _ _).1 (fTanh_nonneg hk)
  obtain ⟨hlo, hhi⟩ := (fle_fneg_and_fle_iff hx nk (by omega)).2 h
  refine (fle_fneg_and_fle_iff (not_nan_of_finite (isFinite_fTanh x)) nt (by omega)).1 ⟨?_, fTanh_mono hhi⟩
  rw [← fTanh_fneg]
  exact fTanh_mono hlo

/-- R246's quotient lies in [-1, 1] where its divisor is not 0. -/
theorem hybridQuotient_inRange {k s : F64} (hk : isFinite k = true) (hpos : flt f0 k = true) (hlo : fle fNeg1 s = true)
    (hhi : fle s f1 = true) (hz : isZero (fTanh k) = false) : hybridInRange (fdiv (fTanh (fmul k s)) (fTanh k)) = true := by
  obtain ⟨nx, -, hmag⟩ := fmul_mag_le hk ((unit_iff_mag s).1 ⟨hlo, hhi⟩)
  have hle := magOf_fTanh_le nx (fle_of_flt hpos) hmag
  have hq := (fdiv_mag_le (isFinite_fTanh _) (isFinite_fTanh k) hz hle).2
  rw [hybridInRange, Bool.and_eq_true]
  exact (unit_iff_mag _).2 hq

/-- Settles O49: each law is the record's, since the four functions are; and `F.tanh(K * tri)` has at most the magnitude of
`F.tanh(K)`, so the quotient is in range and is the hybrid sine. -/
theorem numericsLawsHold : Obligations.NumericsLawsHold := by
  unfold Obligations.NumericsLawsHold
  have F := numerics_lawful
  simp only [negZero_eq, fExp_eq, fCos_eq]
  refine ⟨F.exp_zero.1, F.exp_zero.2, F.exp_mono, F.exp_unit, F.cos_zero.1, F.cos_unit, ?tanhZero, fTanh_fneg, fun _ _ => fTanh_mono,
    fTanh_unit, ?powZero, ?powTenth, ?powHalf, ?powNonneg, fun _ _ => fPow_two_mono, fPow_two_neg1, fPow_two_one,
    fun _ => fPow_two_unit, ?range, ?quotient⟩
  case tanhZero => exact (fTanh_eq f0).trans F.tanh_zero
  case powZero =>
    intro b
    rw [fPow_eq, fPow_eq]
    exact F.pow_zero b
  case powTenth => exact (fPow_eq _ _).trans F.pow10_neg1
  case powHalf => simpa only [fPow_eq] using F.pow10_half
  case powNonneg => simpa only [fPow_eq] using F.pow10_nonneg
  case range =>
    intro k t
    simpa only [hybridInRange, Bool.and_eq_true] using hybridSine_inRange k t
  case quotient =>
    intro k t hk hpos hlo hhi
    cases hz : isZero (fTanh k)
    · exact .inr (hybridSine_eq_quotient (hybridQuotient_inRange hk hpos hlo hhi hz))
    · exact .inl rfl

end Sys2Proof.Machine
end

section
/-!
PROOFS. What one step does to one unit, said once for every class: it is left alone, takes a command, or makes the block's own
moves of 70_reset_and_hazards.md R510. A claim about every step is then a case split over these moves, unit by unit.
-/

namespace Sys2Proof.Machine

/-- The moves of one class: what its commands keep, and what the boundary after its commands, a frame, the bridges' turn and the
end of the block do to a unit. -/
structure UnitMoves (α : Type) where
  command : α → α → Prop
  begin : α → α
  frame : Nat → α → α
  bridge : α → Option α
  finish : α → α

/-- One step of a unit, with the block's phase before and after it. -/
inductive UnitMoves.Step {α : Type} (m : UnitMoves α) (q : Nat) : Phase → Phase → α → α → Prop
  | stay (u : α) : m.Step q .boundary .boundary u u
  | command {u v : α} (h : m.command u v) : m.Step q .boundary .boundary u v
  | begin (u : α) : m.Step q .boundary (.frame 0) u (m.begin u)
  | frame (i : Nat) (u : α) : m.Step q (.frame i) (phaseAfter q i) u (m.frame i u)
  | bridge {u v : α} (h : m.bridge u = some v) : m.Step q .bridges .endOfBlock u v
  | finish (u : α) : m.Step q .endOfBlock .boundary u (m.finish u)

abbrev Osc.moves (s : State) : UnitMoves Osc :=
  ⟨Osc.CommandKeeps, Osc.begin, oscFrame s.cfg, some, fun u => { u with common := settled s u.common }⟩

abbrev Vca.moves (s : State) : UnitMoves Vca :=
  ⟨Vca.CommandKeeps, Vca.begin, vcaFrame s.cfg, some, fun u => { u with common := settled s u.common }⟩

abbrev Tone.moves (s : State) : UnitMoves Tone :=
  ⟨Tone.CommandKeeps, Tone.begin, toneFrame s.cfg, some, fun u => { u.flushBlock with common := settled s u.common }⟩

abbrev Therm.moves (s : State) : UnitMoves Therm :=
  ⟨Therm.CommandKeeps, Therm.begin, thermFrame s.cfg, some, fun u => { u with common := settled s u.common }⟩

abbrev Noise.moves (s : State) : UnitMoves Noise :=
  ⟨Noise.CommandKeeps, Noise.begin, fun _ => noiseFrame s.cfg, some, fun u => { u.flushBlock with common := settled s u.common }⟩

abbrev Scope.moves (s : State) : UnitMoves Scope :=
  ⟨Scope.CommandKeeps, Scope.begin, scopeFrame, some, fun u => { u with common := settled s u.common, made := [] }⟩

abbrev Brcap.moves (s : State) : UnitMoves Brcap :=
  ⟨Brcap.CommandKeeps, Brcap.begin, fun _ u => u, brcapBlock s.cfg, fun u => { u with common := settled s u.common, made := [] }⟩

abbrev Brplay.moves (s : State) : UnitMoves Brplay :=
  ⟨Brplay.CommandKeeps, Brplay.begin, fun _ u => u, brplayBlock s.cfg, fun u => { u with common := settled s u.common }⟩

/-- Each unit of a list makes its step to the unit of the same number of another. -/
abbrev UnitMoves.Steps {α : Type} (m : UnitMoves α) (q : Nat) (p p' : Phase) : List α → List α → Prop :=
  List.Forall₂ (m.Step q p p')

/-- Every unit of `s` makes its step to the unit of the same class and number of `t`, from phase `p` to phase `p'`. -/
structure State.UnitsStep (p p' : Phase) (s t : State) : Prop where
  osc : (Osc.moves s).Steps s.cfg.q p p' s.osc t.osc
  vca : (Vca.moves s).Steps s.cfg.q p p' s.vca t.vca
  tone : (Tone.moves s).Steps s.cfg.q p p' s.tone t.tone
  therm : (Therm.moves s).Steps s.cfg.q p p' s.therm t.therm
  noise : (Noise.moves s).Steps s.cfg.q p p' s.noise t.noise
  scope : (Scope.moves s).Steps s.cfg.q p p' s.scope t.scope
  brcap : (Brcap.moves s).Steps s.cfg.q p p' s.brcap t.brcap
  brplay : (Brplay.moves s).Steps s.cfg.q p p' s.brplay t.brplay

/-! ### Lists of units -/

section
variable {α : Type} {m : UnitMoves α} {q : Nat} {l : List α}

theorem UnitMoves.Steps.stay : m.Steps q .boundary .boundary l l := List.forall₂_same.2 fun u _ => .stay u

theorem UnitMoves.Steps.onTargets {f : α → α} (hf : ∀ u, m.command u (f u)) (inst : BitVec 4) :
    m.Steps q .boundary .boundary l (onTargets inst f l) := by
  refine List.forall₂_iff_get.2 ⟨(length_onTargets ..).symm, fun k h h' => ?_⟩
  have hk : (Machine.onTargets inst f l)[k] = if addressed inst k then f l[k] else l[k] := by
    simpa [h, h'] using getElem?_onTargets inst f l k
  rw [List.get_eq_getElem, List.get_eq_getElem, hk]
  split
  · exact .command (hf _)
  · exact .stay _

theorem UnitMoves.Steps.begin : m.Steps q .boundary (.frame 0) l (l.map m.begin) :=
  List.forall₂_map_right_iff.2 (List.forall₂_same.2 fun u _ => .begin u)

theorem UnitMoves.Steps.frame (i : Nat) : m.Steps q (.frame i) (phaseAfter q i) l (l.map (m.frame i)) :=
  List.forall₂_map_right_iff.2 (List.forall₂_same.2 fun u _ => .frame i u)

theorem UnitMoves.Steps.finish : m.Steps q .endOfBlock .boundary l (l.map m.finish) :=
  List.forall₂_map_right_iff.2 (List.forall₂_same.2 fun u _ => .finish u)

/-- The bridges' turn of a class that is no bridge. -/
theorem UnitMoves.Steps.idle (h : m.bridge = some) : m.Steps q .bridges .endOfBlock l l :=
  List.forall₂_same.2 fun u _ => .bridge (by rw [h])

theorem UnitMoves.Steps.bridge {l' : List α} (h : mapAll m.bridge l = some l') : m.Steps q .bridges .endOfBlock l l' := by
  induction l generalizing l' with
  | nil => cases h; exact .nil
  | cons u us ih =>
    simp only [mapAll, Option.bind_eq_some_iff, Option.map_eq_some_iff] at h
    obtain ⟨v, hv, vs, hvs, rfl⟩ := h
    exact .cons (.bridge hv) (ih hvs)

end

/-- A view of the units that no step of theirs changes. -/
theorem map_eq_of_forall₂ {α β : Type} {R : α → α → Prop} {l l' : List α} {g : α → β} (h : List.Forall₂ R l l')
    (hg : ∀ {u v}, R u v → g v = g u) : l'.map g = l.map g := by
  induction h with
  | nil => rfl
  | cons h _ ih => rw [List.map_cons, List.map_cons, hg h, ih]

/-- A property every unit's step gives. -/
theorem forall_mem_of_forall₂ {α : Type} {R : α → α → Prop} {Q : α → Prop} {l l' : List α} (h : List.Forall₂ R l l')
    (hR : ∀ {u v}, u ∈ l → R u v → Q v) : ∀ v ∈ l', Q v := by
  induction h with
  | nil => exact nofun
  | cons h _ ih =>
    rw [List.forall_mem_cons]
    exact ⟨hR List.mem_cons_self h, ih fun hu => hR (List.mem_cons_of_mem _ hu)⟩

/-! ### The moves of the block -/

theorem State.UnitsStep.stay (s : State) : s.UnitsStep .boundary .boundary s :=
  ⟨.stay, .stay, .stay, .stay, .stay, .stay, .stay, .stay⟩

theorem State.UnitsStep.begin (s : State) : s.UnitsStep .boundary (.frame 0) (beginBlock s) :=
  ⟨.begin, .begin, .begin, .begin, .begin, .begin, .begin, .begin⟩

theorem State.UnitsStep.finish (s : State) : s.UnitsStep .endOfBlock .boundary (endBlock s) :=
  ⟨.finish, .finish, .finish, .finish, .finish, .finish, .finish, .finish⟩

/-- The bridges take no part in a frame. -/
theorem State.UnitsStep.frame (i : Nat) (s : State) : s.UnitsStep (.frame i) (phaseAfter s.cfg.q i) (frameStep i s) where
  osc := .frame i
  vca := .frame i
  tone := .frame i
  therm := .frame i
  noise := .frame i
  scope := .frame i
  brcap := List.forall₂_same.2 fun u _ => .frame i u
  brplay := List.forall₂_same.2 fun u _ => .frame i u

theorem State.UnitsStep.bridges {s t : State} (h : bridgeStep s = some t) : s.UnitsStep .bridges .endOfBlock t := by
  obtain ⟨ht, hcap, hplay⟩ := bridgeStep_spec h
  rw [ht]
  exact ⟨.idle rfl, .idle rfl, .idle rfl, .idle rfl, .idle rfl, .idle rfl, .bridge hcap, .bridge hplay⟩

/-- A command keeps the block's own fields, and each unit stays or takes it. -/
theorem State.UnitsStep.exec {i : Instr} {s t : State} (h : exec i s = .next t) :
    t.cfg = s.cfg ∧ t.phase = s.phase ∧ t.outQueue = s.outQueue ∧ s.UnitsStep .boundary .boundary t := by
  obtain ⟨t', ht', hcase⟩ := exec_cases i s
  obtain rfl : t' = t := Host.Outcome.next.inj (ht'.symm.trans h)
  have stay := State.UnitsStep.stay s
  rcases hcase with rfl | ⟨inst, f, rfl, hf⟩ | ⟨inst, f, rfl, hf⟩ | ⟨inst, f, rfl, hf⟩ | ⟨inst, f, rfl, hf⟩ |
    ⟨inst, f, rfl, hf⟩ | ⟨inst, f, rfl, hf⟩ | ⟨inst, f, rfl, hf⟩ | ⟨inst, f, rfl, hf⟩ <;> refine ⟨rfl, rfl, rfl, ?_⟩
  · exact stay
  · exact { stay with osc := .onTargets hf inst }
  · exact { stay with vca := .onTargets hf inst }
  · exact { stay with tone := .onTargets hf inst }
  · exact { stay with therm := .onTargets hf inst }
  · exact { stay with noise := .onTargets hf inst }
  · exact { stay with scope := .onTargets hf inst }
  · exact { stay with brcap := .onTargets hf inst }
  · exact { stay with brplay := .onTargets hf inst }

/-- The units read nothing of the queue. -/
theorem State.UnitsStep.of_setInQueue {p p' : Phase} {q : List Packet} {s t : State} (h : (s.setInQueue q).UnitsStep p p' t) :
    s.UnitsStep p p' t :=
  ⟨h.osc, h.vca, h.tone, h.therm, h.noise, h.scope, h.brcap, h.brplay⟩

/-- Every step is made of its units' steps. -/
theorem step_units {s t : State} (h : step s = .next t) : t.cfg = s.cfg ∧ s.UnitsStep s.phase t.phase t := by
  obtain ⟨-, ⟨p, q, hp, -, ⟨i, -, hi⟩ | ⟨-, rfl⟩⟩ | ⟨hp, -, rfl⟩ | ⟨i, hp, rfl⟩ | ⟨hp, hb⟩ | ⟨hp, rfl⟩⟩ := step_cases h
  · obtain ⟨hcfg, hphase, -, hu⟩ := State.UnitsStep.exec hi
    rw [hphase, State.setInQueue_phase, hp]
    exact ⟨hcfg, hu.of_setInQueue⟩
  · rw [State.setInQueue_phase, hp]
    exact ⟨rfl, (State.UnitsStep.stay _).of_setInQueue⟩
  · exact ⟨rfl, hp ▸ .begin s⟩
  · exact ⟨rfl, hp ▸ .frame i s⟩
  · have ht := (bridgeStep_spec hb).1
    exact ⟨by rw [ht], by rw [hp, show t.phase = .endOfBlock by rw [ht]]; exact .bridges hb⟩
  · exact ⟨rfl, hp ▸ .finish s⟩

end Sys2Proof.Machine
end

section
/-!
PROOFS. Every step keeps the configuration, and the invariant of Safety.lean: the ranges of each class over each kind of move, then the
block's phase and its outbound packets (10_state.md R61 to R63, 20_memory.md R103).
-/

namespace Sys2Proof.Machine

/-! ### The configuration -/

/-- A relation that every kind of move gives. -/
theorem UnitMoves.Step.rel {α : Type} {m : UnitMoves α} {q : Nat} {p p' : Phase} {u v : α} (h : m.Step q p p' u v) (R : α → α → Prop)
    (stay : ∀ u, R u u) (command : ∀ {u v}, m.command u v → R u v) (begin : ∀ u, R u (m.begin u))
    (frame : ∀ i u, R u (m.frame i u)) (bridge : ∀ {u v}, m.bridge u = some v → R u v) (finish : ∀ u, R u (m.finish u)) : R u v := by
  cases h with
  | stay => exact stay u
  | command h => exact command h
  | begin => exact begin u
  | frame i => exact frame i u
  | bridge h => exact bridge h
  | finish => exact finish u

/-- A view of a unit that no kind of move changes. -/
theorem UnitMoves.Step.keeps {α β : Type} {m : UnitMoves α} {q : Nat} {p p' : Phase} {u v : α} {g : α → β} (h : m.Step q p p' u v)
    (command : ∀ {u v}, m.command u v → g v = g u) (begin : ∀ u, g (m.begin u) = g u) (frame : ∀ i u, g (m.frame i u) = g u)
    (bridge : ∀ {u v}, m.bridge u = some v → g v = g u) (finish : ∀ u, g (m.finish u) = g u) : g v = g u :=
  h.rel (fun u v => g v = g u) (fun _ => rfl) command begin frame bridge finish

/-- The bridges' turn of a class that is no bridge keeps every view. -/
theorem keeps_of_some {α β : Type} {g : α → β} {u v : α} (h : some u = some v) : g v = g u := by rw [Option.some.inj h]

@[simp] theorem Tone.flushBlock_cfg (u : Tone) : u.flushBlock.cfg = u.cfg := by unfold Tone.flushBlock; split <;> rfl
@[simp] theorem Tone.flushBlock_mute (u : Tone) : u.flushBlock.mute = u.mute := by unfold Tone.flushBlock; split <;> rfl
@[simp] theorem Tone.flushBlock_out (u : Tone) : u.flushBlock.out = u.out := by unfold Tone.flushBlock; split <;> rfl
@[simp] theorem Tone.length_flushBlock_chans (u : Tone) : u.flushBlock.chans.length = u.chans.length := by
  unfold Tone.flushBlock
  split
  · rfl
  · exact List.length_map _
@[simp] theorem Noise.flushBlock_cfg (u : Noise) : u.flushBlock.cfg = u.cfg := by unfold Noise.flushBlock; split <;> rfl
@[simp] theorem Noise.flushBlock_mute (u : Noise) : u.flushBlock.mute = u.mute := by unfold Noise.flushBlock; split <;> rfl
@[simp] theorem Noise.flushBlock_out (u : Noise) : u.flushBlock.out = u.out := by unfold Noise.flushBlock; split <;> rfl

section
variable {s : State} {q : Nat} {p p' : Phase}

theorem Osc.step_cfg {u v : Osc} (h : (Osc.moves s).Step q p p' u v) : v.cfg = u.cfg :=
  h.keeps (fun h => h.1) (fun _ => rfl) (fun i u => (oscFrame_keeps s.cfg i u).1) keeps_of_some fun _ => rfl

theorem Vca.step_cfg {u v : Vca} (h : (Vca.moves s).Step q p p' u v) : v.cfg = u.cfg :=
  h.keeps (fun h => h.1) (fun _ => rfl) (fun i u => (vcaFrame_keeps s.cfg i u).1) keeps_of_some fun _ => rfl

theorem Tone.step_cfg {u v : Tone} (h : (Tone.moves s).Step q p p' u v) : v.cfg = u.cfg :=
  h.keeps (fun h => h.1) (fun _ => rfl) (fun i u => (toneFrame_keeps s.cfg i u).1) keeps_of_some Tone.flushBlock_cfg

theorem Therm.step_cfg {u v : Therm} (h : (Therm.moves s).Step q p p' u v) : v.cfg = u.cfg :=
  h.keeps (fun h => h.1) (fun _ => rfl) (fun i u => (thermFrame_keeps s.cfg i u).1) keeps_of_some fun _ => rfl

theorem Noise.step_cfg {u v : Noise} (h : (Noise.moves s).Step q p p' u v) : v.cfg = u.cfg :=
  h.keeps (fun h => h.1) (fun _ => rfl) (fun _ u => (noiseFrame_keeps s.cfg u).1) keeps_of_some Noise.flushBlock_cfg

theorem Scope.step_cfg {u v : Scope} (h : (Scope.moves s).Step q p p' u v) : v.cfg = u.cfg :=
  h.keeps (fun h => h.1) (fun _ => rfl) (fun i u => (scopeFrame_keeps i u).1) keeps_of_some fun _ => rfl

theorem Brcap.step_cfg {u v : Brcap} (h : (Brcap.moves s).Step q p p' u v) : v.cfg = u.cfg :=
  h.keeps (fun h => h.1) (fun _ => rfl) (fun _ _ => rfl) (fun h => (brcapBlock_same h).1) fun _ => rfl

theorem Brplay.step_cfg {u v : Brplay} (h : (Brplay.moves s).Step q p p' u v) : v.cfg = u.cfg :=
  h.keeps (fun h => h.1) (fun _ => rfl) (fun _ _ => rfl) (fun h => (brplayBlock_same h).1) fun _ => rfl

end

theorem step_keeps_configOk {s t : State} (h : step s = .next t) : t.configOk = true := by
  obtain ⟨hcfg, hu⟩ := step_units h
  exact configOk_of (step_cases h).1 hcfg (map_eq_of_forall₂ hu.osc Osc.step_cfg) (map_eq_of_forall₂ hu.vca Vca.step_cfg)
    (map_eq_of_forall₂ hu.tone Tone.step_cfg) (map_eq_of_forall₂ hu.therm Therm.step_cfg)
    (map_eq_of_forall₂ hu.noise Noise.step_cfg) (map_eq_of_forall₂ hu.scope Scope.step_cfg)
    (map_eq_of_forall₂ hu.brcap Brcap.step_cfg) (map_eq_of_forall₂ hu.brplay Brplay.step_cfg)

/-! ### Output counts -/

theorem sampleCount_begin (q : Nat) : sampleCountOk (.frame 0) q 0 := List.mem_singleton.2 rfl

/-- The `Q` samples the block ends with stand at the boundary. -/
theorem sampleCount_finish {q n : Nat} (h : sampleCountOk .endOfBlock q n) : sampleCountOk .boundary q n := List.mem_cons_of_mem 0 h

theorem playCount_begin (q : Nat) : playCountOk (.frame 0) q 0 := List.mem_singleton.2 rfl

/-- No playback port is written before the bridges' turn. -/
theorem playCount_frame {q i n : Nat} (h : playCountOk (.frame i) q n) : playCountOk (phaseAfter q i) q n := by
  unfold phaseAfter
  split <;> exact h

theorem playCount_finish {q n : Nat} (h : playCountOk .endOfBlock q n) : playCountOk .boundary q n := List.mem_cons_of_mem 0 h

theorem phaseAfter_ne_boundary (q i : Nat) : phaseAfter q i ≠ .boundary := by
  unfold phaseAfter
  split <;> exact nofun

theorem phaseOk_after (q i : Nat) : phaseOk q (phaseAfter q i) = true := by
  unfold phaseAfter
  split
  · exact decide_eq_true ‹_›
  · rfl

theorem phaseOk_frame {q i : Nat} : phaseOk q (.frame i) = true ↔ i < q := decide_eq_true_iff

/-! ### The ranges of each class -/

section
variable {s : State} {p p' : Phase}

theorem Osc.step_ok {q : Nat} {u v : Osc} (h : (Osc.moves s).Step q p p' u v) (hp : phaseOk q p = true) (hu : u.Ok p q) :
    v.Ok p' q := by
  obtain ⟨h0, h1⟩ := hu
  cases h with
  | stay => exact ⟨h0, h1⟩
  | command h =>
    obtain ⟨-, -, -, -, -, hout0, hout1, -⟩ := h
    exact ⟨hout0 ▸ h0, hout1 ▸ h1⟩
  | begin => exact ⟨sampleCount_begin q, sampleCount_begin q⟩
  | frame i =>
    obtain ⟨-, -, -, -, -, -, -, hout0, hout1⟩ := oscFrame_keeps s.cfg i u
    exact ⟨hout0 ▸ sampleCount_next (phaseOk_frame.1 hp) h0, hout1 ▸ sampleCount_next (phaseOk_frame.1 hp) h1⟩
  | bridge h => exact Option.some.inj h ▸ ⟨h0, h1⟩
  | finish => exact ⟨sampleCount_finish h0, sampleCount_finish h1⟩

theorem Vca.step_ok {q : Nat} {u v : Vca} (h : (Vca.moves s).Step q p p' u v) (hp : phaseOk q p = true) (hu : u.Ok p q) :
    v.Ok p' q := by
  cases h with
  | stay => exact hu
  | command h =>
    obtain ⟨-, -, -, -, -, -, hout⟩ := h
    rwa [Vca.Ok, hout]
  | begin => exact sampleCount_begin q
  | frame i =>
    obtain ⟨-, -, -, -, -, -, -, hout⟩ := vcaFrame_keeps s.cfg i u
    rw [Vca.Ok, hout]
    exact sampleCount_next (phaseOk_frame.1 hp) hu
  | bridge h => exact Option.some.inj h ▸ hu
  | finish => exact sampleCount_finish hu

theorem Tone.step_ok {q : Nat} {u v : Tone} (h : (Tone.moves s).Step q p p' u v) (hp : phaseOk q p = true) (hu : u.Ok p q) :
    v.Ok p' q := by
  obtain ⟨hchans, hout, hcount⟩ := hu
  cases h with
  | stay => exact ⟨hchans, hout, hcount⟩
  | command h =>
    obtain ⟨hcfg, -, -, -, -, eout, echans⟩ := h
    rw [Tone.Ok, hcfg, eout, echans]
    exact ⟨hchans, hout, hcount⟩
  | begin => exact ⟨hchans, List.length_replicate, fun a ha => List.eq_of_mem_replicate ha ▸ sampleCount_begin q⟩
  | frame i =>
    obtain ⟨hcfg, -, -, -, -, -, echans, f, eout⟩ := toneFrame_keeps s.cfg i u
    simp only [Tone.Ok, hcfg, eout, echans, appendSamples_length]
    refine ⟨hchans, hout, fun a ha => ?_⟩
    obtain ⟨b, hb, hlen⟩ := mem_appendSamples ha
    exact hlen ▸ sampleCount_next (phaseOk_frame.1 hp) (hcount b hb)
  | bridge h => exact Option.some.inj h ▸ ⟨hchans, hout, hcount⟩
  | finish =>
    simp only [Tone.Ok, Tone.flushBlock_cfg, Tone.flushBlock_out, Tone.length_flushBlock_chans]
    exact ⟨hchans, hout, fun a ha => sampleCount_finish (hcount a ha)⟩

theorem Therm.step_ok {q : Nat} {u v : Therm} (h : (Therm.moves s).Step q p p' u v) (hp : phaseOk q p = true) (hu : u.Ok p q) :
    v.Ok p' q := by
  cases h with
  | stay => exact hu
  | command h =>
    obtain ⟨-, -, -, -, hout⟩ := h
    rwa [Therm.Ok, hout]
  | begin => exact sampleCount_begin q
  | frame i =>
    obtain ⟨-, -, -, -, -, hout⟩ := thermFrame_keeps s.cfg i u
    rw [Therm.Ok, hout]
    exact sampleCount_next (phaseOk_frame.1 hp) hu
  | bridge h => exact Option.some.inj h ▸ hu
  | finish => exact sampleCount_finish hu

theorem Noise.step_ok {q : Nat} {u v : Noise} (h : (Noise.moves s).Step q p p' u v) (hp : phaseOk q p = true) (hu : u.Ok p q) :
    v.Ok p' q := by
  cases h with
  | stay => exact hu
  | command h =>
    obtain ⟨-, -, -, -, -, -, -, -, hout⟩ := h
    rwa [Noise.Ok, hout]
  | begin => exact sampleCount_begin q
  | frame i =>
    obtain ⟨-, -, -, -, -, -, hout⟩ := noiseFrame_keeps s.cfg u
    rw [Noise.Ok, hout]
    exact sampleCount_next (phaseOk_frame.1 hp) hu
  | bridge h => exact Option.some.inj h ▸ hu
  | finish =>
    simp only [Noise.Ok, Noise.flushBlock_out]
    exact sampleCount_finish hu

/-- A SCOPE's ranges are the same in every phase, but for the captures of the block, of which none is left at the boundary. -/
theorem Scope.Ok.of_made {u : Scope} (hu : u.Ok p) (h : p' = .boundary → u.made = []) : u.Ok p' := by
  obtain ⟨h1, h2, h3, h4, h5, h6, h7, h8, h9, h10, -⟩ := hu
  exact ⟨h1, h2, h3, h4, h5, h6, h7, h8, h9, h10, h⟩

theorem Scope.step_ok {q : Nat} {u v : Scope} (h : (Scope.moves s).Step q p p' u v) (hc : scopeCfgOk u.cfg = true) (hu : u.Ok p) :
    v.Ok p' := by
  cases h with
  | stay => exact hu
  | command h =>
    obtain ⟨-, -, -, -, -, -, hok⟩ := h
    exact hok _ hc hu
  | begin => exact hu.of_made nofun
  | frame i => exact scopeFrame_ok (phaseAfter_ne_boundary q i) hu
  | bridge h => exact Option.some.inj h ▸ hu.of_made nofun
  | finish =>
    obtain ⟨h1, h2, h3, h4, h5, h6, h7, h8, h9, -, -⟩ := hu
    exact ⟨h1, h2, h3, h4, h5, h6, h7, h8, h9, nofun, fun _ => rfl⟩

theorem Brcap.step_ok {q : Nat} {u v : Brcap} (h : (Brcap.moves s).Step q p p' u v) (hc : bridgeCfgOk u.cfg = true) (hu : u.Ok p) :
    v.Ok p' := by
  have ⟨hlink, hw, hlen, hstaging, hmade, hnone⟩ := hu
  cases h with
  | stay => exact hu
  | command h =>
    obtain ⟨-, -, -, -, -, hok⟩ := h
    exact hok _ hc hu
  | begin => exact ⟨hlink, hw, hlen, hstaging, hmade, nofun⟩
  | frame i => exact ⟨hlink, hw, hlen, hstaging, hmade, fun e => absurd e (phaseAfter_ne_boundary q i)⟩
  | bridge h =>
    obtain ⟨v', hv', -, -, hok, -⟩ := brcapBlock_ok (g := s.cfg) hc hu
    exact Option.some.inj (hv'.symm.trans h) ▸ hok
  | finish => exact ⟨hlink, hw, hlen, hstaging, nofun, fun _ => rfl⟩

theorem Brplay.step_ok {u v : Brplay} (h : (Brplay.moves s).Step s.cfg.q p p' u v) (hc : bridgeCfgOk u.cfg = true)
    (hu : u.Ok p s.cfg.q) : v.Ok p' s.cfg.q := by
  have ⟨hlink, hr, hlen, hfifo, hlast, hout, hcount⟩ := hu
  cases h with
  | stay => exact hu
  | command h =>
    obtain ⟨-, -, -, -, hok⟩ := h
    exact hok _ _ hc hu
  | begin =>
    exact ⟨hlink, hr, hlen, hfifo, hlast, List.length_replicate, fun a ha => List.eq_of_mem_replicate ha ▸ playCount_begin _⟩
  | frame i => exact ⟨hlink, hr, hlen, hfifo, hlast, hout, fun a ha => playCount_frame (hcount a ha)⟩
  | bridge h =>
    obtain ⟨v', hv', -, -, hok, -⟩ := brplayBlock_ok hu
    exact Option.some.inj (hv'.symm.trans h) ▸ hok
  | finish => exact ⟨hlink, hr, hlen, hfifo, hlast, hout, fun a ha => playCount_finish (hcount a ha)⟩

end

/-! ### The phase and the packets -/

theorem step_keeps_phaseOk {s t : State} (h : step s = .next t) : phaseOk s.cfg.q t.phase = true := by
  obtain ⟨hc, ⟨p, q, hp, -, ⟨i, -, hi⟩ | ⟨-, rfl⟩⟩ | ⟨-, -, rfl⟩ | ⟨i, -, rfl⟩ | ⟨-, hb⟩ | ⟨-, rfl⟩⟩ := step_cases h
  · obtain ⟨-, hphase, -⟩ := State.UnitsStep.exec hi
    rw [hphase, State.setInQueue_phase, hp]
    rfl
  · rw [State.setInQueue_phase, hp]
    rfl
  · obtain ⟨hq, -⟩ := configOk_parts hc
    exact phaseOk_frame.2 hq
  · exact phaseOk_after s.cfg.q i
  · rw [(bridgeStep_spec hb).1]
    rfl
  · rfl

/-- Only the end of a block emits packets. -/
theorem step_outQueue {s t : State} (h : step s = .next t) :
    t.outQueue = s.outQueue ∨ s.phase = .endOfBlock ∧ t.outQueue = s.outQueue ++ dataPackets s ++ eventPackets s := by
  obtain ⟨-, ⟨p, q, -, -, ⟨i, -, hi⟩ | ⟨-, rfl⟩⟩ | ⟨-, -, rfl⟩ | ⟨i, -, rfl⟩ | ⟨-, hb⟩ | ⟨hp, rfl⟩⟩ := step_cases h
  · obtain ⟨-, -, hout, -⟩ := State.UnitsStep.exec hi
    exact .inl hout
  · exact .inl rfl
  · exact .inl rfl
  · exact .inl rfl
  · exact .inl (by rw [(bridgeStep_spec hb).1])
  · exact .inr ⟨hp, rfl⟩

/-- What the invariant asks of a queued packet. -/
abbrev PacketOk (i : Instr) : Prop := (i.wf = true ∨ isOversized i = true) ∧ isOutbound i = true

theorem isOutbound_capturePacket (c : Capture) (rate : F64) (k : Nat) : isOutbound (c.packet rate k) = true := rfl

theorem isOutbound_chunkPacket (k : Nat) (fs : List Frame) : isOutbound (chunkPacket k fs) = true := rfl

theorem eventPacket_ok (cls : UnitClass) {k : Nat} (hk : k < 15) (code : EventCode) (n : U32) :
    PacketOk (.eventOutbound cls.code (BitVec.ofNat 4 k) code.code n) := by
  have hcls : 1 ≤ cls.code.toNat ∧ cls.code.toNat ≤ 8 := by cases cls <;> decide
  have hcode : 1 ≤ code.code.toNat ∧ code.code.toNat ≤ 4 := by cases code <;> decide
  exact ⟨.inl (by simp [Instr.wf, hcls, hcode, oneInstance_ofNat hk]), rfl⟩

theorem dataPackets_ok {s : State} (hc : s.configOk = true) (hscope : ∀ u ∈ s.scope, u.Ok s.phase)
    (hbrcap : ∀ u ∈ s.brcap, u.Ok s.phase) : ∀ i ∈ dataPackets s, PacketOk i := by
  obtain ⟨-, -, -, -, -, hcap, -, hslen, hclen, -⟩ := configOk_parts hc
  intro i hi
  simp only [dataPackets, List.mem_append, List.mem_flatten, List.mem_mapIdx] at hi
  rcases hi with ⟨ps, ⟨k, hk, rfl⟩, hi⟩ | ⟨ps, ⟨k, hk, rfl⟩, hi⟩
  · obtain ⟨c, hmem, rfl⟩ := List.mem_map.1 hi
    obtain ⟨-, -, -, -, -, -, -, -, -, hmade, -⟩ := hscope _ (List.getElem_mem hk)
    exact ⟨capturePacket_ok (hmade c hmem) s.cfg.fs (by omega), isOutbound_capturePacket ..⟩
  · obtain ⟨fs, hmem, rfl⟩ := List.mem_map.1 hi
    obtain ⟨-, -, -, -, hmade, -⟩ := hbrcap _ (List.getElem_mem hk)
    obtain ⟨hlen, hch⟩ := hmade fs hmem
    exact ⟨chunkPacket_ok (hcap _ (List.getElem_mem hk)) hlen hch (by omega), isOutbound_chunkPacket ..⟩

theorem eventPackets_ok {s : State} (hc : s.configOk = true) : ∀ i ∈ eventPackets s, PacketOk i := by
  intro i hi
  obtain ⟨cls, k, c, code, hk, -, rfl⟩ := eventPackets_mem hi
  have hlen := configOk_instances hc cls
  obtain ⟨hk, -⟩ := List.getElem?_eq_some_iff.1 hk
  exact eventPacket_ok cls (by omega) code _

/-! ### The invariant -/

/-- Settles O32: each part of the invariant is kept by every kind of move, the ranges class by class; what the end of a block emits is
well formed because the captures and chunks it emits were in range. -/
theorem stepKeepsTheInvariant : Obligations.StepKeepsTheInvariant := by
  intro s t ⟨hc, hphase, hout, hosc, hvca, htone, htherm, hnoise, hscope, hbrcap, hbrplay⟩ h
  obtain ⟨hcfg, hu⟩ := step_units h
  obtain ⟨-, -, -, -, hsc, hcc, hpc, -⟩ := configOk_parts hc
  rw [State.Inv, hcfg]
  refine ⟨step_keeps_configOk h, step_keeps_phaseOk h, ?packets, ?osc, ?vca, ?tone, ?therm, ?noise, ?scope, ?brcap, ?brplay⟩
  case packets =>
    rcases step_outQueue h with e | ⟨-, e⟩ <;> rw [e]
    · exact hout
    · simp only [List.forall_mem_append]
      exact ⟨⟨hout, dataPackets_ok hc hscope hbrcap⟩, eventPackets_ok hc⟩
  case osc => exact forall_mem_of_forall₂ hu.osc fun hm h => Osc.step_ok h hphase (hosc _ hm)
  case vca => exact forall_mem_of_forall₂ hu.vca fun hm h => Vca.step_ok h hphase (hvca _ hm)
  case tone => exact forall_mem_of_forall₂ hu.tone fun hm h => Tone.step_ok h hphase (htone _ hm)
  case therm => exact forall_mem_of_forall₂ hu.therm fun hm h => Therm.step_ok h hphase (htherm _ hm)
  case noise => exact forall_mem_of_forall₂ hu.noise fun hm h => Noise.step_ok h hphase (hnoise _ hm)
  case scope => exact forall_mem_of_forall₂ hu.scope fun hm h => Scope.step_ok h (hsc _ hm) (hscope _ hm)
  case brcap => exact forall_mem_of_forall₂ hu.brcap fun hm h => Brcap.step_ok h (hcc _ hm) (hbrcap _ hm)
  case brplay => exact forall_mem_of_forall₂ hu.brplay fun hm h => Brplay.step_ok h (hpc _ hm) (hbrplay _ hm)

end Sys2Proof.Machine
end

section
/-!
PROOFS. Every step keeps the mute gains in [0, 1] (10_state.md R32) and the phases in [0, 1) (R55): a step leaves a gain or ramps it, and
leaves a phase, resets it or advances it; and what `advance` makes of an increment in (0, 1] (41_oscillator.md R253).
-/

namespace Sys2Proof.Machine

/-! ### The mute ramp (70_reset_and_hazards.md R512) -/

theorem ordKey_f0 : ordKey f0 = 0 := by decide

theorem ordKey_f1 : ordKey f1 = 0x3FF0000000000000 := by decide

theorem isNaN_f0 : isNaN f0 = false := by decide

theorem isNaN_f1 : isNaN f1 = false := by decide

theorem unitRange_iff (x : F64) : unitRange x ↔ isNaN x = false ∧ 0 ≤ ordKey x ∧ ordKey x ≤ ordKey f1 := by
  rw [unitRange, fle_iff, fle_iff, ordKey_f0, isNaN_f0, isNaN_f1]
  tauto

/-- Subtraction of finite values is the rounding of the exact difference. -/
theorem fsub_finite {a b : F64} (ha : isFinite a = true) (hb : isFinite b = true) :
    isNaN (fsub a b) = false ∧ ordKey (fsub a b) = roundKey (valueOf a - valueOf b) := by
  have hneg : isFinite (fneg b) = true := by rwa [isFinite_fneg]
  have hsub : fsub a b = fadd a (fneg b) := by simp [fsub, not_nan_of_finite ha, not_nan_of_finite hb]
  rw [hsub, ordKey_fadd ha hneg, valueOf_fneg]
  exact ⟨isNaN_fadd ha hneg, rfl⟩

/-- A ramp of at least one frame keeps [0, 1]: a step down is not above the gain, a step up not below it. -/
theorem unitRange_ramp {n : Nat} (hn : 1 ≤ n) {g : F64} (hg : unitRange g) (dormant : Bool) : unitRange (ramp n g dormant) := by
  obtain ⟨-, h0, h1⟩ := (unitRange_iff g).1 hg
  have hfin := isFinite_of_le_one h0 h1
  obtain ⟨dfin, dneg, -⟩ := fdiv_one (ofNat_ge_one hn)
  have dpos := valueOf_nonneg dneg
  have key0 := ordKey_f0
  have key1 := ordKey_f1
  rw [unitRange_iff]
  cases dormant with
  | true =>
    obtain ⟨hnan, hkey⟩ := fsub_finite hfin dfin
    have hle : ordKey (fsub g (fdiv f1 (ofNat n))) ≤ ordKey g := by
      rw [hkey, ← roundKey_value hfin]
      exact roundKey_mono (by omega)
    rw [ramp, if_pos rfl, (fmax_spec hnan isNaN_f0).2]
    exact ⟨isNaN_fmax hnan isNaN_f0, by omega, by omega⟩
  | false =>
    have hnan := isNaN_fadd hfin dfin
    have hle : ordKey g ≤ ordKey (fadd g (fdiv f1 (ofNat n))) := by
      rw [ordKey_fadd hfin dfin, ← roundKey_value hfin]
      exact roundKey_mono (by omega)
    rw [ramp, if_neg Bool.false_ne_true, (fmin_spec hnan isNaN_f1).2]
    exact ⟨isNaN_fmin hnan isNaN_f1, by omega, by omega⟩

/-! ### The gains over a step -/

/-- What a step can do to a gain: leave it, or ramp it over `n` frames. -/
abbrev Mute.Ramps (n : Nat) (m m' : Mute) : Prop := m'.gain = m.gain ∨ m'.gain = ramp n m.gain m.dormant

theorem Mute.Ramps.unitRange {n : Nat} {m m' : Mute} (h : m.Ramps n m') (hn : 1 ≤ n) (hm : unitRange m.gain) : unitRange m'.gain := by
  rcases h with h | h <;> rw [h]
  · exact hm
  · exact unitRange_ramp hn hm _

theorem oscFrame_ramps (g : BlockCfg) (i : Nat) (u : Osc) : u.mute.Ramps u.cfg.rampFrames (oscFrame g i u).mute := by
  unfold oscFrame
  split
  · exact .inr rfl
  · exact .inl rfl

theorem vcaFrame_ramps (g : BlockCfg) (i : Nat) (u : Vca) : u.mute.Ramps u.cfg.rampFrames (vcaFrame g i u).mute := by
  unfold vcaFrame
  split
  · unfold vcaProcess
    dsimp only
    split <;> exact .inr rfl
  · exact .inl rfl

theorem toneFrame_ramps (g : BlockCfg) (i : Nat) (u : Tone) : u.mute.Ramps u.cfg.rampFrames (toneFrame g i u).mute := by
  unfold toneFrame
  split
  · exact .inr rfl
  · exact .inl rfl

theorem Noise.afterDraw_keeps (u : Noise) : u.afterDraw.cfg = u.cfg ∧ u.afterDraw.mute = u.mute := by
  unfold Noise.afterDraw
  split <;> exact ⟨rfl, rfl⟩

theorem noiseFrame_ramps (g : BlockCfg) (u : Noise) : u.mute.Ramps u.cfg.rampFrames (noiseFrame g u).mute := by
  obtain ⟨hcfg, hmute⟩ := u.afterDraw_keeps
  unfold noiseFrame
  split
  · exact .inr (by rw [← hcfg, ← hmute]; rfl)
  · exact .inl rfl

/-- A class whose frames ramp its gain and whose other moves leave it. -/
theorem UnitMoves.Step.ramps {α : Type} {m : UnitMoves α} {q : Nat} {p p' : Phase} {u v : α} {mute : α → Mute} {n : α → Nat}
    (h : m.Step q p p' u v) (command : ∀ {u v}, m.command u v → (mute v).gain = (mute u).gain)
    (begin : ∀ u, mute (m.begin u) = mute u) (frame : ∀ i u, (mute u).Ramps (n u) (mute (m.frame i u)))
    (bridge : ∀ {u v}, m.bridge u = some v → mute v = mute u) (finish : ∀ u, mute (m.finish u) = mute u) :
    (mute u).Ramps (n u) (mute v) :=
  h.rel (fun u v => (mute u).Ramps (n u) (mute v)) (fun _ => .inl rfl) (fun h => .inl (command h))
    (fun u => .inl (congrArg Mute.gain (begin u))) frame (fun h => .inl (congrArg Mute.gain (bridge h)))
    fun u => .inl (congrArg Mute.gain (finish u))

section
variable {s : State} {q : Nat} {p p' : Phase}

theorem Osc.step_ramps {u v : Osc} (h : (Osc.moves s).Step q p p' u v) : u.mute.Ramps u.cfg.rampFrames v.mute :=
  h.ramps (mute := Osc.mute) (n := fun u => u.cfg.rampFrames) (fun ⟨_, _, hgain, _⟩ => hgain) (fun _ => rfl)
    (oscFrame_ramps s.cfg) keeps_of_some fun _ => rfl

theorem Vca.step_ramps {u v : Vca} (h : (Vca.moves s).Step q p p' u v) : u.mute.Ramps u.cfg.rampFrames v.mute :=
  h.ramps (mute := Vca.mute) (n := fun u => u.cfg.rampFrames) (fun ⟨_, _, hgain, _⟩ => hgain) (fun _ => rfl)
    (vcaFrame_ramps s.cfg) keeps_of_some fun _ => rfl

theorem Tone.step_ramps {u v : Tone} (h : (Tone.moves s).Step q p p' u v) : u.mute.Ramps u.cfg.rampFrames v.mute :=
  h.ramps (mute := Tone.mute) (n := fun u => u.cfg.rampFrames) (fun ⟨_, _, hgain, _⟩ => hgain) (fun _ => rfl)
    (toneFrame_ramps s.cfg) keeps_of_some Tone.flushBlock_mute

theorem Noise.step_ramps {u v : Noise} (h : (Noise.moves s).Step q p p' u v) : u.mute.Ramps u.cfg.rampFrames v.mute :=
  h.ramps (mute := Noise.mute) (n := fun u => u.cfg.rampFrames) (fun ⟨_, _, hgain, _⟩ => hgain) (fun _ => rfl)
    (fun _ => noiseFrame_ramps s.cfg) keeps_of_some Noise.flushBlock_mute

/-- A step leaves a phase, or gives one in range: +0, or an advanced one. -/
theorem Osc.step_phase {u v : Osc} (h : (Osc.moves s).Step q p p' u v) : v.phase = u.phase ∨ phaseInRange v.phase = true := by
  have hzero : phaseInRange f0 = true := by decide
  refine h.rel (fun u v => v.phase = u.phase ∨ phaseInRange v.phase = true) (fun _ => .inl rfl) ?command (fun _ => .inl rfl) ?frame
    (fun h => .inl (keeps_of_some (g := Osc.phase) h)) fun _ => .inl rfl
  case command =>
    rintro u v ⟨-, -, -, -, -, -, -, hphase⟩
    exact hphase.imp_right fun e => by rw [e]; exact hzero
  case frame =>
    intro i u
    exact (oscFrame_phase s.cfg i u).imp_right fun ⟨t, dt, e⟩ => by rw [e]; exact advance_inRange t dt

end

/-- Every legal OSC, VCA, TONE and NOISE ramps over at least one frame (10_state.md R47). -/
theorem configOk_rampFrames {s : State} (h : s.configOk = true) :
    (∀ u ∈ s.osc, 1 ≤ u.cfg.rampFrames) ∧ (∀ u ∈ s.vca, 1 ≤ u.cfg.rampFrames) ∧ (∀ u ∈ s.tone, 1 ≤ u.cfg.rampFrames) ∧
      ∀ u ∈ s.noise, 1 ≤ u.cfg.rampFrames := by
  obtain ⟨-, hosc, hvca, htone, -, -, -, -, -, -, hnoise⟩ := configOk_parts h
  simp only [oscCfgOk, vcaCfgOk, toneCfgOk, noiseCfgOk, Bool.and_eq_true, decide_eq_true_eq] at hosc hvca htone hnoise
  exact ⟨fun u hu => by have := hosc u hu; tauto, fun u hu => by have := hvca u hu; tauto, fun u hu => by have := htone u hu; tauto,
    fun u hu => by have := hnoise u hu; tauto⟩

/-- Settles O40: a step leaves a gain or ramps it, and a ramp of at least one frame keeps [0, 1]. -/
theorem stepKeepsGainsInRange : Obligations.StepKeepsGainsInRange := by
  intro s t ⟨hosc, hvca, htone, hnoise⟩ h
  obtain ⟨-, hu⟩ := step_units h
  obtain ⟨nosc, nvca, ntone, nnoise⟩ := configOk_rampFrames (step_cases h).1
  exact ⟨forall_mem_of_forall₂ hu.osc fun hm h => (Osc.step_ramps h).unitRange (nosc _ hm) (hosc _ hm),
    forall_mem_of_forall₂ hu.vca fun hm h => (Vca.step_ramps h).unitRange (nvca _ hm) (hvca _ hm),
    forall_mem_of_forall₂ hu.tone fun hm h => (Tone.step_ramps h).unitRange (ntone _ hm) (htone _ hm),
    forall_mem_of_forall₂ hu.noise fun hm h => (Noise.step_ramps h).unitRange (nnoise _ hm) (hnoise _ hm)⟩

/-! ### The phase (41_oscillator.md R253) -/

theorem step_keeps_phasesOk {s t : State} (hs : s.PhasesOk) (h : step s = .next t) : t.PhasesOk := by
  obtain ⟨-, hu⟩ := step_units h
  refine forall_mem_of_forall₂ hu.osc fun {u v} hm h => (phaseInRange_iff v.phase).1 ?_
  rcases Osc.step_phase h with e | hr
  · rw [e]
    exact (phaseInRange_iff _).2 (hs u hm)
  · exact hr

theorem phaseInRange_iff_key (p : F64) : phaseInRange p = true ↔ isNaN p = false ∧ 0 ≤ ordKey p ∧ ordKey p < ordKey f1 := by
  rw [phaseInRange_iff, fle_iff, flt_iff, ordKey_f0, isNaN_f0, isNaN_f1]
  tauto

theorem roundKey_nonneg {v : Int} (h : 0 ≤ v) : 0 ≤ roundKey v := by
  simp [roundKey, signed, not_lt.2 h]

theorem valueOf_nonneg_of_key {x : F64} (hx : isFinite x = true) (h : 0 ≤ ordKey x) : 0 ≤ valueOf x := by
  have hfin0 : isFinite f0 = true := by decide
  have hval0 : valueOf f0 = 0 := by decide
  exact hval0 ▸ value_mono hfin0 hx (ordKey_f0.trans_le h)

theorem ordKey_f2 : ordKey f2 = 0x4000000000000000 := by decide

/-- The pattern of a value of at least 1 is its order key. -/
theorem isNeg_of_one_le {p : F64} (h : ordKey f1 ≤ ordKey p) : isNeg p = false ∧ (magOf p : Int) = ordKey p := by
  have key1 := ordKey_f1
  cases hn : isNeg p with
  | false => exact ⟨rfl, (key_nonneg_mag hn).symm⟩
  | true =>
    have : ordKey p = -magOf p := by rw [ordKey, signed, hn, if_pos rfl]
    omega

theorem isFinite_of_le_two {p : F64} (h1 : ordKey f1 ≤ ordKey p) (h2 : ordKey p ≤ ordKey f2) : isFinite p = true := by
  have key2 := ordKey_f2
  have hmag := (isNeg_of_one_le h1).2
  exact decide_eq_true (show magOf p < 0x7FF0000000000000 by omega)

/-- The floor of a value in [1, 2) is 1. -/
theorem ffloor_of_one_le {p : F64} (h1 : ordKey f1 ≤ ordKey p) (h2 : ordKey p < ordKey f2) : ffloor p = f1 := by
  have key1 := ordKey_f1
  have key2 := ordKey_f2
  obtain ⟨hneg, hmag⟩ := isNeg_of_one_le h1
  have hexp : magOf p / 2 ^ 52 = 1023 := by omega
  have he : expOf p = -52 := by rw [expOf, hexp]; rfl
  have hs : sigOf p = 2 ^ 52 + magOf p % 2 ^ 52 := by rw [sigOf, hexp]; rfl
  have hfloor : floorInt p = 1 := by
    have hpow : (-(-52 : Int)).toNat = 52 := rfl
    simp only [floorInt, he, hneg, signed, hs, hpow, Bool.false_eq_true, if_false]
    omega
  have hz : isZero p = false := decide_eq_false (by omega)
  have hof : ofInt 1 = f1 := by decide +kernel
  simp [ffloor, isFinite_of_le_two h1 h2.le, hz, hfloor, hof]

/-- What is left of a value in [1, 2] after its floor is in [0, 1): of the greatest one below 2, `1 - 2 ^ -52`; of 2 itself, 0. -/
theorem frac_inRange {p : F64} (h1 : ordKey f1 ≤ ordKey p) (h2 : ordKey p ≤ ordKey f2) :
    phaseInRange (frac p) = true := by
  have hfin := isFinite_of_le_two h1 h2
  rcases h2.lt_or_eq with h2 | h2
  · have key2 := ordKey_f2
    have hfin1 : isFinite f1 = true := by decide
    have keyLast : ordKey 0x3FFFFFFFFFFFFFFF = 0x3FFFFFFFFFFFFFFF := by decide
    have hlow := value_mono hfin1 hfin h1
    have hhigh := value_mono (y := 0x3FFFFFFFFFFFFFFF) hfin (by decide) (by omega)
    have hlast : roundKey (valueOf 0x3FFFFFFFFFFFFFFF - valueOf f1) < ordKey f1 := by decide +kernel
    obtain ⟨hnan, hkey⟩ := fsub_finite hfin hfin1
    rw [frac, ffloor_of_one_le h1 h2, phaseInRange_iff_key, hkey]
    exact ⟨hnan, roundKey_nonneg (by omega), (roundKey_mono (by omega)).trans_lt hlast⟩
  · have hp : p = f2 := by
      have key2 := ordKey_f2
      have hmag2 : magOf f2 = 0x4000000000000000 := by decide
      obtain ⟨hneg, hmag⟩ := isNeg_of_one_le h1
      exact magOf_ext (hneg.trans (by decide)) (by omega)
    rw [hp]
    decide +kernel

/-- The sum of a phase in [0, 1) and an increment in (0, 1] lies in [0, 2]. -/
theorem phaseSum_range {phase dt : F64} (hp : phaseInRange phase = true) (hlo : flt f0 dt = true) (hhi : fle dt f1 = true) :
    isNaN (fadd phase dt) = false ∧ 0 ≤ ordKey (fadd phase dt) ∧ ordKey (fadd phase dt) ≤ ordKey f2 := by
  have key0 := ordKey_f0
  have hf1 : isFinite f1 = true := by decide
  obtain ⟨-, p0, p1⟩ := (phaseInRange_iff_key _).1 hp
  obtain ⟨-, -, d0⟩ := (flt_iff _ _).1 hlo
  obtain ⟨-, -, d1⟩ := (fle_iff _ _).1 hhi
  have hpf := isFinite_of_le_one p0 p1.le
  have hdf := isFinite_of_le_one (by omega) d1
  have hsum : roundKey (valueOf f1 + valueOf f1) = ordKey f2 := by
    rw [← ordKey_fadd hf1 hf1]
    decide +kernel
  have hp0 := valueOf_nonneg_of_key hpf p0
  have hd0 := valueOf_nonneg_of_key hdf (by omega)
  have hp1 := value_mono hpf hf1 p1.le
  have hd1 := value_mono hdf hf1 d1
  rw [ordKey_fadd hpf hdf, ← hsum]
  exact ⟨isNaN_fadd hpf hdf, roundKey_nonneg (by omega), roundKey_mono (by omega)⟩

/-- For such a sum the formula of R253 gives a phase in range. -/
theorem wrapPhase_inRange {phase dt : F64} (hp : phaseInRange phase = true) (hlo : flt f0 dt = true) (hhi : fle dt f1 = true) :
    phaseInRange (wrapPhase phase dt) = true := by
  obtain ⟨hn, h0, h2⟩ := phaseSum_range hp hlo hhi
  unfold wrapPhase
  dsimp only
  split
  · obtain ⟨-, -, h1⟩ := (fle_iff _ _).1 ‹_›
    exact frac_inRange h1 h2
  · rename_i h
    rw [fle_iff] at h
    exact (phaseInRange_iff_key _).2 ⟨hn, h0, by simpa [isNaN_f1, hn] using h⟩

/-- Settles O38: a step leaves a phase, resets it or advances it, and what `advance` gives is in [0, 1); and for an increment in (0, 1]
the formula already gives a phase in [0, 1). -/
theorem phaseStaysInUnitInterval : Obligations.PhaseStaysInUnitInterval := by
  refine ⟨fun s t => step_keeps_phasesOk, ?_⟩
  rintro phase dt p h0 h1 hlo hhi rfl
  have hwrap := wrapPhase_inRange ((phaseInRange_iff _).2 ⟨h0, h1⟩) hlo hhi
  exact ⟨advance_eq_wrap hwrap, (phaseInRange_iff _).1 (advance_inRange phase dt)⟩

end Sys2Proof.Machine
end

section
/-!
PROOFS. The boundary's latch of the k-rate parameters (10_state.md R39 to R45), and a new block: its values (R66, R500) and that, for
every legal configuration, they meet the invariant.
-/

namespace Sys2Proof.Machine

/-! ### The latch -/

/-- Settles O25: every unit of the next state is `begin` of the unit of its number, and `kreal`, `kbool` and `kint` are the clamp, its
comparison with one half and its floor. -/
theorem boundaryLatchesParameters : Obligations.BoundaryLatchesParameters := by
  intro s hc hp hq
  refine ⟨beginBlock s, step_begin hc hp hq, ?osc, ?vca, ?tone, ?therm, ?noise, ?scope, ?brcap, ?brplay⟩
  case osc => exact fun k u hu => ⟨u.begin, getElem?_map_of hu, rfl, rfl, rfl, rfl, rfl, rfl, rfl⟩
  case vca => exact fun k u hu => ⟨u.begin, getElem?_map_of hu, rfl, rfl, rfl⟩
  case tone => exact fun k u hu => ⟨u.begin, getElem?_map_of hu, rfl⟩
  case therm => exact fun k u hu => ⟨u.begin, getElem?_map_of hu, rfl⟩
  case noise => exact fun k u hu => ⟨u.begin, getElem?_map_of hu, rfl, rfl, rfl, rfl⟩
  case scope => exact fun k u hu => ⟨u.begin, getElem?_map_of hu, rfl, rfl, rfl⟩
  case brcap => exact fun k u hu => ⟨u.common.takeFault, getElem?_map_of hu⟩
  case brplay => exact fun k u hu => ⟨u.common.takeFault, getElem?_map_of hu⟩

/-! ### The values of a new block -/

/-- The units of a class take their configurations in order. -/
theorem map_mapIdx_eq_self {α β : Type} {f : Nat → α → β} {g : β → α} (h : ∀ k a, g (f k a) = a) (l : List α) :
    (l.mapIdx f).map g = l := by
  apply List.ext_getElem?
  intro k
  have hid : g ∘ f k = id := funext (h k)
  simp [hid]

theorem forall_mem_mapIdx {α β : Type} {f : Nat → α → β} {l : List α} {P : β → Prop} (h : ∀ k, ∀ a ∈ l, P (f k a)) :
    ∀ b ∈ l.mapIdx f, P b := by
  intro b hb
  obtain ⟨k, hk, rfl⟩ := List.mem_mapIdx.1 hb
  exact h k _ (List.getElem_mem hk)

theorem construct_commons (c : Construction) : ∀ u ∈ (State.construct c).commons, u = Common.reset := by
  simp only [State.commons, List.forall_mem_append, List.forall_mem_map]
  refine ⟨⟨⟨⟨⟨⟨⟨?osc, ?vca⟩, ?tone⟩, ?therm⟩, ?noise⟩, ?scope⟩, ?brcap⟩, ?brplay⟩
  case osc | vca | tone | therm | scope => exact List.forall_mem_map.2 fun _ _ => rfl
  case noise | brcap | brplay => exact forall_mem_mapIdx fun _ _ _ => rfl

/-- Settles O30: every unit of a new block is the reset one of its configuration. -/
theorem resetGivesSpecValues : Obligations.ResetGivesSpecValues := by
  intro c
  refine ⟨rfl, rfl, rfl, rfl, rfl, rfl, Function.LeftInverse.list_map (fun _ => rfl) _, Function.LeftInverse.list_map (fun _ => rfl) _,
    Function.LeftInverse.list_map (fun _ => rfl) _, Function.LeftInverse.list_map (fun _ => rfl) _, map_mapIdx_eq_self (fun _ _ => rfl) _,
    Function.LeftInverse.list_map (fun _ => rfl) _, map_mapIdx_eq_self (fun _ _ => rfl) _, map_mapIdx_eq_self (fun _ _ => rfl) _,
    ?commons, ?osc, ?vca, ?tone, ?therm, ?noise, ?scope, ?brcap, ?brplay⟩
  case commons =>
    intro u hu
    rw [construct_commons c u hu]
    exact ⟨rfl, rfl, rfl⟩
  case osc => exact List.forall_mem_map.2 fun _ _ => ⟨rfl, rfl, rfl, rfl, rfl, rfl, rfl⟩
  case vca => exact List.forall_mem_map.2 fun _ _ => ⟨rfl, rfl, rfl, rfl⟩
  case tone => exact List.forall_mem_map.2 fun _ _ => ⟨rfl, rfl, rfl⟩
  case therm => exact List.forall_mem_map.2 fun _ _ => ⟨rfl, rfl⟩
  case noise => exact forall_mem_mapIdx fun _ _ _ => ⟨rfl, rfl, rfl, rfl⟩
  case scope => exact List.forall_mem_map.2 fun _ _ => ⟨rfl, rfl, rfl, rfl, rfl, rfl, rfl, rfl, rfl, rfl, rfl⟩
  case brcap => exact forall_mem_mapIdx fun _ _ _ => ⟨rfl, rfl, rfl, rfl, rfl, rfl, rfl, rfl⟩
  case brplay => exact forall_mem_mapIdx fun _ _ _ => ⟨rfl, rfl, rfl, rfl, rfl, rfl, rfl, rfl, rfl⟩

/-! ### The invariant of a new block -/

/-- A new block has no output yet, which the boundary allows. -/
theorem sampleCount_reset (q : Nat) : sampleCountOk .boundary q 0 := List.mem_cons_self

theorem Scope.ok_reset {c : ScopeCfg} (hc : scopeCfgOk c = true) (p : Phase) : (Scope.reset c).Ok p := by
  simp only [scopeCfgOk, Bool.and_eq_true, decide_eq_true_eq] at hc
  obtain ⟨⟨hmin, hdef⟩, hmax⟩ := hc
  exact ⟨hdef, hmax, List.length_replicate, List.length_replicate, show 0 < 2 * c.nDefault by omega, Nat.zero_le _,
    show 0 < c.nDefault by omega, Nat.le_refl 0, nofun, nofun, fun _ => rfl⟩

theorem Link.ok_reset {c : BridgeCfg} (hc : bridgeCfgOk c = true) (k : Nat) : (Link.reset k c).Ok c := by
  simp only [bridgeCfgOk, Bool.and_eq_true, decide_eq_true_eq] at hc
  obtain ⟨⟨⟨⟨-, hdef⟩, hmax⟩, hbound⟩, -⟩ := hc
  exact ⟨hdef, hmax.trans hbound, hdef, hmax, by simp [Link.reset], nofun, nofun, nofun⟩

theorem Brcap.ok_reset {c : BridgeCfg} (hc : bridgeCfgOk c = true) (k : Nat) (p : Phase) : (Brcap.reset k c).Ok p := by
  have hlink := Link.ok_reset hc k
  simp only [bridgeCfgOk, Bool.and_eq_true, decide_eq_true_eq] at hc
  obtain ⟨⟨⟨⟨-, hdef⟩, -⟩, -⟩, hchunk⟩ := hc
  exact ⟨hlink, show 0 < c.capDefault by omega, hchunk, nofun, nofun, fun _ => rfl⟩

theorem Brplay.ok_reset {c : BridgeCfg} (hc : bridgeCfgOk c = true) (k q : Nat) : (Brplay.reset k c).Ok .boundary q := by
  have hlink := Link.ok_reset hc k
  simp only [bridgeCfgOk, Bool.and_eq_true, decide_eq_true_eq] at hc
  obtain ⟨⟨⟨⟨-, hdef⟩, -⟩, -⟩, -⟩ := hc
  exact ⟨hlink, show 0 < c.capDefault by omega, Nat.zero_le _, nofun, List.length_replicate, List.length_replicate,
    fun a ha => List.eq_of_mem_replicate ha ▸ List.mem_cons_self⟩

/-- Every block of a legal configuration meets the invariant when it is new. -/
theorem construct_inv {c : Construction} (h : (State.construct c).configOk = true) : (State.construct c).Inv := by
  obtain ⟨-, -, -, -, hscope, hbrcap, hbrplay, -⟩ := configOk_parts h
  refine ⟨h, rfl, nofun, ?osc, ?vca, ?tone, ?therm, ?noise, ?scope, ?brcap, ?brplay⟩
  case osc => exact List.forall_mem_map.2 fun _ _ => ⟨sampleCount_reset _, sampleCount_reset _⟩
  case vca => exact List.forall_mem_map.2 fun _ _ => sampleCount_reset _
  case tone =>
    exact List.forall_mem_map.2 fun _ _ => ⟨List.length_replicate, List.length_replicate, fun a ha =>
      List.eq_of_mem_replicate ha ▸ sampleCount_reset _⟩
  case therm => exact List.forall_mem_map.2 fun _ _ => sampleCount_reset _
  case noise => exact forall_mem_mapIdx fun _ _ _ => sampleCount_reset _
  case scope => exact List.forall_mem_map.2 fun u hu => Scope.ok_reset (hscope _ (List.mem_map_of_mem hu)) _
  case brcap =>
    intro u hu
    obtain ⟨k, hk, rfl⟩ := List.mem_mapIdx.1 hu
    exact Brcap.ok_reset (hbrcap _ hu) k _
  case brplay =>
    intro u hu
    obtain ⟨k, hk, rfl⟩ := List.mem_mapIdx.1 hu
    exact Brplay.ok_reset (hbrplay _ hu) k _

/-- A new block's gains are 1 and its phases +0, for every configuration. -/
theorem construct_ranges (c : Construction) : (State.construct c).GainsOk ∧ (State.construct c).PhasesOk := by
  have gain : unitRange Mute.reset.gain := by decide
  have phase : fle f0 0 = true ∧ flt 0 f1 = true := by decide
  exact ⟨⟨List.forall_mem_map.2 fun _ _ => gain, List.forall_mem_map.2 fun _ _ => gain, List.forall_mem_map.2 fun _ _ => gain,
    forall_mem_mapIdx fun _ _ _ => gain⟩, List.forall_mem_map.2 fun _ _ => phase⟩

/-- Settles O31: the default configuration is legal. -/
theorem resetMeetsTheInvariant : Obligations.ResetMeetsTheInvariant :=
  ⟨construct_inv (by decide +kernel), construct_ranges Config.construction⟩

end Sys2Proof.Machine
end

section
/-!
PROOFS. The bytes of the regions under a command (20_memory.md R101, R102): no command but START replaces a bridge's region, and a
START replaces those of the instances it addresses.
-/

namespace Sys2Proof.Machine

/-- A view of unit `k` that a command does not change where it addresses `k`. -/
theorem getElem?_onTargets_view {α β : Type} {inst : BitVec 4} {f : α → α} {g : α → β} {k : Nat}
    (h : ∀ u, addressed inst k = true → g (f u) = g u) (l : List α) : (onTargets inst f l)[k]?.map g = l[k]?.map g := by
  rw [getElem?_onTargets, Option.map_map]
  congr 1
  funext u
  rw [Function.comp_apply]
  split
  · exact h u ‹_›
  · rfl

theorem Brplay.push_link (n : U32) (payload : List F32) (u : Brplay) : (u.push n payload).link = u.link := by
  unfold Brplay.push
  split <;> rfl

/-- The commands of BRCAP are STOP, SETBUFFERSIZE and START. -/
theorem exec_captureRegion {i : Instr} {s t : State} {k : Nat} (h : exec i s = .next t)
    (hk : ∀ inst, i = .startBrcap inst → addressed inst k = false) :
    t.brcap[k]?.map (fun u => u.link.region) = s.brcap[k]?.map fun u => u.link.region := by
  cases i
  case stopBrcap | setBufferSizeBrcap =>
    cases h
    exact getElem?_onTargets_view (fun _ _ => by rfl) _
  case startBrcap inst =>
    cases h
    exact getElem?_onTargets_view (fun _ ha => absurd ha (by simp [hk inst rfl])) _
  all_goals
    cases h
    rfl

/-- The commands of BRPLAY are STOP, SETBUFFERSIZE, START and PUSHCHUNK. -/
theorem exec_playRegion {i : Instr} {s t : State} {k : Nat} (h : exec i s = .next t)
    (hk : ∀ inst, i = .startBrplay inst → addressed inst k = false) :
    t.brplay[k]?.map (fun u => u.link.region) = s.brplay[k]?.map fun u => u.link.region := by
  cases i
  case stopBrplay | setBufferSizeBrplay =>
    cases h
    exact getElem?_onTargets_view (fun _ _ => by rfl) _
  case startBrplay inst =>
    cases h
    exact getElem?_onTargets_view (fun _ ha => absurd ha (by simp [hk inst rfl])) _
  case pushChunkBrplay n payload =>
    cases h
    exact getElem?_onTargets_view (fun u _ => by rw [Brplay.push_link]) _
  all_goals
    cases h
    rfl

/-- A capture byte is read in the region its bridge has. -/
theorem State.captureByte_eq (s : State) (k o : Nat) :
    s.captureByte k o = (s.brcap[k]?.map fun u => u.link.region).bind (Option.map fun r => r.mem.read o) := by
  rw [State.captureByte, Option.bind_map]
  rfl

theorem State.playByte_eq (s : State) (k o : Nat) :
    s.playByte k o = (s.brplay[k]?.map fun u => u.link.region).bind (Option.map fun r => r.mem.read o) := by
  rw [State.playByte, Option.bind_map]
  rfl

/-- Settles O21: a byte is read in its bridge's region, which the command keeps. -/
theorem commandsKeepRegionBytes : Obligations.CommandsKeepRegionBytes := by
  intro i s t h
  refine ⟨fun k o hk => ?_, fun k o hk => ?_⟩
  · rw [State.captureByte_eq, State.captureByte_eq, exec_captureRegion h hk]
  · rw [State.playByte_eq, State.playByte_eq, exec_playRegion h hk]

end Sys2Proof.Machine
end

section
/-!
PROOFS. The bridges' move from a state of the invariant, and what the block of a running SHARED bridge shares between its two directions
(20_memory.md R110): its accesses with no write of the peer unordered, which return and store what the rules name and no draw.
-/

namespace Sys2Proof.Machine

/-- The bridges' move answers from every state of the invariant, with each bridge's own block step. -/
theorem step_bridges_of_inv {s : State} (hs : s.Inv) (hp : s.phase = .bridges) :
    ∃ t, step s = .next t ∧ mapAll (brcapBlock s.cfg) s.brcap = some t.brcap ∧
      mapAll (brplayBlock s.cfg) s.brplay = some t.brplay := by
  obtain ⟨hc, -, -, -, -, -, -, -, -, hcap, hplay⟩ := hs
  rw [hp] at hcap hplay
  obtain ⟨-, -, -, -, -, hcfg, -⟩ := configOk_parts hc
  obtain ⟨cs, hcs⟩ := mapAll_some fun u hu => (brcapBlock_ok (g := s.cfg) (hcfg u hu) (hcap u hu)).imp fun _ h => h.1
  obtain ⟨ps, hps⟩ := mapAll_some fun u hu => (brplayBlock_ok (hplay u hu)).imp fun _ h => h.1
  exact ⟨_, step_bridges hc hp (by rw [bridgeStep, hcs, hps]; rfl), hcs, hps⟩

theorem brcapBlock_shared {g : BlockCfg} {u : Brcap} (hf : u.common.faulted = false) (hrun : u.link.run = .running)
    (hmode : u.link.mode = .shared) : brcapBlock g u = brcapShared g u := by
  simp [brcapBlock, hf, hrun, hmode]

theorem brplayBlock_shared {g : BlockCfg} {u : Brplay} (hf : u.common.faulted = false) (hrun : u.link.run = .running)
    (hmode : u.link.mode = .shared) : brplayBlock g u = brplayShared g u := by
  simp [brplayBlock, hf, hrun, hmode]

theorem Link.Ok.regionOk {cfg : BridgeCfg} {l : Link} {r : Region} (h : l.Ok cfg) (hr : l.region = some r) : r.Ok l.cap cfg.ch := by
  obtain ⟨-, -, -, -, -, -, -, hregion⟩ := h
  exact hregion r hr

/-- The two indices are in every region. -/
theorem Region.Ok.indices {cap ch : Nat} {r : Region} (h : r.Ok cap ch) :
    writeIndexOffset + 4 ≤ r.size ∧ readIndexOffset + 4 ≤ r.size := by
  rw [h.1, writeIndexOffset, readIndexOffset, regionBytes]
  omega

theorem le_sampleOffset (ch f c : Nat) : 8 ≤ sampleOffset ch f c := Nat.le_add_right ..

/-- Every byte of a slot is a byte of one of its samples. -/
theorem exists_sample_of_mem_slot {ch f o : Nat} (h : sampleOffset ch f 0 ≤ o) (h' : o < sampleOffset ch f ch) :
    ∃ c < ch, sampleOffset ch f c ≤ o ∧ o < sampleOffset ch f c + 4 := by
  rw [sampleOffset_add ch f ch] at h'
  refine ⟨(o - sampleOffset ch f 0) / 4, by omega, ?_⟩
  rw [sampleOffset_add ch f (_ / 4)]
  omega

/-! ### Ordered accesses -/

/-- A link whose block has acquired the peer's index and accessed the fields `exposed`, all ordered with the peer's writes. -/
def Link.accessed (region : Region) (exposed : List Nat) (l : Link) : Link :=
  { l with region := some region, order := { l.order with released := [], exposed := exposed } }

/-- The same link once the block has stored its own index, so that the peer's load returns that store. -/
def Link.published (region : Region) (exposed : List Nat) (l : Link) : Link :=
  { l with region := some region, order := { l.order with released := [], exposed := exposed, foreign := false } }

/-- No write of the peer to the `n` frame slots from `w` on is unordered with the block. -/
abbrev Link.SlotsOrdered (ch w n : Nat) (l : Link) : Prop :=
  ∀ f c, f < n → c < ch → l.order.unordered (sampleOffset ch ((w + f) % l.cap) c) = false

@[simp] theorem Link.accessed_cap (l : Link) (r : Region) (x : List Nat) : (l.accessed r x).cap = l.cap := rfl

/-- With the peer's releases acquired, an access races only where a write of the peer is unordered. -/
theorem Link.accessed_raced {l : Link} {o : Nat} (h : l.order.unordered o = false) (r : Region) (x : List Nat) :
    (l.accessed r x).order.raced o = false := Order.raced_acquired rfl h

section
variable {e : Endian} {l : Link} {r : Region} {o ch : Nat} (dir : Nat)

theorem Link.atomicLoad_of_ordered {v : BitVec 32} (hr : l.region = some r) (hv : r.load32 e o = some v) (ho : o + 4 ≤ r.size)
    (hu : l.order.unordered o = false) : ∃ x, l.atomicLoad dir e o = some (v, l.accessed r x) := by
  obtain ⟨v', a, x, k, h, hq⟩ := Link.atomicLoad_spec (dir := dir) (e := e) hr ho
  obtain ⟨hv', rfl, rfl⟩ := hq hu
  obtain rfl : v' = v := Option.some.inj (hv'.symm.trans hv)
  exact ⟨x, by rw [h, Link.accessed, ← hr]⟩

theorem Link.atomicStore_of_ordered (e : Endian) (v : BitVec 32) (x : List Nat) (ho : o + 4 ≤ r.size)
    (hu : l.order.unordered o = false) :
    ∃ x' r', (l.accessed r x).atomicStore dir e o v = some (l.published r' x') ∧ r.store32 e o v = some r' := by
  obtain ⟨w, x', k, r', h, hst, hq⟩ := Link.atomicStore_spec (dir := dir) (e := e) (v := v) (l := l.accessed r x) rfl ho
  have hraced := Link.accessed_raced hu r x
  obtain ⟨rfl, rfl⟩ := hq hraced
  rw [hraced] at h
  exact ⟨x', r', h, hst⟩

theorem Link.storeFrames_of_ordered (e : Endian) {vs : List Frame} {w : Nat} (x : List Nat) (hok : r.Ok l.cap ch) (hcap : 2 ≤ l.cap)
    (hlen : vs.length ≤ l.cap) (hch : ∀ v ∈ vs, v.length = ch) (hslots : l.SlotsOrdered ch w vs.length) :
    ∃ r' x', (l.accessed r x).storeFrames dir e ch w vs = some (l.accessed r' x') ∧ r'.Ok l.cap ch ∧
      (∀ (f c : Nat) (fr : Frame) (v : F32), vs[f]? = some fr → fr[c]? = some v →
        r'.load32 e (sampleOffset ch ((w + f) % l.cap) c) = some v) ∧
      ∀ o, (∀ f, f < vs.length → o < sampleOffset ch ((w + f) % l.cap) 0 ∨ sampleOffset ch ((w + f) % l.cap) ch ≤ o) →
        r'.mem.read o = r.mem.read o := by
  obtain ⟨r', x', k, h, hok', hq⟩ := storeFrames_spec (dir := dir) (e := e) vs w (l.accessed r x) r rfl hok hcap hlen hch
  obtain ⟨rfl, hsample, hother⟩ := hq fun f c hf hc => Link.accessed_raced (hslots f c hf hc) r x
  exact ⟨r', x', h, hok', hsample, hother⟩

theorem Link.loadFrames_of_ordered (e : Endian) {n w : Nat} (x : List Nat) (hok : r.Ok l.cap ch) (hcap : 2 ≤ l.cap)
    (hslots : l.SlotsOrdered ch w n) :
    ∃ vs x', (l.accessed r x).loadFrames dir e ch n w = some (vs, l.accessed r x') ∧ vs.length = n ∧
      ∀ f c, f < n → c < ch → ∃ v fr, r.load32 e (sampleOffset ch ((w + f) % l.cap) c) = some v ∧ vs[f]? = some fr ∧
        fr[c]? = some (san32 v) := by
  obtain ⟨vs, x', k, h, hlen, -, hq⟩ := loadFrames_spec (dir := dir) (e := e) n w (l.accessed r x) r rfl hok hcap
  obtain ⟨rfl, hsample⟩ := hq fun f c hf hc => Link.accessed_raced (hslots f c hf hc) r x
  exact ⟨vs, x', h, hlen, hsample⟩

end

/-! ### What a block counts -/

/-- The events a block counts, none where every frame fits. -/
theorem count_missing (k : EventCode) (q n : Nat) (c : Common) : (if n < q then c.count k (q - n) else c) = c.count k (q - n) := by
  split
  · rfl
  · rw [show q - n = 0 by omega, count_zero]

end Sys2Proof.Machine
end

section
/-!
PROOFS. The block of a running SHARED capture bridge (47_bridge.md R422 to R424).
-/

namespace Sys2Proof.Machine

/-- A capture bridge after a block that published `n` of `q` frames. -/
def Brcap.published (q n : Nat) (link : Link) (u : Brcap) : Brcap :=
  { u with link := link, wLocal := (u.wLocal + n) % u.link.cap, common := u.common.count .overflow (q - n) }

theorem inputFrame_getElem? {ch c : Nat} (hc : c < ch) (input : List Samples) (f : Nat) :
    (inputFrame ch input f)[c]? = some (san32 (port (channel input c) f)) := by
  simp [inputFrame, hc]

/-- The block step with every access ordered: the frames that fit are stored, then the index. -/
theorem brcapShared_of_ordered {g : BlockCfg} {u : Brcap} {r : Region} {ri : BitVec 32} {n : Nat} (hl : u.link.Ok u.cfg)
    (hreg : u.link.region = some r) (hri : r.load32 g.endian readIndexOffset = some ri)
    (hn : n = min g.q (freeFrames u.link.cap u.wLocal (slotOf u.link.cap ri)))
    (hw : u.link.order.unordered writeIndexOffset = false) (hr : u.link.order.unordered readIndexOffset = false)
    (hslots : u.link.SlotsOrdered u.cfg.ch u.wLocal n) :
    ∃ x r', brcapShared g u = some (u.published g.q n (u.link.published r' x)) ∧ r'.size = r.size ∧
      r'.load32 g.endian writeIndexOffset = some (BitVec.ofNat 32 ((u.wLocal + n) % u.link.cap)) ∧
      r'.load32 g.endian readIndexOffset = some ri ∧
      (∀ f c, f < n → c < u.cfg.ch →
        r'.load32 g.endian (sampleOffset u.cfg.ch ((u.wLocal + f) % u.link.cap) c) =
          some (san32 (port (channel u.input c) f))) ∧
      ∀ o, 4 ≤ o →
        (∀ f, f < n → o < sampleOffset u.cfg.ch ((u.wLocal + f) % u.link.cap) 0 ∨
          sampleOffset u.cfg.ch ((u.wLocal + f) % u.link.cap) u.cfg.ch ≤ o) →
        r'.mem.read o = r.mem.read o := by
  have hok := hl.regionOk hreg
  obtain ⟨hcap, -⟩ := hl
  have hlen : ((List.range n).map (inputFrame u.cfg.ch u.input)).length = n := by simp
  have hfit : n ≤ u.link.cap := by
    have := freeFrames_lt hcap u.wLocal (slotOf u.link.cap ri)
    omega
  obtain ⟨x, hload⟩ := Link.atomicLoad_of_ordered captureDir hreg hri hok.indices.2 hr
  obtain ⟨r1, x1, hstore, hok1, hsample, hother⟩ := Link.storeFrames_of_ordered captureDir g.endian x hok hcap
    (vs := (List.range n).map (inputFrame u.cfg.ch u.input)) (hlen.trans_le hfit)
    (List.forall_mem_map.2 fun f _ => inputFrame_length ..) (hlen ▸ hslots)
  rw [hlen] at hother
  have hsize1 := hok1.1.trans hok.1.symm
  obtain ⟨x', r', hindex, hst⟩ := Link.atomicStore_of_ordered captureDir g.endian
    (BitVec.ofNat 32 ((u.wLocal + n) % u.link.cap)) x1 hok1.indices.1 hw
  obtain ⟨-, hsize', -, hread, -⟩ := Region.store32_spec hok1.2.1 hst
  have hbeside : ∀ o, 4 ≤ o → r'.load32 g.endian o = r1.load32 g.endian o := fun o ho =>
    Region.load32_store32_other hok1.2.1 hst (.inr ho)
  refine ⟨x', r', ?step, hsize'.trans hsize1, Region.load32_store32 hok1.2.1 hst, ?readIndex, fun f c hf hc => ?sample,
    fun o ho hslot => ?other⟩
  case step =>
    simp only [brcapShared, hload, Option.bind_some, Link.accessed_cap, ← hn, hstore, hindex, count_missing]
    rfl
  case readIndex =>
    rw [hbeside readIndexOffset (Nat.le_refl _), ← hri]
    exact Region.load32_congr hsize1 fun j _ hj => hother j fun f _ => .inl (Nat.lt_of_lt_of_le hj (le_sampleOffset ..))
  case sample =>
    rw [hbeside _ (Nat.le_trans (by decide) (le_sampleOffset ..))]
    exact hsample f c _ _ (by simp [hf]) (inputFrame_getElem? hc ..)
  case other => rw [hread, if_neg (fun h => Nat.not_lt.2 ho h.2), hother o hslot]

/-- Settles O56: the slot and the counts of the statement are those of the block step, and a byte that is in no sample stored is in no
slot stored. -/
theorem captureBridgePublishesFrames : Obligations.CaptureBridgePublishesFrames := by
  intro s k u r ri rd used n hs hp hu hf hrun hmode hreg hri hrd hslot hused hcount hn hw hr hslots
  obtain ⟨t, ht, hcaps, -⟩ := step_bridges_of_inv hs hp
  obtain ⟨u', hu', hblock⟩ := (mapAll_spec hcaps).2 k u hu
  rw [brcapBlock_shared hf hrun hmode] at hblock
  have hn' : n = min s.cfg.q (freeFrames u.link.cap u.wLocal (slotOf u.link.cap ri)) := by
    rw [hn, freeFrames, slotOf_eq hrd hslot, usedFrames_eq hused hcount]
  obtain ⟨-, -, -, -, -, -, -, -, -, hok, -⟩ := hs
  obtain ⟨x, r', hshared, hsize, hwrite, hread, hsamples, hother⟩ :=
    brcapShared_of_ordered (hok u (List.mem_of_getElem? hu)).1 hreg (Region.load32_iff.2 hri) hn' hw hr hslots
  obtain rfl := Option.some.inj (hblock.symm.trans hshared)
  refine ⟨t, _, r', ht, hu', rfl, hsize, Region.load32_iff.1 hwrite, Region.load32_iff.1 hread,
    fun f c hf hc => Region.load32_iff.1 (hsamples f c hf hc), fun o => or_iff_not_imp_left.2 fun ho => ?_⟩
  rw [not_or] at ho
  refine hother o (Nat.not_lt.1 ho.1) fun f hf => ?_
  by_contra hmem
  rw [not_or, Nat.not_lt, Nat.not_le] at hmem
  obtain ⟨c, hc, hlo, hhi⟩ := exists_sample_of_mem_slot hmem.1 hmem.2
  exact ho.2 ⟨f, c, hf, hc, hlo, hhi⟩

end Sys2Proof.Machine
end

section
/-!
PROOFS. The block of a running SHARED playback bridge (47_bridge.md R431, R432, R436).
-/

namespace Sys2Proof.Machine

/-! ### What a block of playback leaves -/

section
variable {g : BlockCfg} {played : List Frame} {u : Brplay} {c f : Nat}

/-- The frames that came stand first in the output. -/
theorem play_out_played {fr : Frame} (hc : c < u.cfg.ch) (hf : played[f]? = some fr) :
    ((u.play g played).out.getD c [])[f]? = some (fr.getD c 0) := by
  obtain ⟨hlt, rfl⟩ := List.getElem?_eq_some_iff.1 hf
  rw [Brplay.play, (channelsOf_spec ..).2.2 c f hc, List.getElem?_append_left hlt, List.getElem?_eq_getElem hlt]
  rfl

/-- The missing frames of the block follow as underflow frames. -/
theorem play_out_missing (hc : c < u.cfg.ch) (hlo : played.length ≤ f) (hhi : f < g.q) :
    ((u.play g played).out.getD c [])[f]? = some ((underflowFrame u.cfg (u.play g played).lastFrame).getD c 0) := by
  rw [Brplay.play, (channelsOf_spec ..).2.2 c f hc, List.getElem?_append_right hlo, List.getElem?_replicate, if_pos (by omega)]
  rfl

theorem play_lastFrame {fr : Frame} (hf : played[f]? = some fr) (hlast : f + 1 = played.length) :
    (u.play g played).lastFrame = fr := by
  rw [Brplay.play, List.getLastD_eq_getLast?, List.getLast?_eq_getElem?, ← hlast, Nat.add_sub_cancel, hf]
  rfl

theorem underflowFrame_silence {cfg : BridgeCfg} (h : cfg.underflow = .silence) (last : Frame) (c : Nat) :
    (underflowFrame cfg last).getD c 0 = 0 := by
  rw [underflowFrame, h, List.getD_eq_getElem?_getD]
  exact List.getElem?_getD_replicate_default_eq ..

theorem underflowFrame_hold {cfg : BridgeCfg} (h : cfg.underflow = .hold) (last : Frame) : underflowFrame cfg last = last := by
  rw [underflowFrame, h]

end

/-! ### The block step -/

/-- A playback bridge after a block in which the frames `played` came. -/
def Brplay.published (g : BlockCfg) (played : List Frame) (link : Link) (u : Brplay) : Brplay :=
  { u.play g played with link := link, rLocal := (u.rLocal + played.length) % u.link.cap }

/-- The block step with every access ordered: the available frames are loaded sanitised, then the index is stored. -/
theorem brplayShared_of_ordered {g : BlockCfg} {u : Brplay} {r : Region} {wi : BitVec 32} {n : Nat} (hl : u.link.Ok u.cfg)
    (hreg : u.link.region = some r) (hwi : r.load32 g.endian writeIndexOffset = some wi)
    (hn : n = min g.q (usedFrames u.link.cap (slotOf u.link.cap wi) u.rLocal))
    (hw : u.link.order.unordered writeIndexOffset = false) (hr : u.link.order.unordered readIndexOffset = false)
    (hslots : u.link.SlotsOrdered u.cfg.ch u.rLocal n) :
    ∃ played x r', brplayShared g u = some (u.published g played (u.link.published r' x)) ∧ played.length = n ∧
      r.store32 g.endian readIndexOffset (BitVec.ofNat 32 ((u.rLocal + n) % u.link.cap)) = some r' ∧
      ∀ f c, f < n → c < u.cfg.ch → ∃ v fr,
        r.load32 g.endian (sampleOffset u.cfg.ch ((u.rLocal + f) % u.link.cap) c) = some v ∧ played[f]? = some fr ∧
          fr[c]? = some (san32 v) := by
  have hok := hl.regionOk hreg
  obtain ⟨hcap, -⟩ := hl
  obtain ⟨x, hload⟩ := Link.atomicLoad_of_ordered playDir hreg hwi hok.indices.1 hw
  obtain ⟨played, x1, hframes, hlen, hsample⟩ := Link.loadFrames_of_ordered playDir g.endian x hok hcap hslots
  obtain ⟨x', r', hindex, hst⟩ := Link.atomicStore_of_ordered playDir g.endian
    (BitVec.ofNat 32 ((u.rLocal + n) % u.link.cap)) x1 hok.indices.2 hr
  refine ⟨played, x', r', ?_, hlen, hst, hsample⟩
  simp only [brplayShared, hload, Option.bind_some, Link.accessed_cap, ← hn, hframes, hindex, Brplay.published, hlen]
  rfl

/-- Settles O57: the frames loaded are those whose samples stand in the slots, a sample being the one value its bytes hold. -/
theorem playbackBridgeOutputsFrames : Obligations.PlaybackBridgeOutputsFrames := by
  intro s k u r wi wr used n hs hp hu hf hrun hmode hreg hwi hwr hslot hused hcount hn hw hr hslots
  obtain ⟨t, ht, -, hplays⟩ := step_bridges_of_inv hs hp
  obtain ⟨u', hu', hblock⟩ := (mapAll_spec hplays).2 k u hu
  rw [brplayBlock_shared hf hrun hmode] at hblock
  have hn' : n = min s.cfg.q (usedFrames u.link.cap (slotOf u.link.cap wi) u.rLocal) := by
    rw [hn, slotOf_eq hwr hslot, usedFrames_eq hused hcount]
  obtain ⟨-, -, -, -, -, -, -, -, -, -, hok⟩ := hs
  have hlink := (hok u (List.mem_of_getElem? hu)).1
  obtain ⟨played, x, r', hshared, hlen, hst, hsample⟩ :=
    brplayShared_of_ordered hlink hreg (Region.load32_iff.2 hwi) hn' hw hr hslots
  obtain rfl := Option.some.inj (hblock.symm.trans hshared)
  obtain ⟨-, hwf, -⟩ := hlink.regionOk hreg
  obtain ⟨-, hsize, -, hread, -⟩ := Region.store32_spec hwf hst
  refine ⟨t, _, r', ht, hu', ?state, Region.load32_iff.1 (Region.load32_store32 hwf hst), hsize, fun o ho => ?other,
    fun f c v hf hc hv => ?played, fun f c hf hc => ?loadable, fun h0 => ?none, fun f c hlo hhi hc => ?missing⟩
  case state =>
    obtain ⟨-, -, -, -, -, hcommon, -⟩ := play_spec s.cfg played u (by omega)
    rw [Brplay.published, hcommon, hlen]
    rfl
  case other => rw [hread, if_neg (by rw [readIndexOffset]; omega)]
  case played =>
    obtain ⟨v', fr, hv', hfr, hc'⟩ := hsample f c hf hc
    obtain rfl : v' = v := Option.some.inj (hv'.symm.trans (Region.load32_iff.2 hv))
    refine ⟨(play_out_played hc hfr).trans (by rw [List.getD_eq_getElem?_getD, hc']; rfl), fun hlast => ?_⟩
    exact (congrArg (·[c]?) (play_lastFrame (g := s.cfg) hfr (hlast.trans hlen.symm))).trans hc'
  case loadable =>
    obtain ⟨v, -, hv, -⟩ := hsample f c hf hc
    exact ⟨v, Region.load32_iff.1 hv⟩
  case none =>
    obtain rfl := List.length_eq_zero_iff.1 (hlen.trans h0)
    rfl
  case missing =>
    refine (play_out_missing hc (hlen.trans_le hlo) hhi).trans ?_
    split
    · rw [underflowFrame_silence ‹_›]
    · rw [underflowFrame_hold ‹_›]
      rfl

end Sys2Proof.Machine
end

section
/-!
PROOFS. The encoder and the decoder of 30_encoding.md (sections 1 to 5): a packet's operand decodes back by its kind, which fields of
the header and the operand an opcode reads, and which rows decode.
-/

namespace Sys2Proof.Machine

/-! ### Round trip -/

/-- A row with an f64 operand (R142): both words of the operand make it. -/
theorem decode_real_row {op : Byte} {cls inst : BitVec 4} {pidx : Byte} {v : F64} {row : F64 → Instr}
    (h : ∀ lo hi, decodeFields op cls inst pidx lo hi [] = .ok (row (word64 lo hi))) :
    decode (header op cls inst pidx ++ bytes64 v) = .ok (row v) := by
  rw [decode_real, h, word64_halves]

/-- A row with a u32 operand: the low word makes it (R142). -/
theorem decode_word_row {op : Byte} {cls inst : BitVec 4} {pidx : Byte} {v : U32} {row : U32 → Instr}
    (h : ∀ lo hi, decodeFields op cls inst pidx lo hi [] = .ok (row lo)) :
    decode (header op cls inst pidx ++ operand32 v) = .ok (row v) := by
  rw [← List.append_nil (_ ++ operand32 v), decode_word, h]

/-- A row without an operand. -/
theorem decode_bare_row {op : Byte} {cls inst : BitVec 4} {pidx : Byte} {i : Instr}
    (h : ∀ lo hi, decodeFields op cls inst pidx lo hi [] = .ok i) :
    decode (header op cls inst pidx ++ bytes64 0) = .ok i := by
  rw [decode_real, h]

/-- A row whose samples follow a u32 frame count (R152, R153). -/
theorem decode_frames_row {op : Byte} {cls inst : BitVec 4} {pidx : Byte} {n : U32} {xs : List F32} {row : U32 → List F32 → Instr}
    (h : ∀ lo hi rest, decodeFields op cls inst pidx lo hi rest = .ok (row lo (samplesOf rest))) :
    decode (header op cls inst pidx ++ operand32 n ++ sampleBytes xs) = .ok (row n xs) := by
  rw [decode_word, h, samplesOf_sampleBytes]

/-- The windows of a well-formed CAPTURE have its `n` samples. -/
theorem captureOutbound_lengths {inst : BitVec 4} {triggered : Bool} {valid n : U32} {rate : F64} {ys xs : List F32}
    (h : (Instr.captureOutbound inst triggered valid n rate ys xs).wf = true) : ys.length = n.toNat ∧ xs.length = n.toNat := by
  simp only [Instr.wf, Bool.and_eq_true, decide_eq_true_eq] at h
  exact ⟨h.1.2, h.2⟩

/-- A CAPTURE's flag is bit 0 of its `pidx` byte (R150). -/
theorem captureFlag_getLsbD (triggered : Bool) : (if triggered then 1 else 0 : Byte).getLsbD 0 = triggered := by
  cases triggered <;> rfl

theorem decode_encode_capture {inst : BitVec 4} {triggered : Bool} {valid n : U32} {rate : F64} {ys xs : List F32}
    (hy : ys.length = n.toNat) (hx : xs.length = n.toNat) :
    decode (encode (.captureOutbound inst triggered valid n rate ys xs)) = .ok (.captureOutbound inst triggered valid n rate ys xs) := by
  calc decode (encode (.captureOutbound inst triggered valid n rate ys xs))
      = decodeFields 0x81 6 inst (if triggered then 1 else 0) valid n (bytes64 rate ++ sampleBytes ys ++ sampleBytes xs) := by
        rw [← decode_parts, encode]
        simp only [List.append_assoc]
    _ = decodeCapture inst (if triggered then 1 else 0) valid n (bytes64 rate ++ sampleBytes ys ++ sampleBytes xs) := rfl
    _ = .ok (.captureOutbound inst triggered valid n rate ys xs) := by
        rw [decodeCapture_encoded _ _ _ _ _ _ _ hy hx, captureFlag_getLsbD]

/-- Settles O2: each row decodes back by the kind of its operand. -/
theorem encodedPacketsDecodeBack : Obligations.EncodedPacketsDecodeBack := by
  intro i hwf
  cases i
  case setParamOscFrequency | setParamOscDetune | setParamOscPulseWidth | setParamOscSymmetry | setParamOscSineLevel
      | setParamOscSawLevel | setParamOscTriLevel | setParamOscPulseLevel | setParamOscSlewCutoff | setParamOscPurity
      | setParamVcaDialVoltage | setParamVcaCutoffEnabled | setParamTonePosition | setParamThermEnable | setParamNoiseColour
      | setParamNoiseLevel | setParamNoiseBypass | setParamScopeTriggerLevel | setParamScopeHysteresis | resyncOsc | resyncVca
      | resyncTone | resyncTherm | resyncNoise | setTriggerLevelScope =>
    exact decode_real_row fun _ _ => rfl
  case setWaveformOsc | setBufferSizeScope | setBufferSizeBrcap | setBufferSizeBrplay | setDormantOsc | setDormantVca
      | setDormantTone | setDormantNoise | eventOutbound =>
    exact decode_word_row fun _ _ => rfl
  case resetPhaseOsc | stopBrcap | stopBrplay | startBrcap | startBrplay => exact decode_bare_row fun _ _ => rfl
  case pushChunkBrplay | chunkOutbound => exact decode_frames_row fun _ _ _ => rfl
  case captureOutbound =>
    obtain ⟨hy, hx⟩ := captureOutbound_lengths hwf
    exact decode_encode_capture hy hx

/-! ### Lengths -/

theorem encode_pushChunk_length (inst : BitVec 4) (n : U32) (payload : List F32) :
    (encode (.pushChunkBrplay inst n payload)).length = 12 + 4 * payload.length := by
  rw [encode, List.length_append, sampleBytes_length]
  rfl

theorem encode_chunk_length (inst : BitVec 4) (n : U32) (samples : List F32) :
    (encode (.chunkOutbound inst n samples)).length = 12 + 4 * samples.length := by
  rw [encode, List.length_append, sampleBytes_length]
  rfl

theorem encode_capture_length (inst : BitVec 4) (triggered : Bool) (valid n : U32) (rate : F64) (ys xs : List F32) :
    (encode (.captureOutbound inst triggered valid n rate ys xs)).length = 20 + 4 * ys.length + 4 * xs.length := by
  rw [encode, List.length_append, List.length_append, sampleBytes_length, sampleBytes_length]
  rfl

/-- Settles O3: the fixed part is 12 bytes, and a sample is four. -/
theorem packetsHaveTheirLengths : Obligations.PacketsHaveTheirLengths := by
  refine ⟨fun i => ?fixed, fun inst n payload ch h => ?push, fun inst triggered valid n rate ys xs h => ?capture,
    fun inst n samples ch h => ?chunk⟩
  case fixed =>
    cases i
    case pushChunkBrplay => exact .inr (.inl ⟨_, _, _, rfl⟩)
    case captureOutbound => exact .inr (.inr (.inl ⟨_, _, _, _, _, _, _, rfl⟩))
    case chunkOutbound => exact .inr (.inr (.inr ⟨_, _, _, rfl⟩))
    all_goals exact .inl rfl
  case push => rw [encode_pushChunk_length, h, Nat.mul_assoc]
  case chunk => rw [encode_chunk_length, h, Nat.mul_assoc]
  case capture =>
    obtain ⟨hy, hx⟩ := captureOutbound_lengths h
    rw [encode_capture_length, hy, hx]
    omega

/-! ### What the decoder reads -/

/-- Of the opcodes below 0x80 only SETPARAM reads `pidx` (R141). -/
theorem decodeFields_pidx {op : Byte} (hlo : 2 ≤ op.toNat) (hhi : op.toNat < 0x80) (cls inst : BitVec 4) (pidx pidx' : Byte)
    (lo hi : U32) (rest : List Byte) : decodeFields op cls inst pidx lo hi rest = decodeFields op cls inst pidx' lo hi rest := by
  unfold decodeFields
  split
  case h_1 | h_11 | h_12 | h_13 => omega
  all_goals rfl

/-- A u32 operand's high word is not read (R149). -/
theorem decodeFields_hi {op : Byte} (h : op.toNat = 2 ∨ op.toNat = 6 ∨ op.toNat = 9 ∨ op.toNat = 10) (cls inst : BitVec 4)
    (pidx : Byte) (lo hi hi' : U32) (rest : List Byte) :
    decodeFields op cls inst pidx lo hi rest = decodeFields op cls inst pidx lo hi' rest := by
  rcases h with h | h | h | h <;> simp only [decodeFields, h]

/-- RESETPHASE, STOP and START have no operand (R142, R147). -/
theorem decodeFields_operand {op : Byte} (h : op.toNat = 3 ∨ op.toNat = 4 ∨ op.toNat = 8) (cls inst : BitVec 4)
    (pidx : Byte) (lo lo' hi hi' : U32) (rest : List Byte) :
    decodeFields op cls inst pidx lo hi rest = decodeFields op cls inst pidx lo' hi' rest := by
  rcases h with h | h | h <;> simp only [decodeFields, h]

/-- Below PUSHCHUNK nothing past the operand is read (R140). -/
theorem decodeFields_rest {op : Byte} (h : op.toNat < 10) (cls inst : BitVec 4) (pidx : Byte) (lo hi : U32) (rest rest' : List Byte) :
    decodeFields op cls inst pidx lo hi rest = decodeFields op cls inst pidx lo hi rest' := by
  unfold decodeFields
  split
  case h_10 | h_11 | h_12 | h_13 => omega
  all_goals rfl

/-- Settles O4: the decoder passes on no `rsv` byte, and reads of the rest what the opcode's rows hold. -/
theorem ignoredBitsDoNotMatter : Obligations.IgnoredBitsDoNotMatter := by
  intro r r' h1 h1' h2 h3 o0 o1 o2 o3 o4 o5 o6 o7 p0 p1 p2 p3 p4 p5 p6 p7 rest rest'
  exact ⟨rfl, fun ⟨hlo, hhi⟩ => decodeFields_pidx hlo hhi .., fun h => decodeFields_hi h ..,
    fun h => decodeFields_operand h .., fun h => decodeFields_rest h ..⟩

/-! ### The rows that decode -/

/-- SETPARAM's rows are its classes' parameters (R148): a `(class, pidx)` that no row takes is outside every range. -/
theorem decodeSetParam_ok_iff (cls inst : BitVec 4) (pidx : Byte) (v : F64) :
    (∃ i, decodeSetParam cls inst pidx v = .ok i) ↔ actingRow 1 cls.toNat pidx.toNat = true := by
  unfold decodeSetParam
  split
  case h_20 => grind [actingRow]
  all_goals simp [actingRow, *]

/-- The rows below 0x80, opcode by opcode and then class by class (R147). -/
theorem decodeFields_ok_iff {op : Byte} (h : op.toNat < 0x80) (cls inst : BitVec 4) (pidx : Byte) (lo hi : U32) (rest : List Byte) :
    (∃ i, decodeFields op cls inst pidx lo hi rest = .ok i) ↔ actingRow op.toNat cls.toNat pidx.toNat = true := by
  unfold decodeFields
  split
  case h_1 hop =>
    rw [hop]
    exact decodeSetParam_ok_iff ..
  case h_2 hop | h_3 hop | h_4 hop | h_5 hop | h_6 hop | h_7 hop | h_8 hop | h_9 hop | h_10 hop =>
    rw [hop]
    split <;> grind [actingRow]
  case h_11 | h_12 | h_13 => omega
  case h_14 => grind [actingRow]

theorem decode_tooShort {p : Packet} (h : p.length < 12) : decode p = .error .tooShort := by
  unfold decode
  split
  · simp only [List.length_cons] at h
    omega
  · rfl

/-- The class is the high half of the header's third byte (R141). -/
theorem classField_toNat (b : Byte) : (b.extractLsb' 4 4).toNat = b.toNat / 16 := by
  rw [BitVec.extractLsb'_toNat, Nat.shiftRight_eq_div_pow, Nat.mod_eq_of_lt]
  omega

/-- Settles O5: a short packet is rejected as such, and the fixed part decodes as its fields do. -/
theorem onlyActingRowsDecode : Obligations.OnlyActingRowsDecode := by
  refine ⟨fun p h => ⟨_, decode_tooShort h⟩, fun h0 h1 h2 h3 o0 o1 o2 o3 o4 o5 o6 o7 rest h => ?_⟩
  rw [← classField_toNat]
  exact decodeFields_ok_iff h ..

/-! ### The worked encodings -/

/-- Settles O1: the assembler and the encoder are run on the five commands, and what is encoded decodes back. -/
theorem workedEncodingsMatch : Obligations.WorkedEncodingsMatch := by
  intro r hr
  have hrun : assembleLine 2 r.1.toList = some [r.2.2] ∧ encode r.2.1 = r.2.2 ∧ r.2.1.wf = true := by
    revert r
    decide +kernel
  obtain ⟨hassemble, hencode, hwf⟩ := hrun
  exact ⟨hassemble, hencode, hencode ▸ encodedPacketsDecodeBack r.2.1 hwf⟩

end Sys2Proof.Machine
end

section
/-!
PROOFS. How a command is addressed (30_encoding.md R145): every command changes its class's list of units at the places its `inst` field
names and nothing else. A number past the last, the broadcast, and the outbound rows, which address nothing, follow.
-/

namespace Sys2Proof.Machine

/-! ### The units of a class -/

/-- What the units of a class are. -/
def UnitClass.Unit : UnitClass → Type
  | .osc => Osc
  | .vca => Vca
  | .tone => Tone
  | .therm => Therm
  | .noise => Noise
  | .scope => Scope
  | .brcap => Brcap
  | .brplay => Brplay

/-- The units of a class, by number. -/
def State.units (s : State) : (cls : UnitClass) → List cls.Unit
  | .osc => s.osc
  | .vca => s.vca
  | .tone => s.tone
  | .therm => s.therm
  | .noise => s.noise
  | .scope => s.scope
  | .brcap => s.brcap
  | .brplay => s.brplay

/-- The state with the units of a class replaced. -/
def State.setUnits (s : State) : (cls : UnitClass) → List cls.Unit → State
  | .osc, l => s.setOsc l
  | .vca, l => s.setVca l
  | .tone, l => s.setTone l
  | .therm, l => s.setTherm l
  | .noise, l => s.setNoise l
  | .scope, l => s.setScope l
  | .brcap, l => s.setBrcap l
  | .brplay, l => s.setBrplay l

section
variable {cls : UnitClass}

@[simp] theorem State.units_setUnits (s : State) (l : List cls.Unit) : (s.setUnits cls l).units cls = l := by cases cls <;> rfl

@[simp] theorem State.setUnits_units (s : State) : s.setUnits cls (s.units cls) = s := by cases cls <;> rfl

@[simp] theorem State.setUnits_setUnits (s : State) (l l' : List cls.Unit) : (s.setUnits cls l).setUnits cls l' = s.setUnits cls l' := by
  cases cls <;> rfl

theorem State.length_units (s : State) : (s.units cls).length = s.ninst cls := by
  cases cls <;> exact (List.length_map _).symm

end

/-! ### The places an `inst` field names -/

/-- A number past the last unit names no place. -/
theorem onTargets_absent {α : Type} {inst : BitVec 4} {l : List α} (hone : inst ≠ 15#4) (hl : l.length ≤ inst.toNat) (f : α → α) :
    onTargets inst f l = l := by
  rw [onTargets, if_neg hone, List.modify_eq_self hl]

theorem addressed_ofNat {n : Nat} (hn : n < 15) (k : Nat) : addressed (BitVec.ofNat 4 n) k = decide (n = k) := by
  have htoNat : (BitVec.ofNat 4 n).toNat = n := by rw [BitVec.toNat_ofNat, Nat.mod_eq_of_lt (by omega)]
  have hone : BitVec.ofNat 4 n ≠ 15#4 := fun h => by simp [h] at htoNat; omega
  rw [addressed, htoNat, decide_eq_false hone, Bool.false_or]

/-- Numbers 0 to `n - 1`, each named once in turn, are the first `n` places. -/
theorem getElem?_foldl_onTargets {α : Type} (f : α → α) (l : List α) {n : Nat} (hn : n ≤ 15) (j : Nat) :
    (((List.range n).map (BitVec.ofNat 4)).foldl (fun l k => onTargets k f l) l)[j]? =
      l[j]?.map fun u => if j < n then f u else u := by
  induction n with
  | zero => simp
  | succ n ih =>
    rw [List.range_succ, List.map_append, List.foldl_append, List.map_singleton, List.foldl_cons, List.foldl_nil, getElem?_onTargets,
      ih (by omega), Option.map_map, addressed_ofNat hn]
    congr 1
    funext u
    rw [Function.comp_apply]
    by_cases hlt : j < n
    · simp [hlt, show j < n + 1 by omega, show n ≠ j by omega]
    · simp [hlt, show j < n + 1 ↔ n = j by omega]

/-- Every number of a class in turn is the broadcast. -/
theorem foldl_onTargets_range {α : Type} (f : α → α) {l : List α} (hl : l.length ≤ 15) :
    ((List.range l.length).map (BitVec.ofNat 4)).foldl (fun l k => onTargets k f l) l = onTargets 15#4 f l := by
  apply List.ext_getElem?
  intro j
  rw [getElem?_foldl_onTargets f l hl, getElem?_onTargets]
  by_cases hj : j < l.length
  · simp [hj, addressed]
  · simp [hj]

/-! ### Commands -/

theorem retarget_self {i : Instr} {cls : UnitClass} {inst : BitVec 4} (h : commandTarget i = some (cls, inst)) :
    retarget inst i = i := by
  cases i <;> cases h <;> rfl

/-- Every command, whatever its `inst` field, applies one change to the units it addresses. The change does not depend on the units of
the class: START reads SHM_AVAILABLE, and no other command reads the state. -/
theorem exec_retarget {i : Instr} {cls : UnitClass} {inst : BitVec 4} (h : commandTarget i = some (cls, inst)) :
    ∃ f : State → cls.Unit → cls.Unit,
      (∀ k s, exec (retarget k i) s = .next (s.setUnits cls (onTargets k (f s) (s.units cls)))) ∧
        ∀ s l, f (s.setUnits cls l) = f s := by
  cases i
  case captureOutbound | eventOutbound | chunkOutbound => cases h
  all_goals
    cases h
    exact ⟨_, fun _ _ => rfl, fun _ _ => rfl⟩

theorem exec_of_no_target {i : Instr} (h : commandTarget i = none) (s : State) : exec i s = .next s := by
  cases i
  case captureOutbound | eventOutbound | chunkOutbound => rfl
  all_goals cases h

/-- A command on several numbers in turn. -/
theorem execEach_eq_foldl {i : Instr} {cls : UnitClass} {f : State → cls.Unit → cls.Unit}
    (hexec : ∀ k s, exec (retarget k i) s = .next (s.setUnits cls (onTargets k (f s) (s.units cls))))
    (hf : ∀ s l, f (s.setUnits cls l) = f s) (ks : List (BitVec 4)) (s : State) :
    execEach i ks s = .next (s.setUnits cls (ks.foldl (fun l k => onTargets k (f s) l) (s.units cls))) := by
  induction ks generalizing s with
  | nil => rw [List.foldl_nil, State.setUnits_units, execEach]
  | cons k ks ih =>
    rw [execEach, hexec]
    dsimp only
    rw [ih, hf, State.units_setUnits, State.setUnits_setUnits, List.foldl_cons]

/-- Settles O7: the number names no place in the list of units, and the list is all a command changes. -/
theorem absentInstancesAreIgnored : Obligations.AbsentInstancesAreIgnored := by
  intro s i cls inst htarget hone habsent
  obtain ⟨f, hexec, -⟩ := exec_retarget htarget
  rw [← s.length_units] at habsent
  calc exec i s = exec (retarget inst i) s := by rw [retarget_self htarget]
    _ = .next (s.setUnits cls (onTargets inst (f s) (s.units cls))) := hexec inst s
    _ = .next s := by rw [onTargets_absent hone habsent, State.setUnits_units]

/-- Settles O8: both sides apply the command's one change to the list of units, at once or place by place. -/
theorem broadcastRunsEveryInstance : Obligations.BroadcastRunsEveryInstance := by
  intro s i cls htarget hcount
  obtain ⟨f, hexec, hf⟩ := exec_retarget htarget
  rw [← s.length_units] at hcount ⊢
  calc exec i s = exec (retarget 15#4 i) s := by rw [retarget_self htarget]
    _ = .next (s.setUnits cls (onTargets 15#4 (f s) (s.units cls))) := hexec 15#4 s
    _ = execEach i ((List.range (s.units cls).length).map (BitVec.ofNat 4)) s := by
      rw [execEach_eq_foldl hexec hf, foldl_onTargets_range (f s) hcount]

/-- Settles O19: the outbound rows address no class. -/
theorem outboundRowsAreIgnored : Obligations.OutboundRowsAreIgnored := by
  intro s
  exact ⟨fun _ _ _ _ _ _ _ => ⟨s, exec_of_no_target rfl s, rfl⟩, fun _ _ _ _ => ⟨s, exec_of_no_target rfl s, rfl⟩,
    fun _ _ _ => ⟨s, exec_of_no_target rfl s, rfl⟩⟩

/-- Settles O6: the step takes the packet from the queue, and neither a rejected packet nor an outbound row does more. -/
theorem rejectedPacketsChangeNothing : Obligations.RejectedPacketsChangeNothing := by
  intro s p q hc hphase hqueue hp
  rw [step_command hc hphase hqueue, applyPacket]
  obtain ⟨r, hreject⟩ | ⟨i, hdecode, htarget⟩ := hp
  · rw [hreject]
    rfl
  · rw [hdecode]
    exact exec_of_no_target htarget _

end Sys2Proof.Machine
end

section
/-!
PROOFS. The commands of 40_messages.md, each held to its rule: the shape every command has (30_encoding.md R145), then, class by class, that
the change the model makes to an addressed unit is the one the rule names.
-/

namespace Sys2Proof.Machine

/-! ### The shape of a command -/

/-- A command that changes the addressed units of one class completes with that change and leaves the rest of the block. -/
theorem completes_on (cls : UnitClass) {i : Instr} {inst : BitVec 4} {f : cls.Unit → cls.Unit} {s : State}
    (hexec : exec i s = .next (s.setUnits cls (onTargets inst f (s.units cls)))) :
    ∃ t, exec i s = .next t ∧ t = s.setUnits cls (t.units cls) ∧ AppliedTo inst f (s.units cls) (t.units cls) := by
  refine ⟨_, hexec, ?_, ?_⟩ <;> rw [State.units_setUnits]
  exact appliedTo_onTargets inst f _

/-- The same where the change is written in another form. -/
theorem completes_on_of_eq (cls : UnitClass) {i : Instr} {inst : BitVec 4} {f g : cls.Unit → cls.Unit} {s : State}
    (hexec : exec i s = .next (s.setUnits cls (onTargets inst g (s.units cls)))) (hfg : ∀ u, g u = f u) :
    ∃ t, exec i s = .next t ∧ t = s.setUnits cls (t.units cls) ∧ AppliedTo inst f (s.units cls) (t.units cls) :=
  completes_on cls (funext hfg ▸ hexec)

/-! ### Registers (R181 to R187, R200) -/

/-- Settles O9: each of the ten commands writes its own register of the addressed OSCs. -/
theorem setParamWritesOscRegister : Obligations.SetParamWritesOscRegister := by
  intro s inst v
  refine ⟨?_, ?_, ?_, ?_, ?_, ?_, ?_, ?_, ?_, ?_⟩ <;> exact completes_on .osc rfl

/-- Settles O10: each command writes its own register of the addressed units of its class. -/
theorem setParamWritesFilterRegister : Obligations.SetParamWritesFilterRegister := by
  intro s inst v
  exact ⟨completes_on .vca rfl, completes_on .vca rfl, completes_on .tone rfl, completes_on .therm rfl, completes_on .noise rfl,
    completes_on .noise rfl, completes_on .noise rfl⟩

/-- Settles O11: SETTRIGGERLEVEL and SETPARAM `pidx` 0 make one and the same change to the addressed SCOPEs. -/
theorem triggerCommandsWriteScopeRegister : Obligations.TriggerCommandsWriteScopeRegister := by
  intro s inst v
  exact ⟨completes_on .scope rfl, completes_on .scope rfl, completes_on .scope rfl, rfl⟩

/-! ### The oscillator's mode and phase (R188, R189) -/

/-- SETWAVEFORM's operand names the mode of its number, and any other than 0 to 4 names none. -/
theorem waveformOf_getD (v : U32) (mode : Waveform) :
    (waveformOf v).getD mode =
      if v = 0 then .sine else if v = 1 then .saw else if v = 2 then .tri else if v = 3 then .pulse else if v = 4 then .multi
      else mode := by
  unfold waveformOf
  split_ifs <;> rfl

/-- Settles O12: an operand that names no mode leaves the mode an OSC has. -/
theorem oscCommandsSetModeAndPhase : Obligations.OscCommandsSetModeAndPhase := by
  intro s inst v
  refine ⟨completes_on_of_eq .osc rfl fun u => ?_, completes_on .osc rfl⟩
  rw [← waveformOf_getD]
  cases waveformOf v <;> rfl

/-! ### STOP and RESYNC (R190 to R196) -/

/-- Settles O13: STOP is the change the rules name, on either kind of bridge. -/
theorem stopStopsBridge : Obligations.StopStopsBridge := by
  intro s inst
  exact ⟨completes_on .brcap rfl, completes_on .brplay rfl⟩

/-- Settles O14: every channel of a TONE gets the same state, so that their list is that state repeated. -/
theorem resyncSetsFilterState : Obligations.ResyncSetsFilterState := by
  intro s inst v
  refine ⟨completes_on .osc rfl, completes_on .vca rfl, completes_on_of_eq .tone rfl fun u => ?_, completes_on .therm rfl,
    completes_on .noise rfl⟩
  rw [List.map_const']

/-! ### SETBUFFERSIZE (R197 to R199) -/

/-- Settles O15: `clampCount` is the clamp of the rules. -/
theorem setBufferSizeClampsAndClears : Obligations.SetBufferSizeClampsAndClears := by
  intro s inst v
  exact ⟨completes_on .scope rfl, completes_on .brcap rfl, completes_on .brplay rfl⟩

/-! ### START (R201, R202) -/

theorem Link.canShare_iff (shm : Bool) (l : Link) : l.canShare shm = true ↔ shm = true ∧ l.fallbackLatched = false := by
  simp [Link.canShare]

theorem Link.start_shared {shm : Bool} {l : Link} (h : l.canShare shm = true) (ch : Nat) :
    l.start shm ch =
      { l with
        run := .running, mode := .shared, cap := l.capNext, region := some (freshRegion l.capNext ch), order := l.order.fresh } := by
  rw [Link.start, if_pos h]

theorem Link.start_fallback {shm : Bool} {l : Link} (h : l.canShare shm = false) (ch : Nat) :
    l.start shm ch =
      { l with
        run := .running, mode := .fallback, cap := l.capNext, region := none, fallbackLatched := true, order := l.order.fresh } := by
  rw [Link.start, h, if_neg Bool.false_ne_true]

theorem startEvents_shared {shm : Bool} {l : Link} (h : l.canShare shm = true) (c : Common) : startEvents shm l c = c := by
  rw [startEvents, h, Bool.true_or, if_pos rfl]

theorem startEvents_fallback {shm : Bool} {l : Link} (h : l.canShare shm = false) (c : Common) :
    startEvents shm l c = if l.fallbackLatched then c else c.count .fallback 1 := by
  rw [startEvents, h, Bool.false_or]

/-- Settles O16: START shares exactly where shared memory is available and no earlier START fell back, and only the first to
fall back is counted; the two directions differ in what else they clear. -/
theorem startOpensFreshStorage : Obligations.StartOpensFreshStorage := by
  intro s inst
  refine ⟨completes_on_of_eq .brcap rfl fun u => ?_, completes_on_of_eq .brplay rfl fun u => ?_, fun _ => rfl⟩
  all_goals
    dsimp only [Brcap.start, Brplay.start]
    simp only [← Link.canShare_iff]
    cases h : u.link.canShare s.shmAvailable
    · rw [Link.start_fallback h, startEvents_fallback h]
      rfl
    · rw [Link.start_shared h, startEvents_shared h]
      rfl

/-! ### SETDORMANT (R203 to R207) -/

/-- The dormant flag's three cases: it is set, cleared with a wake, or was clear already and the unit stays as it was. -/
theorem setDormant_cases {α : Type} (v : U32) (m : Mute) (sleep wake : Mute → α) :
    (if m.wakes (flagOf v) then wake (m.setDormant (flagOf v)) else sleep (m.setDormant (flagOf v))) =
      if v ≠ 0 then sleep { m with dormant := true }
      else if m.dormant then wake { m with dormant := false } else sleep m := by
  obtain ⟨dormant, gain⟩ := m
  by_cases hv : v = 0
  · subst hv
    cases dormant <;> rfl
  · have hflag : flagOf v = true := decide_eq_true hv
    rw [if_pos hv, hflag]
    rfl

/-- Settles O17: the three cases of the flag, with what each class resets on the wake. -/
theorem setDormantSleepsAndWakes : Obligations.SetDormantSleepsAndWakes := by
  intro s inst v
  refine ⟨completes_on_of_eq .osc rfl fun u => ?osc, completes_on_of_eq .vca rfl fun u => ?vca,
    completes_on_of_eq .tone rfl fun u => ?tone, completes_on_of_eq .noise rfl fun u => ?noise⟩
  case osc =>
    exact setDormant_cases v u.mute (fun m => { u with mute := m })
      fun m => { u with mute := m, prevSync := f0, slewSaw := f0, slewPulse := f0 }
  case vca => exact setDormant_cases v u.mute (fun m => { u with mute := m }) fun m => { u with mute := m, sInit := false }
  case tone =>
    rw [List.map_const']
    exact setDormant_cases v u.mute (fun m => { u with mute := m })
      fun m => { u with mute := m, chans := List.replicate u.chans.length ⟨f0, f0⟩ }
  case noise => exact setDormant_cases v u.mute (fun m => { u with mute := m }) fun m => { u with mute := m, filter := ⟨f0, f0⟩ }

/-! ### PUSHCHUNK (R208) -/

/-- Whether a BRPLAY takes a PUSHCHUNK: it runs in FALLBACK mode, and the payload is long enough for its channels (log 12). -/
abbrev Brplay.Accepts (n : U32) (payload : List F32) (u : Brplay) : Prop :=
  u.link.run = .running ∧ u.link.mode = .fallback ∧ n.toNat * u.cfg.ch ≤ payload.length

theorem Brplay.push_of_not_accepts {n : U32} {payload : List F32} {u : Brplay} (h : ¬ u.Accepts n payload) : u.push n payload = u := by
  rw [Brplay.push, if_neg h]

/-- The frames taken stand where the payload's layout puts them (R153), and the frames past the room are counted. -/
theorem Brplay.push_of_accepts {n : U32} {payload : List F32} {u : Brplay} (h : u.Accepts n payload) :
    u.push n payload =
      { u with
        fifo :=
          u.fifo ++
            (List.range (min n.toNat (u.link.cap - 1 - u.fifo.length))).map fun f =>
              (List.range u.cfg.ch).map fun c => payload.getD (f * u.cfg.ch + c) 0
        common := u.common.count .overflow (n.toNat - (u.link.cap - 1 - u.fifo.length)) } := by
  have ⟨_, _, hlong⟩ := h
  have htaken : min n.toNat (u.link.cap - 1 - u.fifo.length) * u.cfg.ch ≤ payload.length :=
    (Nat.mul_le_mul_right _ (Nat.min_le_left ..)).trans hlong
  have hrest : n.toNat - min n.toNat (u.link.cap - 1 - u.fifo.length) = n.toNat - (u.link.cap - 1 - u.fifo.length) := by omega
  rw [Brplay.push, if_pos h]
  dsimp only
  rw [framesOf_eq _ _ _ htaken, count_missing, hrest]

/-- Settles O18: a BRPLAY takes the packet or leaves it, by its own channel count. -/
theorem pushChunkFillsFifo : Obligations.PushChunkFillsFifo := by
  intro s inst n payload
  refine completes_on_of_eq .brplay rfl fun (u : Brplay) => ?_
  by_cases h : u.Accepts n payload
  · rw [Brplay.push_of_accepts h, if_pos h]
    rfl
  · rw [Brplay.push_of_not_accepts h, if_neg h]

end Sys2Proof.Machine
end

section
/-!
PROOFS. The state that commands own, inside a block (40_messages.md R180): a step that takes no packet makes one of the block's own moves of
70_reset_and_hazards.md R510, and none of these changes what a command sets; a bridge's storage changes in the bridges' turn alone.
-/

namespace Sys2Proof.Machine

/-! ### Steps at the boundary and inside the block -/

/-- Settles O22: the step takes the packet from the queue and applies it, and a packet that decodes is executed. -/
theorem stepRunsDecodedCommand : Obligations.StepRunsDecodedCommand := by
  intro s p q i hc hphase hqueue hdecode
  rw [step_command hc hphase hqueue, applyPacket, hdecode]
  rfl

/-- The four moves of a step that takes no packet. -/
theorem step_block_cases {s t : State} (h : step s = .next t) (hfree : s.phase ≠ .boundary ∨ s.inQueue = []) :
    (s.phase = .boundary ∧ t = beginBlock s) ∨ (∃ i, s.phase = .frame i ∧ t = frameStep i s) ∨
      (s.phase = .bridges ∧ bridgeStep s = some t) ∨ (s.phase = .endOfBlock ∧ t = endBlock s) := by
  obtain ⟨-, ⟨p, q, hp, hq, -⟩ | ⟨hp, -, ht⟩ | hframe | hbridges | hend⟩ := step_cases h
  · rcases hfree with hne | hempty
    · exact absurd hp hne
    · cases hq.symm.trans hempty
  · exact .inl ⟨hp, ht⟩
  · exact .inr (.inl hframe)
  · exact .inr (.inr (.inl hbridges))
  · exact .inr (.inr (.inr hend))

/-- Without a packet the boundary is left. -/
theorem step_leaves_boundary {s t : State} (h : step s = .next t) (hfree : s.phase ≠ .boundary ∨ s.inQueue = []) :
    s.phase = .boundary → t.phase ≠ .boundary := by
  intro hp
  rcases step_block_cases h hfree with ⟨-, rfl⟩ | ⟨i, hi, -⟩ | ⟨hb, -⟩ | ⟨he, -⟩
  · exact nofun
  · cases hp.symm.trans hi
  · cases hp.symm.trans hb
  · cases hp.symm.trans he

/-- A view of a unit that none of the block's own moves changes. -/
theorem UnitMoves.Step.keeps_in_block {α β : Type} {m : UnitMoves α} {q : Nat} {p p' : Phase} {u v : α} {g : α → β}
    (h : m.Step q p p' u v) (hp : p = .boundary → p' ≠ .boundary) (begin : ∀ u, g (m.begin u) = g u)
    (frame : ∀ i u, g (m.frame i u) = g u) (bridge : p = .bridges → m.bridge u = some v → g v = g u)
    (finish : ∀ u, g (m.finish u) = g u) : g v = g u := by
  cases h with
  | stay => exact absurd rfl (hp rfl)
  | command => exact absurd rfl (hp rfl)
  | begin => exact begin u
  | frame i => exact frame i u
  | bridge h => exact bridge rfl h
  | finish => exact finish u

/-! ### Views of the units -/

@[simp] theorem Tone.flushBlock_position (u : Tone) : u.flushBlock.position = u.position := by unfold Tone.flushBlock; split <;> rfl
@[simp] theorem Noise.flushBlock_reg (u : Noise) : u.flushBlock.reg = u.reg := by unfold Noise.flushBlock; split <;> rfl

/-! What commands alone change of a unit (R180). -/

abbrev Osc.settings (u : Osc) : OscRegs × Waveform × Bool := (u.reg, u.mode, u.mute.dormant)
abbrev Vca.settings (u : Vca) : VcaRegs × Bool := (u.reg, u.mute.dormant)
abbrev Tone.settings (u : Tone) : F64 × Bool := (u.position, u.mute.dormant)
abbrev Noise.settings (u : Noise) : NoiseRegs × Bool := (u.reg, u.mute.dormant)
abbrev Scope.settings (u : Scope) : ScopeRegs × Nat := (u.reg, u.n)
abbrev Link.lifecycle (l : Link) : RunState × Transport × Bool × Nat × Nat := (l.run, l.mode, l.fallbackLatched, l.capNext, l.cap)

/-! What the bridges' turn alone changes of a bridge (20_memory.md R100). -/

abbrev Brcap.storage (u : Brcap) : Link × Nat × List Frame × List Samples := (u.link, u.wLocal, u.staging, u.input)
abbrev Brplay.storage (u : Brplay) : Link × Nat × List Frame × Frame := (u.link, u.rLocal, u.fifo, u.lastFrame)

theorem Link.SameBut.lifecycle {l l' : Link} (h : l.SameBut l') : l'.lifecycle = l.lifecycle := by
  rw [h]

section
variable {s : State} {q : Nat} {p p' : Phase} (hp : p = .boundary → p' ≠ .boundary)
include hp

theorem Osc.step_settings {u v : Osc} (h : (Osc.moves s).Step q p p' u v) : v.settings = u.settings :=
  h.keeps_in_block (g := Osc.settings) hp (fun _ => rfl) (fun i u => by simp only [Osc.settings, oscFrame_keeps])
    (fun _ => keeps_of_some) fun _ => rfl

theorem Vca.step_settings {u v : Vca} (h : (Vca.moves s).Step q p p' u v) : v.settings = u.settings :=
  h.keeps_in_block (g := Vca.settings) hp (fun _ => rfl) (fun i u => by simp only [Vca.settings, vcaFrame_keeps])
    (fun _ => keeps_of_some) fun _ => rfl

theorem Tone.step_settings {u v : Tone} (h : (Tone.moves s).Step q p p' u v) : v.settings = u.settings :=
  h.keeps_in_block (g := Tone.settings) hp (fun _ => rfl) (fun i u => by simp only [Tone.settings, toneFrame_keeps])
    (fun _ => keeps_of_some) fun u => by simp only [Tone.settings, Tone.flushBlock_position, Tone.flushBlock_mute]

theorem Therm.step_enable {u v : Therm} (h : (Therm.moves s).Step q p p' u v) : v.enable = u.enable :=
  h.keeps_in_block (g := Therm.enable) hp (fun _ => rfl) (fun i u => by simp only [thermFrame_keeps])
    (fun _ => keeps_of_some) fun _ => rfl

theorem Noise.step_settings {u v : Noise} (h : (Noise.moves s).Step q p p' u v) : v.settings = u.settings :=
  h.keeps_in_block (g := Noise.settings) hp (fun _ => rfl) (fun _ u => by simp only [Noise.settings, noiseFrame_keeps])
    (fun _ => keeps_of_some) fun u => by simp only [Noise.settings, Noise.flushBlock_reg, Noise.flushBlock_mute]

theorem Scope.step_settings {u v : Scope} (h : (Scope.moves s).Step q p p' u v) : v.settings = u.settings :=
  h.keeps_in_block (g := Scope.settings) hp (fun _ => rfl) (fun i u => by simp only [Scope.settings, scopeFrame_keeps])
    (fun _ => keeps_of_some) fun _ => rfl

theorem Brcap.step_lifecycle {u v : Brcap} (h : (Brcap.moves s).Step q p p' u v) : v.link.lifecycle = u.link.lifecycle :=
  h.keeps_in_block (g := fun u => u.link.lifecycle) hp (fun _ => rfl) (fun _ _ => rfl)
    (fun _ hb => have ⟨_, _, _, hlink⟩ := brcapBlock_same hb; hlink.lifecycle) fun _ => rfl

theorem Brplay.step_lifecycle {u v : Brplay} (h : (Brplay.moves s).Step q p p' u v) : v.link.lifecycle = u.link.lifecycle :=
  h.keeps_in_block (g := fun u => u.link.lifecycle) hp (fun _ => rfl) (fun _ _ => rfl)
    (fun _ hb => have ⟨_, _, hlink⟩ := brplayBlock_same hb; hlink.lifecycle) fun _ => rfl

theorem Brcap.step_storage {u v : Brcap} (hne : p ≠ .bridges) (h : (Brcap.moves s).Step q p p' u v) : v.storage = u.storage :=
  h.keeps_in_block (g := Brcap.storage) hp (fun _ => rfl) (fun _ _ => rfl) (fun hb => absurd hb hne) fun _ => rfl

theorem Brplay.step_storage {u v : Brplay} (hne : p ≠ .bridges) (h : (Brplay.moves s).Step q p p' u v) : v.storage = u.storage :=
  h.keeps_in_block (g := Brplay.storage) hp (fun _ => rfl) (fun _ _ => rfl) (fun hb => absurd hb hne) fun _ => rfl

end

/-! ### The block -/

theorem step_block_shmAvailable {s t : State} (h : step s = .next t) (hfree : s.phase ≠ .boundary ∨ s.inQueue = []) :
    t.shmAvailable = s.shmAvailable := by
  rcases step_block_cases h hfree with ⟨-, rfl⟩ | ⟨i, -, rfl⟩ | ⟨-, hb⟩ | ⟨-, rfl⟩
  · rfl
  · rfl
  · rw [(bridgeStep_spec hb).1]
  · rfl

/-- The bridges' turn is of the bridges alone (R510). -/
theorem step_bridges_keeps_samples {s t : State} (h : step s = .next t) (hp : s.phase = .bridges) :
    t.osc = s.osc ∧ t.vca = s.vca ∧ t.tone = s.tone ∧ t.therm = s.therm ∧ t.noise = s.noise ∧ t.scope = s.scope := by
  obtain ⟨hb, -⟩ | ⟨i, hi, -⟩ | ⟨-, hb⟩ | ⟨he, -⟩ := step_block_cases h (.inl (by rw [hp]; exact nofun))
  · cases hp.symm.trans hb
  · cases hp.symm.trans hi
  · rw [(bridgeStep_spec hb).1]
    exact ⟨rfl, rfl, rfl, rfl, rfl, rfl⟩
  · cases hp.symm.trans he

/-- The bridges take no part in a frame (R510). -/
theorem step_frame_keeps_bridges {s t : State} {i : Nat} (h : step s = .next t) (hp : s.phase = .frame i) :
    t.brcap = s.brcap ∧ t.brplay = s.brplay := by
  obtain rfl : frameStep i s = t := Host.Outcome.next.inj ((step_frame (step_cases h).1 hp).symm.trans h)
  exact ⟨rfl, rfl⟩

/-- Settles O24: unit by unit, none of the block's own moves changes what a command sets. -/
theorem commandStateHoldsInsideBlock : Obligations.CommandStateHoldsInsideBlock := by
  intro s t h hfree
  obtain ⟨-, hu⟩ := step_units h
  have hp := step_leaves_boundary h hfree
  exact ⟨map_eq_of_forall₂ hu.osc (Osc.step_settings hp), map_eq_of_forall₂ hu.vca (Vca.step_settings hp),
    map_eq_of_forall₂ hu.tone (Tone.step_settings hp), map_eq_of_forall₂ hu.therm (Therm.step_enable hp),
    map_eq_of_forall₂ hu.noise (Noise.step_settings hp), map_eq_of_forall₂ hu.scope (Scope.step_settings hp),
    map_eq_of_forall₂ hu.brcap (Brcap.step_lifecycle hp), map_eq_of_forall₂ hu.brplay (Brplay.step_lifecycle hp),
    step_block_shmAvailable h hfree,
    fun hne => ⟨map_eq_of_forall₂ hu.brcap (Brcap.step_storage hp hne), map_eq_of_forall₂ hu.brplay (Brplay.step_storage hp hne)⟩,
    step_bridges_keeps_samples h, fun _ => step_frame_keeps_bridges h⟩

end Sys2Proof.Machine
end

section
/-!
PROOFS. A frame of an OSC (41_oscillator.md R240 to R253): the waveforms, the slew and the outputs as the rules write them, and R255's
second output, whose sign rests on the sign of the mute gain.
-/

namespace Sys2Proof.Machine

/-! ### The frame -/

theorem oscFrame_of_silent {u : Osc} (h : silent u.common u.mute) (g : BlockCfg) (i : Nat) :
    oscFrame g i u = { u with out0 := u.out0 ++ [0], out1 := u.out1 ++ [0] } := by
  rw [oscFrame, (silent_iff _ _).2 h]
  rfl

theorem oscFrame_of_not_silent {u : Osc} (h : ¬ silent u.common u.mute) (g : BlockCfg) (i : Nat) :
    oscFrame g i u = oscProcess g i u := by
  rw [oscFrame, if_pos ((processed_iff _ _).2 h)]

/-- A step in a frame makes that frame of every OSC. -/
theorem step_frame_osc {s : State} {i k : Nat} {u : Osc} (hc : s.configOk = true) (hp : s.phase = .frame i)
    (hu : s.osc[k]? = some u) : step s = .next (frameStep i s) ∧ (frameStep i s).osc[k]? = some (oscFrame s.cfg i u) :=
  ⟨step_frame hc hp, getElem?_map_of hu⟩

/-! ### The sync input (R243) -/

theorem syncEdge_iff (prev cur : F64) : syncEdge prev cur = true ↔ fle prev f0 = true ∧ flt f0 cur = true := by
  rw [syncEdge, Bool.and_eq_true]

theorem portSample_nil (i : Nat) : portSample [] i = f0 := by
  have : sample 0 = f0 := by decide
  exact this

/-- An unconnected input and a sample that is not finite read as +0, which is not above 0. -/
theorem portSample_not_above_zero {a : Samples} {i : Nat} (h : a = [] ∨ isFinite32 (port a i) = false) :
    flt f0 (portSample a i) = false := by
  have hzero : portSample a i = f0 := by
    rcases h with rfl | hx
    · exact portSample_nil i
    · exact sample_of_not_finite hx
  rw [hzero]
  decide

/-! ### The residual (R244) -/

/-- Just after the wrap. -/
theorem blep_of_lt {t dt : F64} (h : flt t dt = true) :
    blep t dt = fsub (fsub (fadd (fdiv t dt) (fdiv t dt)) (fmul (fdiv t dt) (fdiv t dt))) f1 := by
  rw [blep, if_pos h]

/-- Just before the wrap. -/
theorem blep_of_gt {t dt : F64} (h : flt t dt = false) (h' : flt (fsub f1 dt) t = true) :
    blep t dt =
      fadd (fadd (fmul (fdiv (fsub t f1) dt) (fdiv (fsub t f1) dt)) (fadd (fdiv (fsub t f1) dt) (fdiv (fsub t f1) dt))) f1 := by
  rw [blep, if_neg (by simp [h]), if_pos h']

theorem blep_of_between {t dt : F64} (h : flt t dt = false) (h' : flt (fsub f1 dt) t = false) : blep t dt = f0 := by
  rw [blep, if_neg (by simp [h]), if_neg (by simp [h'])]

/-! ### The hybrid sine (R246) -/

/-- The hybrid sine is its quotient, unless that is not in [-1, 1]. -/
theorem hybridSine_spec (k t : F64) :
    fle fNeg1 (hybridSine k t) = true ∧ fle (hybridSine k t) f1 = true ∧
      (hybridSine k t = fdiv (fTanh (fmul k (triWave t))) (fTanh k) ∨
        fle fNeg1 (fdiv (fTanh (fmul k (triWave t))) (fTanh k)) = false ∨
        fle (fdiv (fTanh (fmul k (triWave t))) (fTanh k)) f1 = false) := by
  obtain ⟨hlo, hhi⟩ := Bool.and_eq_true_iff.1 (hybridSine_inRange k t)
  refine ⟨hlo, hhi, ?_⟩
  cases hq : hybridInRange (fdiv (fTanh (fmul k (triWave t))) (fTanh k))
  · exact .inr (Bool.and_eq_false_iff.1 hq)
  · exact .inl (hybridSine_eq_quotient hq)

/-! ### The outputs (R242) -/

theorem oscMix_fst (mode : Waveform) (l : OscLatch) (sine saw tri pulse : F64) :
    (oscMix mode l sine saw tri pulse).1 =
      match mode with
      | .sine => fmul l.sineLevel sine
      | .saw => fmul l.sawLevel saw
      | .tri => fmul l.triLevel tri
      | .pulse => fmul l.pulseLevel pulse
      | .multi => fadd (fmul l.sineLevel sine) (fmul l.sawLevel saw) := by
  cases mode <;> rfl

theorem oscMix_snd (mode : Waveform) (l : OscLatch) (sine saw tri pulse : F64) :
    (oscMix mode l sine saw tri pulse).2 =
      if mode = .multi then fadd (fmul l.triLevel tri) (fmul l.pulseLevel pulse) else f0 := by
  cases mode <;> rfl

/-- Settles O37: a frame that is not silent is `oscProcess`, whose waveforms, slews and mix are the rules' formulas, operation by
operation; the hybrid sine is its quotient where that is in range. -/
theorem oscFrameFollowsPhase : Obligations.OscFrameFollowsPhase := by
  refine ⟨?frame, ?residual, ?saw, ?pulse, ?triangle, ?sine, ?coefficient, ?slew, ?twoPi⟩
  case frame =>
    intro s i k u hc hp hu hrun
    obtain ⟨hstep, hget⟩ := step_frame_osc hc hp hu
    rw [oscFrame_of_not_silent hrun] at hget
    refine ⟨_, _, _, _, hstep, hget, rfl, ?_, portSample_not_above_zero⟩
    rintro t0 dt ht rfl
    simp only [← syncEdge_iff] at ht
    subst ht
    refine ⟨rfl, rfl, rfl, ?_⟩
    rintro _ _ _ _ rfl rfl rfl rfl
    exact ⟨congrArg (fun mix => fround (fmul mix _)) (oscMix_fst ..), congrArg (fun mix => fround (fmul mix _)) (oscMix_snd ..)⟩
  case residual =>
    intro t dt x
    refine ⟨?_, ?_, blep_of_between⟩
    · rintro h rfl
      exact blep_of_lt h
    · rintro h h' rfl
      exact blep_of_gt h h'
  case saw => exact fun _ _ => rfl
  case pulse =>
    rintro t dt pw _ _ rfl rfl
    rfl
  case triangle => exact fun _ => rfl
  case sine =>
    rintro c t s p _ _ _ _ _ rfl rfl rfl rfl rfl
    exact ⟨hybridSine c.hybridK (remap t s), rfl, hybridSine_spec c.hybridK (remap t s)⟩
  case coefficient => exact fun _ _ => rfl
  case slew => exact fun _ _ _ => rfl
  case twoPi => decide

/-! ### The sign of the mute gain (R512) -/

theorem fsub_eq_fadd {a b : F64} (ha : isFinite a = true) (hb : isFinite b = true) : fsub a b = fadd a (fneg b) := by
  simp [fsub, not_nan_of_finite ha, not_nan_of_finite hb]

/-- A sum at or above 0 is negative only as the -0 of two negative terms. -/
theorem isNeg_fadd {a b : F64} (ha : isFinite a = true) (hb : isFinite b = true) (hsum : 0 ≤ valueOf a + valueOf b)
    (hsign : isNeg a = false ∨ isNeg b = false) : isNeg (fadd a b) = false := by
  rw [fadd_finite ha hb]
  split
  · rw [isNeg_pack (by norm_num), Bool.and_eq_false_iff]
    exact hsign
  · rw [isNeg_round, decide_eq_false_iff_not]
    exact not_lt.2 hsum

/-- A sum below 0 does not round to 0. -/
theorem roundKey_neg {v : Int} (h : v < 0) : roundKey v < 0 := by
  have hunit : roundKey (-1) = -1 := by decide
  have hle : roundKey v ≤ roundKey (-1) := roundKey_mono (by omega)
  omega

/-- A step down from a gain above 0: the difference is negative, and the ramp stops at +0, or it is not, and then it is not -0. -/
theorem isNeg_step_down {g d : F64} (gfin : isFinite g = true) (dfin : isFinite d = true) (hg : flt f0 g = true) :
    isNeg (fmax (fsub g d) f0) = false := by
  have zneg : isNeg f0 = false := by decide
  obtain ⟨hnan, hkey⟩ := fsub_finite gfin dfin
  by_cases hlt : valueOf g - valueOf d < 0
  · have hbelow : flt (fsub g d) f0 = true := (flt_iff _ _).2 ⟨hnan, isNaN_f0, by rw [hkey, ordKey_f0]; exact roundKey_neg hlt⟩
    rw [fmax, if_pos hbelow]
    exact zneg
  · have hdiff : isNeg (fsub g d) = false := by
      rw [fsub_eq_fadd gfin dfin]
      exact isNeg_fadd gfin (by rwa [isFinite_fneg]) (by rw [valueOf_fneg]; omega) (.inl (isNeg_of_pos hg))
    rcases (fmax_spec hnan isNaN_f0).1 with h | h <;> rw [h]
    · exact hdiff
    · exact zneg

/-- A step up: even from -0 the sum with +0 or more is not -0. -/
theorem isNeg_step_up {g d : F64} (gfin : isFinite g = true) (dfin : isFinite d = true) (hg : 0 ≤ ordKey g) (hd : isNeg d = false) :
    isNeg (fmin (fadd g d) f1) = false := by
  have hsum := Int.add_nonneg (valueOf_nonneg_of_key gfin hg) (valueOf_nonneg hd)
  rcases (fmin_spec (isNaN_fadd gfin dfin) isNaN_f1).1 with h | h <;> rw [h]
  · exact isNeg_fadd gfin dfin hsum (.inr hd)
  · decide

/-- The ramp of a gain that is not frozen never gives -0. -/
theorem isNeg_ramp {n : Nat} (hn : 1 ≤ n) {g : F64} (hg : unitRange g) {dormant : Bool} (hrun : dormant = true → feq g f0 = false) :
    isNeg (ramp n g dormant) = false := by
  obtain ⟨gnan, g0, g1⟩ := (unitRange_iff g).1 hg
  have gfin := isFinite_of_le_one g0 g1
  obtain ⟨dfin, dneg, -⟩ := fdiv_one (ofNat_ge_one hn)
  cases dormant with
  | true =>
    have hpos : flt f0 g = true := by
      have hne : ordKey g ≠ ordKey f0 := fun h => by simpa [hrun rfl] using (feq_iff g f0).2 ⟨gnan, isNaN_f0, h⟩
      rw [ordKey_f0] at hne
      exact (flt_iff _ _).2 ⟨isNaN_f0, gnan, by rw [ordKey_f0]; omega⟩
    rw [ramp, if_pos rfl]
    exact isNeg_step_down gfin dfin hpos
  | false =>
    rw [ramp, if_neg Bool.false_ne_true]
    exact isNeg_step_up gfin dfin g0 dneg

/-! ### The second output (R255) -/

theorem fmul_f0_left {x : F64} (hfin : isFinite x = true) (hneg : isNeg x = false) : fmul f0 x = f0 := by
  have c : isNaN f0 = false ∧ isInf f0 = false ∧ isNeg f0 = false ∧ sigOf f0 = 0 := by decide
  simp only [fmul, c, not_nan_of_finite hfin, not_inf_of_finite hfin, hneg, Bool.or_self, Bool.false_eq_true, if_false, Nat.zero_mul,
    round64_zero]
  decide

/-- In the modes 0 to 3 the second output of a processed frame is +0 times the ramped gain, which is +0. -/
theorem oscProcess_out1_of_single {u : Osc} (hmode : u.mode ≠ .multi) (hn : 1 ≤ u.cfg.rampFrames) (hgain : unitRange u.mute.gain)
    (hrun : ¬ silent u.common u.mute) (g : BlockCfg) (i : Nat) : (oscProcess g i u).out1 = u.out1 ++ [0] := by
  have hneg : isNeg (u.mute.step u.cfg.rampFrames).gain = false :=
    isNeg_ramp hn hgain fun hd => Bool.eq_false_iff.2 fun hz => hrun (.inr ⟨hd, hz⟩)
  obtain ⟨-, h0, h1⟩ := (unitRange_iff _).1 (unitRange_ramp hn hgain u.mute.dormant)
  have hmul : fmul f0 (u.mute.step u.cfg.rampFrames).gain = f0 := fmul_f0_left (isFinite_of_le_one h0 h1) hneg
  have hround : fround f0 = 0 := by decide
  simp only [oscProcess, oscMix_snd, if_neg hmode, hmul, hround]

/-- Settles O39: a silent frame appends +0, and so does a processed one in the modes 0 to 3. -/
theorem singleModesLeaveSecondOutputZero : Obligations.SingleModesLeaveSecondOutputZero := by
  rintro s i k u hc ⟨hgains, -⟩ hp hu hmode
  obtain ⟨hstep, hget⟩ := step_frame_osc hc hp hu
  have hmem := List.mem_of_getElem? hu
  refine ⟨_, _, hstep, hget, ?_⟩
  by_cases hs : silent u.common u.mute
  · rw [oscFrame_of_silent hs]
  · rw [oscFrame_of_not_silent hs]
    exact oscProcess_out1_of_single hmode ((configOk_rampFrames hc).1 u hmem) (hgains u hmem) hs s.cfg i

end Sys2Proof.Machine
end

section
/-!
PROOFS. Frames that are frozen or faulted, class by class (41_oscillator.md R241, 42_vca.md R281, 43_shelving.md R315, 45_noise.md R360,
44_thermal.md R340, 46_scope.md R393).
-/

namespace Sys2Proof.Machine

theorem vcaFrame_of_silent {u : Vca} (h : silent u.common u.mute) (g : BlockCfg) (i : Nat) :
    vcaFrame g i u = { u with out := u.out ++ [0] } := by
  rw [vcaFrame, (silent_iff _ _).2 h]
  rfl

/-- One and the same sample on every channel. -/
theorem appendSamples_const (out : List Samples) (x : F32) : (appendSamples out fun _ => x) = out.map (· ++ [x]) := by
  apply List.ext_getElem? fun c => ?_
  rw [appendSamples, List.getElem?_mapIdx, List.getElem?_map]

theorem toneFrame_of_silent {u : Tone} (h : silent u.common u.mute) (g : BlockCfg) (i : Nat) :
    toneFrame g i u = { u with out := u.out.map (· ++ [0]) } := by
  rw [toneFrame, (silent_iff _ _).2 h, ← appendSamples_const]
  rfl

theorem noiseFrame_of_silent {u : Noise} (h : silent u.common u.mute) (g : BlockCfg) :
    noiseFrame g u = { u with out := u.out ++ [0] } := by
  rw [noiseFrame, (silent_iff _ _).2 h]
  rfl

theorem thermFrame_of_faulted {u : Therm} (h : u.common.faulted = true) (g : BlockCfg) (i : Nat) :
    thermFrame g i u = { u with out := u.out ++ [0] } := by
  rw [thermFrame, if_pos h]

theorem scopeFrame_of_faulted {u : Scope} (h : u.common.faulted = true) (i : Nat) : scopeFrame i u = u := by
  rw [scopeFrame, if_pos h]

/-- Settles O36: the step makes a frame of every unit, and of a frozen or faulted one that frame appends +0 alone. -/
theorem silentFramesChangeNothing : Obligations.SilentFramesChangeNothing := by
  intro s i hc hp
  refine ⟨frameStep i s, step_frame hc hp, ?osc, ?vca, ?tone, ?noise, ?therm, ?scope⟩
  case osc => exact fun k u hu h => oscFrame_of_silent h s.cfg i ▸ getElem?_map_of hu
  case vca => exact fun k u hu h => vcaFrame_of_silent h s.cfg i ▸ getElem?_map_of hu
  case tone => exact fun k u hu h => toneFrame_of_silent h s.cfg i ▸ getElem?_map_of hu
  case noise => exact fun k u hu h => noiseFrame_of_silent h s.cfg ▸ getElem?_map_of hu
  case therm => exact fun k u hu h => thermFrame_of_faulted h s.cfg i ▸ getElem?_map_of hu
  case scope =>
    intro k u hu h
    have hget : (frameStep i s).scope[k]? = some (scopeFrame i u) := getElem?_map_of hu
    rwa [scopeFrame_of_faulted h] at hget

end Sys2Proof.Machine
end

section
/-!
PROOFS. A processed frame of a VCA (42_vca.md R280, R282 to R288): its voltage, gain and output, and the unity gain of R290.
-/

namespace Sys2Proof.Machine

/-! ### The frame -/

theorem vcaFrame_of_not_silent {u : Vca} (h : ¬ silent u.common u.mute) (g : BlockCfg) (i : Nat) :
    vcaFrame g i u = vcaProcess g i u := by
  rw [vcaFrame, if_pos ((processed_iff _ _).2 h)]

/-- A step in a frame processes that frame of every VCA that is not silent. -/
theorem step_frame_vca {s : State} {i k : Nat} {u : Vca} (hc : s.configOk = true) (hp : s.phase = .frame i)
    (hu : s.vca[k]? = some u) (hrun : ¬ silent u.common u.mute) :
    step s = .next (frameStep i s) ∧ (frameStep i s).vca[k]? = some (vcaProcess s.cfg i u) :=
  ⟨step_frame hc hp, vcaFrame_of_not_silent hrun s.cfg i ▸ getElem?_map_of hu⟩

/-- R282: the raw control voltage of a frame. -/
def Vca.voltage (u : Vca) (i : Nat) : F64 := rawVoltage u.cfg u.latch (portSample u.cv i)

/-- R284: what the smoothing filter holds after the finite voltage `v`. -/
def Vca.smoothed (g : BlockCfg) (u : Vca) (v : F64) : F64 :=
  if u.sInit then smooth (onePoleRate g.fs u.cfg.smoothTau) u.s v else v

/-- R285 to R288: the sample of a smoothed voltage `v`. -/
def Vca.sampleAt (u : Vca) (i : Nat) (v muteGain : F64) : F32 :=
  if cutoff u.cfg u.latch || feq (gainOf u.cfg (saturate u.cfg v)) f0 then 0
  else vcaOutput (portSample u.input i) (gainOf u.cfg (saturate u.cfg v)) muteGain

theorem vcaProcess_of_not_finite {u : Vca} {i : Nat} (h : isFinite (u.voltage i) = false) (g : BlockCfg) :
    vcaProcess g i u = { u with mute := u.mute.step u.cfg.rampFrames, out := u.out ++ [0] } :=
  if_neg (Bool.eq_false_iff.1 h)

theorem vcaProcess_of_finite {u : Vca} {i : Nat} (h : isFinite (u.voltage i) = true) (g : BlockCfg) :
    vcaProcess g i u =
      { u with
        mute := u.mute.step u.cfg.rampFrames, s := u.smoothed g (u.voltage i), sInit := true
        out := u.out ++ [u.sampleAt i (u.smoothed g (u.voltage i)) (u.mute.step u.cfg.rampFrames).gain] } :=
  if_pos h

/-- A filter that is not initialised, or whose coefficient is 1, snaps. -/
theorem Vca.smoothed_eq (g : BlockCfg) (u : Vca) (v : F64) :
    u.smoothed g v =
      if u.sInit = false ∨ feq (onePoleRate g.fs u.cfg.smoothTau) f1 = true then v
      else san (fadd u.s (fmul (onePoleRate g.fs u.cfg.smoothTau) (fsub v u.s))) := by
  cases hinit : u.sInit <;> simp [Vca.smoothed, smooth, hinit]

section
variable {u : Vca} {v : F64}

theorem Vca.sampleAt_of_cutoff (h : cutoff u.cfg u.latch = true) (i : Nat) (m : F64) : u.sampleAt i v m = 0 := by
  rw [Vca.sampleAt, h, Bool.true_or, if_pos rfl]

theorem Vca.sampleAt_of_no_gain (h : feq (gainOf u.cfg (saturate u.cfg v)) f0 = true) (i : Nat) (m : F64) : u.sampleAt i v m = 0 := by
  rw [Vca.sampleAt, h, Bool.or_true, if_pos rfl]

theorem Vca.sampleAt_of_gain (hcut : cutoff u.cfg u.latch = false) (h : feq (gainOf u.cfg (saturate u.cfg v)) f0 = false)
    (i : Nat) (m : F64) : u.sampleAt i v m = vcaOutput (portSample u.input i) (gainOf u.cfg (saturate u.cfg v)) m := by
  rw [Vca.sampleAt, hcut, h, Bool.or_self, if_neg Bool.false_ne_true]

end

theorem gainOf_below_threshold {c : VcaCfg} {v : F64} (h : flt (fmul v c.dbPerVolt) c.silenceDb = true) :
    feq (gainOf c v) f0 = true := by
  rw [gainOf, if_pos h]
  decide

/-- Settles O42, by whether the control voltage is finite: if not, +0 and the filter stays; if so, the filter's new voltage and the
sample of it. -/
theorem vcaFrameFollowsVoltage : Obligations.VcaFrameFollowsVoltage := by
  intro s i k u hc hp hu hrun
  obtain ⟨hstep, hget⟩ := step_frame_vca hc hp hu hrun
  cases hfin : isFinite (u.voltage i)
  case false =>
    rw [vcaProcess_of_not_finite hfin] at hget
    refine ⟨_, _, 0, hstep, hget, rfl, rfl, ?_⟩
    rintro _ _ rfl rfl
    have hnot : isFinite (u.voltage i) ≠ true := Bool.eq_false_iff.1 hfin
    exact ⟨fun _ => ⟨rfl, rfl, rfl⟩, fun h => absurd h hnot, fun _ => rfl, fun _ => rfl, fun h => absurd h hnot⟩
  case true =>
    rw [vcaProcess_of_finite hfin] at hget
    refine ⟨_, _, _, hstep, hget, rfl, rfl, ?_⟩
    rintro _ _ rfl rfl
    refine ⟨fun h => absurd hfin (Bool.eq_false_iff.1 h), fun _ => ⟨rfl, u.smoothed_eq s.cfg _⟩, ?cut, ?silence, ?processed⟩
    case cut => exact fun h => Vca.sampleAt_of_cutoff (Bool.and_eq_true_iff.2 h) i _
    case silence => exact fun h => Vca.sampleAt_of_no_gain (gainOf_below_threshold h) i _
    case processed =>
      rintro - hcut _ _ _ _ rfl rfl rfl rfl
      exact ⟨fun h => Vca.sampleAt_of_no_gain h i _, fun h => Vca.sampleAt_of_gain (Bool.and_eq_false_iff.2 hcut) h i _⟩

/-! ### Unity gain (R290) -/

theorem san_of_nan {x : F64} (h : isNaN x = true) : san x = f0 :=
  if_neg fun hfin => absurd h (Bool.eq_false_iff.1 (not_nan_of_finite hfin))

/-- A product by +0: NaN for a NaN or an infinity, else a zero. -/
theorem fmul_f0_right (x : F64) : isNaN (fmul x f0) = true ∨ isZero (fmul x f0) = true := by
  have hzero : isNaN f0 = false ∧ isInf f0 = false ∧ isZero f0 = true ∧ sigOf f0 = 0 := by decide
  have hpack : ∀ n, isZero (pack n 0) = true := by decide
  cases hnan : isNaN x <;> cases hinf : isInf x <;> simp [fmul, hzero, hnan, hinf, isNaN_nanResult, hpack, round64_zero]

/-- A filter at +0 stays there, whatever its coefficient: a product by +0 is a zero or a NaN, and `san` stops the NaN. -/
theorem smooth_f0 (beta : F64) : smooth beta f0 f0 = f0 := by
  have hdiff : fsub f0 f0 = f0 := by decide
  have hsum : san (fadd f0 (fmul beta f0)) = f0 := by
    rcases fmul_f0_right beta with h | h
    · refine san_of_nan ?_
      rw [fadd, h, Bool.or_true, if_pos rfl]
      exact isNaN_nanResult ..
    · rcases zero_cases h with h | h <;> rw [h] <;> decide
  rw [smooth, hdiff, hsum, ite_self]

/-- At gain 1 and mute gain 1 a sample is output bit for bit (R288). -/
theorem vcaOutput_unity (x : F32) : vcaOutput (sample x) f1 f1 = san32 x := by
  have hfin := isFinite_sample x
  rw [vcaOutput, fmul_one hfin, fmul_one hfin, not_nan_of_finite hfin, if_neg Bool.false_ne_true]
  exact fround_widen (isFinite32_san32 x)

/-- Settles O43: the voltage is +0 and the filter holds +0, so with the default constants the gain is 1, as is the ramped mute gain. -/
theorem vcaUnityGainIsExact : Obligations.VcaUnityGainIsExact := by
  intro s i k u hc hp hu hcfg hfault hmute hdial hcv hs
  have hrun : ¬ silent u.common u.mute := by simp [silent, hfault, hmute]
  obtain ⟨hstep, hget⟩ := step_frame_vca hc hp hu hrun
  have hv : u.voltage i = f0 := by
    rw [Vca.voltage, rawVoltage, hdial, hcv, hcfg]
    decide
  have hsmooth : u.smoothed s.cfg f0 = f0 := by
    rw [Vca.smoothed]
    rcases hs with h | h
    · rw [h, if_neg Bool.false_ne_true]
    · rw [h, show (0 : F64) = f0 from rfl, smooth_f0, ite_self]
  have hcut : cutoff u.cfg u.latch = false := by
    rw [cutoff, hdial, hcfg]
    cases u.latch.cutoffEnabled <;> decide
  have hgain : gainOf u.cfg (saturate u.cfg f0) = f1 := by
    rw [hcfg]
    decide
  have hramp : (u.mute.step u.cfg.rampFrames).gain = f1 := by
    rw [hmute, hcfg]
    decide
  have hone : feq f1 f0 = false := by decide
  rw [vcaProcess_of_finite (by rw [hv]; decide)] at hget
  refine ⟨_, _, hstep, hget, ?_⟩
  rw [hv, hsmooth, hramp, Vca.sampleAt_of_gain hcut (hgain ▸ hone), hgain]
  exact congrArg (u.out ++ [·]) (vcaOutput_unity _)

end Sys2Proof.Machine
end


section
/-!
PROOFS. A processed frame of a TONE (43_shelving.md R310 to R313, R315) and its identity at position 0 and mute gain 1 (R317).
-/

namespace Sys2Proof.Machine

/-! ### The mute gain 1 (70_reset_and_hazards.md R512) -/

/-- One is the only pattern with its order key. -/
theorem eq_f1_of_ordKey {x : F64} (h : ordKey x = ordKey f1) : x = f1 := by
  obtain ⟨hneg, hmag⟩ := isNeg_of_one_le h.ge
  obtain ⟨hneg1, hmag1⟩ := isNeg_of_one_le (le_refl (ordKey f1))
  exact magOf_ext (hneg.trans hneg1.symm) (by omega)

/-- A step up from 1 is at least 1, and the ramp stops there. -/
theorem ramp_f1 {n : Nat} (hn : 1 ≤ n) : ramp n f1 false = f1 := by
  obtain ⟨dfin, dneg, -⟩ := fdiv_one (ofNat_ge_one hn)
  have dpos := valueOf_nonneg dneg
  have hfin : isFinite f1 = true := by decide
  have hle : ordKey f1 ≤ ordKey (fadd f1 (fdiv f1 (ofNat n))) := by
    rw [ordKey_fadd hfin dfin, ← roundKey_value hfin]
    exact roundKey_mono (by omega)
  rw [ramp, if_neg Bool.false_ne_true]
  exact eq_f1_of_ordKey ((fmin_spec (isNaN_fadd hfin dfin) isNaN_f1).2.trans (min_eq_right hle))

/-- A sample at mute gain 1 is output bit for bit. -/
theorem fround_fmul_sample_f1 (x : F32) : fround (fmul (sample x) f1) = san32 x := by
  rw [fmul_one (isFinite_sample x)]
  exact fround_widen (isFinite32_san32 x)

/-! ### The frame -/

theorem toneFrame_of_not_silent {u : Tone} (h : ¬ silent u.common u.mute) (g : BlockCfg) (i : Nat) :
    toneFrame g i u = toneProcess g i u := by
  rw [toneFrame, if_pos ((processed_iff _ _).2 h)]

/-- A step in a frame processes that frame of every TONE that is not silent. -/
theorem step_frame_tone {s : State} {i k : Nat} {u : Tone} (hc : s.configOk = true) (hp : s.phase = .frame i)
    (hu : s.tone[k]? = some u) (hrun : ¬ silent u.common u.mute) :
    step s = .next (frameStep i s) ∧ (frameStep i s).tone[k]? = some (toneProcess s.cfg i u) :=
  ⟨step_frame hc hp, toneFrame_of_not_silent hrun s.cfg i ▸ getElem?_map_of hu⟩

theorem toneOutput_eq_rule (g : BlockCfg) (i : Nat) (u : Tone) (c : Nat) (f : ShelfState) :
    toneOutput g i u c f = shelfRule g.fs u.cfg.tau u.latchPosition (portSample (u.input.getD c []) i) f :=
  shelfOutput_eq_rule ..

/-- At position 0 the filter is the identity, whatever its state. -/
theorem toneOutput_of_position_zero {u : Tone} (h : feq u.latchPosition f0 = true) (g : BlockCfg) (i c : Nat) (f : ShelfState) :
    toneOutput g i u c f = portSample (u.input.getD c []) i :=
  if_pos h

theorem toneProcess_chan {u : Tone} {c : Nat} {f : ShelfState} (hf : u.chans[c]? = some f) (g : BlockCfg) (i : Nat) :
    (toneProcess g i u).chans[c]? = some ⟨portSample (u.input.getD c []) i, toneOutput g i u c f⟩ := by
  rw [toneProcess, List.getElem?_mapIdx, hf]
  rfl

/-- A channel's output array grows by its filter output at the ramped gain. A channel without a state counts as one at +0. -/
theorem toneProcess_out {u : Tone} {c : Nat} {a : Samples} (ha : u.out[c]? = some a) (g : BlockCfg) (i : Nat) :
    (toneProcess g i u).out[c]? =
      some (a ++ [fround (fmul (toneOutput g i u c (u.chans.getD c ⟨f0, f0⟩)) (toneProcess g i u).mute.gain)]) := by
  rw [toneProcess, appendSamples, List.getElem?_mapIdx, ha]
  rfl

/-- At mute gain 1 a processed frame of an awake TONE ramps nowhere. -/
theorem toneProcess_mute_of_one {u : Tone} (hn : 1 ≤ u.cfg.rampFrames) (h : u.mute = ⟨false, f1⟩) (g : BlockCfg) (i : Nat) :
    (toneProcess g i u).mute = u.mute := by
  rw [toneProcess, Mute.step, h, ramp_f1 hn]

/-- Settles O44: channel by channel the filter output is the rule of R310 to R313, which at position 0 is the identity; mute gain 1
stays 1 and changes no sample. -/
theorem toneFrameFiltersChannels : Obligations.ToneFrameFiltersChannels := by
  intro s i k u hc hp hu hrun
  obtain ⟨hstep, hget⟩ := step_frame_tone hc hp hu hrun
  refine ⟨_, _, hstep, hget, rfl, List.length_mapIdx, appendSamples_length .., ?filter, ?identity⟩
  case filter =>
    intro c f hf
    refine ⟨_, rfl, toneOutput_eq_rule s.cfg i u c f ▸ toneProcess_chan hf s.cfg i, fun a ha => ?_⟩
    rw [toneProcess_out ha, List.getD_eq_getElem?_getD, hf, Option.getD_some, toneOutput_eq_rule]
  case identity =>
    intro hmute hzero
    have hkeep := toneProcess_mute_of_one ((configOk_rampFrames hc).2.2.1 u (List.mem_of_getElem? hu)) hmute s.cfg i
    refine ⟨hkeep, fun c a ha => ?_, fun c f hf => ?_⟩
    · rw [toneProcess_out ha, hkeep, hmute, toneOutput_of_position_zero hzero, portSample, fround_fmul_sample_f1]
    · rw [toneProcess_chan hf, toneOutput_of_position_zero hzero]

end Sys2Proof.Machine
end

section
/-!
PROOFS. The end of a block, unit by unit (43_shelving.md R314, 70_reset_and_hazards.md R510).
-/

namespace Sys2Proof.Machine

/-- The flush changes the channels of an unfaulted TONE, and nothing else. -/
theorem Tone.flushBlock_eq (u : Tone) :
    u.flushBlock =
      { u with chans := if u.common.faulted then u.chans else u.chans.map (ShelfState.flushed u.cfg.denorm) } := by
  unfold Tone.flushBlock
  split <;> rfl

/-- The flush changes the filter of an unfaulted NOISE, and nothing else. -/
theorem Noise.flushBlock_eq (u : Noise) :
    u.flushBlock = { u with filter := if u.common.faulted then u.filter else u.filter.flushed u.cfg.denorm } := by
  unfold Noise.flushBlock
  split <;> rfl

/-- Settles O47: every unit of the next state is the end of the block's change of the unit of its number, which but for the common
state and the block's lists is the flush. -/
theorem endOfBlockFlushesFilters : Obligations.EndOfBlockFlushesFilters := by
  intro s hc hp
  refine ⟨endBlock s, step_end hc hp, ?tone, ?noise, ?osc, ?vca, ?therm, ?scope, ?brcap, ?brplay⟩
  case tone =>
    intro k u hu
    have hget : (endBlock s).tone[k]? = some { u.flushBlock with common := settled s u.common } := getElem?_map_of hu
    rw [Tone.flushBlock_eq] at hget
    exact ⟨settled s u.common, hget⟩
  case noise =>
    intro k u hu
    have hget : (endBlock s).noise[k]? = some { u.flushBlock with common := settled s u.common } := getElem?_map_of hu
    rw [Noise.flushBlock_eq] at hget
    exact ⟨settled s u.common, hget⟩
  case osc | vca | therm | scope | brcap | brplay => exact fun k u hu => ⟨settled s u.common, getElem?_map_of hu⟩

end Sys2Proof.Machine
end

section
/-!
PROOFS. A frame of an unfaulted THERM (44_thermal.md R340 to R342).
-/

namespace Sys2Proof.Machine

/-! ### The slew (R340, R341) -/

/-- A difference the threshold is not below, equality included, snaps to the input. -/
theorem thermNext_of_near {c : ThermCfg} {cur x : F64} (h : flt c.threshold (fabs (fsub x cur)) = false) (g : BlockCfg) :
    thermNext g c cur x = x :=
  if_neg (Bool.eq_false_iff.1 h)

/-- R341: the rate of a slewing step is that of the time constant which the difference's sign selects. -/
theorem thermNext_of_far {c : ThermCfg} {cur x : F64} (h : flt c.threshold (fabs (fsub x cur)) = true) (g : BlockCfg) :
    thermNext g c cur x =
      fadd cur (fmul (thermRate g.fs (if flt f0 (fsub x cur) = true then c.tauHeat else c.tauCool)) (fsub x cur)) := by
  rw [apply_ite (thermRate g.fs)]
  exact if_pos h

/-! ### The frame -/

/-- A sample that no operation touched is output bit for bit. -/
theorem fround_portSample (a : Samples) (i : Nat) : fround (portSample a i) = san32 (port a i) :=
  fround_widen (isFinite32_san32 _)

theorem thermFrame_of_bypassed {u : Therm} (hrun : u.common.faulted = false) (h : u.latchEnable = false) (g : BlockCfg) (i : Nat) :
    thermFrame g i u = { u with out := u.out ++ [fround (portSample u.input i)] } := by
  simp [thermFrame, hrun, h]

theorem thermFrame_of_enabled {u : Therm} (hrun : u.common.faulted = false) (h : u.latchEnable = true) (g : BlockCfg) (i : Nat) :
    thermFrame g i u =
      { u with
        cur := thermNext g u.cfg u.cur (portSample u.input i)
        out := u.out ++ [fround (thermNext g u.cfg u.cur (portSample u.input i))] } := by
  simp [thermFrame, hrun, h]

theorem step_frame_therm {s : State} {i k : Nat} {u : Therm} (hc : s.configOk = true) (hp : s.phase = .frame i)
    (hu : s.therm[k]? = some u) : step s = .next (frameStep i s) ∧ (frameStep i s).therm[k]? = some (thermFrame s.cfg i u) :=
  ⟨step_frame hc hp, getElem?_map_of hu⟩

/-- Settles O45, by the latched enable: off, the frame changes the output only; on, the next `cur` is that of the snap or of the slew,
and it is what is output. -/
theorem thermalFrameSlewsOrSnaps : Obligations.ThermalFrameSlewsOrSnaps := by
  intro s i k u hc hp hu hrun
  obtain ⟨hstep, hget⟩ := step_frame_therm hc hp hu
  rcases Bool.dichotomy u.latchEnable with hon | hon
  case inl =>
    rw [thermFrame_of_bypassed hrun hon, fround_portSample] at hget
    exact ⟨_, _, hstep, hget, rfl, fun _ => ⟨rfl, rfl⟩, fun h => absurd (hon.symm.trans h) Bool.false_ne_true⟩
  case inr =>
    rw [thermFrame_of_enabled hrun hon] at hget
    refine ⟨_, _, hstep, hget, rfl, fun h => absurd (h.symm.trans hon) Bool.false_ne_true, fun _ => ⟨rfl, ?_⟩⟩
    rintro _ _ rfl rfl
    refine ⟨fun hnear => ?snap, ?slew⟩
    case snap =>
      rw [thermNext_of_near hnear, fround_portSample]
      exact ⟨rfl, rfl⟩
    case slew =>
      rintro hfar _ rfl
      exact thermNext_of_far hfar s.cfg

end Sys2Proof.Machine
end

section
/-!
PROOFS. A processed frame of a NOISE (45_noise.md R360 to R364).
-/

namespace Sys2Proof.Machine

/-! ### The draw (R361) -/

/-- The range R361 gives a draw. -/
def drawRange (w : F64) : Prop := isFinite w = true ∧ fle fNeg1 w = true ∧ flt w f1 = true

theorem drawValue_of_inRange {w : F64} (h : drawRange w) : drawValue w = w := by
  obtain ⟨hfin, hlo, hhi⟩ := h
  rw [drawValue, hfin, hlo, hhi]
  rfl

/-- A value outside the range is replaced by +0, which lies in it. -/
theorem drawValue_inRange (w : F64) : drawRange (drawValue w) := by
  have hzero : drawRange f0 := by
    unfold drawRange
    decide
  unfold drawValue
  split
  case isTrue h =>
    obtain ⟨⟨hfin, hlo⟩, hhi⟩ := by simpa only [Bool.and_eq_true] using h
    exact ⟨hfin, hlo, hhi⟩
  case isFalse => exact hzero

theorem Noise.draw_inRange (u : Noise) : drawRange u.draw := by
  unfold Noise.draw
  split <;> exact drawValue_inRange _

section
variable {u : Noise}

theorem Noise.draw_of_supplied {w : F64} {ws : List F64} (h : u.draws = w :: ws) : u.draw = drawValue w := by
  rw [Noise.draw, h]

theorem Noise.afterDraw_of_supplied {w : F64} {ws : List F64} (h : u.draws = w :: ws) : u.afterDraw = { u with draws := ws } := by
  rw [Noise.afterDraw, h]

theorem Noise.afterDraw_of_none (h : u.draws = []) : u.afterDraw = { u with drawn := u.drawn + 1 } := by
  rw [Noise.afterDraw, h]

end

/-- A draw moves the two streams, and nothing else. -/
theorem Noise.afterDraw_eq (u : Noise) : u.afterDraw = { u with draws := u.afterDraw.draws, drawn := u.afterDraw.drawn } := by
  unfold Noise.afterDraw
  split <;> rfl

/-! ### The frame -/

theorem colourOutput_eq_rule (g : BlockCfg) (w : F64) (u : Noise) :
    colourOutput g w u = shelfRule g.fs u.cfg.tau u.latch.colour w u.filter :=
  shelfOutput_eq_rule ..

theorem nextBypass_eq (c : NoiseCfg) (request current : Bool) (y w : F64) :
    nextBypass c request current y w =
      if request ≠ current ∧ fle (fabs (fsub y w)) c.switchEps = true then request else current := by
  simp only [nextBypass, Bool.and_eq_true, bne_iff_ne]

/-- A processed frame reads neither stream but through its one draw. -/
theorem noiseFrame_of_not_silent {u : Noise} (h : ¬ silent u.common u.mute) (g : BlockCfg) :
    noiseFrame g u = { noiseProcess g u.draw u with draws := u.afterDraw.draws, drawn := u.afterDraw.drawn } := by
  rw [noiseFrame, if_pos ((processed_iff _ _).2 h), Noise.afterDraw_eq]
  rfl

/-- A step in a frame processes that frame of every NOISE that is not silent. -/
theorem step_frame_noise {s : State} {i k : Nat} {u : Noise} (hc : s.configOk = true) (hp : s.phase = .frame i)
    (hu : s.noise[k]? = some u) (hrun : ¬ silent u.common u.mute) :
    step s = .next (frameStep i s) ∧ (frameStep i s).noise[k]? =
      some { noiseProcess s.cfg u.draw u with draws := u.afterDraw.draws, drawn := u.afterDraw.drawn } :=
  ⟨step_frame hc hp, noiseFrame_of_not_silent hrun s.cfg ▸ getElem?_map_of hu⟩

/-- Settles O46: the frame stores its draw, whose range `drawValue` imposes, and the rule's filter output of it; the bypass and the
sample follow from the two, and the draw moves its streams only. -/
theorem noiseFrameTakesOneDraw : Obligations.NoiseFrameTakesOneDraw := by
  intro s i k u hc hp hu hrun
  obtain ⟨hstep, hget⟩ := step_frame_noise hc hp hu hrun
  obtain ⟨hfin, hlo, hhi⟩ := u.draw_inRange
  refine ⟨_, _, hstep, hget, hfin, hlo, hhi, ?supplied, ?free, colourOutput_eq_rule .., nextBypass_eq .., rfl⟩
  case supplied =>
    intro w ws hdraws
    rw [Noise.afterDraw_of_supplied hdraws]
    exact ⟨rfl, rfl, fun hwfin hwlo hwhi => (Noise.draw_of_supplied hdraws).trans (drawValue_of_inRange ⟨hwfin, hwlo, hwhi⟩)⟩
  case free =>
    intro hdraws
    rw [Noise.afterDraw_of_none hdraws]
    exact ⟨hdraws, rfl⟩

end Sys2Proof.Machine
end

section
/-!
PROOFS. The SCOPE's trigger search and its choice among the candidates (46_scope.md R385 to R388): what is true of the candidates when
every transition below an index has been scanned, and the prediction and the nearest candidate.
-/

namespace Sys2Proof.Machine

/-! ### The search (R385, R386) -/

section
variable {yv : Samples} {lev : F64} {h : Nat}

theorem risingEdge_iff (yv : Samples) (lev : F64) (j : Nat) :
    risingEdge yv lev j = true ↔ flt (widen (yv.getD (j - 1) 0)) lev = true ∧ fle lev (widen (yv.getD j 0)) = true :=
  Bool.and_eq_true_iff

theorem scanAt_accept {r : Search} {j : Nat} (hready : r.holdoff - 1 = 0) (hedge : risingEdge yv lev j = true) :
    scanAt yv lev h r j = ⟨max 1 h, r.found ++ [j]⟩ :=
  if_pos ⟨hready, hedge⟩

theorem scanAt_reject {r : Search} {j : Nat} (hrej : ¬ (r.holdoff - 1 = 0 ∧ risingEdge yv lev j = true)) :
    scanAt yv lev h r j = ⟨r.holdoff - 1, r.found⟩ :=
  if_neg hrej

/-- The search when the transitions from 1 up to, not including, `k` are scanned: `r.holdoff - 1`, the countdown that the edge test at
`k` will see, is the distance left until the last candidate is `max 1 h` back. -/
structure ScannedBelow (yv : Samples) (lev : F64) (h k : Nat) (r : Search) : Prop where
  before : ∀ a ∈ r.found, a < k
  spaced : r.found.Pairwise (fun a b => a + max 1 h ≤ b)
  countdown_covers : ∀ a ∈ r.found, a + max 1 h ≤ k + (r.holdoff - 1)
  countdown_source : r.holdoff - 1 ≠ 0 → ∃ a ∈ r.found, k + (r.holdoff - 1) ≤ a + max 1 h
  edges : ∀ j, 1 ≤ j → j < k → risingEdge yv lev j = true → j ∈ r.found ∨ ∃ a ∈ r.found, a < j ∧ j < a + max 1 h

theorem ScannedBelow.start : ScannedBelow yv lev h 1 ⟨0, []⟩ where
  before := nofun
  spaced := .nil
  countdown_covers := nofun
  countdown_source hne := absurd rfl hne
  edges j h1 hlt := by omega

theorem ScannedBelow.accept {k : Nat} {r : Search} (hr : ScannedBelow yv lev h k r) (hready : r.holdoff - 1 = 0) :
    ScannedBelow yv lev h (k + 1) ⟨max 1 h, r.found ++ [k]⟩ where
  before a ha := by
    rcases List.mem_append.1 ha with ha | ha
    · exact Nat.lt_succ_of_lt (hr.before a ha)
    · exact List.mem_singleton.1 ha ▸ Nat.lt_succ_self k
  spaced := by
    refine List.pairwise_append.2 ⟨hr.spaced, List.pairwise_singleton .., fun a ha b hb => ?_⟩
    have hcover := hr.countdown_covers a ha
    rw [List.mem_singleton.1 hb]
    omega
  countdown_covers a ha := by
    have hle : a ≤ k := by
      rcases List.mem_append.1 ha with ha | ha
      · exact Nat.le_of_lt (hr.before a ha)
      · exact Nat.le_of_eq (List.mem_singleton.1 ha)
    dsimp only
    omega
  countdown_source _ := by
    refine ⟨k, List.mem_append_right _ (List.mem_singleton_self k), ?_⟩
    dsimp only
    omega
  edges j h1 hlt hedge := by
    rcases Nat.lt_succ_iff_lt_or_eq.1 hlt with hlt | rfl
    · rcases hr.edges j h1 hlt hedge with hmem | ⟨a, ha, hnear⟩
      · exact .inl (List.mem_append_left _ hmem)
      · exact .inr ⟨a, List.mem_append_left _ ha, hnear⟩
    · exact .inl (List.mem_append_right _ (List.mem_singleton_self j))

theorem ScannedBelow.reject {k : Nat} {r : Search} (hr : ScannedBelow yv lev h k r)
    (hrej : ¬ (r.holdoff - 1 = 0 ∧ risingEdge yv lev k = true)) :
    ScannedBelow yv lev h (k + 1) ⟨r.holdoff - 1, r.found⟩ where
  before a ha := Nat.lt_succ_of_lt (hr.before a ha)
  spaced := hr.spaced
  countdown_covers a ha := by
    have hcover := hr.countdown_covers a ha
    dsimp only
    omega
  countdown_source hne := by
    dsimp only at hne
    obtain ⟨a, ha, hsource⟩ := hr.countdown_source (by omega)
    refine ⟨a, ha, ?_⟩
    dsimp only
    omega
  edges j h1 hlt hedge := by
    rcases Nat.lt_succ_iff_lt_or_eq.1 hlt with hlt | rfl
    · exact hr.edges j h1 hlt hedge
    · have hne : r.holdoff - 1 ≠ 0 := fun hready => hrej ⟨hready, hedge⟩
      obtain ⟨a, ha, hsource⟩ := hr.countdown_source hne
      exact .inr ⟨a, ha, hr.before a ha, by omega⟩

theorem ScannedBelow.next {k : Nat} {r : Search} (hr : ScannedBelow yv lev h k r) :
    ScannedBelow yv lev h (k + 1) (scanAt yv lev h r k) := by
  by_cases hacc : r.holdoff - 1 = 0 ∧ risingEdge yv lev k = true
  · exact scanAt_accept hacc.1 hacc.2 ▸ hr.accept hacc.1
  · exact scanAt_reject hacc ▸ hr.reject hacc

theorem scan_scannedBelow (yv : Samples) (lev : F64) (h k : Nat) :
    ScannedBelow yv lev h (1 + k) ((List.range' 1 k).foldl (scanAt yv lev h) ⟨0, []⟩) := by
  induction k with
  | zero => exact .start
  | succ k ih =>
    rw [List.range'_1_concat, List.foldl_append]
    exact ih.next

end

theorem searchTriggers_scannedBelow (yv : Samples) (lev : F64) (h n l : Nat) :
    ScannedBelow yv lev h (1 + (l - n)) (searchTriggers yv lev h n l) :=
  scan_scannedBelow ..

/-- Every candidate's window of `n` samples is buffered. -/
theorem searchTriggers_window {yv : Samples} {lev : F64} {h n l j : Nat} (hj : j ∈ (searchTriggers yv lev h n l).found) :
    1 ≤ j ∧ j + n ≤ l := by
  obtain ⟨h1, hlt, -⟩ := (searchTriggers_found yv lev h n l).1 j hj
  omega

/-- Settles O50: the search keeps `ScannedBelow` transition by transition. -/
theorem triggerSearchIsGreedy : Obligations.TriggerSearchIsGreedy := by
  intro yv lev h n l
  have hscan := searchTriggers_scannedBelow yv lev h n l
  refine ⟨fun j hj => ?_, hscan.spaced, fun j h1 hjl hlo hhi => ?_⟩
  · obtain ⟨h1, hjl⟩ := searchTriggers_window hj
    exact ⟨h1, hjl, (risingEdge_iff ..).1 ((searchTriggers_found yv lev h n l).1 j hj).2.2⟩
  · exact hscan.edges j h1 (by omega) ((risingEdge_iff ..).2 ⟨hlo, hhi⟩)

/-! ### The choice (R387, R388) -/

theorem le_ceilDiv_mul (d : Int) {p : Nat} (hp : 1 ≤ p) : d ≤ ceilDiv d p * p := by
  have hmod := Int.emod_nonneg (-d) (b := p) (by omega)
  have hdiv := Int.mul_ediv_add_emod (-d) p
  unfold ceilDiv
  linarith

theorem ceilDiv_sub_one_mul_lt (d : Int) {p : Nat} (hp : 1 ≤ p) : (ceilDiv d p - 1) * p < d := by
  have hmod := Int.emod_lt_of_pos (-d) (b := p) (by omega)
  have hdiv := Int.mul_ediv_add_emod (-d) p
  unfold ceilDiv
  linarith

/-- `max 1 ⌈d / p⌉` is the least multiplier of at least 1 whose multiple of `p` is not below `d`. -/
theorem max_one_ceilDiv_spec (d : Int) {p : Nat} (hp : 1 ≤ p) :
    d ≤ max 1 (ceilDiv d p) * p ∧ (max 1 (ceilDiv d p) = 1 ∨ (max 1 (ceilDiv d p) - 1) * p < d) := by
  constructor
  · calc d ≤ ceilDiv d p * p := le_ceilDiv_mul d hp
      _ ≤ max 1 (ceilDiv d p) * p := Int.mul_le_mul_of_nonneg_right (le_max_right ..) (by omega)
  · rcases max_choice 1 (ceilDiv d p) with hone | hceil
    · exact .inl hone
    · rw [hceil]
      exact .inr (ceilDiv_sub_one_mul_lt d hp)

/-- Of rising candidates, `nearest` is no farther from the prediction than any, and the earliest of those as near. -/
theorem nearest_spec (a0 pred : Int) {j : Nat} {js : List Nat} (hrise : (j :: js).Pairwise (· < ·)) :
    ∀ x ∈ j :: js,
      (a0 + nearest a0 pred j js - pred).natAbs ≤ (a0 + x - pred).natAbs ∧
        ((a0 + x - pred).natAbs = (a0 + nearest a0 pred j js - pred).natAbs → nearest a0 pred j js ≤ x) := by
  induction js generalizing j with
  | nil =>
    intro x hx
    obtain rfl := List.mem_singleton.1 hx
    exact ⟨Nat.le_refl _, fun _ => Nat.le_refl _⟩
  | cons k ks ih =>
    obtain ⟨hj, hks⟩ := List.pairwise_cons.1 hrise
    rw [nearest]
    split
    case isTrue hcloser =>
      have hk := ih hks
      refine List.forall_mem_cons.2 ⟨?_, hk⟩
      have hbest := (hk k List.mem_cons_self).1
      exact ⟨by omega, fun heq => by omega⟩
    case isFalse hfarther =>
      have hbest := ih (j := j) (List.pairwise_cons.2 ⟨fun x hx => hj x (List.mem_cons_of_mem k hx), (List.pairwise_cons.1 hks).2⟩)
      obtain ⟨hfirst, hrest⟩ := List.forall_mem_cons.1 hbest
      refine List.forall_mem_cons.2 ⟨hfirst, List.forall_mem_cons.2 ⟨?_, hrest⟩⟩
      have hjk := hj k List.mem_cons_self
      exact ⟨by omega, fun heq => Nat.le_of_lt (Nat.lt_of_le_of_lt (hfirst.2 (by omega)) hjk)⟩

theorem chooseTrigger_of_none (a0 : Int) {anchor : Option U64} {period : Option Nat} (h : anchor = none ∨ period = none) (j : Nat)
    (js : List Nat) : chooseTrigger a0 anchor period j js = j := by
  rcases h with rfl | rfl
  · rfl
  · cases anchor <;> rfl

/-- Settles O51: with an anchor and a period the multiplier is that of `predicted`, and the choice is `nearest`. -/
theorem triggerChoiceFollowsAnchor : Obligations.TriggerChoiceFollowsAnchor := by
  intro a0 anchor period j js hrise
  refine ⟨chooseTrigger_mem .., fun hnone => chooseTrigger_of_none a0 hnone j js, ?_⟩
  rintro a p rfl rfl hp
  obtain ⟨hpast, hleast⟩ := max_one_ceilDiv_spec (a0 + j - a.toNat) hp
  exact ⟨_, le_max_left .., by omega, hleast.imp_right fun hlt => by omega, nearest_spec a0 (predicted a0 j a p) hrise⟩

end Sys2Proof.Machine
end

section
/-!
PROOFS. The SCOPE's capture (46_scope.md R381, R384, R387 to R392): its decision by the number of candidates and its window of the
buffered views; then the frame that writes the ring and captures (R380, R393, R395), and what it does not depend on (R394).
-/

namespace Sys2Proof.Machine

/-! ### The window (R390) -/

/-- The window of a candidate whose `n` samples are buffered: sample `k` of the view's, held at the last valid one. -/
theorem extractWindow_getElem? {n start valid : Nat} {view : Samples} (hview : start + n ≤ view.length) {k : Nat}
    (hk : k < n) :
    (extractWindow n start valid view)[k]? = view[start + min k (valid - 1)]? := by
  have hmin : (if k < valid then k else valid - 1) = min k (valid - 1) := by split <;> omega
  have hin : start + min k (valid - 1) < view.length := by omega
  simp [extractWindow, hk, hmin, hin]

/-- The window of the last `n` samples of a view, all of them valid. -/
theorem extractWindow_last {n start : Nat} {view : Samples} (hview : start + n = view.length) :
    extractWindow n start n view = view.drop start := by
  refine List.ext_getElem? fun k => ?_
  rw [List.getElem?_drop]
  by_cases hk : k < n
  · rw [extractWindow_getElem? (Nat.le_of_eq hview) hk]
    congr 1
    omega
  · rw [List.getElem?_eq_none (by rw [extractWindow_length]; omega), List.getElem?_eq_none (by omega)]

/-! ### The decision (R384, R387 to R389) -/

section
variable {n l : Nat} {a0 : Int} {anchor : Option U64} {period : Option Nat}

theorem decideCapture_of_candidate (j : Nat) (js : List Nat) :
    (decideCapture n l a0 anchor period (j :: js)).triggered = true ∧
      (decideCapture n l a0 anchor period (j :: js)).start = chooseTrigger a0 anchor period j js ∧
      (decideCapture n l a0 anchor period (j :: js)).anchor =
        some (BitVec.ofInt 64 (a0 + ((decideCapture n l a0 anchor period (j :: js)).start : Nat))) := by
  cases js with
  | nil => exact ⟨rfl, (List.mem_singleton.1 (chooseTrigger_mem a0 anchor period j [])).symm, rfl⟩
  | cons j' js => exact ⟨rfl, rfl, rfl⟩

/-- The period a capture remembers plays no part in its valid count. -/
theorem decideCapture_valid_period (found : List Nat) :
    (decideCapture n l a0 anchor period found).valid = (decideCapture n l a0 anchor none found).valid :=
  match found with
  | [] | [_] | _ :: _ :: _ => rfl

theorem decideCapture_valid_range (hn : 1 ≤ n) (hl : l ≤ 2 * n) (yv : Samples) (lev : F64) (h : Nat) :
    1 ≤ (decideCapture n l a0 anchor period (searchTriggers yv lev h n l).found).valid ∧
      (decideCapture n l a0 anchor period (searchTriggers yv lev h n l).found).valid ≤ n := by
  obtain ⟨hrange, hrise⟩ := searchTriggers_found yv lev h n l
  obtain ⟨hpos, hle, -⟩ := decideCapture_ok hn hl a0 anchor none (fun j hj => ⟨(hrange j hj).1, (hrange j hj).2.1⟩) hrise nofun
  rw [decideCapture_valid_period]
  exact ⟨hpos, hle⟩

/-- R389: the valid count of two candidates or more is the greatest multiple of their first distance up to `n`. -/
theorem decideCapture_of_period {j j' : Nat} (js : List Nat) (hlt : j < j') :
    (decideCapture n l a0 anchor period (j :: j' :: js)).period = some (j' - j) ∧
      (decideCapture n l a0 anchor period (j :: j' :: js)).valid % (j' - j) = 0 ∧
      n < (decideCapture n l a0 anchor period (j :: j' :: js)).valid + (j' - j) :=
  ⟨rfl, Nat.mul_mod_left .., Nat.lt_div_mul_add (by omega)⟩

end

/-- Two candidates lie less than the window size apart: both windows are in a ring of twice that. -/
theorem searchTriggers_distance {yv : Samples} {lev : F64} {h n l j j' : Nat} {js : List Nat} (hl : l ≤ 2 * n)
    (hfound : (searchTriggers yv lev h n l).found = j :: j' :: js) : j < j' ∧ j' - j < n := by
  have hrise := (searchTriggers_found yv lev h n l).2
  rw [hfound] at hrise
  have hlt : j < j' := (List.pairwise_cons.1 hrise).1 j' List.mem_cons_self
  have hj := searchTriggers_window (hfound ▸ List.mem_cons_self : j ∈ (searchTriggers yv lev h n l).found)
  have hj' := searchTriggers_window (hfound ▸ List.mem_cons_of_mem j List.mem_cons_self : j' ∈ (searchTriggers yv lev h n l).found)
  omega

/-! ### The capture -/

/-- The candidates that a capture of `u` accepts in its Y view. -/
def Scope.candidates (u : Scope) : List Nat :=
  (searchTriggers (bufferedView u.n u.w u.filled u.bufY) u.latch.triggerLevel u.latch.hysteresis u.n u.filled).found

theorem Scope.decision_eq (u : Scope) :
    u.decision.1 = decideCapture u.n u.filled ((u.total.toNat : Int) - u.filled) u.anchor u.period u.candidates := rfl

section
variable {u : Scope}

/-- R392: without a candidate a capture forgets the trigger state. -/
theorem Scope.decision_of_no_candidate (hnone : u.candidates = []) : u.decision.1 = ⟨false, u.filled - u.n, u.n, none, none⟩ := by
  rw [u.decision_eq, hnone]
  rfl

/-- R392: the window of the last `N` samples. -/
theorem Scope.window_last (hfill : u.n ≤ u.filled) (triggered : Bool) (anchor : Option U64) (period : Option Nat) :
    u.window ⟨triggered, u.filled - u.n, u.n, anchor, period⟩ =
      { triggered := triggered, valid := u.n, n := u.n
        ys := (bufferedView u.n u.w u.filled u.bufY).drop (u.filled - u.n)
        xs := (bufferedView u.n u.w u.filled u.bufX).drop (u.filled - u.n) } := by
  have hlast (buf : Samples) : extractWindow u.n (u.filled - u.n) u.n (bufferedView u.n u.w u.filled buf) =
      (bufferedView u.n u.w u.filled buf).drop (u.filled - u.n) :=
    extractWindow_last (by rw [bufferedView_length]; omega)
  simp only [Scope.window, hlast]

theorem Scope.decision_valid_range (hn : 1 ≤ u.n) (hring : u.filled ≤ 2 * u.n) :
    1 ≤ u.decision.1.valid ∧ u.decision.1.valid ≤ u.n :=
  decideCapture_valid_range hn hring ..

theorem Scope.decision_of_candidate {j : Nat} {js : List Nat} (hfound : u.candidates = j :: js) :
    u.decision.1.triggered = true ∧
      u.decision.1.start = chooseTrigger ((u.total.toNat : Int) - u.filled) u.anchor u.period j js ∧
      u.decision.1.anchor = some (BitVec.ofInt 64 ((u.total.toNat : Int) - u.filled + (u.decision.1.start : Nat))) := by
  rw [u.decision_eq, hfound]
  exact decideCapture_of_candidate ..

theorem Scope.decision_of_period {j j' : Nat} {js : List Nat} (hfound : u.candidates = j :: j' :: js) (hlt : j < j') :
    u.decision.1.period = some (j' - j) ∧ u.decision.1.valid % (j' - j) = 0 ∧ u.n < u.decision.1.valid + (j' - j) := by
  rw [u.decision_eq, hfound]
  exact decideCapture_of_period js hlt

theorem Scope.candidate_window {j : Nat} (hj : j ∈ u.candidates) : j + u.n ≤ u.filled :=
  (searchTriggers_window hj).2

end

/-- Settles O52, by the number of candidates; the two views are the buffered ones, as no other lists stand at R381's positions. -/
theorem captureWindowFollowsTriggers : Obligations.CaptureWindowFollowsTriggers := by
  intro u hn hfill hring
  obtain ⟨hpos, hle⟩ := u.decision_valid_range hn hring
  refine ⟨u.window u.decision.1, rfl, rfl, extractWindow_length .., extractWindow_length .., hpos, hle, ?_⟩
  intro yv xv found hylen hxlen hview hfound
  obtain rfl := bufferedView_unique hring hylen fun k pos hk hp => (hview k pos hk hp).1
  obtain rfl := bufferedView_unique hring hxlen fun k pos hk hp => (hview k pos hk hp).2
  change found = u.candidates at hfound
  refine ⟨?none, ?some, ?one, ?more⟩
  case none =>
    rintro rfl
    have hdecide := u.decision_of_no_candidate hfound.symm
    rw [hdecide, u.window_last hfill]
    exact ⟨rfl, rfl, congrArg Decision.anchor hdecide, congrArg Decision.period hdecide, rfl, rfl⟩
  case some =>
    intro hne
    obtain ⟨j, js, rfl⟩ := List.exists_cons_of_ne_nil hne
    obtain ⟨htriggered, hstart, hanchor⟩ := u.decision_of_candidate hfound.symm
    have hmem := chooseTrigger_mem ((u.total.toNat : Int) - u.filled) u.anchor u.period j js
    have hbuffered := u.candidate_window (hfound ▸ hmem)
    rw [← hstart] at hmem hbuffered
    refine ⟨htriggered, _, hmem, hanchor, ?_, ?_, fun k hk => ?_⟩
    · intro hforgot
      rw [hstart, chooseTrigger_of_none _ hforgot]
      rfl
    · rintro j' rest ⟨⟩
      exact hstart
    · have hinside (buf : Samples) := hbuffered.trans_eq (bufferedView_length u.n u.w u.filled buf).symm
      exact ⟨extractWindow_getElem? (hinside u.bufY) hk, extractWindow_getElem? (hinside u.bufX) hk⟩
  case one =>
    rintro j rfl
    have hdecide := u.decision_eq
    rw [← hfound] at hdecide
    exact ⟨congrArg Decision.valid hdecide, congrArg Decision.period hdecide⟩
  case more =>
    rintro j j' rest rfl
    obtain ⟨hlt, hdist⟩ := searchTriggers_distance hring hfound.symm
    obtain ⟨hperiod, hmultiple, hgreatest⟩ := u.decision_of_period hfound.symm hlt
    exact ⟨hperiod, by omega, hdist, hmultiple, hgreatest⟩

/-! ### The frame (R380, R393, R395) -/

theorem scopeFrame_of_running {u : Scope} (hrun : u.common.faulted = false) (i : Nat) :
    scopeFrame i u =
      if u.newCount + 1 = u.n then
        { (u.write (san32 (port u.inY i)) (san32 (port u.inX i))).capture with newCount := 0 }
      else u.write (san32 (port u.inY i)) (san32 (port u.inX i)) := by
  rw [scopeFrame, if_neg (by simp [hrun]), fround_portSample, fround_portSample]
  rfl

theorem step_frame_scope {s : State} {i k : Nat} {u : Scope} (hc : s.configOk = true) (hp : s.phase = .frame i)
    (hu : s.scope[k]? = some u) : step s = .next (frameStep i s) ∧ (frameStep i s).scope[k]? = some (scopeFrame i u) :=
  ⟨step_frame hc hp, getElem?_map_of hu⟩

/-- A ring of no more than `N` samples leaves no transition to scan. -/
theorem searchTriggers_of_one_window (yv : Samples) (lev : F64) (h : Nat) {n l : Nat} (hl : l ≤ n) :
    searchTriggers yv lev h n l = ⟨0, []⟩ := by
  rw [searchTriggers, Nat.sub_eq_zero_of_le hl]
  rfl

/-- Settles O53: the frame's write is its `v`, which captures when the count is full; in a ring of `N` samples no candidate is in range,
and the last `N` samples are the whole view. -/
theorem scopeFrameWritesRingAndCaptures : Obligations.ScopeFrameWritesRingAndCaptures := by
  refine ⟨?frame, ?first⟩
  case frame =>
    intro s i k u hc hp hu hrun
    obtain ⟨hstep, hget⟩ := step_frame_scope hc hp hu
    rw [scopeFrame_of_running hrun] at hget
    refine ⟨_, _, hstep, hget, ?_⟩
    rintro v rfl
    refine ⟨fun hfull => ?full, fun hpart => ?part⟩
    case full =>
      rw [if_pos hfull]
      exact ⟨rfl, List.length_append⟩
    case part =>
      rw [if_neg hpart]
      exact ⟨rfl, rfl⟩
  case first =>
    intro u _ hfill
    have hsearch := searchTriggers_of_one_window (bufferedView u.n u.w u.filled u.bufY) u.latch.triggerLevel u.latch.hysteresis hfill.le
    have hdecide := u.decision_of_no_candidate (congrArg Search.found hsearch)
    have hholdoff : u.decision.2 = 0 := congrArg Search.holdoff hsearch
    refine ⟨u.window u.decision.1, ?_⟩
    rw [Scope.capture, hdecide, hholdoff, u.window_last hfill.ge, hfill, Nat.sub_self]
    exact ⟨rfl, rfl, rfl, rfl, List.drop_zero, List.drop_zero⟩

/-! ### What a frame does not depend on (R394) -/

/-- A SCOPE with its registers, its last search's countdown, and its counts and report times replaced. -/
def Scope.maskedBy (h : Nat) (r : ScopeRegs) (c : Common) (u : Scope) : Scope := { u with holdoff := h, reg := r, common := c }

/-- A frame reads of what is replaced only whether the unit is faulted. -/
theorem scopeFrame_maskedBy {u : Scope} {c : Common} (hc : c.faulted = u.common.faulted) (h : Nat) (r : ScopeRegs) (i : Nat) (h' : Nat)
    (r' : ScopeRegs) (c' : Common) :
    (scopeFrame i (u.maskedBy h r c)).maskedBy h' r' c' = (scopeFrame i u).maskedBy h' r' c' := by
  rcases Bool.dichotomy u.common.faulted with hrun | hfaulted
  case inl =>
    rw [scopeFrame_of_running hrun, scopeFrame_of_running (u := u.maskedBy h r c) (hc.trans hrun)]
    by_cases hfull : u.newCount + 1 = u.n
    · rw [if_pos hfull, if_pos (show (u.maskedBy h r c).newCount + 1 = (u.maskedBy h r c).n from hfull)]
      rfl
    · rw [if_neg hfull, if_neg (show ¬ (u.maskedBy h r c).newCount + 1 = (u.maskedBy h r c).n from hfull)]
      rfl
  case inr =>
    rw [scopeFrame_of_faulted hfaulted, scopeFrame_of_faulted (u := u.maskedBy h r c) (hc.trans hfaulted)]
    rfl

/-- Settles O54: masked alike the two are one SCOPE, so their frames are, and a frame differs from its masked unit's only there. -/
theorem capturesAreDeterministic : Obligations.CapturesAreDeterministic := by
  intro u v i h r c hfaulted hsame
  have hmasked : u.maskedBy h r u.common = v.maskedBy h r u.common := (congrArg (Scope.maskedBy h r u.common) hsame :)
  calc (scopeFrame i u).maskedBy h r c = (scopeFrame i (u.maskedBy h r u.common)).maskedBy h r c := (scopeFrame_maskedBy rfl ..).symm
    _ = (scopeFrame i (v.maskedBy h r u.common)).maskedBy h r c := by rw [hmasked]
    _ = (scopeFrame i v).maskedBy h r c := scopeFrame_maskedBy hfaulted ..

end Sys2Proof.Machine
end

section
/-!
PROOFS. The arithmetic of the guard slot (47_bridge.md R420, R421): `used` is the one number below the capacity congruent to `w - r`, so
moving an index by frames that fit moves `used` by as many.
-/

namespace Sys2Proof.Machine

section
variable {cap : Nat}

theorem dvd_usedFrames (hcap : 2 ≤ cap) (w r : Nat) : (cap : Int) ∣ (w : Int) - r - usedFrames cap w r := by
  rw [usedFrames, Int.toNat_of_nonneg (Int.emod_nonneg _ (by omega))]
  exact Int.dvd_self_sub_emod

theorem usedFrames_self (cap w : Nat) : usedFrames cap w w = 0 := by
  rw [usedFrames, Int.sub_self, Int.zero_emod]
  rfl

/-- An index and the slot it names differ by whole turns. -/
theorem dvd_mod_sub (cap a : Nat) : (cap : Int) ∣ ((a % cap : Nat) : Int) - a := by
  rw [Int.natCast_emod, dvd_sub_comm]
  exact Int.dvd_self_sub_emod

theorem usedFrames_write {w r n : Nat} (hcap : 2 ≤ cap) (hn : n ≤ freeFrames cap w r) :
    usedFrames cap ((w + n) % cap) r = usedFrames cap w r + n := by
  have hlt := usedFrames_lt hcap w r
  refine usedFrames_eq (by unfold freeFrames at hn; omega) ?_
  have hsum := (dvd_mod_sub cap (w + n)).add (dvd_usedFrames hcap w r)
  rwa [show (((w + n) % cap : Nat) : Int) - ((w + n : Nat) : Int) + (w - r - usedFrames cap w r) =
    ((w + n) % cap : Nat) - r - ((usedFrames cap w r + n : Nat) : Int) by omega] at hsum

theorem usedFrames_read {w r n : Nat} (hcap : 2 ≤ cap) (hn : n ≤ usedFrames cap w r) :
    usedFrames cap w ((r + n) % cap) = usedFrames cap w r - n := by
  have hlt := usedFrames_lt hcap w r
  refine usedFrames_eq (by omega) ?_
  have hdiff := (dvd_usedFrames hcap w r).sub (dvd_mod_sub cap (r + n))
  rwa [show (w : Int) - r - usedFrames cap w r - (((r + n) % cap : Nat) - ((r + n : Nat) : Int)) =
    w - ((r + n) % cap : Nat) - ((usedFrames cap w r - n : Nat) : Int) by omega] at hdiff

end

/-- Settles O55: a write that made the indices equal would leave none used, and it leaves at least the frames it wrote. -/
theorem guardSlotSeparatesFullAndEmpty : Obligations.GuardSlotSeparatesFullAndEmpty := by
  intro cap w r hcap _ _
  have hlt := usedFrames_lt hcap w r
  have hfree : freeFrames cap w r = cap - usedFrames cap w r - 1 := rfl
  refine ⟨dvd_usedFrames hcap w r, by omega, by omega, by omega, fun n hn => ⟨usedFrames_write hcap hn, fun hpos heq => ?_⟩,
    fun n hn => usedFrames_read hcap hn⟩
  have hused := usedFrames_write hcap hn
  rw [heq, usedFrames_self] at hused
  omega

end Sys2Proof.Machine
end

section
/-!
PROOFS. The blocks of the bridges that touch no region: a running FALLBACK bridge (47_bridge.md R425, R433) and one that is stopped or
faulted (R426, R430, 60_exceptions.md R468).
-/

namespace Sys2Proof.Machine

/-! ### The block step by lifecycle and transport -/

theorem brcapBlock_fallback {g : BlockCfg} {u : Brcap} (hf : u.common.faulted = false) (hrun : u.link.run = .running)
    (hmode : u.link.mode = .fallback) : brcapBlock g u = some (brcapFallback g u) := by
  simp [brcapBlock, hf, hrun, hmode]

theorem brplayBlock_fallback {g : BlockCfg} {u : Brplay} (hf : u.common.faulted = false) (hrun : u.link.run = .running)
    (hmode : u.link.mode = .fallback) : brplayBlock g u = some (brplayFallback g u) := by
  simp [brplayBlock, hf, hrun, hmode]

theorem brcapBlock_idle {u : Brcap} (h : u.common.faulted = true ∨ u.link.run = .stopped) (g : BlockCfg) :
    brcapBlock g u = some u := by
  rw [brcapBlock, if_pos (by simpa using h)]

theorem brplayBlock_idle {u : Brplay} (h : u.common.faulted = true ∨ u.link.run = .stopped) (g : BlockCfg) :
    brplayBlock g u = some (u.silent g) := by
  rw [brplayBlock, if_pos (by simpa using h)]

/-! ### The bridges' move, bridge by bridge -/

theorem getElem?_of_mapAll {α β : Type} {f : α → Option β} {l : List α} {l' : List β} (h : mapAll f l = some l') {k : Nat} {u : α}
    {v : β} (hu : l[k]? = some u) (hv : f u = some v) : l'[k]? = some v := by
  obtain ⟨v', hk, hv'⟩ := (mapAll_spec h).2 k u hu
  rw [hk, ← hv', hv]

/-- Settles O60: the block step of an idle bridge is named, and the bridges' move takes each bridge's own. -/
theorem idleBridgesAreSilent : Obligations.IdleBridgesAreSilent := by
  intro s hs hp
  obtain ⟨t, ht, hcaps, hplays⟩ := step_bridges_of_inv hs hp
  exact ⟨t, ht, fun k u hu hidle => getElem?_of_mapAll hcaps hu (brcapBlock_idle hidle s.cfg),
    fun k u hu hidle => getElem?_of_mapAll hplays hu (brplayBlock_idle hidle s.cfg)⟩

/-- Settles O58: the chunks made and the frames that stay are the frames staged and supplied, cut in order. -/
theorem fallbackCaptureKeepsEveryFrame : Obligations.FallbackCaptureKeepsEveryFrame := by
  intro s k u hs hp hu hf hrun hmode
  obtain ⟨t, ht, hcaps, -⟩ := step_bridges_of_inv hs hp
  obtain ⟨hc, -⟩ := hs
  obtain ⟨-, -, -, -, -, hcfg, -⟩ := configOk_parts hc
  have hcfg := hcfg u (List.mem_of_getElem? hu)
  simp only [bridgeCfgOk, Bool.and_eq_true, decide_eq_true_eq] at hcfg
  obtain ⟨hrest, hchunks, hall⟩ := emitChunks_spec hcfg.2 _ (u.staging ++ (List.range s.cfg.q).map (inputFrame u.cfg.ch u.input)) le_rfl
  exact ⟨t, brcapFallback s.cfg u, _, ht, getElem?_of_mapAll hcaps hu (brcapBlock_fallback hf hrun hmode), rfl, hchunks, hrest, hall⟩

/-- The frames a FALLBACK playback block takes from its FIFO. -/
def Brplay.drained (q : Nat) (u : Brplay) : List Frame := (u.fifo.take (min q u.fifo.length)).map fun f => f.map san32

theorem Brplay.length_drained (q : Nat) (u : Brplay) : (u.drained q).length = min q u.fifo.length := by simp [Brplay.drained]

theorem Brplay.drained_getElem? {q f : Nat} {u : Brplay} {fr : Frame} (hf : u.fifo[f]? = some fr) (hq : f < q) :
    (u.drained q)[f]? = some (fr.map san32) := by
  obtain ⟨hlt, -⟩ := List.getElem?_eq_some_iff.1 hf
  rw [Brplay.drained, List.getElem?_map, List.getElem?_take_of_lt (by omega), hf]
  rfl

/-- What a FALLBACK playback block changes: the FIFO, the last frame, the outputs and the frames counted. -/
theorem brplayFallback_eq (g : BlockCfg) (u : Brplay) :
    brplayFallback g u =
      { u with
        fifo := u.fifo.drop (min g.q u.fifo.length)
        lastFrame := (u.play g (u.drained g.q)).lastFrame
        out := (u.play g (u.drained g.q)).out
        common := u.common.count .underflow (g.q - min g.q u.fifo.length) } := by
  have hlen := u.length_drained g.q
  obtain ⟨-, -, -, -, -, hcommon, -⟩ := play_spec g (u.drained g.q) u (by omega)
  rw [← hlen, ← hcommon, hlen]
  rfl

theorem san32_frame_getElem? {fr : Frame} {c : Nat} (h : c < fr.length) : (fr.map san32)[c]? = some (san32 (fr.getD c 0)) := by
  simp [h]

/-- Settles O59: the frames drained come first in the outputs, and the missing ones follow as underflow frames. -/
theorem fallbackPlaybackDrainsFifo : Obligations.FallbackPlaybackDrainsFifo := by
  intro s k u hs hp hu hf hrun hmode
  obtain ⟨t, ht, -, hplays⟩ := step_bridges_of_inv hs hp
  obtain ⟨-, -, -, -, -, -, -, -, -, -, hok⟩ := hs
  obtain ⟨-, -, -, hframes, -⟩ := hok u (List.mem_of_getElem? hu)
  have hlen := u.length_drained s.cfg.q
  refine ⟨t, brplayFallback s.cfg u, ht, getElem?_of_mapAll hplays hu (brplayBlock_fallback hf hrun hmode), ?state, fun hnil => ?empty,
    fun f c fr hfr hq hc => ?drained, fun f c hlo hhi hc => ?missing⟩
  case state => exact brplayFallback_eq s.cfg u
  case empty =>
    have hnone : u.drained s.cfg.q = [] := by simp [Brplay.drained, hnil]
    rw [brplayFallback_eq, hnone]
    rfl
  case drained =>
    have hdrained := Brplay.drained_getElem? hfr hq
    have hsample : (fr.map san32)[c]? = some (san32 (fr.getD c 0)) :=
      san32_frame_getElem? (by rwa [hframes fr (List.mem_of_getElem? hfr)])
    refine ⟨(play_out_played hc hdrained).trans ?_, fun hlast => ?_⟩
    · rw [List.getD_eq_getElem?_getD, hsample]
      rfl
    · exact (congrArg (·[c]?) (play_lastFrame (g := s.cfg) hdrained (hlast.trans hlen.symm))).trans hsample
  case missing =>
    refine (play_out_missing (played := u.drained s.cfg.q) hc (by omega) hhi).trans ?_
    split
    · rw [underflowFrame_silence ‹_›]
    · rw [underflowFrame_hold ‹_›]
      rfl

end Sys2Proof.Machine
end

section
/-!
PROOFS. The mute ramp (70_reset_and_hazards.md R512).
-/

namespace Sys2Proof.Machine

/-- Settles O41: the ramp is the formula of R512, and the four quarter steps are evaluated. -/
theorem awakeGainStaysOne : Obligations.AwakeGainStaysOne := by
  refine ⟨?step, fun n hn => ramp_f1 hn, ?quarter1, ?quarter2, ?quarter3, ?quarter4⟩
  case step =>
    rintro n g d rfl
    exact ⟨by rw [ramp, if_pos rfl], by rw [ramp, if_neg Bool.false_ne_true]⟩
  all_goals decide +kernel

end Sys2Proof.Machine
end

section
/-!
PROOFS. The schedule of a block (70_reset_and_hazards.md R510): every step from a state of the invariant answers (60_exceptions.md R460), the
steps that take no packet follow one another in order, and the moves of one block so run from a boundary to the next (R531).
-/

namespace Sys2Proof.Machine

/-- Settles O33: packets, frames and the ends of the block answer in every state, the bridges' move in every state of the invariant. -/
theorem blockNeverStops : Obligations.BlockNeverStops := by
  intro s hs
  have ⟨hc, _⟩ := hs
  cases hp : s.phase with
  | boundary =>
    cases hq : s.inQueue with
    | nil => exact ⟨_, step_begin hc hp hq⟩
    | cons p q =>
      rw [step_command hc hp hq]
      exact applyPacket_next p _
  | frame i => exact ⟨_, step_frame hc hp⟩
  | bridges => exact (step_bridges_of_inv hs hp).imp fun _ h => h.1
  | endOfBlock => exact ⟨_, step_end hc hp⟩

/-- Settles O23: the four moves that take no packet, one for each phase. -/
theorem blockFollowsSchedule : Obligations.BlockFollowsSchedule := by
  intro s t h hfree
  obtain ⟨hp, rfl⟩ | ⟨i, hp, rfl⟩ | ⟨hp, hb⟩ | ⟨hp, rfl⟩ := step_block_cases h hfree
  · rw [hp]
    exact ⟨rfl, rfl, ⟨[], (List.append_nil _).symm, fun _ => rfl⟩, rfl⟩
  · rw [hp]
    exact ⟨rfl, rfl, ⟨[], (List.append_nil _).symm, fun _ => rfl⟩, rfl⟩
  · rw [hp, (bridgeStep_spec hb).1]
    exact ⟨rfl, rfl, ⟨[], (List.append_nil _).symm, fun _ => rfl⟩, rfl⟩
  · rw [hp]
    exact ⟨rfl, rfl, ⟨dataPackets s ++ eventPackets s, List.append_assoc .., fun hne => absurd rfl hne⟩, rfl⟩

/-! ### Parts of a block -/

/-- `k` moves lead from `s` to a state `t` of the invariant of the same configuration. -/
structure State.Runs (k : Nat) (s t : State) : Prop where
  moves : moves k s = .next t
  inv : t.Inv
  cfg : t.cfg = s.cfg

theorem State.Runs.trans {a b : Nat} {s t u : State} (h : s.Runs a t) (h' : t.Runs b u) : s.Runs (a + b) u :=
  ⟨(moves_add h.moves b).trans h'.moves, h'.inv, h'.cfg.trans h.cfg⟩

theorem State.Inv.runs_step {s t : State} (hs : s.Inv) (h : step s = .next t) : s.Runs 1 t :=
  ⟨moves_succ h 0, stepKeepsTheInvariant s t hs h, (step_units h).1⟩

/-- One move that takes no packet, with what O23 says of it. -/
theorem State.Inv.runs_block {s : State} (hs : s.Inv) (hfree : s.phase ≠ .boundary ∨ s.inQueue = []) :
    ∃ t, s.Runs 1 t ∧
      t.phase =
        (match s.phase with
        | .boundary => .frame 0
        | .frame i => if i + 1 < s.cfg.q then .frame (i + 1) else .bridges
        | .bridges => .endOfBlock
        | .endOfBlock => .boundary) ∧
      t.blockIndex = (if s.phase = .endOfBlock then s.blockIndex + 1 else s.blockIndex) ∧ t.inQueue = s.inQueue := by
  obtain ⟨t, ht⟩ := blockNeverStops s hs
  obtain ⟨hphase, hindex, -, hqueue⟩ := blockFollowsSchedule s t ht hfree
  exact ⟨t, hs.runs_step ht, hphase, hindex, hqueue⟩

/-- A command keeps the boundary, the block counter and the packets behind it. -/
theorem exec_keeps_boundary {i : Instr} {s t : State} (h : exec i s = .next t) :
    t.phase = s.phase ∧ t.blockIndex = s.blockIndex ∧ t.inQueue = s.inQueue ∧ t.shmAvailable = s.shmAvailable := by
  obtain ⟨t', ht', hcase⟩ := exec_cases i s
  obtain rfl : t' = t := Host.Outcome.next.inj (ht'.symm.trans h)
  rcases hcase with rfl | ⟨_, _, rfl, -⟩ | ⟨_, _, rfl, -⟩ | ⟨_, _, rfl, -⟩ | ⟨_, _, rfl, -⟩ | ⟨_, _, rfl, -⟩ | ⟨_, _, rfl, -⟩ |
    ⟨_, _, rfl, -⟩ | ⟨_, _, rfl, -⟩ <;> exact ⟨rfl, rfl, rfl, rfl⟩

/-- One packet at the boundary. -/
theorem State.Inv.runs_packet {s : State} {p : Packet} {q : List Packet} (hs : s.Inv) (hp : s.phase = .boundary)
    (hq : s.inQueue = p :: q) : ∃ t, s.Runs 1 t ∧ t.phase = .boundary ∧ t.inQueue = q ∧ t.blockIndex = s.blockIndex := by
  obtain ⟨t, ht⟩ := blockNeverStops s hs
  refine ⟨t, hs.runs_step ht, ?_⟩
  rw [step_command hs.1 hp hq, applyPacket] at ht
  split at ht
  · obtain ⟨hphase, hindex, hqueue, -⟩ := exec_keeps_boundary ht
    exact ⟨hphase.trans hp, hqueue, hindex⟩
  · cases ht
    exact ⟨hp, rfl, rfl⟩

/-- The packets waiting at the boundary, one move each. -/
theorem State.Inv.runs_packets {s : State} (hs : s.Inv) (hp : s.phase = .boundary) :
    ∃ t, s.Runs s.inQueue.length t ∧ t.phase = .boundary ∧ t.inQueue = [] ∧ t.blockIndex = s.blockIndex := by
  induction hq : s.inQueue generalizing s with
  | nil => exact ⟨s, ⟨moves_zero s, hs, rfl⟩, hp, hq, rfl⟩
  | cons p q ih =>
    obtain ⟨t, hst, htp, htq, hti⟩ := hs.runs_packet hp hq
    obtain ⟨u, htu, hup, huq, hui⟩ := ih hst.inv htp htq
    refine ⟨u, ?_, hup, huq, hui.trans hti⟩
    rw [List.length_cons, Nat.add_comm]
    exact hst.trans htu

/-- The frames from `i` to the last. -/
theorem State.Inv.runs_frames {s : State} {i k : Nat} (hs : s.Inv) (hp : s.phase = .frame i) (hk : i + (k + 1) = s.cfg.q) :
    ∃ t, s.Runs (k + 1) t ∧ t.phase = .bridges ∧ t.inQueue = s.inQueue ∧ t.blockIndex = s.blockIndex := by
  induction k generalizing s i with
  | zero =>
    obtain ⟨t, hst, htp, hti, htq⟩ := hs.runs_block (.inl (by rw [hp]; exact nofun))
    rw [hp] at htp hti
    exact ⟨t, hst, htp.trans (if_neg (by omega)), htq, hti⟩
  | succ k ih =>
    obtain ⟨t, hst, htp, hti, htq⟩ := hs.runs_block (.inl (by rw [hp]; exact nofun))
    rw [hp] at htp hti
    obtain ⟨u, htu, hup, huq, hui⟩ := ih hst.inv (htp.trans (if_pos (by omega))) (by rw [hst.cfg]; omega)
    refine ⟨u, ?_, hup, huq.trans htq, hui.trans hti⟩
    rw [Nat.add_comm]
    exact hst.trans htu

/-! ### The whole block -/

theorem sampleCount_end {q n : Nat} (h : sampleCountOk .endOfBlock q n) : n = q := List.mem_singleton.1 h

/-- Every output port holds `Q` samples after the end of the block. -/
theorem endBlock_outputs {s : State} (hs : s.Inv) (hp : s.phase = .endOfBlock) :
    (∀ u ∈ (endBlock s).osc, u.out0.length = s.cfg.q ∧ u.out1.length = s.cfg.q) ∧
      (∀ u ∈ (endBlock s).vca, u.out.length = s.cfg.q) ∧
      (∀ u ∈ (endBlock s).tone, u.out.length = u.cfg.ch ∧ ∀ a ∈ u.out, a.length = s.cfg.q) ∧
      (∀ u ∈ (endBlock s).therm, u.out.length = s.cfg.q) ∧ (∀ u ∈ (endBlock s).noise, u.out.length = s.cfg.q) ∧
      ∀ u ∈ (endBlock s).brplay, u.out.length = u.cfg.ch ∧ ∀ a ∈ u.out, a.length = s.cfg.q := by
  obtain ⟨-, -, -, hosc, hvca, htone, htherm, hnoise, -, -, hplay⟩ := hs
  rw [hp] at hosc hvca htone htherm hnoise hplay
  refine ⟨forall_mem_map hosc fun u _ h => ?osc, forall_mem_map hvca fun u _ h => sampleCount_end h,
    forall_mem_map htone fun u _ h => ?tone, forall_mem_map htherm fun u _ h => sampleCount_end h,
    forall_mem_map hnoise fun u _ h => ?noise, forall_mem_map hplay fun u _ h => ?brplay⟩
  case osc => exact ⟨sampleCount_end h.1, sampleCount_end h.2⟩
  case tone =>
    obtain ⟨-, hch, hcount⟩ := h
    rw [Tone.flushBlock_cfg, Tone.flushBlock_out]
    exact ⟨hch, fun a ha => sampleCount_end (hcount a ha)⟩
  case noise =>
    rw [Noise.flushBlock_out]
    exact sampleCount_end h
  case brplay =>
    obtain ⟨-, -, -, -, -, hch, hcount⟩ := h
    exact ⟨hch, fun a ha => sampleCount_end (hcount a ha)⟩

/-- Settles O34: the packets, the latch, the frames, the bridges and the end of the block, one part after another. -/
theorem everyBlockEnds : Obligations.EveryBlockEnds := by
  intro s hs hp
  obtain ⟨s1, h1, hp1, hq1, hi1⟩ := hs.runs_packets hp
  obtain ⟨s2, h2, hp2, hi2, hq2⟩ := h1.inv.runs_block (.inr hq1)
  rw [hp1] at hp2 hi2
  have h12 := h1.trans h2
  obtain ⟨hpos, -⟩ := configOk_parts hs.1
  obtain ⟨s3, h3, hp3, hq3, hi3⟩ := h2.inv.runs_frames (k := s.cfg.q - 1) hp2 (by rw [h12.cfg]; omega)
  obtain ⟨s4, h4, hp4, hi4, hq4⟩ := h3.inv.runs_block (.inl (by rw [hp3]; exact nofun))
  rw [hp3] at hp4 hi4
  have h14 := (h12.trans h3).trans h4
  have hend := h4.inv.runs_step (step_end h4.inv.1 hp4)
  have hmoves := (h14.trans hend).moves
  rw [show s.inQueue.length + 1 + (s.cfg.q - 1 + 1) + 1 + 1 = s.blockMoves by rw [State.blockMoves]; omega] at hmoves
  have hindex : s4.blockIndex = s.blockIndex := hi4.trans (hi3.trans (hi2.trans hi1))
  refine ⟨endBlock s4, hmoves, rfl, hq4.trans (hq3.trans (hq2.trans hq1)), congrArg (· + 1) hindex, ?_⟩
  rw [← h14.cfg]
  exact endBlock_outputs h4.inv hp4

end Sys2Proof.Machine
end

section
/-!
PROOFS. The common state of every unit (10_state.md R32) over a step: the fault draw at the boundary (60_exceptions.md R466), the reports at
the end of the block (R470), the counts commands and bridges add; and what no command and no step changes (R467, R475, 70_reset_and_hazards.md
R500, R502).
-/

namespace Sys2Proof.Machine

/-! ### One step -/

/-- What one step does to a unit's common state: it keeps all but the counts, takes the fault draw, or reports. -/
inductive Common.Step (s : State) : Phase → Phase → Common → Common → Prop
  | keep {p p' : Phase} {c d : Common} (h : c.CommandKeeps d) : Common.Step s p p' c d
  | draw (c : Common) : Common.Step s .boundary (.frame 0) c c.takeFault
  | report (c : Common) : Common.Step s .endOfBlock .boundary c (settled s c)

theorem Common.Step.refl {s : State} {p p' : Phase} (c : Common) : Common.Step s p p' c c := .keep ⟨rfl, rfl, rfl⟩

theorem Common.Step.faulted {s : State} {p p' : Phase} {c d : Common} (h : Common.Step s p p' c d) (hc : c.faulted = true) :
    d.faulted = true := by
  cases h with
  | keep h => exact h.1.trans hc
  | draw => exact Common.takeFault_faulted hc
  | report => exact (settled_spec s c).1.trans hc

/-- At the boundary before the strobe nothing but the counts changes. -/
theorem Common.Step.at_boundary {s : State} {c d : Common} (h : Common.Step s .boundary .boundary c d) : c.CommandKeeps d := by
  cases h with
  | keep h => exact h

/-- A unit's step is one of its common state, in every class. -/
theorem UnitMoves.Step.common {α : Type} {s : State} {m : UnitMoves α} {q : Nat} {p p' : Phase} {u v : α} {g : α → Common}
    (h : m.Step q p p' u v) (command : ∀ {u v}, m.command u v → (g u).CommandKeeps (g v)) (begin : ∀ u, g (m.begin u) = (g u).takeFault)
    (frame : ∀ i u, g (m.frame i u) = g u) (bridge : ∀ {u v}, m.bridge u = some v → (g u).CommandKeeps (g v))
    (finish : ∀ u, g (m.finish u) = settled s (g u)) : Common.Step s p p' (g u) (g v) := by
  cases h with
  | stay => exact .refl _
  | command h => exact .keep (command h)
  | begin => exact (begin u).symm ▸ .draw _
  | frame i => exact (frame i u).symm ▸ .refl _
  | bridge h => exact .keep (bridge h)
  | finish => exact (finish u).symm ▸ .report _

theorem Common.keeps_of_eq {c d : Common} (h : d = c) : c.CommandKeeps d := h ▸ ⟨rfl, rfl, rfl⟩

/-- Every unit's common state makes its step to that of the unit of the same class and number. -/
theorem State.UnitsStep.commonOf {p p' : Phase} {s t : State} (h : s.UnitsStep p p' t) (cls : UnitClass) :
    List.Forall₂ (Common.Step s p p') (s.commonOf cls) (t.commonOf cls) := by
  cases cls <;> refine List.forall₂_map_left_iff.2 (List.forall₂_map_right_iff.2 ?_)
  case osc =>
    exact h.osc.imp fun u v h =>
      h.common (g := Osc.common) (fun h => Common.keeps_of_eq h.2.1) (fun _ => rfl) (fun i u => (oscFrame_keeps s.cfg i u).2.1)
        (fun h => Common.keeps_of_eq (keeps_of_some h)) fun _ => by dsimp only
  case vca =>
    exact h.vca.imp fun u v h =>
      h.common (g := Vca.common) (fun h => Common.keeps_of_eq h.2.1) (fun _ => rfl) (fun i u => (vcaFrame_keeps s.cfg i u).2.1)
        (fun h => Common.keeps_of_eq (keeps_of_some h)) fun _ => by dsimp only
  case tone =>
    exact h.tone.imp fun u v h =>
      h.common (g := Tone.common) (fun h => Common.keeps_of_eq h.2.1) (fun _ => rfl) (fun i u => (toneFrame_keeps s.cfg i u).2.1)
        (fun h => Common.keeps_of_eq (keeps_of_some h)) fun _ => by dsimp only
  case therm =>
    exact h.therm.imp fun u v h =>
      h.common (g := Therm.common) (fun h => Common.keeps_of_eq h.2.1) (fun _ => rfl)
        (fun i u => (thermFrame_keeps s.cfg i u).2.1) (fun h => Common.keeps_of_eq (keeps_of_some h)) fun _ => by dsimp only
  case noise =>
    exact h.noise.imp fun u v h =>
      h.common (g := Noise.common) (fun h => Common.keeps_of_eq h.2.1) (fun _ => rfl) (fun _ u => (noiseFrame_keeps s.cfg u).2.1)
        (fun h => Common.keeps_of_eq (keeps_of_some h)) fun _ => by dsimp only
  case scope =>
    exact h.scope.imp fun u v h =>
      h.common (g := Scope.common) (fun h => Common.keeps_of_eq h.2.1) (fun _ => rfl) (fun i u => (scopeFrame_keeps i u).2.1)
        (fun h => Common.keeps_of_eq (keeps_of_some h)) fun _ => by dsimp only
  case brcap =>
    exact h.brcap.imp fun u v h =>
      h.common (g := Brcap.common) (fun h => h.2.1) (fun _ => rfl) (fun _ _ => rfl) (fun h => (brcapBlock_same h).2.1) fun _ => by dsimp only
  case brplay =>
    exact h.brplay.imp fun u v h =>
      h.common (g := Brplay.common) (fun h => h.2.1) (fun _ => rfl) (fun _ _ => rfl) (fun h => (brplayBlock_same h).2.1) fun _ => by dsimp only

/-- The configurations of every class, over any step of the units. -/
theorem State.UnitsStep.cfgs {p p' : Phase} {s t : State} (h : s.UnitsStep p p' t) :
    t.osc.map Osc.cfg = s.osc.map Osc.cfg ∧ t.vca.map Vca.cfg = s.vca.map Vca.cfg ∧ t.tone.map Tone.cfg = s.tone.map Tone.cfg ∧
      t.therm.map Therm.cfg = s.therm.map Therm.cfg ∧ t.noise.map Noise.cfg = s.noise.map Noise.cfg ∧
      t.scope.map Scope.cfg = s.scope.map Scope.cfg ∧ t.brcap.map Brcap.cfg = s.brcap.map Brcap.cfg ∧
      t.brplay.map Brplay.cfg = s.brplay.map Brplay.cfg :=
  ⟨map_eq_of_forall₂ h.osc Osc.step_cfg, map_eq_of_forall₂ h.vca Vca.step_cfg, map_eq_of_forall₂ h.tone Tone.step_cfg,
    map_eq_of_forall₂ h.therm Therm.step_cfg, map_eq_of_forall₂ h.noise Noise.step_cfg, map_eq_of_forall₂ h.scope Scope.step_cfg,
    map_eq_of_forall₂ h.brcap Brcap.step_cfg, map_eq_of_forall₂ h.brplay Brplay.step_cfg⟩

/-! ### What persists -/

/-- The unit of the same number. -/
theorem getElem?_of_forall₂ {α : Type} {R : α → α → Prop} {l l' : List α} (h : List.Forall₂ R l l') {k : Nat} {u : α}
    (hu : l[k]? = some u) : ∃ v, l'[k]? = some v ∧ R u v := by
  induction h generalizing k with
  | nil => cases hu
  | cons h _ ih =>
    cases k with
    | zero => exact ⟨_, rfl, Option.some.inj hu ▸ h⟩
    | succ k => exact ih hu

/-- Settles O27: a fault latch outlives every kind of step, and none changes a configuration. -/
theorem faultsAndConfigurationPersist : Obligations.FaultsAndConfigurationPersist := by
  intro s t h
  obtain ⟨hcfg, hu⟩ := step_units h
  refine ⟨fun cls k c hc hfaulted => ?_, hcfg, hu.cfgs⟩
  obtain ⟨c', hc', hstep⟩ := getElem?_of_forall₂ (hu.commonOf cls) hc
  exact ⟨c', hc', hstep.faulted hfaulted⟩

/-! ### Commands -/

/-- Every unit's common state is that of a unit of one of the eight classes. -/
theorem State.commons_eq_flatMap (s : State) :
    s.commons = [UnitClass.osc, .vca, .tone, .therm, .noise, .scope, .brcap, .brplay].flatMap s.commonOf := by
  simp [State.commons, State.commonOf]

/-- A view of the common states that each class keeps. -/
theorem commons_map_eq {β : Type} {g : Common → β} {s t : State} (h : ∀ cls, (t.commonOf cls).map g = (s.commonOf cls).map g) :
    t.commons.map g = s.commons.map g := by
  simp only [State.commons_eq_flatMap, List.map_flatMap, h]

/-- A view of a unit that no command changes, over a step that does not leave the boundary. -/
theorem UnitMoves.Step.keeps_at_boundary {α β : Type} {m : UnitMoves α} {q : Nat} {p p' : Phase} {u v : α} (g : α → β)
    (h : m.Step q p p' u v) (hp : p = .boundary) (hp' : p' = .boundary) (command : ∀ {u v}, m.command u v → g v = g u) : g v = g u := by
  cases h with
  | stay => rfl
  | command h => exact command h
  | begin => cases hp'
  | frame => cases hp
  | bridge => cases hp
  | finish => cases hp

/-- No command writes an output port. -/
theorem State.UnitsStep.outputs {s t : State} (h : s.UnitsStep .boundary .boundary t) : t.outputs = s.outputs := by
  have hosc : t.osc.map (fun u => (u.out0, u.out1)) = s.osc.map (fun u => (u.out0, u.out1)) :=
    map_eq_of_forall₂ h.osc fun h => h.keeps_at_boundary (fun u => (u.out0, u.out1)) rfl rfl fun ⟨_, _, _, _, _, h0, h1, _⟩ => by rw [h0, h1]
  have hvca : t.vca.map Vca.out = s.vca.map Vca.out :=
    map_eq_of_forall₂ h.vca fun h => h.keeps_at_boundary Vca.out rfl rfl fun ⟨_, _, _, _, _, _, hout⟩ => hout
  have htone : t.tone.map Tone.out = s.tone.map Tone.out :=
    map_eq_of_forall₂ h.tone fun h => h.keeps_at_boundary Tone.out rfl rfl fun ⟨_, _, _, _, _, hout, _⟩ => hout
  have htherm : t.therm.map Therm.out = s.therm.map Therm.out :=
    map_eq_of_forall₂ h.therm fun h => h.keeps_at_boundary Therm.out rfl rfl fun ⟨_, _, _, _, hout⟩ => hout
  have hnoise : t.noise.map Noise.out = s.noise.map Noise.out :=
    map_eq_of_forall₂ h.noise fun h => h.keeps_at_boundary Noise.out rfl rfl fun ⟨_, _, _, _, _, _, _, _, hout⟩ => hout
  have hplay : t.brplay.map Brplay.out = s.brplay.map Brplay.out :=
    map_eq_of_forall₂ h.brplay fun h => h.keeps_at_boundary Brplay.out rfl rfl fun ⟨_, _, hout, _⟩ => hout
  simp only [State.outputs, hosc, hvca, htone, htherm, hnoise, hplay]

/-- Settles O20: a command keeps the block's own fields, and each unit stays or takes it, its common state but for the counts. -/
theorem commandsKeepTheBlock : Obligations.CommandsKeepTheBlock := by
  intro i s
  obtain ⟨t, ht, -⟩ := exec_cases i s
  obtain ⟨hcfg, hphase, hout, hu⟩ := State.UnitsStep.exec ht
  obtain ⟨-, hindex, hqueue, hshm⟩ := exec_keeps_boundary ht
  obtain ⟨h1, h2, h3, h4, h5, h6, h7, h8⟩ := hu.cfgs
  have hfaulted : t.commons.map Common.faulted = s.commons.map Common.faulted :=
    commons_map_eq fun cls => map_eq_of_forall₂ (hu.commonOf cls) fun h => h.at_boundary.1
  have hreport : t.commons.map Common.lastReport = s.commons.map Common.lastReport :=
    commons_map_eq fun cls => map_eq_of_forall₂ (hu.commonOf cls) fun h => h.at_boundary.2.1
  exact ⟨t, ht, hcfg, hshm, hphase, hindex, hqueue, hout, hu.outputs, h1, h2, h3, h4, h5, h6, h7, h8, hfaulted, hreport⟩

/-! ### The fault draw -/

/-- The boundary takes the fault draw of every unit of every class. -/
theorem commonOf_beginBlock (s : State) (cls : UnitClass) : (beginBlock s).commonOf cls = (s.commonOf cls).map Common.takeFault := by
  cases cls <;> simp only [State.commonOf, beginBlock, List.map_map, Function.comp_def] <;> rfl

/-- Settles O26: the latch and the count are the draw's, where it is true and not already latched. -/
theorem faultDrawsLatch : Obligations.FaultDrawsLatch := by
  intro s hc hp hq
  refine ⟨beginBlock s, step_begin hc hp hq, fun cls k c hk => ?_⟩
  rw [commonOf_beginBlock, getElem?_map_of hk]
  rcases c.takeFault_cases with ⟨hf, h⟩ | ⟨-, hd, h⟩ | ⟨hf, hd, h⟩ <;> rw [h]
  · rw [if_neg (by simp [hf])]
  · rw [if_neg (by simp [hd])]
  · rw [if_pos ⟨hf, hd⟩]

/-! ### The reports -/

/-- The end of the block settles the counts of every unit of every class. -/
theorem commonOf_endBlock (s : State) (cls : UnitClass) : (endBlock s).commonOf cls = (s.commonOf cls).map (settled s) := by
  cases cls <;> simp only [State.commonOf, endBlock, List.map_map, Function.comp_def]

/-- A due count is cleared and stamped, another kept. -/
theorem settled_counts (s : State) (c : Common) (code : EventCode) :
    (c.due s.blockIndex s.cfg.logInterval code = true →
        (settled s c).pending.get code = 0 ∧ (settled s c).lastReport.get code = some s.blockIndex) ∧
      (c.due s.blockIndex s.cfg.logInterval code = false →
        (settled s c).pending.get code = c.pending.get code ∧ (settled s c).lastReport.get code = c.lastReport.get code) := by
  rw [settled]
  obtain ⟨-, -, hcounts, -⟩ := report_spec s.blockIndex s.cfg.logInterval .osc 0 c
  exact hcounts code

theorem eventPackets_eq_flatMap (s : State) :
    eventPackets s =
      [UnitClass.osc, .vca, .tone, .therm, .noise, .scope, .brcap, .brplay].flatMap fun cls => classReports s cls (s.commonOf cls) := by
  simp [eventPackets, State.commonOf]

/-- The packets of a class are those of its units. -/
theorem mem_flatten_mapIdx {α β : Type} {f : Nat → α → List β} {l : List α} {p : β} :
    p ∈ (l.mapIdx f).flatten ↔ ∃ k u, l[k]? = some u ∧ p ∈ f k u := by
  rw [List.mem_flatten]
  refine ⟨fun ⟨ps, hps, hp⟩ => ?_, fun ⟨k, u, hu, hp⟩ => ?_⟩
  · obtain ⟨k, hk, rfl⟩ := List.mem_mapIdx.1 hps
    exact ⟨k, _, List.getElem?_eq_getElem hk, hp⟩
  · obtain ⟨hk, rfl⟩ := List.getElem?_eq_some_iff.1 hu
    exact ⟨_, List.mem_mapIdx.2 ⟨k, hk, rfl⟩, hp⟩

/-- A due count is emitted. -/
theorem mem_eventPackets_of_due {s : State} {cls : UnitClass} {k : Nat} {c : Common} {code : EventCode}
    (hk : (s.commonOf cls)[k]? = some c) (hd : c.due s.blockIndex s.cfg.logInterval code = true) :
    .eventOutbound cls.code (BitVec.ofNat 4 k) code.code (c.pending.get code) ∈ eventPackets s := by
  rw [eventPackets_eq_flatMap, List.mem_flatMap]
  refine ⟨cls, by cases cls <;> decide, mem_flatten_mapIdx.2 ⟨k, c, hk, ?_⟩⟩
  obtain ⟨-, -, -, hreport⟩ := report_spec s.blockIndex s.cfg.logInterval cls k c
  rw [hreport]
  exact List.mem_map.2 ⟨code, List.mem_filter.2 ⟨by cases code <;> decide, hd⟩, rfl⟩

/-- The CAPTURE packets of the block. -/
def State.captures (s : State) : List Instr := (s.scope.mapIdx fun k u => u.made.map (Capture.packet s.cfg.fs k)).flatten

/-- The CHUNK packets of the block. -/
def State.chunks (s : State) : List Instr := (s.brcap.mapIdx fun k u => u.made.map (chunkPacket k)).flatten

theorem dataPackets_eq (s : State) : dataPackets s = s.captures ++ s.chunks := rfl

theorem captures_mem {s : State} {p : Instr} (h : p ∈ s.captures) :
    ∃ (k : Nat) (u : Scope) (c : Capture), s.scope[k]? = some u ∧ p = c.packet s.cfg.fs k := by
  obtain ⟨k, u, hu, hp⟩ := mem_flatten_mapIdx.1 h
  obtain ⟨c, -, rfl⟩ := List.mem_map.1 hp
  exact ⟨k, u, c, hu, rfl⟩

theorem chunks_mem {s : State} {p : Instr} (h : p ∈ s.chunks) :
    ∃ (k : Nat) (u : Brcap) (fs : List Frame), s.brcap[k]? = some u ∧ p = chunkPacket k fs := by
  obtain ⟨k, u, hu, hp⟩ := mem_flatten_mapIdx.1 h
  obtain ⟨fs, -, rfl⟩ := List.mem_map.1 hp
  exact ⟨k, u, fs, hu, rfl⟩

/-- A block's data are no events. -/
theorem isEvent_dataPackets {s : State} {p : Instr} (h : p ∈ dataPackets s) : isEvent p = false := by
  rw [dataPackets_eq, List.mem_append] at h
  rcases h with h | h
  · obtain ⟨k, u, c, -, rfl⟩ := captures_mem h
    rfl
  · obtain ⟨k, u, fs, -, rfl⟩ := chunks_mem h
    rfl

/-- Settles O29: each unit's counts are settled as its reports say, and the events emitted are these reports. -/
theorem dueEventsAreReported : Obligations.DueEventsAreReported := by
  intro s hc hp
  have hout : (endBlock s).outQueue = s.outQueue ++ (dataPackets s ++ eventPackets s) := List.append_assoc ..
  refine ⟨endBlock s, dataPackets s ++ eventPackets s, step_end hc hp, hout, fun cls k c hk => ?settled, fun p hp hev => ?only⟩
  case settled =>
    obtain ⟨hfaulted, hdraw⟩ := settled_spec s c
    refine ⟨settled s c, by rw [commonOf_endBlock, getElem?_map_of hk], hfaulted, hdraw, fun code => ?_⟩
    rw [← due_iff, Bool.not_eq_true]
    obtain ⟨hdue, hkept⟩ := settled_counts s c code
    exact ⟨fun hd => ⟨(hdue hd).1, (hdue hd).2, List.mem_append_right _ (mem_eventPackets_of_due hk hd)⟩, hkept⟩
  case only =>
    rcases List.mem_append.1 hp with hp | hp
    · rw [isEvent_dataPackets hp] at hev
      cases hev
    · obtain ⟨cls, k, c, code, hk, hd, rfl⟩ := eventPackets_mem hp
      exact ⟨cls, k, c, code, hk, (due_iff ..).1 hd, rfl⟩

end Sys2Proof.Machine
end

section
/-!
PROOFS. The order of a block's packets (70_reset_and_hazards.md R513, 60_exceptions.md R472): by rank within a unit, from unit to unit
and from class to class, and which of them are a unit's own.
-/

namespace Sys2Proof.Machine

/-! ### Packets by unit -/

section
variable {α : Type} {f : Nat → α → List Instr} {l : List α}

/-- Packets in order within each unit and from unit to unit are in order. -/
theorem pairwise_flatten_mapIdx {R : Instr → Instr → Prop} (hin : ∀ k u, l[k]? = some u → (f k u).Pairwise R)
    (hacross : ∀ {j k u v}, j < k → l[j]? = some u → l[k]? = some v → ∀ a ∈ f j u, ∀ b ∈ f k v, R a b) :
    (l.mapIdx f).flatten.Pairwise R := by
  rw [List.pairwise_flatten, List.pairwise_iff_getElem]
  refine ⟨fun ps hps => ?_, fun j k hj hk hlt => ?_⟩
  · obtain ⟨k, hk, rfl⟩ := List.mem_mapIdx.1 hps
    exact hin k _ (List.getElem?_eq_getElem hk)
  · rw [List.length_mapIdx] at hj hk
    rw [List.getElem_mapIdx, List.getElem_mapIdx]
    exact hacross hlt (List.getElem?_eq_getElem hj) (List.getElem?_eq_getElem hk)

theorem filter_eq_nil_of_false {P : Instr → Bool} {ps : List Instr} (h : ∀ p ∈ ps, P p = false) : ps.filter P = [] :=
  List.filter_eq_nil_iff.2 fun p hp => by rw [h p hp]; exact Bool.false_ne_true

/-- The packets only one unit emits are that unit's. -/
theorem filter_flatten_mapIdx {P : Instr → Bool} {k : Nat} {u : α} (hk : l[k]? = some u) (hown : ∀ p ∈ f k u, P p = true)
    (hother : ∀ j v, l[j]? = some v → j ≠ k → ∀ p ∈ f j v, P p = false) : (l.mapIdx f).flatten.filter P = f k u := by
  induction l generalizing f k with
  | nil => cases hk
  | cons a l ih =>
    rw [List.mapIdx_cons, List.flatten_cons, List.filter_append]
    cases k with
    | zero =>
      obtain rfl := Option.some.inj hk
      have hrest : (l.mapIdx fun j => f (j + 1)).flatten.filter P = [] := filter_eq_nil_of_false fun p hp =>
        have ⟨j, v, hj, hp⟩ := mem_flatten_mapIdx.1 hp
        hother (j + 1) v hj (Nat.succ_ne_zero j) p hp
      rw [List.filter_eq_self.2 hown, hrest, List.append_nil]
    | succ k =>
      rw [filter_eq_nil_of_false (hother 0 a rfl (Nat.succ_ne_zero k).symm), List.nil_append]
      exact ih hk hown fun j v hj hne => hother (j + 1) v hj fun e => hne (Nat.succ.inj e)

end

/-- A class's data packets that name unit `k` are the data of unit `k`. -/
theorem filter_own_data {α β : Type} {l : List α} {made : α → List β} {f : Nat → β → Instr} {P : Instr → Bool} {k : Nat} {u : α}
    (hu : l[k]? = some u) (hP : ∀ j v, l[j]? = some v → ∀ c, P (f j c) = decide (j = k)) :
    (l.mapIdx fun k u => (made u).map (f k)).flatten.filter P = (made u).map (f k) :=
  filter_flatten_mapIdx hu (List.forall_mem_map.2 fun c _ => (hP k u hu c).trans (decide_eq_true rfl)) fun j v hv hne =>
    List.forall_mem_map.2 fun c _ => (hP j v hv c).trans (decide_eq_false hne)

/-! ### Ranks -/

/-- R513's order of two packets of a block, whose rank rises at an event. -/
abbrev Precedes (a b : Instr) : Prop := outboundRank a ≤ outboundRank b ∧ (isEvent b = true → outboundRank a < outboundRank b)

theorem Precedes.of_lt {a b : Instr} (h : outboundRank a < outboundRank b) : Precedes a b := ⟨h.le, fun _ => h⟩

theorem Precedes.of_data {a b : Instr} (h : outboundRank a = outboundRank b) (hb : isEvent b = false) : Precedes a b :=
  ⟨h.le, fun he => Bool.noConfusion (hb.symm.trans he)⟩

/-- The data packets of one class, each unit's of one rank. -/
theorem data_ordered {α β : Type} {l : List α} {made : α → List β} {f : Nat → β → Instr} {base : Nat}
    (hdata : ∀ k c, isEvent (f k c) = false)
    (hrank : ∀ k u, l[k]? = some u → ∀ c, outboundRank (f k c) = base + 256 * k) :
    (l.mapIdx fun k u => (made u).map (f k)).flatten.Pairwise Precedes := by
  refine pairwise_flatten_mapIdx (fun k u hu => ?_) fun {j k u v} hlt hu hv a ha b hb => ?_
  · exact List.pairwise_map.2 (List.pairwise_of_forall fun c d => .of_data ((hrank k u hu c).trans (hrank k u hu d).symm) (hdata k d))
  · obtain ⟨c, -, rfl⟩ := List.mem_map.1 ha
    obtain ⟨d, -, rfl⟩ := List.mem_map.1 hb
    have hc := hrank j u hu c
    have hd := hrank k v hv d
    exact .of_lt (by omega)

section
variable {k : Nat} (hk : k < 15)
include hk

theorem outboundRank_capturePacket (c : Capture) (rate : F64) : outboundRank (c.packet rate k) = 24576 + 256 * k := by
  simp only [Capture.packet, outboundRank, ofNat4_toNat hk]

theorem outboundRank_chunkPacket (fs : List Frame) : outboundRank (chunkPacket k fs) = 28672 + 256 * k := by
  simp only [chunkPacket, outboundRank, ofNat4_toNat hk]

theorem outboundRank_event (cls : UnitClass) (code : EventCode) (n : U32) :
    outboundRank (.eventOutbound cls.code (BitVec.ofNat 4 k) code.code n) = 65536 + 4096 * cls.code.toNat + 256 * k + code.code.toNat := by
  simp only [outboundRank, ofNat4_toNat hk]

/-- Two `inst` fields are the same only for the same unit. -/
theorem ofNat4_beq {j : Nat} (hj : j < 15) : (BitVec.ofNat 4 j == BitVec.ofNat 4 k) = decide (j = k) := by
  rw [Bool.eq_iff_iff, beq_iff_eq, decide_eq_true_eq]
  refine ⟨fun h => ?_, fun h => h ▸ rfl⟩
  rw [← ofNat4_toNat hj, ← ofNat4_toNat hk, h]

end

theorem code_toNat_range (code : EventCode) : 1 ≤ code.code.toNat ∧ code.code.toNat ≤ 4 := by cases code <;> decide

/-! ### The packets of a block -/

section
variable {s : State} (hc : s.configOk = true)
include hc

theorem scope_index {k : Nat} {u : Scope} (h : s.scope[k]? = some u) : k < 15 := by
  obtain ⟨-, -, -, -, -, -, -, hlen, -⟩ := configOk_parts hc
  obtain ⟨hk, -⟩ := List.getElem?_eq_some_iff.1 h
  omega

theorem brcap_index {k : Nat} {u : Brcap} (h : s.brcap[k]? = some u) : k < 15 := by
  obtain ⟨-, -, -, -, -, -, -, -, hlen, -⟩ := configOk_parts hc
  obtain ⟨hk, -⟩ := List.getElem?_eq_some_iff.1 h
  omega

theorem commonOf_index {cls : UnitClass} {k : Nat} {c : Common} (h : (s.commonOf cls)[k]? = some c) : k < 15 := by
  have hlen := configOk_instances hc cls
  obtain ⟨hk, -⟩ := List.getElem?_eq_some_iff.1 h
  omega

theorem captures_ordered : s.captures.Pairwise Precedes :=
  data_ordered (fun _ _ => rfl) fun _ _ hu c => outboundRank_capturePacket (scope_index hc hu) c s.cfg.fs

theorem chunks_ordered : s.chunks.Pairwise Precedes :=
  data_ordered (fun _ _ => rfl) fun _ _ hu fs => outboundRank_chunkPacket (brcap_index hc hu) fs

theorem dataPackets_ordered : (dataPackets s).Pairwise Precedes := by
  rw [dataPackets_eq, List.pairwise_append]
  refine ⟨captures_ordered hc, chunks_ordered hc, fun a ha b hb => .of_lt ?_⟩
  obtain ⟨j, u, c, hu, rfl⟩ := captures_mem ha
  obtain ⟨k, v, fs, hv, rfl⟩ := chunks_mem hb
  have hj := scope_index hc hu
  rw [outboundRank_capturePacket hj, outboundRank_chunkPacket (brcap_index hc hv)]
  omega

theorem outboundRank_dataPackets {p : Instr} (h : p ∈ dataPackets s) : outboundRank p < 65536 := by
  rw [dataPackets_eq, List.mem_append] at h
  rcases h with h | h
  · obtain ⟨k, u, c, hu, rfl⟩ := captures_mem h
    have hk := scope_index hc hu
    rw [outboundRank_capturePacket hk]
    omega
  · obtain ⟨k, u, fs, hu, rfl⟩ := chunks_mem h
    have hk := brcap_index hc hu
    rw [outboundRank_chunkPacket hk]
    omega

/-- A unit's events are in the order of their codes, and a class's in the order of its units. -/
theorem classReports_ordered (cls : UnitClass) : (classReports s cls (s.commonOf cls)).Pairwise Precedes := by
  refine pairwise_flatten_mapIdx (fun k c hk => ?_) fun {j k c d} hlt hj hk a ha b hb => .of_lt ?_
  · obtain ⟨-, -, -, hreport⟩ := report_spec s.blockIndex s.cfg.logInterval cls k c
    rw [hreport, List.pairwise_map]
    have hcodes : [EventCode.unitFault, .overflow, .underflow, .fallback].Pairwise fun a b => a.code.toNat < b.code.toNat := by decide
    refine (hcodes.filter _).imp fun {a b} hab => .of_lt ?_
    rw [outboundRank_event (commonOf_index hc hk), outboundRank_event (commonOf_index hc hk)]
    omega
  · obtain ⟨-, -, -, hreport⟩ := report_spec s.blockIndex s.cfg.logInterval cls j c
    obtain ⟨-, -, -, hreport'⟩ := report_spec s.blockIndex s.cfg.logInterval cls k d
    rw [hreport] at ha
    rw [hreport'] at hb
    obtain ⟨code, -, rfl⟩ := List.mem_map.1 ha
    obtain ⟨code', -, rfl⟩ := List.mem_map.1 hb
    rw [outboundRank_event (commonOf_index hc hj), outboundRank_event (commonOf_index hc hk)]
    have h := code_toNat_range code
    have h' := code_toNat_range code'
    omega

theorem outboundRank_classReports {cls : UnitClass} {p : Instr} (h : p ∈ classReports s cls (s.commonOf cls)) :
    65536 + 4096 * cls.code.toNat ≤ outboundRank p ∧ outboundRank p < 65536 + 4096 * (cls.code.toNat + 1) := by
  obtain ⟨k, c, code, hk, -, rfl⟩ := classReports_mem h
  have hlt := commonOf_index hc hk
  have hcode := code_toNat_range code
  rw [outboundRank_event hlt]
  omega

theorem eventPackets_ordered : (eventPackets s).Pairwise Precedes := by
  rw [eventPackets_eq_flatMap, List.pairwise_flatMap]
  have hclasses : [UnitClass.osc, .vca, .tone, .therm, .noise, .scope, .brcap, .brplay].Pairwise fun c d => c.code.toNat < d.code.toNat := by
    decide
  refine ⟨fun cls _ => classReports_ordered hc cls, hclasses.imp fun {c d} hlt a ha b hb => .of_lt ?_⟩
  have ha := outboundRank_classReports hc ha
  have hb := outboundRank_classReports hc hb
  omega

theorem packets_ordered : (dataPackets s ++ eventPackets s).Pairwise Precedes := by
  refine List.pairwise_append.2 ⟨dataPackets_ordered hc, eventPackets_ordered hc, fun a ha b hb => .of_lt ?_⟩
  rw [eventPackets_eq_flatMap] at hb
  obtain ⟨cls, -, hb⟩ := List.mem_flatMap.1 hb
  have ha := outboundRank_dataPackets hc ha
  have hb := outboundRank_classReports hc hb
  omega

/-! ### A unit's own packets -/

theorem filter_isCaptureOf {k : Nat} {u : Scope} (hu : s.scope[k]? = some u) :
    (dataPackets s ++ eventPackets s).filter (isCaptureOf k) = u.made.map (Capture.packet s.cfg.fs k) := by
  have hcaptures : s.captures.filter (isCaptureOf k) = u.made.map (Capture.packet s.cfg.fs k) :=
    filter_own_data hu fun j v hv _ => ofNat4_beq (scope_index hc hu) (scope_index hc hv)
  have hchunks : s.chunks.filter (isCaptureOf k) = [] := filter_eq_nil_of_false fun p hp => by
    obtain ⟨_, _, _, -, rfl⟩ := chunks_mem hp
    rfl
  have hevents : (eventPackets s).filter (isCaptureOf k) = [] := filter_eq_nil_of_false fun p hp => by
    obtain ⟨_, _, _, _, -, -, rfl⟩ := eventPackets_mem hp
    rfl
  rw [dataPackets_eq, List.filter_append, List.filter_append, hcaptures, hchunks, hevents, List.append_nil, List.append_nil]

theorem filter_isChunkOf {k : Nat} {u : Brcap} (hu : s.brcap[k]? = some u) :
    (dataPackets s ++ eventPackets s).filter (isChunkOf k) = u.made.map (chunkPacket k) := by
  have hcaptures : s.captures.filter (isChunkOf k) = [] := filter_eq_nil_of_false fun p hp => by
    obtain ⟨_, _, _, -, rfl⟩ := captures_mem hp
    rfl
  have hchunks : s.chunks.filter (isChunkOf k) = u.made.map (chunkPacket k) :=
    filter_own_data hu fun j v hv _ => ofNat4_beq (brcap_index hc hu) (brcap_index hc hv)
  have hevents : (eventPackets s).filter (isChunkOf k) = [] := filter_eq_nil_of_false fun p hp => by
    obtain ⟨_, _, _, _, -, -, rfl⟩ := eventPackets_mem hp
    rfl
  rw [dataPackets_eq, List.filter_append, List.filter_append, hcaptures, hchunks, hevents, List.nil_append, List.append_nil]

end

/-- Every packet of a block is an event or a unit's data. -/
theorem packets_mem {s : State} {p : Instr} (hp : p ∈ dataPackets s ++ eventPackets s) :
    isEvent p = true ∨ (∃ k, k < s.scope.length ∧ isCaptureOf k p = true) ∨ ∃ k, k < s.brcap.length ∧ isChunkOf k p = true := by
  rw [dataPackets_eq, List.mem_append, List.mem_append] at hp
  rcases hp with (hp | hp) | hp
  · obtain ⟨k, u, c, hu, rfl⟩ := captures_mem hp
    exact .inr (.inl ⟨k, (List.getElem?_eq_some_iff.1 hu).1, beq_self_eq_true (BitVec.ofNat 4 k)⟩)
  · obtain ⟨k, u, fs, hu, rfl⟩ := chunks_mem hp
    exact .inr (.inr ⟨k, (List.getElem?_eq_some_iff.1 hu).1, beq_self_eq_true (BitVec.ofNat 4 k)⟩)
  · obtain ⟨_, _, _, _, -, -, rfl⟩ := eventPackets_mem hp
    exact .inl rfl

/-- Settles O28: the data, then the events, each in the order of class, unit and code; and an `inst` field names one unit. -/
theorem outboundPacketsAreOrdered : Obligations.OutboundPacketsAreOrdered := by
  intro s hc hp
  have hout : (endBlock s).outQueue = s.outQueue ++ (dataPackets s ++ eventPackets s) := List.append_assoc ..
  exact ⟨endBlock s, _, step_end hc hp, hout, packets_ordered hc, fun _ => packets_mem, fun _ _ => filter_isCaptureOf hc,
    fun _ _ => filter_isChunkOf hc⟩

end Sys2Proof.Machine
end

section
/-!
PROOFS. The moves of the host, the peers and the environment (70_reset_and_hazards.md R530): unit by unit, each keeps the configuration, the
ranges of Safety.lean and the host's premise on its arrays (R505, 47_bridge.md R437).
-/

namespace Sys2Proof.Machine

/-! ### One unit -/

/-- What an outside move keeps of a unit, given the class's configuration, ranges and premise on its arrays. -/
structure OutsideKeeps {α γ : Type} (cfg : α → γ) (ok : Phase → α → Prop) (supplied : α → Prop) (u v : α) : Prop where
  cfg : cfg v = cfg u
  ok : ∀ p, ok p u → ok p v
  supplied : supplied u → supplied v

/-- Each unit of a list is kept so by the unit of the same number of another. -/
abbrev OutsideSteps {α γ : Type} (cfg : α → γ) (ok : Phase → α → Prop) (supplied : α → Prop) : List α → List α → Prop :=
  List.Forall₂ (OutsideKeeps cfg ok supplied)

/-! Each class's arrays have `Q` samples or none. -/

abbrev OscPorts.Supplied (q : Nat) (p : OscPorts) : Prop :=
  suppliedOk q p.sync = true ∧ suppliedOk q p.modFrequency = true ∧ suppliedOk q p.modDetune = true ∧
    suppliedOk q p.modPulseWidth = true ∧ suppliedOk q p.modSymmetry = true

abbrev Vca.Supplied (q : Nat) (u : Vca) : Prop := suppliedOk q u.input = true ∧ suppliedOk q u.cv = true
abbrev Tone.Supplied (q : Nat) (u : Tone) : Prop := ∀ a ∈ u.input, suppliedOk q a = true
abbrev Therm.Supplied (q : Nat) (u : Therm) : Prop := suppliedOk q u.input = true
abbrev Scope.Supplied (q : Nat) (u : Scope) : Prop := suppliedOk q u.inY = true ∧ suppliedOk q u.inX = true
abbrev Brcap.Supplied (q : Nat) (u : Brcap) : Prop := ∀ a ∈ u.input, suppliedOk q a = true

/-- Every unit of `t` is the unit of the same class and number of `s` after an outside move, and no packet is new in `outQueue`. -/
structure State.OutsideStep (s t : State) : Prop where
  block : t.cfg = s.cfg ∧ t.phase = s.phase
  packets : ∀ i ∈ t.outQueue, i ∈ s.outQueue
  osc : OutsideSteps Osc.cfg (fun p u => u.Ok p s.cfg.q) (fun u => u.ports.Supplied s.cfg.q) s.osc t.osc
  vca : OutsideSteps Vca.cfg (fun p u => u.Ok p s.cfg.q) (Vca.Supplied s.cfg.q) s.vca t.vca
  tone : OutsideSteps Tone.cfg (fun p u => u.Ok p s.cfg.q) (Tone.Supplied s.cfg.q) s.tone t.tone
  therm : OutsideSteps Therm.cfg (fun p u => u.Ok p s.cfg.q) (Therm.Supplied s.cfg.q) s.therm t.therm
  noise : OutsideSteps Noise.cfg (fun p u => u.Ok p s.cfg.q) (fun _ => True) s.noise t.noise
  scope : OutsideSteps Scope.cfg (fun p u => u.Ok p) (Scope.Supplied s.cfg.q) s.scope t.scope
  brcap : OutsideSteps Brcap.cfg (fun p u => u.Ok p) (Brcap.Supplied s.cfg.q) s.brcap t.brcap
  brplay : OutsideSteps Brplay.cfg (fun p u => u.Ok p s.cfg.q) (fun _ => True) s.brplay t.brplay

/-! ### Lists of units -/

section
variable {α γ : Type} {cfg : α → γ} {ok : Phase → α → Prop} {supplied : α → Prop}

theorem OutsideKeeps.refl (u : α) : OutsideKeeps cfg ok supplied u u := ⟨rfl, fun _ h => h, fun h => h⟩

theorem OutsideSteps.stay (l : List α) : OutsideSteps cfg ok supplied l l := List.forall₂_same.2 fun u _ => .refl u

theorem OutsideSteps.modify {f : α → α} (h : ∀ u, OutsideKeeps cfg ok supplied u (f u)) (k : Nat) (l : List α) :
    OutsideSteps cfg ok supplied l (l.modify k f) := by
  refine List.forall₂_iff_get.2 ⟨(List.length_modify ..).symm, fun j hj hj' => ?_⟩
  rw [List.get_eq_getElem, List.get_eq_getElem, List.getElem_modify]
  split
  · exact h _
  · exact .refl _

theorem OutsideSteps.mapIdx {f : Nat → α → α} (h : ∀ k u, OutsideKeeps cfg ok supplied u (f k u)) (l : List α) :
    OutsideSteps cfg ok supplied l (l.mapIdx f) := by
  refine List.forall₂_iff_get.2 ⟨List.length_mapIdx.symm, fun j hj hj' => ?_⟩
  rw [List.get_eq_getElem, List.get_eq_getElem, List.getElem_mapIdx]
  exact h j _

end

theorem State.OutsideStep.refl (s : State) : s.OutsideStep s :=
  ⟨⟨rfl, rfl⟩, fun _ h => h, .stay _, .stay _, .stay _, .stay _, .stay _, .stay _, .stay _, .stay _⟩

/-! ### The host's arrays -/

/-- The record of unit `k`, or the one of unconnected ports. -/
theorem getD_of_forall {α : Type} {P : α → Prop} {l : List α} {d : α} (h : ∀ a ∈ l, P a) (hd : P d) (k : Nat) : P (l.getD k d) := by
  rw [List.getD_eq_getElem?_getD]
  cases hk : l[k]? with
  | none => exact hd
  | some a => exact h a (List.mem_of_getElem? hk)

theorem suppliedOk_nil (q : Nat) : suppliedOk q [] = true := rfl

/-- What `BlockInputs.ok` says of each class's records. -/
theorem BlockInputs.ok_parts {q : Nat} {b : BlockInputs} (h : b.ok q = true) :
    (∀ p ∈ b.osc, p.Supplied q) ∧ (∀ p ∈ b.vca, suppliedOk q p.1 = true ∧ suppliedOk q p.2 = true) ∧
      (∀ l ∈ b.tone, ∀ a ∈ l, suppliedOk q a = true) ∧ (∀ a ∈ b.therm, suppliedOk q a = true) ∧
      (∀ p ∈ b.scope, suppliedOk q p.1 = true ∧ suppliedOk q p.2 = true) ∧ ∀ l ∈ b.brcap, ∀ a ∈ l, suppliedOk q a = true := by
  simpa only [BlockInputs.ok, Bool.and_eq_true, List.all_eq_true, and_assoc] using h

/-- The arrays are `Q` samples or none, and nothing else of a unit changes. -/
theorem State.OutsideStep.supply (b : BlockInputs) (s : State) : s.OutsideStep (s.supply b) := by
  have stay := State.OutsideStep.refl s
  unfold State.supply
  split
  case isFalse => exact stay
  case isTrue h =>
    obtain ⟨hosc, hvca, htone, htherm, hscope, hcap⟩ := BlockInputs.ok_parts h.2
    have hnil := suppliedOk_nil s.cfg.q
    exact
      { stay with
        osc := .mapIdx (fun k u => by exact ⟨rfl, fun _ h => h, fun _ => getD_of_forall hosc ⟨hnil, hnil, hnil, hnil, hnil⟩ k⟩) _
        vca := .mapIdx (fun k u => by exact ⟨rfl, fun _ h => h, fun _ => getD_of_forall hvca ⟨hnil, hnil⟩ k⟩) _
        tone := .mapIdx (fun k u => by exact ⟨rfl, fun _ h => h, fun _ => getD_of_forall htone (List.forall_mem_nil _) k⟩) _
        therm := .mapIdx (fun k u => by exact ⟨rfl, fun _ h => h, fun _ => getD_of_forall htherm hnil k⟩) _
        scope := .mapIdx (fun k u => by exact ⟨rfl, fun _ h => h, fun _ => getD_of_forall hscope ⟨hnil, hnil⟩ k⟩) _
        brcap := .mapIdx (fun k u => by exact ⟨rfl, fun _ h => h, fun _ => getD_of_forall hcap (List.forall_mem_nil _) k⟩) _ }

/-! ### The peers and the environment -/

/-- A capture bridge whose link keeps its ranges and its capacity. -/
theorem Brcap.Ok.of_link {p : Phase} {u : Brcap} {l : Link} (hu : u.Ok p) (hl : l.Ok u.cfg) (hcap : l.cap = u.link.cap) :
    ({ u with link := l } : Brcap).Ok p := by
  obtain ⟨-, hw, hrest⟩ := hu
  exact ⟨hl, hw.trans_eq hcap.symm, hrest⟩

/-- A playback bridge whose link keeps its ranges and its capacity. -/
theorem Brplay.Ok.of_link {p : Phase} {q : Nat} {u : Brplay} {l : Link} (hu : u.Ok p q) (hl : l.Ok u.cfg) (hcap : l.cap = u.link.cap) :
    ({ u with link := l } : Brplay).Ok p q := by
  obtain ⟨-, hr, hlen, hrest⟩ := hu
  exact ⟨hl, hr.trans_eq hcap.symm, hlen.trans_eq (by rw [hcap]), hrest⟩

theorem State.OutsideStep.drawFault (cls : UnitClass) (k : Nat) (b : Bool) (s : State) : s.OutsideStep (s.drawFault cls k b) := by
  have stay := State.OutsideStep.refl s
  cases cls
  case osc => exact { stay with osc := .modify (fun u => by exact ⟨rfl, fun _ h => h, fun h => h⟩) k _ }
  case vca => exact { stay with vca := .modify (fun u => by exact ⟨rfl, fun _ h => h, fun h => h⟩) k _ }
  case tone => exact { stay with tone := .modify (fun u => by exact ⟨rfl, fun _ h => h, fun h => h⟩) k _ }
  case therm => exact { stay with therm := .modify (fun u => by exact ⟨rfl, fun _ h => h, fun h => h⟩) k _ }
  case noise => exact { stay with noise := .modify (fun u => by exact ⟨rfl, fun _ h => h, fun h => h⟩) k _ }
  case scope => exact { stay with scope := .modify (fun u => by exact ⟨rfl, fun _ h => h, fun h => h⟩) k _ }
  case brcap => exact { stay with brcap := .modify (fun u => by exact ⟨rfl, fun _ h => h, fun h => h⟩) k _ }
  case brplay => exact { stay with brplay := .modify (fun u => by exact ⟨rfl, fun _ h => h, fun h => h⟩) k _ }

/-- Every outside move is made of its units' changes. -/
theorem State.OutsideStep.act (m : OutsideMove) (s : State) : s.OutsideStep (s.act m) := by
  have stay := State.OutsideStep.refl s
  cases m
  case post | provideShm => exact { stay with }
  case supply b => exact .supply b s
  case collect n => exact { stay with packets := fun _ h => List.mem_of_mem_drop h }
  case capturePeer k a =>
    refine { stay with brcap := .modify (fun u => ?_) k _ }
    refine ⟨rfl, fun p h => ?_, fun h => h⟩
    obtain ⟨hl, hcap⟩ := Link.peerMove_ok h.1 captureDir s.cfg.endian a
    exact Brcap.Ok.of_link h hl hcap
  case playPeer k a =>
    refine { stay with brplay := .modify (fun u => ?_) k _ }
    refine ⟨rfl, fun p h => ?_, fun h => h⟩
    obtain ⟨hl, hcap⟩ := Link.peerMove_ok h.1 playDir s.cfg.endian a
    exact Brplay.Ok.of_link h hl hcap
  case captureRaces k offsets => exact { stay with brcap := .modify (fun u => by exact ⟨rfl, fun _ h => h, fun h => h⟩) k _ }
  case playRaces k offsets => exact { stay with brplay := .modify (fun u => by exact ⟨rfl, fun _ h => h, fun h => h⟩) k _ }
  case drawFault cls k b => exact .drawFault cls k b s
  case supplyDraws k ws => exact { stay with noise := .modify (fun u => by exact ⟨rfl, fun _ h => h, fun h => h⟩) k _ }

/-! ### The block -/

section
variable {s t : State} (h : s.OutsideStep t)
include h

theorem State.OutsideStep.configOk (hc : s.configOk = true) : t.configOk = true :=
  configOk_of hc h.block.1 (map_eq_of_forall₂ h.osc OutsideKeeps.cfg) (map_eq_of_forall₂ h.vca OutsideKeeps.cfg)
    (map_eq_of_forall₂ h.tone OutsideKeeps.cfg) (map_eq_of_forall₂ h.therm OutsideKeeps.cfg)
    (map_eq_of_forall₂ h.noise OutsideKeeps.cfg) (map_eq_of_forall₂ h.scope OutsideKeeps.cfg)
    (map_eq_of_forall₂ h.brcap OutsideKeeps.cfg) (map_eq_of_forall₂ h.brplay OutsideKeeps.cfg)

theorem State.OutsideStep.inv (hs : s.Inv) : t.Inv := by
  obtain ⟨hc, hphase, hout, hosc, hvca, htone, htherm, hnoise, hscope, hcap, hplay⟩ := hs
  obtain ⟨ecfg, ephase⟩ := h.block
  rw [State.Inv, ecfg, ephase]
  exact ⟨h.configOk hc, hphase, fun i hi => hout i (h.packets i hi),
    forall_mem_of_forall₂ h.osc fun hm hk => hk.ok _ (hosc _ hm), forall_mem_of_forall₂ h.vca fun hm hk => hk.ok _ (hvca _ hm),
    forall_mem_of_forall₂ h.tone fun hm hk => hk.ok _ (htone _ hm), forall_mem_of_forall₂ h.therm fun hm hk => hk.ok _ (htherm _ hm),
    forall_mem_of_forall₂ h.noise fun hm hk => hk.ok _ (hnoise _ hm), forall_mem_of_forall₂ h.scope fun hm hk => hk.ok _ (hscope _ hm),
    forall_mem_of_forall₂ h.brcap fun hm hk => hk.ok _ (hcap _ hm), forall_mem_of_forall₂ h.brplay fun hm hk => hk.ok _ (hplay _ hm)⟩

theorem State.OutsideStep.hostSupplies (hs : HostSuppliesBlock s) : HostSuppliesBlock t := by
  obtain ⟨hosc, hvca, htone, htherm, hscope, hcap⟩ := hs
  rw [HostSuppliesBlock, h.block.1]
  exact ⟨forall_mem_of_forall₂ h.osc fun hm hk => hk.supplied (hosc _ hm),
    forall_mem_of_forall₂ h.vca fun hm hk => hk.supplied (hvca _ hm),
    forall_mem_of_forall₂ h.tone fun hm hk => hk.supplied (htone _ hm),
    forall_mem_of_forall₂ h.therm fun hm hk => hk.supplied (htherm _ hm),
    forall_mem_of_forall₂ h.scope fun hm hk => hk.supplied (hscope _ hm),
    forall_mem_of_forall₂ h.brcap fun hm hk => hk.supplied (hcap _ hm)⟩

end

/-- Settles O35: a move changes each unit within its ranges and the host's premise, and the block's own fields only in the queues. -/
theorem outsideMovesKeepTheInvariant : Obligations.OutsideMovesKeepTheInvariant := fun m s =>
  ⟨(State.OutsideStep.act m s).inv, (State.OutsideStep.act m s).hostSupplies⟩

end Sys2Proof.Machine
end
